-- ==== Sys2Proof/Word.lean ====
section
/-! DEFINITION. The word types of Zhevdin 3.2 (spec/00_scope.md R3, spec/02_state.md R28, R30, R33, R35) and the
register-number types an instruction names. -/

namespace Sys2Proof

/-- A byte of memory (R3). -/
abbrev Byte := BitVec 8
/-- A scalar register or a CSR value (R28, R41). -/
abbrev Word := BitVec 64
/-- One 32-bit element slot of a vector register (R30). -/
abbrev Slot := BitVec 32
/-- A 10-bit format tag, `[9:7]` class and `[6:0]` parameter (R35). -/
abbrev Tag := BitVec 10
/-- A mask register: bit `e` governs element `e` (R33). -/
abbrev MaskBits := BitVec 1024
/-- The number of a scalar register x0–x31 (R28). -/
abbrev Reg := Fin 32
/-- The number of a vector register v0–v31 (R30). -/
abbrev VR := Fin 32
/-- The number of a mask register m0–m15 (R33). -/
abbrev MR := Fin 16
/-- The number of a walker register w0–w15 (R296). -/
abbrev WReg := Fin 16

end Sys2Proof
end

