-- ==== Sys2Proof/Config.lean ====
section
/-! DEFINITION. What an implementation fixes or the spec leaves open, as constants without a body: no proof can see a value
of one. Each is named in notes/assumptions. -/

namespace Sys2Proof.Config

/-- Free choices, by a plain counter of the state: the merge order of FADD reduction updates (R97), the walker's quad among
those that can hold a crew (R252), and every other order the spec calls unspecified. (DESIGN CHOICE, assumption 5) -/
opaque pick : Nat → Nat

/-- The result and the flags of a conversion to which R92 gives no rule (a SCALE source to an integer, FIXED or unequal SCALE
target, an integer, FIXED or PLANE source to a SCALE target), by source tag, target tag, mode, sat and pattern. (DESIGN CHOICE, assumption 7) -/
opaque openConversion : Tag → Tag → Nat → Bool → Nat → Nat × BitVec 6

/-- The check code of a save area (R372): a keyed function of the area's bytes whose key the hub never discloses. (DESIGN CHOICE, assumption 5) -/
opaque checkCode : Nat → List Byte → BitVec 56

/-- The bytes of the hart blocks of a save area (R372), whose inner form the spec leaves to the stepping. (DESIGN CHOICE, assumption 5) -/
opaque saveByte : Nat → Byte

/-- The digests firmware extends for its own configuration and records (R340), whose inner form the spec does not give. (DESIGN CHOICE, assumption 5) -/
opaque recordDigest : Nat → Byte

/-- The SLH-DSA-SHA2-128s signature over an attestation report's first 336 bytes (R341), 7,856 bytes of which only the
length is fixed here. (DESIGN CHOICE, assumption 5) -/
opaque signature : List Byte → Nat → Byte

/-- The device identity public key (R341). (DESIGN CHOICE, assumption 5) -/
opaque identityKey : Nat → Byte

/-- Oshild's certificate for the identity key (R341). (DESIGN CHOICE, assumption 5) -/
opaque certificate : List (BitVec 64)

/-- Whether a firmware image passes the checks of R339: signature, key digest and security version number. (DESIGN CHOICE, assumption 5) -/
opaque imageAuthentic : List Byte → Bool

/-- The answer to a host snoop of a line the device does not hold (R409). (DESIGN CHOICE, assumption 5) -/
opaque snoopReply : BitVec 64 → BitVec 64

end Sys2Proof.Config
end

