-- ==== Sys2Proof/Syntax.lean ====
section
/-! DEFINITION. The abstract syntax: `Instr`, one constructor per row of spec/opcode_table.json. The rows with
encodings are the 32-bit and 64-bit hart instructions (spec/03_encoding.md R47–R56) and the walker instructions
(spec/13_walker.md R297); the other rows are the events of the module, whose operands name what they act on. -/

namespace Sys2Proof

/-- The fields every long instruction carries beside its operands (R49): the stall count and the loop-replay flags. -/
structure Hdr where
  stall : Fin 16
  last  : Bool
  first : Bool
deriving DecidableEq, Repr

/-- A source operand of a long instruction with its kind tag (R50): vector register, scalar register, constant-bank
word or inline literal. -/
inductive Src where
  | v (r : VR)
  | x (r : Reg)
  | c (i : Fin 4096)
  | lit (p : BitVec 12)
deriving DecidableEq, Repr

/-- The conversion control of VCVT and VCVTS (R54). -/
structure CvtCtl where
  sat  : Bool
  mode : Fin 8
  tag  : Tag
deriving DecidableEq, Repr

/-- What a vector load names beside its registers (R53): the tag it sets, the cache policy (0 .ca, 1 .cg, 2 .st) and
the residency mask. -/
structure LdCtl where
  tag   : Tag
  pol   : Fin 4
  rmask : Option MR
deriving DecidableEq, Repr

/-- The source side of a CPY (R217): memory address register, window offset register or register group. -/
inductive CpySrc where
  | mem (xa : Reg)
  | win (xa : Reg)
  | grp (v : VR)
deriving DecidableEq, Repr

/-- The destination side of a CPY (R217); a register group names the tag it takes. -/
inductive CpyDst where
  | mem (xa : Reg)
  | win (xa : Reg)
  | grp (v : VR) (tag : Tag)
deriving DecidableEq, Repr

/-- A host CXL.mem request (R187, R317, R409); `stream` is the link IDE stream it arrives on, if any (R338). -/
structure HostReq where
  port    : Fin 2
  decoder : Fin 2
  offset  : Nat
  write   : Option (List Byte)
  len     : Nat
  stream  : Option Nat
deriving DecidableEq, Repr

/-- The operands of the management command that creates a context (R332, R349, R350). -/
structure CtxCreate where
  ctx       : Nat
  header    : Nat
  slots     : List Nat
  queueBase : Word
  queueLog  : Nat
  asids     : List (BitVec 16 × BitVec 44)
deriving DecidableEq, Repr

/-- What firmware finds at a module reset (R415, R339, R413): whether the image is authentic, its digest, the failed
lane groups and capability bits of each core found by trim and self-test, the heritage cores enabled and the
capacity-tier channels. -/
structure ResetReport where
  imageDigest : List Byte
  badGroups   : List (Nat × BitVec 16)
  badBits     : List (Nat × BitVec 128)
  heritage    : BitVec 8
  channels    : List (BitVec 32)
  authentic   : Bool
deriving DecidableEq, Repr

/-- The operands of the command that enables record mode (R385). -/
structure RecordCmd where
  ctx     : Nat
  base    : Word
  log2    : Nat
  regions : List (Nat × Nat × Bool)
deriving DecidableEq, Repr

/-- The three BARs of a port (R410): the module control window, the context windows, and the MSI-X table and pending bits. -/
inductive Bar where
  | bar0 | bar2 | bar4
deriving DecidableEq, Repr

/-- An array that may enter retention (R381). -/
inductive ArrayId where
  | slice (n : Nat)
  | store (quad : Nat)
deriving DecidableEq, Repr

/-- An IDE stream of a CXL port (spec/16_isolation.md R338): its number, and whether it is a selective stream, for CXL.io, or a link stream, for
CXL.mem. -/
structure IdeStream where
  number    : Nat
  selective : Bool
deriving DecidableEq, Repr

/-- A link whose flits carry a CRC (R382). -/
inductive LinkId where
  | bridge (die : Nat)
  | torus (port : Nat)
  | cxl (port : Nat)
deriving DecidableEq, Repr

/-- One constructor per row of the opcode table. -/
inductive Instr where
  -- scalar ALU (R150, R151)
  | add (d a b : Reg) | sub (d a b : Reg) | and (d a b : Reg) | or (d a b : Reg) | xor (d a b : Reg)
  | sll (d a b : Reg) | srl (d a b : Reg) | sra (d a b : Reg) | slt (d a b : Reg) | sltu (d a b : Reg)
  | min (d a b : Reg) | max (d a b : Reg) | minu (d a b : Reg) | maxu (d a b : Reg)
  | mul (d a b : Reg) | mulh (d a b : Reg) | mulhu (d a b : Reg)
  | div (d a b : Reg) | divu (d a b : Reg) | rem (d a b : Reg) | remu (d a b : Reg)
  | clz (d a : Reg) | ctz (d a : Reg) | popc (d a : Reg)
  -- immediates (R152–R154)
  | addi (d a : Reg) (i : BitVec 15) | andi (d a : Reg) (i : BitVec 15) | ori (d a : Reg) (i : BitVec 15)
  | xori (d a : Reg) (i : BitVec 15) | slti (d a : Reg) (i : BitVec 15) | sltiu (d a : Reg) (i : BitVec 15)
  | slli (d a : Reg) (n : BitVec 6) | srli (d a : Reg) (n : BitVec 6) | srai (d a : Reg) (n : BitVec 6)
  | liu (d : Reg) (i : BitVec 20) | addpc (d : Reg) (i : BitVec 20)
  -- scalar floating point (R155–R158); `z` is the size, true for FP64
  | fadd (z : Bool) (d a b : Reg) | fsub (z : Bool) (d a b : Reg) | fmul (z : Bool) (d a b : Reg)
  | fdiv (z : Bool) (d a b : Reg) | fsqrt (z : Bool) (d a : Reg)
  | fmin (z : Bool) (d a b : Reg) | fmax (z : Bool) (d a b : Reg)
  | fcvtFloat (z : Bool) (d a : Reg) | fcvtToInt64 (z : Bool) (d a : Reg) | fcvtToUint64 (z : Bool) (d a : Reg)
  | fcvtFromInt64 (z : Bool) (d a : Reg) | fcvtFromUint64 (z : Bool) (d a : Reg)
  | fcmpEq (z : Bool) (d a b : Reg) | fcmpLt (z : Bool) (d a b : Reg) | fcmpLe (z : Bool) (d a b : Reg)
  | fclass (z : Bool) (d a : Reg) | fmvx (z : Bool) (d a : Reg)
  | fma (z : Bool) (d a b c : Reg) | fms (z : Bool) (d a b c : Reg)
  | fnma (z : Bool) (d a b c : Reg) | fnms (z : Bool) (d a b c : Reg)
  -- scalar memory (R192)
  | lb (d a : Reg) (i : BitVec 15) | lh (d a : Reg) (i : BitVec 15) | lw (d a : Reg) (i : BitVec 15)
  | ld (d a : Reg) (i : BitVec 15) | lbu (d a : Reg) (i : BitVec 15) | lhu (d a : Reg) (i : BitVec 15)
  | lwu (d a : Reg) (i : BitVec 15)
  | sb (src a : Reg) (i : BitVec 15) | sh (src a : Reg) (i : BitVec 15) | sw (src a : Reg) (i : BitVec 15)
  | sd (src a : Reg) (i : BitVec 15)
  -- atomics and reduction updates (R203, R204); `z` is the size, true for 64 bits
  | amoAdd (z : Bool) (d a b : Reg) | amoAnd (z : Bool) (d a b : Reg) | amoOr (z : Bool) (d a b : Reg)
  | amoXor (z : Bool) (d a b : Reg) | amoMin (z : Bool) (d a b : Reg) | amoMax (z : Bool) (d a b : Reg)
  | amoMinu (z : Bool) (d a b : Reg) | amoMaxu (z : Bool) (d a b : Reg) | amoSwap (z : Bool) (d a b : Reg)
  | cas (z : Bool) (d a b : Reg)
  | redAdd (z : Bool) (a b : Reg) | redMin (z : Bool) (a b : Reg) | redMax (z : Bool) (a b : Reg)
  | redAnd (z : Bool) (a b : Reg) | redOr (z : Bool) (a b : Reg) | redXor (z : Bool) (a b : Reg)
  | redFadd (a b : Reg)
  -- fences and cache operations (R206, R207); `sc` is the scope
  | fncSv (sc : Fin 4) | fncVs (sc : Fin 4) | fncVv (sc : Fin 4) | fncAa (sc : Fin 4)
  | cflush (a : Reg) | cinv (a : Reg)
  -- control transfers (R271)
  | beq (a b : Reg) (off : BitVec 15) | bne (a b : Reg) (off : BitVec 15) | blt (a b : Reg) (off : BitVec 15)
  | bge (a b : Reg) (off : BitVec 15) | bltu (a b : Reg) (off : BitVec 15) | bgeu (a b : Reg) (off : BitVec 15)
  | jal (d : Reg) (off : BitVec 20) | jalr (d a : Reg) (i : BitVec 15)
  -- SYS (R273)
  | sysc (code : BitVec 15) | brk (code : BitVec 15) | delay (n : BitVec 10)
  -- CSR (R159)
  | csrr (d : Reg) (n : BitVec 12) | csrw (d a : Reg) (n : BitVec 12)
  | csrs (d a : Reg) (n : BitVec 12) | csrc (d a : Reg) (n : BitVec 12)
  -- masks to scalar code (R121)
  | mpop (d : Reg) (m : MR) | many (d : Reg) (m : MR) | mfirst (d : Reg) (m : MR)
  -- vector length (R275)
  | setvlReg (d a : Reg) | setvlImm (d : Reg) (n : BitVec 14)
  -- barriers (R276)
  | binit (a : Reg) (bar : Fin 128) (sc : Fin 4) | barv (bar : Fin 128) | bwait (bar : Fin 128)
  | barw (bar : Fin 128) | btest (d : Reg) (bar : Fin 128)
  -- sequence numbers and pages (R280, R281)
  | seqrd (d : Reg) (n : Fin 8) | seqwait (a : Reg) (n : Fin 8)
  | pgreq (d a b : Reg) | pghint (d a b : Reg)
  -- loop sequencer (R282)
  | lpset (a : Reg) (len : BitVec 12)
  -- farms (R287)
  | farm (d a : Reg) | farmwait (d a : Reg)
  -- mend instructions (R355)
  | frznext (d : Reg) | frzrd (d a b : Reg) | frzrdv (d : VR) (a b : Reg) | frzwr (d a b : Reg)
  | frzwrv (d : VR) (a b : Reg) | frzgo (d a b : Reg) | frzend (d a : Reg) | frzbar (d a b : Reg)
  -- translation and fencing (R318, R337)
  | aspset (d a : Reg) | pgmap (d a b : Reg) | fencecap (d a b : Reg)
  -- VARITH (R104)
  | vadd (h : Hdr) (m : Option MR) (d a : VR) (b : Src) | vsub (h : Hdr) (m : Option MR) (d a : VR) (b : Src)
  | vmul (h : Hdr) (m : Option MR) (d a : VR) (b : Src) | vmulh (h : Hdr) (m : Option MR) (d a : VR) (b : Src)
  | vmin (h : Hdr) (m : Option MR) (d a : VR) (b : Src) | vmax (h : Hdr) (m : Option MR) (d a : VR) (b : Src)
  | vabs (h : Hdr) (m : Option MR) (d a : VR) | vneg (h : Hdr) (m : Option MR) (d a : VR)
  | vdiv (h : Hdr) (m : Option MR) (d a : VR) (b : Src) | vsqrt (h : Hdr) (m : Option MR) (d a : VR)
  | vadds (h : Hdr) (m : Option MR) (d a : VR) (b : Src) | vsubs (h : Hdr) (m : Option MR) (d a : VR) (b : Src)
  | vqmul (h : Hdr) (m : Option MR) (d a : VR) (b : Src) | vqshr (h : Hdr) (m : Option MR) (d a : VR) (b : Src)
  -- VFMA (R106)
  | vfma (h : Hdr) (m : Option MR) (d a : VR) (b : Src) (c : VR)
  | vfms (h : Hdr) (m : Option MR) (d a : VR) (b : Src) (c : VR)
  | vfnma (h : Hdr) (m : Option MR) (d a : VR) (b : Src) (c : VR)
  | vfnms (h : Hdr) (m : Option MR) (d a : VR) (b : Src) (c : VR)
  -- VLOGIC (R107)
  | vand (h : Hdr) (m : Option MR) (d a : VR) (b : Src) | vor (h : Hdr) (m : Option MR) (d a : VR) (b : Src)
  | vxor (h : Hdr) (m : Option MR) (d a : VR) (b : Src) | vnot (h : Hdr) (m : Option MR) (d a : VR)
  | vsll (h : Hdr) (m : Option MR) (d a : VR) (b : Src) | vsrl (h : Hdr) (m : Option MR) (d a : VR) (b : Src)
  | vsra (h : Hdr) (m : Option MR) (d a : VR) (b : Src)
  -- VEST (R108)
  | vrsqe (h : Hdr) (m : Option MR) (d a : VR) | vrcpe (h : Hdr) (m : Option MR) (d a : VR)
  -- VCMP (R109)
  | vcmpEq (h : Hdr) (m : Option MR) (d : MR) (a : VR) (b : Src)
  | vcmpNe (h : Hdr) (m : Option MR) (d : MR) (a : VR) (b : Src)
  | vcmpLt (h : Hdr) (m : Option MR) (d : MR) (a : VR) (b : Src)
  | vcmpLe (h : Hdr) (m : Option MR) (d : MR) (a : VR) (b : Src)
  | vcmpGt (h : Hdr) (m : Option MR) (d : MR) (a : VR) (b : Src)
  | vcmpGe (h : Hdr) (m : Option MR) (d : MR) (a : VR) (b : Src)
  -- VMASK (R110–R112)
  | mand (h : Hdr) (m : Option MR) (d a b : MR) | mor (h : Hdr) (m : Option MR) (d a b : MR)
  | mxor (h : Hdr) (m : Option MR) (d a b : MR) | mnot (h : Hdr) (m : Option MR) (d a : MR)
  | mset (h : Hdr) (m : Option MR) (d : MR) | mmovMaskToMask (h : Hdr) (m : Option MR) (d a : MR)
  | vmerge (h : Hdr) (sel : MR) (d a : VR) (b : Src)
  | mmovImageToMask (h : Hdr) (d : MR) (a : VR) | mmovMaskToImage (h : Hdr) (d : VR) (a : MR)
  -- conversions (R114–R116)
  | vcvt (h : Hdr) (d a : VR) (c : CvtCtl) | vcvts (h : Hdr) (d a s : VR) (c : CvtCtl)
  | vplane (h : Hdr) (d a : VR) (t : Tag)
  -- VPERM (R117, R118)
  | vslideup (h : Hdr) (m : Option MR) (d a : VR) (n : Src) | vslidedn (h : Hdr) (m : Option MR) (d a : VR) (n : Src)
  | vgathr (h : Hdr) (m : Option MR) (d a i : VR) | vcompr (h : Hdr) (m : MR) (d a : VR)
  | vexpnd (h : Hdr) (m : MR) (d a : VR) | vid (h : Hdr) (m : Option MR) (d : VR) (t : Tag)
  | vsplat (h : Hdr) (m : Option MR) (d : VR) (b : Src) (t : Tag)
  | vmvxs (h : Hdr) (d : Reg) (a : VR) (i : Src) | vmvsx (h : Hdr) (d : VR) (a : Reg) (i : Src)
  -- VRED, VSTRM, VQNORM, VDOT4 (R119, R286, R120, R146)
  | vredsum (h : Hdr) (m : Option MR) (d a : VR) | vredmax (h : Hdr) (m : Option MR) (d a : VR)
  | vredmin (h : Hdr) (m : Option MR) (d a : VR) | vredc (h : Hdr) (m : Option MR) (d a : VR)
  | vspush (h : Hdr) (m : MR) (a : VR) (s : Fin 4) | vspop (h : Hdr) (d : VR) (s : Fin 4)
  | vscnt (h : Hdr) (d : Reg) (s : Fin 4)
  | vqnorm (h : Hdr) (m : Option MR) (d a : VR) | vdot4 (h : Hdr) (m : Option MR) (d a b : VR)
  -- vector memory (R194, R198, R199, R202, R205)
  | vld (h : Hdr) (m : Option MR) (d : VR) (xa : Reg) (c : LdCtl)
  | vlds (h : Hdr) (m : Option MR) (d : VR) (xa ix : Reg) (c : LdCtl)
  | vldx (h : Hdr) (m : Option MR) (d : VR) (xa : Reg) (vi : VR) (c : LdCtl)
  | vldff (h : Hdr) (m : Option MR) (d : VR) (xa : Reg) (c : LdCtl)
  | vldb (h : Hdr) (d : VR) (xa : Reg) (c : LdCtl)
  | vld2d (h : Hdr) (m : Option MR) (d : VR) (xa ix xc : Reg) (c : LdCtl)
  | vst (h : Hdr) (m : Option MR) (s : VR) (xa : Reg) (pol : Fin 4)
  | vsts (h : Hdr) (m : Option MR) (s : VR) (xa ix : Reg) (pol : Fin 4)
  | vstx (h : Hdr) (m : Option MR) (s : VR) (xa : Reg) (vi : VR) (pol : Fin 4)
  | vredmAdd (h : Hdr) (m : Option MR) (s : VR) (xa : Reg) (vi : VR)
  | vredmMin (h : Hdr) (m : Option MR) (s : VR) (xa : Reg) (vi : VR)
  | vredmMax (h : Hdr) (m : Option MR) (s : VR) (xa : Reg) (vi : VR)
  | vredmAnd (h : Hdr) (m : Option MR) (s : VR) (xa : Reg) (vi : VR)
  | vredmOr (h : Hdr) (m : Option MR) (s : VR) (xa : Reg) (vi : VR)
  | vredmXor (h : Hdr) (m : Option MR) (s : VR) (xa : Reg) (vi : VR)
  | vredmFadd (h : Hdr) (m : Option MR) (s : VR) (xa : Reg) (vi : VR)
  -- matrix (R55); `z` is Z, `bar` the status barrier
  | mma (h : Hdr) (z : Bool) (vc va vb : VR) (bar : Option (Fin 128))
  | mmas (h : Hdr) (z big : Bool) (vc va vb vm : VR) (bar : Option (Fin 128))
  | mmasc (h : Hdr) (z : Bool) (vc va vb vs : VR) (bar : Option (Fin 128))
  | mmaq (h : Hdr) (z : Bool) (vc va vb : VR) (bar : Option (Fin 128))
  | mqtrsLo (h : Hdr) (d b f : VR) (bar : Option (Fin 128)) | mqtrsUp (h : Hdr) (d b f : VR) (bar : Option (Fin 128))
  -- engines (R56); `xc` names the control word
  | cpy (h : Hdr) (src : CpySrc) (dst : CpyDst) (xc : Reg)
  | cpym (h : Hdr) (win : Bool) (vb : VR) (xa : Reg) (t : Tag) (xc : Reg)
  | gthr (h : Hdr) (m : Option MR) (d : VR) (xa : Reg) (vi : VR) (t : Tag) (xc : Reg)
  | gthrWindow (h : Hdr) (m : Option MR) (xa : Reg) (vi : VR) (xc : Reg)
  | embag (h : Hdr) (m : Option MR) (d : VR) (xa : Reg) (vi : VR) (xc : Reg)
  | dzero (h : Hdr) (xd xc : Reg) | dcopy (h : Hdr) (xd xs xc : Reg)
  | send (h : Hdr) (vs : VR) (xt xh : Reg) | recv (h : Hdr) (d : VR) (slot : Fin 8) (xh : Reg)
  | tqpush (h : Hdr) (m : Option MR) (vt : VR) (xq xc : Reg) | wvrun (h : Hdr) (d : VR) (xa xc : Reg)
  -- the hart instructions without operands (R273, R282)
  | waite | yield | exit | lprun
  -- walker (R297)
  | ldw (sz : Fin 4) (wd wa : WReg) (i : BitVec 14) | ldix (sz : Fin 4) (wd wa wb : WReg)
  | addw (wd wa wb : WReg) (i : BitVec 14) | subw (wd wa wb : WReg) | shlw (wd wa wb : WReg) (i : BitVec 14)
  | andw (wd wa wb : WReg) | cmpw (c : Fin 6) (wd wa wb : WReg)
  | brwZ (wa : WReg) (i : BitVec 14) | brwNz (wa : WReg) (i : BitVec 14) | loopw (wa : WReg) (i : BitVec 14)
  | emit (sz : Fin 4) (wb wa : WReg) (i : BitVec 14) | emitz (wa wb : WReg) | flush (wa wb : WReg)
  | haccAcc (wd wa wb wc : WReg) | haccRst (wd : WReg) | waitw (wa wb : WReg) | sigw | endw
  -- launches, residency and lanes
  | launchPortStore (c : Nat) (v : Word) | launchQueueClear (c : Nat) (v : Word) | launchProcess (c : Nat)
  | stripStart (c f slot : Nat) | crewMemberStart (crew : Nat) (slots : List Nat) | sliceExpiry (crew : Nat)
  | preemption (crew : Nat) | hamperSave (crew : Nat) | hamperRestore (crew : Nat) (slots : List Nat)
  | laneReclaim (hart : Nat) | farmEnd (c f : Nat)
  -- hive queues
  | hiveBindingWrite (c q : Nat) (v : Word) | hiveControlWrite (c q : Nat) (v : Word)
  | tokenBlockAppend (q : Nat) | hiveTimerExpiry (q : Nat)
  -- memory and engine progress
  | loadResultLand (hart k : Nat) | storeAcknowledge (hart k : Nat) | l1Eviction (core asid line : Nat)
  | matrixOperationStart (core hart : Nat) | rowPairWrite (hart : Nat) (err : BitVec 8) (bad : Option (Nat × Nat))
  | matrixComplete (hart : Nat)
  | cpymMmaIssue (hart : Nat) | writePointerPublish (hart ord : Nat) | copyComplete (hart : Nat)
  | gatherComplete (hart : Nat) | embagComplete (hart : Nat) | pageCommandComplete (hart : Nat)
  | messageArrival (k : Nat) | engineFault (hart : Nat) (eng : Fin 8)
  -- recovery
  | menderSpawn (c slot : Nat) | heritageFault (core : Fin 8) (cause : BitVec 8) (a : Word) | containment (c : Nat)
  | watchdog (hart : Nat)
  -- power, clocks and lanes
  | powerSample (mw : Nat) | powerUndo | boostClaim (quad : Nat) | permitCharge (pair : Nat) | permitRefill (pair : Nat)
  | boostStepDown (quad : Nat) | clockChangeComplete (core : Nat) | marginWarning (core group : Nat)
  | laneGroupRetire (core group : Nat) | selfTest (core : Nat) (bits : BitVec 128)
  -- arrays and links
  | retentionEntry (a : ArrayId) | retentionExit (a : ArrayId) | flitRetry (l : LinkId) | torusRetrain (port : Nat) (ok : Bool)
  | bridgeFailure (die : Nat) | cxlLinkReset (port : Fin 2) | hostAccessTimeout (c : Nat)
  | moduleReset (r : ResetReport) | configurationRequestRetryStatus (port : Fin 2)
  -- host accesses and window registers
  | hostMemAccess (r : HostReq) | invalControlWrite (c : Nat) (v : Word) | invalidation (c : Nat)
  | requestRingControlWrite (c : Nat) (v : Word) | requestResponse (c : Nat) (v : Word)
  | swapDoorbell (v : Word) | swapPairRun | swapLineMove (bad : Bool) | redirectClear (v : Word)
  -- management port
  | attestationRequest (nonce : List Byte) | contextCreate (r : CtxCreate) | contextDestroy (c : Nat)
  | containCommand (c : Nat) | contextRelease (c : Nat) | asidAssign (c : Nat) (a : List (BitVec 16))
  | rootTableRegister (c : Nat) (ppn : BitVec 44) | queueAssign (c : Nat) (qs : List Nat)
  | placementDomainSet (c d : Nat) | saveRegionRegister (c : Nat) (base len : Word)
  | torusAcceptanceSet (c : Nat) (l : List (BitVec 15 × Nat)) | powerCapSet (peak : Bool) (w : Nat)
  | boostEnable (quad : Nat) (on : Bool) | watchdogLimitSet (c limit : Nat) | recordModeEnable (r : RecordCmd)
  | coordinatesSet (own size : BitVec 15) | torusPortEnable (port : Nat) | retentionEnable (on : Bool)
  | selfTestIntervalSet (n : Nat) | fenceRightGrant (c : Nat) | fenceRestore (core bit : Nat) | ideRequiredSet (on : Bool)
  | measurementExtend (r : Fin 8) (d : List Byte) | certificateRead | errorLogRead | errorLogClear
  | eventQueueRead (c : Nat) | discardCounterRead | lostEntryCounterRead (c : Nat) | firmwareUpdate (image : List Byte)
  | registerWrite (b : Bar) (off : Nat) (v : Word)
  -- acknowledgements and links
  | messageAccepted (hart : Nat) | hostAcknowledge (hart k : Nat) | hostSnoop (port : Fin 2) (a : Word)
  | torusTrainingEnd (port lanes : Nat) | cxlLinkUp (port : Fin 2) | heritageStripEnd (core : Fin 8)
  | engineWatchdog (hart : Nat) (eng : Fin 8) | ideKmMessage (port : Fin 2) (streamNo : IdeStream) (on : Bool)
  | spdmSessionSetup (on : Bool)
deriving DecidableEq, Repr

end Sys2Proof
end

