-- ==== Sys2Proof/Machine/State.lean ====
section
/-! DEFINITION. The state of the module as plain data: everything spec/ gives the machine, and the few fields that are the
model's own (`cur`, `agenda`, `fresh`). `Fault`, `Refusal` and `State.reset` stand here too.
Tables of entities are association lists sorted by a natural-number key. -/

namespace Sys2Proof.Machine

/-- A table of entities by number, sorted by number. -/
abbrev Table (α : Type) := List (Nat × α)

/-- A memory: (address, byte) pairs, addresses strictly rising, no byte zero; an unlisted address reads as zero. -/
abbrev Mem := List Host.Cell

/-! ## Freezing (R346–R354) -/

/-- The causes of R348. -/
inductive Cause where
  | fetchPage | fetchPerm | loadPage | loadPerm | storePage | storePerm | misalign | illegalOp | undeclaredOp | format
  | stallShort | priv | brk | sysc | engine | crewWindow | dataError | watchdog | nested
deriving DecidableEq, Repr

/-- The fault record (R353, R354); its task, crew and marks fields are those of the hart itself. -/
structure FrzRecord where
  cause  : Cause
  addr   : Word := 0
  pc     : Word := 0
  micro  : Option (Fin 8) := none
  code   : BitVec 15 := 0
  engw   : Word := 0
  insn   : Word := 0
  hartid : Nat := 0
  depth  : Nat := 1
deriving DecidableEq, Repr

/-- What a hart slot's occupant is doing (R249, R274, R347). -/
inductive Status where
  | running
  | frozen (r : FrzRecord)
  | idle
  | ended
deriving DecidableEq, Repr

/-- What a hart is (R249, R250, R349, R362). -/
inductive Role where
  | strip | member | mender
deriving DecidableEq, Repr

/-- The wait a hart is in: the stall-reason counter it is charged to, and whether it blocks its crew (R253, R290). -/
structure Wait where
  sc     : Fin 16
  blocks : Bool
deriving DecidableEq, Repr

/-! ## Registers -/

/-- A vector register: its format tag and its 1024 slots, listed from slot 0 with trailing zero slots dropped (R30, R35). -/
structure VReg where
  tag   : Tag := 0
  slots : List Slot := []
deriving DecidableEq, Repr

/-- A fixed-latency write in flight (R58, R59): the register, its value before the write, the issue cycle, the distances a chained and an
unchained consumer must keep, and the occupancy that holds an unchained one further (R122). -/
structure Inflight where
  reg       : VR
  old       : VReg
  issued    : Nat
  chained   : Nat
  unchained : Nat
  chime     : Nat := 1
deriving DecidableEq, Repr

/-- The same for a mask register. -/
structure InflightM where
  reg       : MR
  old       : MaskBits
  issued    : Nat
  chained   : Nat
  unchained : Nat
  chime     : Nat := 1
deriving DecidableEq, Repr

/-- A load whose accesses may still be performed, at its landing at the latest (R170, R175): its agent, its ASID, its cache policy, and
the accesses left, a 32-bit slot of a vector register each with its address, or for a scalar load the register, the size, whether it is signed, and
the address. -/
structure Late where
  vec   : Bool
  asid  : Nat
  pol   : Nat := 0
  slots : List (VR × Nat × Nat) := []
  x     : Option (Reg × Nat × Bool × Nat) := none
deriving DecidableEq, Repr

/-- A scoreboarded result that has not landed (R208, R289): the registers a reader waits for, the 64-byte requests it holds (R191),
whether a fill from beyond the L1 is among them (R290), and the accesses that may still be performed (R175). -/
structure Landing where
  vregs  : List VR
  masks  : List MR
  xregs  : List Reg
  reqs   : Nat := 0
  beyond : Bool := false
  late   : Option Late := none
deriving DecidableEq, Repr

/-- Bytes that an agent of a hart has read ahead of earlier instructions (R174, R175): the next load of that agent that finds all of its bytes
of a line among them returns them. -/
structure Ahead where
  vec   : Bool
  asid  : Nat
  va    : Nat
  bytes : List Byte
deriving DecidableEq, Repr

/-- The permission bits a line or a TLB entry records (R315). -/
structure Rights where
  r : Bool
  w : Bool
  x : Bool
  u : Bool
  d : Bool
deriving DecidableEq, Repr

/-- A store a hart has issued and its home has not acknowledged (R170): the agent, the address, the bytes (none for a byte of a line piece
whose element is masked off, R172), the physical address and the rights its translation gave, whether the hart's other agent must see it
(R176, R178), and the fences that wait for it (R177). -/
structure PStore where
  vec    : Bool
  asid   : Nat
  va     : Nat
  pa     : Nat
  bytes  : List (Option Byte)
  rights : Rights := { r := true, w := true, x := false, u := true, d := true }
  hvis   : Bool := false
  fenced : List Nat := []
deriving DecidableEq, Repr

/-- A byte of a strip's version (R262): its virtual and physical address and the rights its translation gave; `stale` when an invalidation has
covered its page since (R322). -/
structure VerByte where
  asid   : Nat
  va     : Nat
  pa     : Nat
  rights : Rights
  byte   : Byte
  stale  : Bool := false
deriving DecidableEq, Repr

/-- A fence that is not satisfied yet (R177): its number, the scope, whether later scalar and later vector accesses are held, and the lines of
host memory it waits for. -/
structure FenceWait where
  id     : Nat
  scope  : Nat
  scalar : Bool
  vector : Bool
  lines  : List (Nat × Nat) := []
deriving DecidableEq, Repr

/-- A message of the torus (R230): its target, header, tag and slots, the sending module, context and hart, the issue number of its SEND and the
port it leaves by. -/
structure Msg where
  target : Word
  header : Word
  tag    : Tag
  n      : Nat
  lo     : List Slot
  hi     : List Slot
  srcMod : BitVec 15
  srcCtx : Nat
  srcHart : Nat
  ord    : Nat
  port   : Nat := 0
deriving DecidableEq, Repr

/-! ## Engine and matrix operations (R211–R232, R125–R144, R293–R299) -/

/-- One side of a copy: a virtual address, a window offset, or a register group with the values read at issue. -/
inductive Side where
  | mem (a : Nat)
  | win (off : Nat)
  | grp (base : VR) (vals : List VReg)
deriving DecidableEq, Repr

/-- A walk (R294, R296): its descriptor and argument; whether the descriptor has been read and the program is resident; the
program's address, count, version and words; the walk's registers and counters; `key` is the next key of an unfinished HACC
(R299), `bad` the registers an uncorrectable error has reached (R216), and `yields` the window bytes, as ranges of offsets, that a later
operation of its hart has written, which its own writes leave alone (R182). -/
structure Walk where
  desc    : Nat
  arg     : Nat
  begun   : Bool := false
  loaded  : Bool := false
  addr    : Nat := 0
  cnt     : Nat := 0
  version : Nat := 0
  prog    : List (BitVec 32) := []
  pc      : Nat := 0
  regs    : List Word := []
  emitOff : Nat := 0
  emitLen : Nat := 0
  htOff   : Nat := 0
  htLog   : Nat := 0
  occ     : Nat := 0
  count   : Nat := 0
  key     : Nat := 0
  bad     : BitVec 16 := 0
  group   : Option VR := none
  yields  : List (Nat × Nat) := []
deriving DecidableEq, Repr

/-- What an engine operation does, with the operands it read at issue. -/
inductive OpKind where
  | cpy (src dst : Side) (len : Nat) (tile : Bool) (ptr : Option Nat) (shown : Nat)
  | gthr (base stride rw cnt : Nat) (active : MaskBits) (idx : VReg) (dst : Side)
  | embag (base stride ni nb fmt d : Nat) (idx wts bags : VReg) (dst : VR) (mask : Option MR) (miss : MaskBits)
  | dzero (dst len : Nat)
  | dcopy (dst src len : Nat)
  | send (m : Msg) (inPort : Bool)
  | recv (dst : VR) (slot : Fin 8) (xh : Reg)
  | walk (w : Walk)
deriving DecidableEq, Repr

/-- A stopped operation: the sub-cause and the failing address (R215), and whether its hart has reported it. -/
structure Stop where
  sub      : Nat
  addr     : Word
  reported : Bool
deriving DecidableEq, Repr

/-- An outstanding engine operation (R211). `unit` counts the complete units of R215; `seq` orders the issues of all harts;
`watch` counts the cycles of the engine's clock since its last unit (R310), `chan` says that a copy has a Shuttle channel (R12), `ahead` holds
the bytes of a source line read and not yet delivered, or of a batch's rows read so far, each with whether an error was in it (R218, R223), and `pages` the destination and source
frames of the page a page command is in (R229). -/
structure EngOp where
  eng    : Fin 8
  ord    : Nat
  seq    : Nat
  aspace : Word
  priv   : Bool
  vl     : Nat
  bar    : Option (Fin 128)
  unit   : Nat
  stop   : Option Stop
  kind   : OpKind
  watch  : Nat := 0
  chan   : Bool := false
  ahead  : List (Byte × Bool) := []
  pages  : Option (Nat × Nat) := none
deriving DecidableEq, Repr

/-- The matrix instructions (R55). -/
inductive MatKind where
  | mma | mmas (big : Bool) | mmasc | mmaq | mqtrs (upper : Bool)
deriving DecidableEq, Repr

/-- What a matrix operation reports (R142). -/
structure MatReport where
  corrected   : Bool := false
  uncorrected : Bool := false
  saturated   : Bool := false
  skipped     : Bool := false
  scaleNan    : Bool := false
  count       : Nat := 0
  first       : Nat := 0
  kind        : Nat := 0
deriving DecidableEq, Repr

/-- An operation in a hart's Mangle queue (R125): `row` is the first unwritten row, `copy` the ordinal of the Shuttle copy
a CPYM's operation waits for, `tags` those of A, B and the third operand at issue (R138), `early` the operands it read too early at issue (R59), `badWords` the
uncorrectable words met in its operands (register, slot), `badRegs` its operands with an error in the register store, and `badCells` the
elements of a solve that a bad product reached (R143); `watch` counts the cycles of the array's clock since it last wrote (R310). -/
structure MatOp where
  kind    : MatKind
  z       : Bool
  vc      : VR
  va      : VR
  vb      : VR
  vs      : VR
  vl      : Nat
  bar     : Option (Fin 128)
  copy    : Option Nat
  started : Bool
  row     : Nat
  report  : MatReport
  tags    : Tag × Tag × Tag
  early   : List (VR × VReg)
  badWords : List (VR × Nat)
  badRegs : List VR := []
  badCells : List (Nat × Nat)
  watch    : Nat := 0
deriving DecidableEq, Repr

/-! ## Harts, crews and farms -/

/-- What a kernel declares and a launch makes effective (R70, R240): the opcode-use mask, crew, barriers, shared bytes,
vector lengths, the constant bank, the flags, and the chunk leaves and code length of a chunked object (R73). -/
structure Kern where
  mask      : BitVec 128 := 0
  crewHarts : Nat := 1
  barriers  : Nat := 0
  shared    : Nat := 0
  minVl     : Nat := 64
  prefVl    : Nat := 1024
  bank      : List (BitVec 32) := []
  nconst    : Nat := 0
  versioned : Bool := false
  crewMode  : Bool := false
  entry     : Nat := 0
  cls       : Nat := 0
  weight    : Nat := 1
  chunkBase : Nat := 0
  chunks    : List (List Byte) := []
  codeLen   : Nat := 0
deriving DecidableEq, Repr

/-- The wait of a BWAIT or BARW (R277): the barrier, and for a BARW that has arrived the token it had before, to be put back if the instruction
stops before the phase flips (R270). -/
structure BarWait where
  bar     : Nat
  arrived : Bool := false
  token   : Option (BitVec 32) := none
deriving DecidableEq, Repr

/-- A hart: the occupant of a hart slot, with the architectural state of spec/02_state.md and the work it has issued. -/
structure Hart where
  -- identity (R41, R45, R335)
  ctx       : Nat := 0
  farm      : Nat := 0
  crew      : Nat := 0
  rank      : Nat := 0
  role      : Role := .strip
  priv      : Bool := false
  place     : Option Nat := none
  kern      : Kern := {}
  -- registers (R28, R30, R33, R41, R45)
  pc        : Word := 0
  x         : Vector Word 32 := Vector.replicate 32 0
  v         : Vector VReg 32 := Vector.replicate 32 {}
  m         : Vector MaskBits 16 := Vector.replicate 16 0
  vl        : Nat := 0
  vresume   : Nat := 0
  frm       : Nat := 0
  fflags    : BitVec 6 := 0
  chk       : Bool := false
  lpstate   : Word := 0
  lpBase    : Word := 0
  lpBody    : List Word := []
  aspace    : Word := 0
  issued    : List Nat := [0, 0, 0, 0, 0, 0, 0, 0]
  cycle     : Nat := 0
  retired   : Nat := 0
  sc        : List Nat := [0, 0, 0, 0, 0, 0, 0, 0, 0, 0, 0, 0, 0, 0, 0, 0]
  grant     : Nat := 64
  -- status (R346, R273, R277, R310); `haltAt` is the hub time at which the hart last began to block (R253), `barGo` that the phase a
  -- waiting BWAIT or BARW waits for has flipped, `farmWait` the farm a FARMWAIT has begun to wait for (R287)
  status    : Status := .running
  waiting   : Option Wait := none
  event     : Bool := false
  barWait   : Option BarWait := none
  barGo     : Bool := false
  farmWait  : Option Nat := none
  watch     : Nat := 0
  haltAt    : Nat := 0
  -- consecutive arbitration losses (R256), the borrower whose instructions still hold reclaimed lanes and its
  -- cycle when they were reclaimed (R259)
  lost      : Nat := 0
  owes      : Option (Nat × Nat) := none
  -- a YIELD's cycles so far and the harts it still waits for (R273)
  yield     : Option (Nat × List Nat) := none
  -- mailboxes (R232)
  mail      : Table Msg := []
  -- work in flight (R125, R211, R213, R289, R58)
  ops       : List EngOp := []
  mops      : List MatOp := []
  landing   : List Landing := []
  inflight  : List Inflight := []
  inflightM : List InflightM := []
  farmPend  : List (Nat × Reg) := []
  -- scalar results with their issue cycle and latency, and units at work (0 integer divider, 1 FDIV,
  -- 2 FSQRT, 3 any scalar floating-point instruction, 4 a lane instruction that can set a flag, 5 another) with theirs and their occupancy (R161, R160)
  xlat      : List (Reg × Nat × Nat) := []
  busy      : List (Nat × Nat × Nat) := []
  -- data errors (R143, R149, R216)
  marks     : BitVec 32 := 0
  vBad      : BitVec 32 := 0
  xBad      : BitVec 32 := 0
  mBad      : BitVec 16 := 0
  -- memory (R170, R262)
  stores    : List PStore := []
  hostLines : List (Nat × Nat) := []
  version   : List VerByte := []
  fences    : List FenceWait := []
  -- what its agents have read ahead (R174, R175)
  ahead     : List Ahead := []
  tokens    : List (Nat × BitVec 32) := []
  insn      : Word := 0
  lentTo    : Option Nat := none
deriving DecidableEq, Repr

/-- A barrier of a crew (R277). `byRank` lists the arrivals each member made in the current phase; `others` counts those
of no member. -/
structure Barrier where
  expect  : Nat
  members : BitVec 16
  byRank  : Table Nat
  others  : Nat
  phase   : BitVec 32
  scope   : Fin 4
  acc     : Word
  shown   : Word
deriving DecidableEq, Repr

/-- A crew (R25): its harts in rank order, its window and the doublewords of it that hold an uncorrectable error (R379), its barriers, its
residence and its save area; `evict` when a lane retirement forces it off its core (R309), `wanted` when a FRZNEXT waits for it to be restored
(R365). -/
structure Crew where
  ctx      : Nat
  farm     : Nat
  number   : Nat
  size     : Nat := 1
  harts    : List Nat := []
  win      : Mem := []
  winSize  : Nat := 0
  bars     : Table Barrier := []
  quad     : Option Nat := none
  since    : Nat := 0
  waitFrom : Nat := 0
  started  : Bool := false
  stopped  : Bool := false
  replace  : Bool := false
  evict    : Bool := false
  wanted   : Bool := false
  badWin   : List Nat := []
  area     : Option Nat := none
  saves    : Nat := 0
deriving DecidableEq, Repr

/-- The status of a farm (R243). -/
inductive FarmCode where
  | accepted | done | contained | held
deriving DecidableEq, Repr

/-- A farm (R235–R251): the values its launch read, and its progress; `hostLines` are the host-memory accesses of its ended harts that the host
has not completed (R251). -/
structure Farm where
  ctx      : Nat
  id       : Nat
  kern     : Kern
  aspace   : Word
  status   : Nat
  levels   : List (Int × Int × Int)
  order    : Nat
  crews    : Nat
  strips   : Nat
  table    : List (List (BitVec 32))
  next     : Nat := 0
  requeued : List Nat := []
  ended    : Nat := 0
  dropped  : Nat := 0
  code     : FarmCode := .accepted
  queue    : Option Nat := none
  heritage : Bool := false
  log      : Bool := false
  record   : List Byte := []
  header   : List Byte := []
  startAt  : Nat := 0
  recAddr  : Nat := 0
  hostLines : List (Nat × Nat) := []
deriving DecidableEq, Repr

/-- A launch waiting for the farm scheduler (R236, R287, R267): the record address, the hart and register of a FARM, or the
queue and tokens of a hive trigger. -/
structure Launch where
  record : Nat
  aspace : Word
  hart   : Option (Nat × Nat) := none
  queue  : Option Nat := none
  tokens : List (BitVec 32) := []
deriving DecidableEq, Repr

/-! ## Contexts (R332, R244, R321, R349–R351, R370, R374, R385) -/

/-- A valid handle (R351): its value, the frozen hart and the mender it was dispatched to. -/
structure Handle where
  value : Word
  hart  : Nat
  owner : Nat
deriving DecidableEq, Repr

/-- A queued event (R350); `strip` is a heritage strip's number, which its mender is told (R349). -/
structure Event where
  handle : Word
  hart   : Nat
  addr   : Word
  pc     : Word
  cause  : Nat
  depth  : Nat
  farm   : Nat
  taken  : Bool
  strip  : Nat := 0
deriving DecidableEq, Repr

/-- An outstanding page request (R326). -/
structure PageReq where
  id   : Nat
  asid : Nat
  page : Nat
  waiters : List Nat
deriving DecidableEq, Repr

/-- A context (R332). -/
structure Context where
  asids      : List (BitVec 16)
  root       : BitVec 44
  domain     : Nat := 0
  contained  : Bool := false
  containing : Bool := false
  -- launch port (R244)
  launches   : List Launch := []
  portCount  : Nat := 0
  overflow   : Bool := false
  unwritten  : Nat := 0
  unwCode    : Nat := 0
  unwStep1   : Bool := false
  unwRecord  : Word := 0
  lastFarm   : Nat := 0
  -- menders (R349–R351)
  mender     : Kern := {}
  pool       : List Nat := []
  fzq        : Word := 0
  fzqLog     : Nat := 4
  events     : List Event := []
  written    : Nat := 0
  taken      : Nat := 0
  lastEvent  : Nat := 0
  handles    : List Handle := []
  rootEvents : List Event := []
  -- translation maintenance (R321, R326)
  invAddr    : Word := 0
  invCtl     : Word := 0
  invFirst   : Word := 0
  invBusy    : Bool := false
  invRefused : Bool := false
  ringBase   : Word := 0
  ringLog    : Nat := 0
  ringProd   : BitVec 16 := 0
  ringCons   : BitVec 16 := 0
  reqs       : List PageReq := []
  reqRefused : List (Nat × Nat) := []
  reqDone    : List (Nat × Nat) := []
  nextReq    : BitVec 16 := 0
  hintLost   : Bool := false
  -- saves (R370, R374)
  saveBase   : Word := 0
  saveLen    : Word := 0
  saveFaults : Nat := 0
  saveSpace  : Bool := false
  saveAddr   : Word := 0
  -- the rest
  acceptList : List (BitVec 15 × Nat) := []
  fenceRight : Bool := false
  watchLimit : Nat := 0
  recordOn   : Bool := false
  recBase    : Word := 0
  recLog     : Nat := 16
  recRegions : List (Nat × Nat × Bool) := []
  recProd    : Nat := 0
  recEntry   : Nat := 0
  recLost    : Nat := 0
deriving DecidableEq, Repr

/-! ## Cores, quads and power (R12–R14, R22, R257, R295, R302–R309) -/

/-- A core (R12, R22, R336, R309): `changing` is the clock a change under way leads to, `changeAt` the hub time it began and `next` the clock of the
change that follows it (R308), `rotor` and
`arb` the turns of the Mangle's and of the vector-class arbiter's rotating choice (R126, R13), `testedAt` the hub time of its last self-test
(R383). -/
structure Core where
  groups   : BitVec 16 := 0xFFFF
  enabled  : Bool := true
  mask     : BitVec 128 := 0x0003FFFF0000000FFFFFFFFF#128
  withheld : Nat := 0
  mhz      : Nat := 1600
  changing : Option Nat := none
  changeAt : Nat := 0
  next     : Option Nat := none
  noBoost  : Bool := false
  retiring : BitVec 16 := 0
  rotor    : Nat := 0
  arb      : Nat := 0
  testedAt : Nat := 0
  mangle   : Option Nat := none
deriving DecidableEq, Repr

/-- A resident walker program (R295). -/
structure ProgSlot where
  asid    : Nat
  addr    : Nat
  count   : Nat
  version : Nat
  words   : List (BitVec 32)
  used    : Nat
deriving DecidableEq, Repr

/-- A quad (R11, R295, R306); `owed` lists the waiting crews, by context, farm and number, to which a replaced crew of
their farm gives its place (R254); `claimAt` is when its
standing claim of boost began (R306), `emptyAt` when its last crew left it (R381). -/
structure Quad where
  progs    : List ProgSlot := []
  owed     : List (Nat × Nat × Nat) := []
  boostOn  : Bool := false
  claimAt  : Option Nat := none
  boosting : Bool := false
  stepping : Bool := false
  stepAt   : Nat := 0
  emptyAt  : Nat := 0
deriving DecidableEq, Repr

/-- A step power control has taken and not undone (R305). -/
inductive PowerStep where
  | clock
  | lanes (n : Nat)
deriving DecidableEq, Repr

/-- Power control (R304, R305, R306). `belowFrom` is the time of the first of the samples at which both integrators have stood below 95 % of
their caps since; `runs` holds, for a pair in a 10 µs interval of boost, when the interval began and whether a core has run
above 1.6 GHz in it; `idleFrom` when the pair's current interval without such a core began (R307). -/
structure Power where
  peakCap  : Nat := 2400
  avgCap   : Nat := 1800
  samples  : List Nat := []
  steps    : List PowerStep := []
  lastAvg  : Nat := 0
  belowFrom : Option Nat := none
  lastUndo : Nat := 0
  now      : Nat := 0
  permits  : Table Nat := []
  runs     : Table (Nat × Bool) := []
  idleFrom : Table Nat := []
deriving DecidableEq, Repr

/-! ## Caches and translation (R163, R165, R173, R181, R315, R316) -/

/-- An L2 line: ASID, virtual line number, data, recorded bits, physical line number, dirty, marked for early eviction. -/
structure L2Line where
  asid   : Nat
  line   : Nat
  data   : List Byte
  rights : Rights
  frame  : Nat
  dirty  : Bool
  early  : Bool
deriving DecidableEq, Repr

/-- A clean L1 line of a core, data or instruction, with the frame its translation gave (R315); `bad` when it holds an uncorrectable error
(R379). -/
structure L1Line where
  core   : Nat
  asid   : Nat
  line   : Nat
  data   : List Byte
  rights : Rights
  frame  : Nat := 0
  bad    : Bool := false
deriving DecidableEq, Repr

/-- The operations of reduction updates (R204). -/
inductive RedOp where
  | add | min | max | and | or | xor | fadd
deriving DecidableEq, Repr

/-- An update-only line of a core's L1 (R181): the operation, the size, and the buffered updates, oldest first. -/
structure UpdLine where
  core  : Nat
  asid  : Nat
  line  : Nat
  op    : RedOp
  wide  : Bool
  items : List (Nat × Word)
  rights : Rights
  frame : Nat
deriving DecidableEq, Repr

/-- A port TLB entry (R316), by 4 KiB page. -/
structure TlbEntry where
  asid   : Nat
  page   : Nat
  ppn    : Nat
  rights : Rights
deriving DecidableEq, Repr

/-- An entry of a port TLB's walk cache (R316): the non-leaf entry met at a level, by the bits of the address above it, and the table page it
names. -/
structure WalkEntry where
  home  : Nat
  asid  : Nat
  level : Nat
  tag   : Nat
  table : Nat
deriving DecidableEq, Repr

/-! ## Swap engine, torus, management (R328, R412, R414, R340, R384, R417) -/

/-- A swap descriptor (R328). -/
structure SwapDesc where
  near  : Nat
  far   : Nat
  move  : Bool
  toNear : Bool
  slot  : Nat
  ctx   : Nat
deriving DecidableEq, Repr

/-- A redirect slot (R329): a descriptor, its progress bitmap, and its place in the order in which the pairs began. -/
structure Redirect where
  desc  : SwapDesc
  moved : BitVec 1024
  age   : Nat := 0
deriving DecidableEq, Repr

/-- The swap engine (R328, R329, R412). -/
structure Swap where
  staging  : List Byte := []
  queue    : List (List Byte) := []
  running  : Option SwapDesc := none
  next     : Nat := 0
  slots    : Table Redirect := []
  rejected : Bool := false
  stopped  : Bool := false
  stopLine : Nat := 0
  begun    : Nat := 0
deriving DecidableEq, Repr

/-- A torus port (R414). -/
structure TorusPort where
  state    : Nat := 0
  retrains : Nat := 0
deriving DecidableEq, Repr

/-- The torus (R232, R414): coordinates, dimensions, ports, and the messages that have entered the sending ports. -/
structure Torus where
  own      : BitVec 15 := 0
  size     : BitVec 15 := 0x421
  ports    : Table TorusPort := []
  held     : List Msg := []
  waiting  : List Msg := []
  discards : Nat := 0
deriving DecidableEq, Repr

/-- A hive queue (R265–R268): `pending` the blocks that wait for room, `pushed` the tokens ever appended, `due` an expired timer
whose launch is deferred, `timerAt` the hub cycle of the last launch that the timer made (R267). -/
structure Hive where
  ctx      : Nat
  binding  : Word := 0
  control  : Word := 0
  ring     : Word := 0
  tokens   : List (BitVec 32) := []
  flights  : List Nat := []
  refused  : Bool := false
  timer    : Option Nat := none
  pending  : List (List (BitVec 32)) := []
  pushed   : Nat := 0
  due      : Bool := false
  timerAt  : Option Nat := none
deriving DecidableEq, Repr

/-- The unit an error-log entry names (R384). -/
inductive LogUnit where
  | l1 | l2 | memory | registers | quadStore | tlb | engine | core | link | swap
deriving DecidableEq, Repr

/-- An entry of the error log (R384): the kind, the unit, its core, slice or number, corrected or not, the address, the hub cycle. -/
structure LogEntry where
  kind      : Nat
  unit      : LogUnit
  place     : Nat
  corrected : Bool
  addr      : Nat
  hub       : Nat
deriving DecidableEq, Repr

/-- The management controller (R338–R341, R384, R385, R411, R415, R417). `asleep` lists the arrays that have begun to enter retention, with the
hub time of the last change and whether they are leaving it (R381); `hostOn` is the port and IDE stream that the host's requests of CXL.io arrive on
(R338), `ideStreams` the established streams with whether they are selective, `image` the firmware image that an update installed (R339), `boot` the
next step of a bring-up under way and what firmware finds in it (R415), `msixTab` the entries of the MSI-X table (R410), and `heritageRun` the context, farm and strip of a heritage core (R342). -/
structure Mgmt where
  ready       : Bool := true
  recovery    : Bool := false
  boot        : Option (Nat × ResetReport) := none
  bridgeBad   : Bool := false
  session     : Bool := false
  ideRequired : Bool := false
  ideStreams  : List (Nat × Nat × Bool) := []
  hostOn      : Option (Nat × Nat) := none
  measures    : List (List Byte) := List.replicate 8 (List.replicate 32 0#8)
  errors      : List LogEntry := []
  corrected   : Table Nat := []
  staged      : Option (List Byte) := none
  image       : Option (List Byte) := none
  msix        : BitVec 65 := 0
  msixTab     : Table (Word × Word) := []
  retention   : Bool := false
  testEvery   : Nat := 0
  fences      : List (Nat × Nat) := []
  restores    : List (Nat × Nat) := []
  retired     : List (Nat × Nat) := []
  mapGen      : Nat := 0
  channels    : List (BitVec 32) := List.replicate 12 0x0000200C#32
  linkUp      : List Bool := [true, true]
  heritage    : BitVec 8 := 0xFF
  heritageRun : Table (Nat × Nat × Nat) := []
  asleep      : List (ArrayId × Nat × Bool) := []
  retries     : List (LinkId × Nat) := []
  replies     : List (List Word) := []
deriving DecidableEq, Repr

/-- What a soft error in an unchecked part has made wrong (R383): a scalar register, a slot of a vector register, a mask, the pc, the flags, vl, a
byte that an engine has left in the crew window, a register of the hart's walk or its count of table entries. -/
inductive Upset where
  | x (r : Fin 32) (w : Word)
  | slot (r : Fin 32) (e : Fin 1024) (w : Slot)
  | mask (r : Fin 16) (w : MaskBits)
  | pc (w : Word)
  | flags (w : BitVec 6)
  | vl (n : Fin 1025)
  | window (off : Nat) (b : Byte)
  | walkReg (r : Fin 16) (w : Word)
  | walkCount (n : Nat)
deriving DecidableEq, Repr

/-- What moves next: a hart, the walk of a hart, an event, or one of the environment's acts that have no row of their own:
an L2 line leaving the L2, an uncorrectable error appearing at a physical line or in a register, a correctable one corrected, a port TLB entry dropped,
a hart that waits a cycle for a bank of the quad store (R167), the root mender resuming or killing a context mender, a message reaching this module's ports, the host reading a
register, the capability list or a core's capability mask, a pending MSI-X message sent, one unit of one of an engine's operations done, a hart's copy complete before an earlier one (R43), one line of a hart's gather read (R224), a store of
the host to its own memory, a vector instruction stopped between elements for a pre-emption (R102, R190), a host's write to configuration space
(R20), firmware opening or closing a change of the core map and disabling a core (R22), the next step of a module's bring-up (R415), firmware clearing a retirement record (R309), cycles of an engine's clock (R310), an
error in an L1 line, in a crew's window or in a queue or save buffer of a context (R379), a good flit of a link (R382), a soft error in a part without a check (R383), the host completing an access of a
farm's ended harts (R251), a home performing a store that a killed hart left (R182), the IDE stream of the host's next requests (R338), firmware
fencing a bit after a pattern of logged errors (R336), bytes that an agent of a hart reads ahead of earlier instructions, or forgets, a load whose accesses to a line are performed after its issue
(R174, R175), and hub time passing. (DESIGN CHOICE, assumption 6) (DESIGN CHOICE, assumption 16) -/
inductive Move where
  | hart (h : Nat)
  | walk (h : Nat)
  | event (i : Instr)
  | evictL2 (asid line : Nat)
  | poison (line : Nat)
  | markReg (h : Nat) (vec : Bool) (r : Fin 32)
  | dropTlb (asid page : Nat)
  | loseBank (h : Nat)
  | runAhead (h : Nat) (vec : Bool) (va n pol : Nat)
  | dropAhead (h k : Nat)
  | lateLoad (h k line : Nat)
  | stopVector (h k : Nat)
  | writeConfig (off : Nat) (v : Word)
  | mapTurn
  | disableCore (core : Nat)
  | bootStep
  | clearRetired (core group : Nat)
  | engineTick (h : Nat) (eng : Fin 8) (n : Nat)
  | poisonL1 (core asid line : Nat)
  | poisonWindow (crew dword : Nat)
  | poisonBuffer (c : Nat)
  | markMask (h : Nat) (r : Fin 16)
  | goodFlit (l : LinkId)
  | softError (h : Nat) (u : Upset)
  | farmAcknowledge (c f k : Nat)
  | leftStore (k : Nat)
  | hostOn (stream : Option (Nat × Nat))
  | fencePattern (core b : Nat)
  | rootGo (c : Nat) (resume : Bool)
  | rootFault (c : Nat)
  | inbound (m : Msg)
  | correctable (unit : LogUnit) (place addr : Nat)
  | readBar (b : Bar) (off : Nat)
  | readConfig (off : Nat)
  | readMask (core : Nat)
  | sendMsix (n : Nat)
  | engineUnit (h : Nat) (eng : Fin 8) (k : Nat)
  | copyDone (h k : Nat)
  | gatherLine (h : Nat)
  | hostStore (a : Nat) (b : List Byte)
  | hubTime (n : Nat)
deriving DecidableEq, Repr

/-- The state of the module. -/
structure State where
  -- the model's own
  cur     : Nat := 0
  agenda  : List Move := []
  fresh   : Nat := 0
  -- time (R10)
  hub     : Nat := 0
  -- memory below the L2 (R313), and the physical lines that hold an uncorrectable error (R379)
  mem     : Mem := []
  bad     : List Nat := []
  -- the ASIDs of which a store met an uncorrectable error at its home, whose contexts end with the step (R380)
  errs    : List Nat := []
  -- the stores of killed harts that their homes have not performed (R182, R360), each with its context and farm
  orphans : List (Nat × Nat × PStore) := []
  -- accesses to host memory that wait while both CXL links are down: the ASID and the hub time the wait began (R416)
  hostWaits : List (Nat × Nat) := []
  -- the hub time of the last access to each L2 slice (R381)
  sliceAt : Table Nat := []
  -- caches and translation
  l2      : List L2Line := []
  l1      : List L1Line := []
  l1i     : List L1Line := []
  upd     : List UpdLine := []
  tlb     : List TlbEntry := []
  walks   : List WalkEntry := []
  -- work
  nextId  : Nat := 1
  harts   : Table Hart := []
  crews   : Table Crew := []
  farms   : Table Farm := []
  ctxs    : Table Context := []
  hives   : Table Hive := []
  -- the module
  cores   : Table Core := []
  quads   : Table Quad := []
  power   : Power := {}
  swap    : Swap := {}
  torus   : Torus := {}
  mgmt    : Mgmt := {}
deriving DecidableEq, Repr

/-- Why the model stops. -/
inductive Fault where
  /-- Raised by every move but a module reset and the host's reads (`Move.whenStopped`) once a die-to-die bridge has failed: the module has
  stopped (R382). Safe. -/
  | moduleStopped
deriving DecidableEq, Repr

/-- Why an instruction or event has no next state. (DESIGN CHOICE, assumption 14) -/
inductive Refusal where
  /-- No meaning is given to the instruction yet (Dispatch's refused arms). Safe. -/
  | notModelled (mnemonic : String)
  /-- Raised by an event whose enabling condition does not hold in this state: such an event cannot occur. Safe. -/
  | notEnabled
  /-- Raised by a walker instruction when the executing hart has no walk that could execute it. Safe. -/
  | noWalk
  /-- Raised by a hart instruction when the machine has no such executing hart. Safe. -/
  | noHart
deriving DecidableEq, Repr

/-- The machine right after reset: module status first reads ready (R416). No context, farm, mender or hive binding; caches
and TLBs invalid; capability masks and the core map full (no flash record: assumption 2); the caps at their defaults and 64
permits a pair (R304, R306: a pair with no entry in `power.permits` holds 64); every other list empty. (DESIGN CHOICE, assumption 1) -/
def State.reset : State := {}

end Sys2Proof.Machine
end

