-- ==== Sys2Proof/Machine/Table.lean ====
section
/-! DEFINITION. Operations on tables (association lists sorted by key), on lists by index, on memories in canonical form and
on mask bits. -/

namespace Sys2Proof.Machine

/-- The entry of a key. -/
def tget {α : Type} (t : Table α) (k : Nat) : Option α :=
  match t with
  | [] => none
  | (j, a) :: r => if j = k then some a else tget r k

/-- The table with a key's entry set, kept sorted. -/
def tput {α : Type} (t : Table α) (k : Nat) (a : α) : Table α :=
  match t with
  | [] => [(k, a)]
  | (j, b) :: r => if k < j then (k, a) :: (j, b) :: r else if k = j then (k, a) :: r else (j, b) :: tput r k a

/-- The table without a key's entry. -/
def tdel {α : Type} (t : Table α) (k : Nat) : Table α := t.filter fun p => p.1 != k

/-- An entry's value or a default. -/
def tgetD {α : Type} (t : Table α) (k : Nat) (d : α) : α := (tget t k).getD d

/-- The table with a function applied to every entry. -/
def tmap {α : Type} (f : Nat → α → α) (t : Table α) : Table α := t.map fun p => (p.1, f p.1 p.2)

/-- The list `f 0, f 1, …, f (n - 1)`. -/
def tabulate {α : Type} (n : Nat) (f : Nat → α) : List α := (List.range n).map f

/-- A list without its trailing zero slots. -/
def trimSlots : List Slot → List Slot
  | [] => []
  | a :: l =>
    match trimSlots l with
    | [] => if a = 0 then [] else [a]
    | r => a :: r

/-- Slot `e` of a register (R30). -/
def VReg.slot (r : VReg) (e : Nat) : Slot := r.slots.getD e 0

/-- The register of a tag whose slots below `n` are given by `f` and whose other slots are zero. -/
def VReg.build (t : Tag) (n : Nat) (f : Nat → Slot) : VReg := { tag := t, slots := trimSlots (tabulate n f) }

/-- A register's 1024 slots. -/
def VReg.all (r : VReg) : List Slot := tabulate 1024 r.slot

/-- Mask bit `e` (R33). -/
def mbit (m : MaskBits) (e : Nat) : Bool := m.getLsbD e

/-- The number whose bits below `n` are given by `f`. -/
def natOfBits : Nat → (Nat → Bool) → Nat
  | 0, _ => 0
  | n + 1, f => natOfBits n f + (f n).toNat * 2 ^ n

/-- The mask whose bits below `n` are given by `f`; bits from `n` up are clear (R33). -/
def mbuild (n : Nat) (f : Nat → Bool) : MaskBits := BitVec.ofNat 1024 (natOfBits n f)

/-- Bits `[hi:lo]` of a number. -/
def bits (w hi lo : Nat) : Nat := w / 2 ^ lo % 2 ^ (hi + 1 - lo)

/-- One bit of a number. -/
def bit (w i : Nat) : Bool := w / 2 ^ i % 2 == 1

/-- A two's-complement reading of the low `n` bits of a number. -/
def sint (n w : Nat) : Int := if w % 2 ^ n < 2 ^ (n - 1) then (w % 2 ^ n : Nat) else ((w % 2 ^ n : Nat) : Int) - (2 ^ n : Nat)

/-- An integer modulo `2^n`. -/
def wrapNat (n : Nat) (z : Int) : Nat := (z % ((2 ^ n : Nat) : Int)).toNat

/-- The byte at an address of a memory; an unlisted address reads as zero (assumption 3). -/
def memGet (m : Mem) (a : Nat) : Byte :=
  match m with
  | [] => 0
  | (k, b) :: r => if k = a then b else if a < k then 0 else memGet r a

/-- The memory with one byte written, in canonical form. -/
def memSet (m : Mem) (a : Nat) (b : Byte) : Mem :=
  match m with
  | [] => if b = 0 then [] else [(a, b)]
  | (k, c) :: r =>
    if a < k then (if b = 0 then (k, c) :: r else (a, b) :: (k, c) :: r)
    else if a = k then (if b = 0 then r else (a, b) :: r)
    else (k, c) :: memSet r a b

/-- `n` bytes from an address. -/
def memRead (m : Mem) (a n : Nat) : List Byte := tabulate n fun i => memGet m (a + i)

/-- The memory with bytes written from an address up. -/
def memWrite (m : Mem) (a : Nat) : List Byte → Mem
  | [] => m
  | b :: l => memWrite (memSet m a b) (a + 1) l

/-- The canonical form of a memory: addresses strictly rising, no byte zero. -/
def Memory.wf (m : Mem) : Bool :=
  match m with
  | [] => true
  | (a, b) :: r =>
    b != 0 && (match r with
      | [] => true
      | (k, _) :: _ => a < k) && Memory.wf r

/-- The first element a test accepts, with its index. -/
def findIdx {α : Type} (p : α → Bool) (l : List α) : Option Nat :=
  match l with
  | [] => none
  | a :: r => if p a then some 0 else (findIdx p r).map (· + 1)

/-- Element `k` of a list changed by a function. -/
def modAt {α : Type} (f : α → α) : Nat → List α → List α
  | _, [] => []
  | 0, a :: r => f a :: r
  | k + 1, a :: r => a :: modAt f k r

/-- An element put before the first one it does not follow. -/
def insertBy {α : Type} (le : α → α → Bool) (a : α) : List α → List α
  | [] => [a]
  | b :: r => if le a b then a :: b :: r else b :: insertBy le a r

/-- A list in order; equal elements keep their order. -/
def sortBy {α : Type} (le : α → α → Bool) (l : List α) : List α := l.foldr (insertBy le) []

end Sys2Proof.Machine
end

