-- ==== Sys2Proof/Machine/Float.lean ====
section
/-! DEFINITION. Floating-point values and the one rounding of the model (spec/04_formats.md R78, R79, R89–R92, R96, R99,
R418). A finite value is an exact dyadic number; every operation forms its exact result and rounds once. -/

namespace Sys2Proof.Machine

/-- The fflags bits an operation raises (R41): NX 1, UF 2, OF 4, DZ 8, NV 16, QS 32. -/
abbrev Fl := BitVec 6

/-- Inexact. -/
def NX : Fl := 1
/-- Underflow. -/
def UF : Fl := 2
/-- Overflow. -/
def OF : Fl := 4
/-- Division by zero. -/
def DZ : Fl := 8
/-- Invalid operation. -/
def NV : Fl := 16
/-- Saturation. -/
def QS : Fl := 32

/-- A floating-point format (R78): exponent bits, fraction bits, bias, the largest finite magnitude, the canonical NaN (none
for E2M1), and whether the all-ones exponent holds infinities and NaNs. -/
structure FF where
  eb   : Nat
  mb   : Nat
  bias : Nat
  top  : Nat
  nan  : Option Nat
  ieee : Bool
deriving DecidableEq, Repr

/-- FP32. -/
def FF.f32 : FF := ⟨8, 23, 127, 0x7F7FFFFF, some 0x7FC00000, true⟩
/-- FP64 (R80). -/
def FF.f64 : FF := ⟨11, 52, 1023, 0x7FEFFFFFFFFFFFFF, some 0x7FF8000000000000, true⟩
/-- BF16. -/
def FF.bf16 : FF := ⟨8, 7, 127, 0x7F7F, some 0x7FC0, true⟩
/-- FP16. -/
def FF.f16 : FF := ⟨5, 10, 15, 0x7BFF, some 0x7E00, true⟩
/-- E4M3. -/
def FF.e4m3 : FF := ⟨4, 3, 7, 0x7E, some 0x7F, false⟩
/-- E5M2. -/
def FF.e5m2 : FF := ⟨5, 2, 15, 0x7B, some 0x7E, true⟩
/-- E2M1. -/
def FF.e2m1 : FF := ⟨2, 1, 1, 0x7, none, false⟩

/-- The bit of the sign, which is the width less one. -/
def FF.signBit (f : FF) : Nat := 2 ^ (f.eb + f.mb)
/-- The magnitude of infinity. -/
def FF.infMag (f : FF) : Nat := (2 ^ f.eb - 1) * 2 ^ f.mb
/-- The exponent of the smallest normal number. -/
def FF.emin (f : FF) : Int := 1 - (f.bias : Int)

/-- A finite value `(-1)^neg × m × 2^e`. -/
structure Dy where
  neg : Bool
  m   : Nat
  e   : Int
deriving DecidableEq, Repr

/-- A floating-point value. -/
inductive FVal where
  | nan (signalling : Bool)
  | inf (neg : Bool)
  | fin (d : Dy)
deriving DecidableEq, Repr

/-- The value of a pattern (R78, R79). -/
def FF.read (f : FF) (w : Nat) : FVal :=
  let neg := w / f.signBit % 2 == 1
  let mag := w % f.signBit
  let ex := mag / 2 ^ f.mb
  let fr := mag % 2 ^ f.mb
  if f.ieee ∧ f.infMag < mag then .nan (fr < 2 ^ (f.mb - 1))
  else if f.ieee ∧ mag = f.infMag then .inf neg
  else if !f.ieee ∧ f.nan = some mag then .nan false
  else if ex = 0 then .fin ⟨neg, fr, f.emin - f.mb⟩
  else .fin ⟨neg, 2 ^ f.mb + fr, (ex : Int) - f.bias - f.mb⟩

/-- The pattern of a sign and a magnitude. -/
def FF.pat (f : FF) (neg : Bool) (mag : Nat) : Nat := (if neg then f.signBit else 0) + mag

/-- The canonical NaN; E2M1, which has none, gives +0 (R91). -/
def FF.qnan (f : FF) : Nat := f.nan.getD 0

/-- Whether an overflow goes to infinity under a mode (R90). -/
def toInf (mode : Nat) (neg : Bool) : Bool := mode == 0 || mode == 4 || (mode == 2 && neg) || (mode == 3 && !neg)

/-- Whether a magnitude rounds up: its quotient is odd or not, and its remainder stands below, at or above the half. -/
def roundsUp (mode : Nat) (neg odd : Bool) (rem half : Nat) : Bool :=
  match mode with
  | 0 => half < rem || (rem == half && odd)
  | 2 => neg && rem != 0
  | 3 => !neg && rem != 0
  | 4 => half ≤ rem
  | _ => false

/-- A magnitude `m × 2^e` rounded to a multiple of `2^lsb`: the multiple, and whether it was inexact. -/
def quantize (mode : Nat) (neg : Bool) (m : Nat) (e lsb : Int) : Nat × Bool :=
  if lsb ≤ e then (m * 2 ^ (e - lsb).toNat, false)
  else
    let k := (lsb - e).toNat
    let q := m / 2 ^ k
    let r := m % 2 ^ k
    (q + (roundsUp mode neg (q % 2 == 1) (2 * r) (2 ^ k)).toNat, r != 0)

/-- What a finite overflow gives (R90, R91), with the format's own rule for E4M3 and E2M1. -/
def FF.over (f : FF) (mode : Nat) (sat neg : Bool) : Nat :=
  if f.nan = none then f.pat neg f.top
  else if sat then f.pat neg f.top
  else if toInf mode neg then (if f.ieee then f.pat neg f.infMag else f.qnan)
  else f.pat neg f.top

/-- The rounding of a non-zero exact magnitude `m × 2^e` to `prec` fraction bits of a format (R89–R91): the pattern and the
flags. Tininess is detected after rounding. -/
def FF.roundP (f : FF) (prec mode : Nat) (sat neg : Bool) (m : Nat) (e : Int) : Nat × Fl :=
  let big : Int := e + Nat.log2 m
  let sub : Int := f.emin - f.mb
  let lsb : Int := max (big - prec) sub
  let (q, inex) := quantize mode neg m e lsb
  let (u, _) := quantize mode neg m e (big - prec)
  let tiny : Bool := big < f.emin && !(u == 2 ^ (prec + 1) && big + 1 == f.emin)
  if q = 0 then (f.pat neg 0, if inex then UF ||| NX else 0)
  else
    let hi : Int := lsb + Nat.log2 q
    let mag : Nat :=
      if hi < f.emin then q * 2 ^ (lsb - sub).toNat
      else (hi + f.bias - 1).toNat * 2 ^ f.mb + q * 2 ^ f.mb / 2 ^ (hi - lsb).toNat
    if f.top < mag then (f.over mode sat neg, OF ||| NX)
    else (f.pat neg mag, if inex then (if tiny then UF ||| NX else NX) else 0)

/-- The rounding to a format's own precision. -/
def FF.round (f : FF) (mode : Nat) (sat neg : Bool) (m : Nat) (e : Int) : Nat × Fl := f.roundP f.mb mode sat neg m e

/-- The exact sum of some finite values, as an integer and the exponent it counts in. -/
def sumDy (l : List Dy) : Int × Int :=
  let e0 : Int := l.foldl (fun a d => min a d.e) (match l with | [] => 0 | d :: _ => d.e)
  (l.foldl (fun a d => a + (if d.neg then -1 else 1) * ((d.m * 2 ^ (d.e - e0).toNat : Nat) : Int)) 0, e0)

/-- The sign of an exact zero sum (R418). -/
def zeroNeg (mode : Nat) (l : List Dy) : Bool :=
  if l.all fun d => d.m == 0 && d.neg then true
  else if l.all fun d => d.m == 0 && !d.neg then false
  else mode == 2

/-- The sum of some finite values, exact before one rounding. -/
def FF.sum (f : FF) (mode : Nat) (l : List Dy) : Nat × Fl :=
  let (z, e) := sumDy l
  if z = 0 then (f.pat (zeroNeg mode l) 0, 0) else f.round mode false (z < 0) z.natAbs e

/-- NV when a value is a signalling NaN (R79). -/
def FVal.sig : FVal → Fl
  | .nan true => NV
  | _ => 0

/-- A value is a NaN. -/
def FVal.isNan : FVal → Bool
  | .nan _ => true
  | _ => false

/-- A value negated. -/
def FVal.neg : FVal → FVal
  | .nan q => .nan q
  | .inf n => .inf (!n)
  | .fin d => .fin { d with neg := !d.neg }

/-- The exact product of two values, or the NaN of 0 × ∞ (R90). -/
def FVal.mul (a b : FVal) : FVal × Fl :=
  match a, b with
  | .nan _, _ => (.nan false, a.sig ||| b.sig)
  | _, .nan _ => (.nan false, a.sig ||| b.sig)
  | .inf n, .inf k => (.inf (n != k), 0)
  | .inf n, .fin d => if d.m = 0 then (.nan false, NV) else (.inf (n != d.neg), 0)
  | .fin d, .inf n => if d.m = 0 then (.nan false, NV) else (.inf (n != d.neg), 0)
  | .fin c, .fin d => (.fin ⟨c.neg != d.neg, c.m * d.m, c.e + d.e⟩, 0)

/-- The rounded sum of two values (R90, R418). -/
def FF.addV (f : FF) (mode : Nat) (a b : FVal) : Nat × Fl :=
  match a, b with
  | .nan _, _ => (f.qnan, a.sig ||| b.sig)
  | _, .nan _ => (f.qnan, a.sig ||| b.sig)
  | .inf n, .inf k => if n = k then (f.pat n f.infMag, 0) else (f.qnan, NV)
  | .inf n, .fin _ => (f.pat n f.infMag, 0)
  | .fin _, .inf n => (f.pat n f.infMag, 0)
  | .fin c, .fin d => f.sum mode [c, d]

/-- A value rounded into a format (R91). -/
def FF.put (f : FF) (mode : Nat) (sat : Bool) (v : FVal) : Nat × Fl :=
  match v with
  | .nan q => (f.qnan, if f.nan = none then NV else if q then NV else 0)
  | .inf n =>
    if f.nan = none then (f.pat n f.top, NV)
    else if !f.ieee then (if sat then f.pat n f.top else f.qnan, NV)
    else if sat then (f.pat n f.top, NV)
    else (f.pat n f.infMag, 0)
  | .fin d => if d.m = 0 then (f.pat d.neg 0, 0) else f.round mode sat d.neg d.m d.e

/-- a + b. -/
def FF.add (f : FF) (mode a b : Nat) : Nat × Fl := f.addV mode (f.read a) (f.read b)
/-- a − b: the second operand negated first (R418). -/
def FF.sub (f : FF) (mode a b : Nat) : Nat × Fl := f.addV mode (f.read a) (f.read b).neg
/-- a × b. -/
def FF.mul (f : FF) (mode a b : Nat) : Nat × Fl :=
  let (p, fl) := (f.read a).mul (f.read b)
  let (r, gl) := f.put mode false p
  (r, fl ||| gl)

/-- ±(a × b) ± c rounded once (R106, R156); `np` negates the product and `nc` the addend. -/
def FF.fma (f : FF) (mode : Nat) (np nc : Bool) (a b c : Nat) : Nat × Fl :=
  let (p, fl) := (f.read a).mul (f.read b)
  let p := if np then p.neg else p
  let cv := f.read c
  let (r, gl) := f.addV mode p (if nc then cv.neg else cv)
  (r, fl ||| gl)

/-- a / b (R90). -/
def FF.div (f : FF) (mode a b : Nat) : Nat × Fl :=
  match f.read a, f.read b with
  | .nan q, y => (f.qnan, (FVal.nan q).sig ||| y.sig)
  | x, .nan q => (f.qnan, x.sig ||| (FVal.nan q).sig)
  | .inf _, .inf _ => (f.qnan, NV)
  | .inf n, .fin d => (f.pat (n != d.neg) f.infMag, 0)
  | .fin c, .inf n => (f.pat (c.neg != n) 0, 0)
  | .fin c, .fin d =>
    if d.m = 0 then (if c.m = 0 then (f.qnan, NV) else (f.pat (c.neg != d.neg) f.infMag, DZ))
    else if c.m = 0 then (f.pat (c.neg != d.neg) 0, 0)
    else
      let k := f.mb + 4 + Nat.log2 d.m
      let q := c.m * 2 ^ k / d.m
      let st := (c.m * 2 ^ k % d.m != 0).toNat
      f.round mode false (c.neg != d.neg) (2 * q + st) (c.e - d.e - k - 1)

/-- The integer square root, bit by bit from bit `n` down. -/
def isqrtLoop (v : Nat) : Nat → Nat → Nat
  | 0, r => r
  | n + 1, r => if (r + 2 ^ n) * (r + 2 ^ n) ≤ v then isqrtLoop v n (r + 2 ^ n) else isqrtLoop v n r

/-- ⌊√v⌋. -/
def isqrt (v : Nat) : Nat := isqrtLoop v (Nat.log2 v / 2 + 1) 0

/-- √a (R90, R155). -/
def FF.sqrt (f : FF) (mode a : Nat) : Nat × Fl :=
  match f.read a with
  | .nan q => (f.qnan, (FVal.nan q).sig)
  | .inf n => if n then (f.qnan, NV) else (f.pat false f.infMag, 0)
  | .fin d =>
    if d.m = 0 then (f.pat d.neg 0, 0)
    else if d.neg then (f.qnan, NV)
    else
      let odd := (d.e % 2).toNat
      let v := d.m * 2 ^ odd * 4 ^ (f.mb + 3)
      let r := isqrt v
      f.round mode false false (2 * r + (r * r != v).toNat) ((d.e - odd) / 2 - (f.mb + 3 : Nat) - 1)

/-- The order of two finite values: negative, zero or positive difference; −0 equals +0. -/
def cmpDy (a b : Dy) : Int := (sumDy [a, { b with neg := !b.neg }]).1

/-- a < b for values that are not NaN. -/
def FVal.lt (a b : FVal) : Bool :=
  match a, b with
  | .inf n, .inf k => n && !k
  | .inf n, _ => n
  | _, .inf k => !k
  | .fin c, .fin d => cmpDy c d < 0
  | _, _ => false

/-- a = b for values that are not NaN. -/
def FVal.eq (a b : FVal) : Bool :=
  match a, b with
  | .inf n, .inf k => n == k
  | .fin c, .fin d => cmpDy c d == 0
  | _, _ => false

/-- The sign of a value that is not NaN. -/
def FVal.isNeg : FVal → Bool
  | .inf n => n
  | .fin d => d.neg
  | .nan _ => false

/-- The minimum (`hi` false) or maximum of two patterns (R96): −0 below +0, quiet NaNs ignored. -/
def FF.minmax (f : FF) (hi : Bool) (a b : Nat) : Nat × Fl :=
  let x := f.read a
  let y := f.read b
  let fl := x.sig ||| y.sig
  if x.isNan then (if y.isNan then f.qnan else b, fl)
  else if y.isNan then (a, fl)
  else
    let less := x.lt y || (x.eq y && x.isNeg && !y.isNeg)
    (if less != hi then a else b, fl)

/-- A relation of two patterns: 0 EQ, 1 NE, 2 LT, 3 LE, 4 GT, 5 GE (R109, R158). -/
def FF.cmp (f : FF) (c a b : Nat) : Bool × Fl :=
  let x := f.read a
  let y := f.read b
  let nan := x.isNan || y.isNan
  let fl := if c ≤ 1 then x.sig ||| y.sig else if nan then NV else 0
  match c with
  | 0 => (!nan && x.eq y, fl)
  | 1 => (nan || !x.eq y, fl)
  | 2 => (!nan && x.lt y, fl)
  | 3 => (!nan && (x.lt y || x.eq y), fl)
  | 4 => (!nan && y.lt x, fl)
  | _ => (!nan && (y.lt x || x.eq y), fl)

/-- A value × 2^s rounded to an integer and clamped (R92): the integer and the flags. -/
def FVal.toInt (v : FVal) (mode : Nat) (s : Int) (lo hi : Int) : Int × Fl :=
  match v with
  | .nan _ => (0, NV)
  | .inf n => (if n then lo else hi, NV)
  | .fin d =>
    let (q, inex) := quantize mode d.neg d.m (d.e + s) 0
    let z : Int := if d.neg then -(q : Int) else q
    if z < lo then (lo, NV) else if hi < z then (hi, NV) else (z, if inex then NX else 0)

/-- An integer × 2^-s as an exact value. -/
def intVal (z : Int) (s : Int) : FVal := .fin ⟨z < 0, z.natAbs, -s⟩

/-- FCLASS (R158): the one bit set. -/
def FF.classify (f : FF) (w : Nat) : Nat :=
  match f.read w with
  | .nan q => if q then 256 else 512
  | .inf n => if n then 1 else 128
  | .fin d =>
    if d.m = 0 then (if d.neg then 8 else 16)
    else if d.m < 2 ^ f.mb then (if d.neg then 4 else 32)
    else (if d.neg then 2 else 64)

/-- The estimate precision (R99). -/
def FF.estPrec (f : FF) : Nat := min 12 f.mb

/-- The normalised exponent and the seven-bit truncation of R99: x' = (2 (128 + f7) + 1) × 2^(E - 8). -/
def estParts (d : Dy) : Nat × Int :=
  let l := Nat.log2 d.m
  let f7 := d.m * 128 / 2 ^ l
  (2 * f7 + 1, d.e + l)

/-- An estimate keeps only its OF flag (R99). -/
def estFlags (p : Nat × Fl) : Nat × Fl := (p.1, p.2 &&& OF)

/-- VRCPE of one value (R99). -/
def FF.rcpe (f : FF) (w : Nat) : Nat × Fl :=
  match f.read w with
  | .nan q => (f.qnan, (FVal.nan q).sig)
  | .inf n => (f.pat n 0, 0)
  | .fin d =>
    if d.m = 0 then (f.pat d.neg f.infMag, DZ)
    else
      let (m, e) := estParts d
      estFlags (f.roundP f.estPrec 0 false d.neg (2 * (2 ^ 40 / m) + 1) (8 - e - 41))

/-- VRSQE of one value (R99). -/
def FF.rsqe (f : FF) (w : Nat) : Nat × Fl :=
  match f.read w with
  | .nan q => (f.qnan, (FVal.nan q).sig)
  | .inf n => if n then (f.qnan, NV) else (f.pat false 0, 0)
  | .fin d =>
    if d.m = 0 then (f.pat d.neg f.infMag, DZ)
    else if d.neg then (f.qnan, NV)
    else
      let (m, e) := estParts d
      let t : Int := 8 - e
      let odd := (t % 2).toNat
      let r := isqrt (2 ^ odd * 4 ^ 40 / m)
      estFlags (f.roundP f.estPrec 0 false false (2 * r + 1) ((t - odd) / 2 - 41))

/-- The value an E8M0 byte stands for (R78); none is its NaN. -/
def e8m0 (b : Nat) : Option Int := if b % 256 = 255 then none else some ((b % 256 : Nat) - 127)

/-- An E8M0 byte from a value (R92). (DEDUCED, assumption 30) -/
def toE8m0 (v : FVal) : Nat × Fl :=
  match v with
  | .fin d =>
    if d.neg ∨ d.m = 0 then (0xFF, NV)
    else
      let g : Int := d.e + Nat.log2 d.m + 127
      let c : Int := if g < 0 then 0 else if 254 < g then 254 else g
      (c.toNat, if c = g ∧ d.m = 2 ^ Nat.log2 d.m then 0 else NX)
  | .inf n => if n then (0xFF, NV) else (254, NX)
  | .nan _ => (0xFF, NV)

/-- The value of the E5M6 literal (R51). -/
def e5m6 (p : Nat) : FVal :=
  let neg := p / 2048 % 2 == 1
  let e := p / 64 % 32
  let f := p % 64
  if e = 31 then (if f = 0 then .inf neg else .nan false)
  else if e = 0 then .fin ⟨neg, f, -20⟩
  else .fin ⟨neg, 64 + f, (e : Int) - 15 - 6⟩

end Sys2Proof.Machine
end

