-- ==== Sys2Proof/Machine/Regs.lean ====
section
/-! DEFINITION. The registers of a hart and where entities stand: the one read and the one write of each kind of register
(spec/02_state.md R28, R30, R33, R35), the executing hart, cores, quads, crews and contexts. -/

namespace Sys2Proof.Machine

/-- The scalar register read: x0 reads as zero (R28). -/
def Hart.rx (h : Hart) (r : Reg) : Word := if r = 0 then 0 else h.x[r.val]

/-- A scalar result's latency noted (R161): the register, the cycle it was issued in and the distance to a scalar consumer. -/
def Hart.late (h : Hart) (r : Reg) (n : Nat) : Hart :=
  if r = 0 then h else { h with xlat := (r, h.cycle, n) :: h.xlat.filter fun e => e.1 != r }

/-- The scalar register write: a write to x0 is discarded (R28); an uncorrectable error of the old value goes with it, and the result has
the latency of R161's plainest row. -/
def Hart.wx (h : Hart) (r : Reg) (w : Word) : Hart :=
  if r = 0 then h
  else ({ h with x := h.x.set r.val w, xBad := h.xBad &&& ~~~(BitVec.ofNat 32 (2 ^ r.val)) } : Hart).late r 1

/-- A vector register. -/
def Hart.rv (h : Hart) (r : VR) : VReg := h.v[r.val]

/-- A vector register written; rewriting a whole register clears its data-error mark (R143). -/
def Hart.wv (h : Hart) (r : VR) (a : VReg) : Hart :=
  { h with v := h.v.set r.val a, marks := h.marks &&& ~~~(BitVec.ofNat 32 (2 ^ r.val))
           vBad := h.vBad &&& ~~~(BitVec.ofNat 32 (2 ^ r.val)) }

/-- A vector register that an earlier load has not written yet takes a later result: the load's own is dropped (R191). -/
def Hart.renameV (h : Hart) (r : VR) : Hart :=
  { h with landing := h.landing.map fun l =>
    { l with vregs := l.vregs.filter (· != r), late := l.late.map fun a => { a with slots := a.slots.filter fun p => p.1 != r } } }

/-- The same for a mask register. -/
def Hart.renameM (h : Hart) (r : MR) : Hart := { h with landing := h.landing.map fun l => { l with masks := l.masks.filter (· != r) } }

/-- A vector register's tag set, its slots kept (R31). -/
def Hart.wtag (h : Hart) (r : VR) (t : Tag) : Hart := { h with v := h.v.set r.val { h.rv r with tag := t } }

/-- A mask register. -/
def Hart.rm (h : Hart) (r : MR) : MaskBits := h.m[r.val]

/-- A mask register written; an uncorrectable error of the old mask goes with it. -/
def Hart.wm (h : Hart) (r : MR) (a : MaskBits) : Hart :=
  { h with m := h.m.set r.val a, mBad := h.mBad &&& ~~~(BitVec.ofNat 16 (2 ^ r.val)) }

/-- The register `n` after `r`; a group never runs past v31 (R113). -/
def vplus (r : VR) (n : Nat) : VR := Fin.ofNat 32 (r.val + n)

/-- The registers of a group of `n` from a base. -/
def vgroup (r : VR) (n : Nat) : List VR := tabulate n (vplus r)

/-- A hart by number. -/
def State.hart (s : State) (h : Nat) : Hart := (tget s.harts h).getD {}

/-- A hart replaced. -/
def State.setHart (s : State) (h : Nat) (v : Hart) : State := { s with harts := tput s.harts h v }

/-- A hart changed. -/
def State.modHart (s : State) (h : Nat) (f : Hart → Hart) : State := s.setHart h (f (s.hart h))

/-- The executing hart. -/
def State.me (s : State) : Hart := s.hart s.cur

/-- The executing hart replaced. -/
def State.setMe (s : State) (v : Hart) : State := s.setHart s.cur v

/-- The executing hart changed. -/
def State.modMe (s : State) (f : Hart → Hart) : State := s.setMe (f s.me)

/-- A crew by number. -/
def State.crew (s : State) (c : Nat) : Crew := (tget s.crews c).getD { ctx := 0, farm := 0, number := 0 }

/-- A crew replaced. -/
def State.setCrew (s : State) (c : Nat) (v : Crew) : State := { s with crews := tput s.crews c v }

/-- A context by number. -/
def State.ctx (s : State) (c : Nat) : Context := (tget s.ctxs c).getD { asids := [], root := 0 }

/-- A context replaced. -/
def State.setCtx (s : State) (c : Nat) (v : Context) : State := { s with ctxs := tput s.ctxs c v }

/-- A context changed. -/
def State.modCtx (s : State) (c : Nat) (f : Context → Context) : State := s.setCtx c (f (s.ctx c))

/-- The key of a farm in the farm table. -/
def fkey (c f : Nat) : Nat := c * 2 ^ 32 + f

/-- A farm of a context. -/
def State.farm? (s : State) (c f : Nat) : Option Farm := tget s.farms (fkey c f)

/-- A farm replaced. -/
def State.setFarm (s : State) (v : Farm) : State := { s with farms := tput s.farms (fkey v.ctx v.id) v }

/-- A core; a core with no entry is a full one (R12). -/
def State.core (s : State) (c : Nat) : Core := (tget s.cores c).getD {}

/-- A core replaced. -/
def State.setCore (s : State) (c : Nat) (v : Core) : State := { s with cores := tput s.cores c v }

/-- A quad. -/
def State.quad (s : State) (q : Nat) : Quad := (tget s.quads q).getD {}

/-- A quad replaced. -/
def State.setQuad (s : State) (q : Nat) (v : Quad) : State := { s with quads := tput s.quads q v }

/-- The core of a hart slot: hartid is 4 × core + hart (R41). -/
def coreOf (slot : Nat) : Nat := slot / 4

/-- The quad of a hart slot: four cores to a quad (R11). -/
def quadOf (slot : Nat) : Nat := slot / 16

/-- The core a hart resides on. -/
def Hart.core (h : Hart) : Nat := coreOf (h.place.getD 0)

/-- The working lane groups of a core (R14, R22). -/
def Core.count (c : Core) : Nat := (List.range 16).countP fun g => c.groups.getLsbD g

/-- VLMAX of a core: 64 times its working lane groups (R22). -/
def Core.vlmax (c : Core) : Nat := 64 * c.count

/-- The ASID of an aspace value (R41). -/
def asidOf (a : Word) : Nat := a.toNat % 2 ^ 16

/-- The root page of an aspace value (R41). -/
def rootOf (a : Word) : Nat := a.toNat / 2 ^ 16 % 2 ^ 44

/-- An aspace value. -/
def mkAspace (asid : BitVec 16) (ppn : BitVec 44) : Word := BitVec.ofNat 64 (asid.toNat + ppn.toNat * 2 ^ 16)

/-- Whether a context's hart is privileged (R335). -/
def Hart.privileged (h : Hart) : Bool := h.priv

/-- Stall-reason counter `n` advanced (R290): sc15 always reads zero (R44). -/
def Hart.charge (h : Hart) (n : Nat) (k : Nat) : Hart :=
  if n = 15 then h else { h with sc := modAt (fun c => (c + k) % 2 ^ 64) n h.sc }

/-- Cycles of a hart that pass for one reason, counted in its counter (R290). -/
def Hart.spend (h : Hart) (n : Nat) (k : Nat) : Hart := { (h.charge n k) with cycle := (h.cycle + k) % 2 ^ 64 }

/-- The cycles of a hart since one of its cycles. -/
def Hart.sinceCycle (h : Hart) (t : Nat) : Nat := (h.cycle + 2 ^ 64 - t) % 2 ^ 64

/-- The occupancy of a vector instruction at the hart's vl and grant (R40): ⌈vl / lanes⌉ cycles, 8 elements of grant to a lane. -/
def Hart.chime (h : Hart) : Nat := (h.vl * 8 + h.grant - 1) / max 1 h.grant

/-- A barrier of a crew in its initial state (R277): every crew member expected, scope .q. -/
def Barrier.start (n : Nat) : Barrier :=
  { expect := n, members := BitVec.ofNat 16 (2 ^ n - 1), byRank := [], others := 0, phase := 0, scope := 1, acc := 0, shown := 0 }

/-- A barrier of a crew. -/
def Crew.bar (c : Crew) (b : Nat) : Barrier := (tget c.bars b).getD (Barrier.start c.size)

/-- A barrier replaced. -/
def Crew.setBar (c : Crew) (b : Nat) (v : Barrier) : Crew := { c with bars := tput c.bars b v }

/-- The rounded size of a crew-window allocation (R27). -/
def roundWin (bytes : Nat) : Nat := (bytes + 4095) / 4096 * 4096

end Sys2Proof.Machine
end

