-- ==== Sys2Proof/Machine/Memory.lean ====
section
/-! DEFINITION. Memory below and above the L2: the physical map and its steering (spec/15_translation.md R313, R317, R329),
the page walk (R311, R312), the translation on an L2 miss (R315, R316), the cache copies of a line (spec/08_ordering.md
R163, R165, R173, R181), and the invalidation of a range (R322). Values and permissions only: what a hart's agents see of
each other's stores is in Access.lean. -/

namespace Sys2Proof.Machine

/-! ## The physical map -/

/-- The bytes of a number, lowest first (R3). -/
def bytesOf : Nat → Nat → List Byte
  | 0, _ => []
  | n + 1, v => BitVec.ofNat 8 v :: bytesOf n (v / 256)

/-- The number little-endian bytes stand for (R3). -/
def natOf : List Byte → Nat
  | [] => 0
  | b :: l => b.toNat + 256 * natOf l

/-- The first address past near memory: 384 GiB (R313). -/
def nearTop : Nat := 0x6000000000
/-- The first address of the capacity tier (R313). -/
def farBase : Nat := 0x10000000000
/-- The first address of host memory (R313). -/
def hostBase : Nat := 0x80000000000000
/-- The first address past the physical map's last range (R313). -/
def hostTop : Nat := 0x100000000000000

/-- The capacity of the enabled channels, in bytes (R413): ranks × rank size in GiB. -/
def farSize (s : State) : Nat :=
  s.mgmt.channels.foldl (fun a c => if c.getLsbD 3 then a + bits c.toNat 15 8 * 4 * 2 ^ 30 else a) 0

/-- The bytes `[a, a + n)` lie within one range of the map (R313). -/
def inMap (s : State) (a n : Nat) : Bool :=
  a + n ≤ nearTop || (farBase ≤ a && a + n ≤ farBase + farSize s) || (hostBase ≤ a && a + n ≤ hostTop)

/-- A host-memory address (R313). -/
def isHost (a : Nat) : Bool := hostBase ≤ a

/-- Where one redirect slot steers an address (R329). -/
def Redirect.steer (r : Redirect) (a : Nat) : Nat :=
  if r.desc.near ≤ a ∧ a < r.desc.near + 65536 then
    let o := a - r.desc.near
    if r.moved.getLsbD (o / 64) && !(r.desc.move && r.desc.toNear) then r.desc.far + o else a
  else if r.desc.far ≤ a ∧ a < r.desc.far + 65536 then
    let o := a - r.desc.far
    if r.moved.getLsbD (o / 64) && (!r.desc.move || r.desc.toNear) then r.desc.near + o else a
  else a

/-- Whether a redirect slot covers an address. -/
def Redirect.covers (r : Redirect) (a : Nat) : Bool :=
  (r.desc.near ≤ a && a < r.desc.near + 65536) || (r.desc.far ≤ a && a < r.desc.far + 65536)

/-- Where a physical access is performed under the redirect slots (R329): a later pair moves what an earlier one has put in its units, so
the slots steer in the order in which their pairs began. -/
def steer (s : State) (a : Nat) : Nat := (sortBy (fun p q => p.2.age ≤ q.2.age) s.swap.slots).foldl (fun a p => p.2.steer a) a

/-- An L2 line holds a copy of a physical line (R317). -/
def L2Line.copies (s : State) (frame : Nat) (l : L2Line) : Bool := steer s (l.frame * 64) == steer s (frame * 64)

/-- The L2 copy of a physical line, if one exists (R317): a dirty one before a clean one. -/
def l2ByFrame (s : State) (frame : Nat) : Option L2Line :=
  match s.l2.find? fun l => l.copies s frame && l.dirty with
  | some l => some l
  | none => s.l2.find? fun l => l.copies s frame

/-- A byte read by physical address, against the L2 copy when one exists (R317). -/
def physGet (s : State) (a : Nat) : Byte :=
  match l2ByFrame s (a / 64) with
  | some l => l.data.getD (a % 64) 0
  | none => memGet s.mem (steer s a)

/-- `n` bytes read by physical address (R317). -/
def physRead (s : State) (a n : Nat) : List Byte := tabulate n fun i => physGet s (a + i)

/-- A byte written by physical address, against every L2 copy when one exists (R317). -/
def physSet (s : State) (a : Nat) (b : Byte) : State :=
  if s.l2.any fun l => l.copies s (a / 64) then
    { s with l2 := s.l2.map fun k => if k.copies s (a / 64) then { k with data := k.data.set (a % 64) b, dirty := true } else k }
  else { s with mem := memSet s.mem (steer s a) b }

/-- Bytes written by physical address (R317). -/
def physWrite (s : State) (a : Nat) : List Byte → State
  | [] => s
  | b :: l => physWrite (physSet s a b) (a + 1) l

/-! ## Walks and translation -/

/-- What an access does, for the permission it needs (R312). -/
inductive Access where
  | load | store | fetch
deriving DecidableEq, Repr

/-- Why an access has no translation or no data (R189 steps 3–6): or it waits for the host (R416). -/
inductive Miss where
  | page | perm | data | wait
deriving DecidableEq, Repr

/-- An address is canonical when bits [63:57] all equal bit 56 (R188). -/
def canonical (a : Nat) : Bool := a / 2 ^ 56 == 0 || a / 2 ^ 56 == 255

/-- The first address of the crew window (R26). -/
def winBase : Nat := 0x00FFFFFFFFC00000
/-- The first address past the crew window (R26). -/
def winTop : Nat := 0x0100000000000000
/-- The first byte of an access lies in the crew window (R26). -/
def inWindow (a : Nat) : Bool := winBase ≤ a && a < winTop

/-- The low-order rights of a page-table entry (R311). -/
def pteRights (p : Nat) : Rights := { r := bit p 1, w := bit p 2, x := bit p 3, u := bit p 4, d := bit p 7 }

/-- The rights grant the access (R189 step 5, R311). -/
def Rights.grants (r : Rights) (priv : Bool) (k : Access) : Bool :=
  (priv || r.u) && (match k with
    | .load => r.r
    | .store => r.r && r.w
    | .fetch => r.x)

/-- An entry with a non-zero N, PBMT or reserved field, or W = 1 with R = 0 (R312). -/
def pteBad (p : Nat) : Bool := bits p 63 54 != 0 || (bit p 2 && !bit p 1)

/-- An access to a line of host memory cannot complete: both links are down (R416). -/
def hostDown (s : State) (frame : Nat) : Bool := isHost (frame * 64) && !s.mgmt.linkUp.any id

/-- A physical line holds an uncorrectable error (R379). -/
def isBad (s : State) (frame : Nat) : Bool := s.bad.contains (steer s (frame * 64) / 64)

/-- How a walk ends (R312): not resident, a permission failure, an entry with an uncorrectable error (R379), an entry in host memory while both
links are down (R416), or a leaf at an entry address, its value, its level and the 4 KiB page it gives. -/
inductive WalkEnd where
  | absent
  | denied
  | broken
  | waits
  | leaf (at_ pte level ppn : Nat)
deriving DecidableEq, Repr

/-- The walk from a table page at level `n` (R311, R312); the entry is read by physical address from memory, never from the
virtually tagged caches, which R312 says. (DEDUCED, assumption 54) -/
def walkFrom (s : State) (va : Nat) : Nat → Nat → WalkEnd
  | 0, _ => .denied
  | n + 1, table =>
    let ea := table * 4096 + bits va (20 + 9 * n) (12 + 9 * n) * 8
    let p := natOf (memRead s.mem (steer s ea) 8)
    let ppn := bits p 53 10
    if isBad s (ea / 64) then .broken
    else if hostDown s (ea / 64) then .waits
    else if !bit p 0 then .absent
    else if pteBad p then .denied
    else if bits p 3 1 = 0 then (if n = 0 ∨ !inMap s (ppn * 4096) 4096 then .denied else walkFrom s va n ppn)
    else if ppn % 512 ^ n ≠ 0 ∨ !inMap s (ppn * 4096) (4096 * 512 ^ n) then .denied
    else .leaf ea p n (ppn + va / 4096 % 512 ^ n)

/-- The non-leaf entries a walk goes through, each with its level and the table page it names (R316). -/
def walkTrail (s : State) (va : Nat) : Nat → Nat → List (Nat × Nat)
  | 0, _ => []
  | n + 1, table =>
    let p := natOf (memRead s.mem (steer s (table * 4096 + bits va (20 + 9 * n) (12 + 9 * n) * 8)) 8)
    let ppn := bits p 53 10
    if bit p 0 && !pteBad p && bits p 3 1 == 0 && n != 0 && inMap s (ppn * 4096) 4096 then (n, ppn) :: walkTrail s va n ppn else []

/-- The port TLB that is the translation home of an address's page (R316). -/
def tlbHome (va : Nat) : Nat := (bits va 20 12 ^^^ bits va 29 21 ^^^ bits va 38 30 ^^^ bits va 47 39 ^^^ bits va 56 48) % 30

/-- Where a walk begins (R316): at the table of the lowest level that the walk cache of the page's home holds, else at the root. -/
def walkStart (s : State) (aspace : Word) (va : Nat) : Nat × Nat :=
  (s.walks.filter fun e => e.home == tlbHome va && e.asid == asidOf aspace && e.tag == va / 2 ^ (12 + 9 * e.level)).foldl
    (fun b e => if e.level < b.1 then (e.level, e.table) else b) (5, rootOf aspace)

/-- The walk of an address under an aspace (R311); a root table outside the physical map denies it as an entry's page does (R312, R313). -/
def walk (s : State) (aspace : Word) (va : Nat) : WalkEnd :=
  let b := walkStart s aspace va
  if b.1 ≠ 5 ∨ inMap s (rootOf aspace * 4096) 4096 then walkFrom s va b.1 b.2 else .denied

/-- The non-leaf entries of a successful walk put into the walk cache of the page's home (R316). -/
def cacheWalk (s : State) (aspace : Word) (va : Nat) : State :=
  let b := walkStart s aspace va
  let new := (walkTrail s va b.1 b.2).map fun e =>
    ({ home := tlbHome va, asid := asidOf aspace, level := e.1, tag := va / 2 ^ (12 + 9 * e.1), table := e.2 } : WalkEntry)
  { s with walks := new ++ s.walks.filter fun e => !new.contains e }

/-- A and D set in the entry at a physical address: `p` becomes `p'` in memory, and in every cached copy that holds the same entry, which stays
clean or dirty as it is (R312, R317; DEDUCED, assumption 54). -/
def setAccessed (s : State) (ea p p' : Nat) : State :=
  { s with
    mem := memWrite s.mem (steer s ea) (bytesOf 8 p')
    l2 := s.l2.map fun k => if k.copies s (ea / 64) && natOf ((k.data.drop (ea % 64)).take 8) == p
      then { k with data := k.data.take (ea % 64) ++ bytesOf 8 p' ++ k.data.drop (ea % 64 + 8) } else k }

/-- A translation: the 4 KiB page and the rights, after setting A and, for a store, D (R312, R316). A TLB entry that grants
the access is used; a failed walk is not cached, and a window address has no translation (R314). -/
def translate (s : State) (aspace : Word) (priv : Bool) (k : Access) (va : Nat) : Except Miss (State × Nat × Rights) :=
  let asid := asidOf aspace
  let page := va / 4096
  let isStore : Bool := k == .store
  let hit := s.tlb.find? fun t => t.asid == asid && t.page == page && t.rights.grants priv k && (!isStore || t.rights.d)
  match hit with
  | some t => .ok (s, t.ppn, t.rights)
  | none =>
    if !canonical va || inWindow va then .error .page
    else match walk s aspace va with
    | .absent => .error .page
    | .denied => .error .perm
    | .broken => .error .data
    | .waits => .error .wait
    | .leaf ea p _ ppn =>
      if (pteRights p).grants priv k then
        let p' := p ||| 0x40 ||| (if isStore then 0x80 else 0)
        let r := pteRights p'
        .ok ({ setAccessed (cacheWalk s aspace va) ea p p' with
          tlb := { asid := asid, page := page, ppn := ppn, rights := r } :: s.tlb.filter fun t => !(t.asid == asid && t.page == page) },
          ppn, r)
      else .error .perm

/-! ## Lines -/

/-- A line of the L2 (R315). -/
def l2find (s : State) (asid line : Nat) : Option L2Line := s.l2.find? fun l => l.asid == asid && l.line == line

/-- A line set in the L2. -/
def l2put (s : State) (l : L2Line) : State :=
  { s with l2 := l :: s.l2.filter fun k => !(k.asid == l.asid && k.line == l.line) }

/-- Every L1 copy of a line dropped. -/
def dropL1 (s : State) (asid line : Nat) : State :=
  { s with l1 := s.l1.filter fun l => !(l.asid == asid && l.line == line) }

/-- One core's L1 copy of a line dropped (R165, R180). -/
def dropL1Core (s : State) (core asid line : Nat) : State :=
  { s with l1 := s.l1.filter fun l => !(l.core == core && l.asid == asid && l.line == line) }

/-- The clean lines of a core's L1 invalidated (R177, R179). -/
def cleanL1 (s : State) (core : Nat) : State := { s with l1 := s.l1.filter fun l => l.core != core }

/-- A line written back to its recorded frame and left clean (R315); an uncorrectable error of the memory line goes with the old data. -/
def writeBack (s : State) (l : L2Line) : State :=
  if l.dirty then
    let s' := { s with mem := memWrite s.mem (steer s (l.frame * 64)) l.data, bad := s.bad.filter fun n => n != steer s (l.frame * 64) / 64 }
    l2put s' { l with dirty := false }
  else s

/-- The lines from an address of `n` bytes. -/
def linesOf (a n : Nat) : List Nat := if n = 0 then [] else tabulate ((a + n - 1) / 64 + 1 - a / 64) fun i => a / 64 + i

/-- An access to host memory under an ASID waits for a link (R416). -/
def noteWait (s : State) (asid : Nat) : State :=
  if s.hostWaits.any fun p => p.1 == asid then s else { s with hostWaits := s.hostWaits ++ [(asid, s.hub)] }

/-- A line of host memory passed on to the host at once, for an agent that waits for no acknowledgement of its own (R187); while both links are
down it waits for one (R416; DEDUCED, assumption 72). -/
def hostPass (s : State) (asid line : Nat) : State :=
  match l2find s asid line with
  | some l => if !isHost (l.frame * 64) || !l.dirty then s else if hostDown s l.frame then noteWait s asid else writeBack s l
  | none => s

/-- The lines of a range passed on to the host (R187). -/
def hostPassAll (s : State) (asid a n : Nat) : State := (linesOf a n).foldl (fun s l => hostPass s asid l) s

/-- The lines of host memory whose access is complete leave the caches (R409): the device holds no host line past the completion of its access. -/
def dropHost (s : State) : State := { s with l2 := s.l2.filter fun l => l.dirty || !isHost (l.frame * 64) }

/-- The host stores to its own memory (R187, R409); none while a store of the device to one of the lines is on its way. -/
def hostStore (s : State) (a : Nat) (b : List Byte) : Option State :=
  let hit (l : L2Line) : Bool := (linesOf a b.length).contains l.frame
  if a < hostBase ∨ hostTop < a + b.length ∨ s.l2.any (fun l => hit l && l.dirty) then none
  else some { s with mem := memWrite s.mem a b, l2 := s.l2.filter fun l => !hit l }

/-- A line filled from its frame. (DEDUCED, assumption 55) -/
def fill (s : State) (asid line frame : Nat) (r : Rights) : State × L2Line :=
  let l : L2Line := { asid := asid, line := line, data := memRead s.mem (steer s (frame * 64)) 64, rights := r, frame := frame,
                      dirty := false, early := false }
  (l2put s l, l)

/-! ## Update-only lines (R181, R97) -/

/-- Two 32-bit signed words in order. -/
def sle (n a b : Nat) : Bool := sint n a ≤ sint n b

/-- An integer reduction of two words of `n` bits (R97, R204). -/
def redInt (op : RedOp) (n a b : Nat) : Nat :=
  match op with
  | .add => (a + b) % 2 ^ n
  | .min => if sle n a b then a else b
  | .max => if sle n a b then b else a
  | .and => a &&& b
  | .or => a ||| b
  | .xor => a ^^^ b
  | .fadd => (FF.f32.add 0 a b).1

/-- The sum of some FP32 words in an order and grouping the free choice gives: two of them are added until one is left
(R97). -/
def mergeFadd : Nat → Nat → List Nat → Nat
  | 0, _, l => l.headD 0
  | n + 1, seed, l =>
    if l.length ≤ 1 then l.headD 0
    else
      let i := Config.pick seed % l.length
      let a := l.getD i 0
      let l' := l.eraseIdx i
      let j := Config.pick (seed + 1) % l'.length
      mergeFadd n (seed + 2) ((FF.f32.add 0 a (l'.getD j 0)).1 :: l'.eraseIdx j)

/-- The new value of one word after the buffered updates to it (R97): one FADD update is one addition; several are added in
an order the model leaves free. -/
def mergeWord (seed : Nat) (op : RedOp) (n prior : Nat) (ups : List Nat) : Nat :=
  match op, ups with
  | .fadd, [u] => (FF.f32.add 0 prior u).1
  | .fadd, ups => mergeFadd (ups.length + 1) seed (prior :: ups)
  | op, ups => ups.foldl (redInt op n) prior

/-- A line's data with the words at their offsets replaced. -/
def putWord (d : List Byte) (off n v : Nat) : List Byte :=
  (bytesOf n v).foldl (fun (p : List Byte × Nat) b => (p.1.set p.2 b, p.2 + 1)) (d, off) |>.1

/-- The data of a line after the updates of one copy merge. -/
def mergeData (seed : Nat) (u : UpdLine) (d : List Byte) : List Byte :=
  let n := if u.wide then 8 else 4
  (u.items.map (·.1)).eraseDups.foldl (fun d off =>
    let prior := natOf ((d.drop off).take n)
    let ups := (u.items.filter fun p => p.1 == off).map (·.2.toNat)
    putWord d off n (mergeWord (seed + 4 * off) u.op (8 * n) prior ups)) d

/-- A line at its home for a write that no requester waits for: the L2's, or one filled from its frame; none where the fill meets an
uncorrectable error, which has no requester to be returned to, so that the context that owns the ASID ends (R379, R380; DESIGN CHOICE, assumption 73). -/
def homeLine (s : State) (asid line frame : Nat) (r : Rights) : State × Option L2Line :=
  match l2find s asid line with
  | some l => (s, some l)
  | none =>
    if isBad s frame then ({ s with errs := asid :: s.errs }, none)
    else (fun p => (p.1, some p.2)) (fill s asid line frame r)

/-- One update-only copy merged into its line at the home; no L1 keeps a copy from before it (R181). -/
def mergeCopy (s : State) (u : UpdLine) : State :=
  let (s, l) := homeLine s u.asid u.line u.frame u.rights
  let s := { s with upd := s.upd.filter fun k => !(k.core == u.core && k.asid == u.asid && k.line == u.line)
                    fresh := s.fresh + 256 + 2 * u.items.length }
  match l with
  | some l => hostPass (dropL1 (l2put s { l with data := mergeData s.fresh u l.data, dirty := true }) u.asid u.line) u.asid u.line
  | none => s

/-- Every update-only copy of a line recalled from every core and merged, in an order the model leaves free (R181). -/
def recallLoop (asid line : Nat) : Nat → State → State
  | 0, s => s
  | n + 1, s =>
    let us := s.upd.filter fun u => u.asid == asid && u.line == line
    if us = [] then s
    else
      match us[Config.pick s.fresh % us.length]? with
      | some u => recallLoop asid line n (mergeCopy { s with fresh := s.fresh + 1 } u)
      | none => s

/-- The recall of a line (R181). -/
def recallLine (s : State) (asid line : Nat) : State :=
  recallLoop asid line (s.upd.countP fun u => u.asid == asid && u.line == line) s

/-! ## A line at the L2 for an access (R315, R316) -/

/-- An L2 line given to an access: the error of its memory line is returned, and a read of host memory waits while both links are down. -/
def lineGiven (s : State) (k : Access) (l : L2Line) : Except Miss (State × L2Line) :=
  if !l.dirty && isBad s l.frame then .error .data
  else if k != .store && hostDown s l.frame then .error .wait
  else .ok (s, l)

/-- A line translated for an access, and filled when the L2 has no copy. -/
def lineFresh (s : State) (aspace : Word) (priv : Bool) (k : Access) (va : Nat) : Except Miss (State × L2Line) :=
  match translate s aspace priv k va with
  | .error e => .error e
  | .ok (s, ppn, r) =>
    match l2find s (asidOf aspace) (va / 64) with
    | some l => lineGiven (l2put s { l with rights := r }) k { l with rights := r }
    | none =>
      let p := fill s (asidOf aspace) (va / 64) (ppn * 64 + va / 64 % 64) r
      lineGiven p.1 k p.2

/-- The L2 line an access reaches, filled and translated on a miss, with the recorded bits checked on a hit (R315): update-only
copies are recalled first (R181). A store that hits a line lacking W or D is translated afresh. An uncorrectable error of the memory line is
returned to the requester, whatever its access, until the line has been written (R379; DESIGN CHOICE, assumption 73). A read of a line of host
memory waits while both links are down (R416). -/
def lineFor (s : State) (aspace : Word) (priv : Bool) (k : Access) (va : Nat) : Except Miss (State × L2Line) :=
  let s := recallLine s (asidOf aspace) (va / 64)
  match l2find s (asidOf aspace) (va / 64) with
  | none => lineFresh s aspace priv k va
  | some l =>
    if k == .store && (!l.rights.w || !l.rights.d) then lineFresh s aspace priv k va
    else if l.rights.grants priv k then lineGiven s k l
    else .error .perm

/-- A line's bytes changed at the L2 from an offset up. -/
def lineWrite (l : L2Line) (off : Nat) (b : List Byte) : L2Line :=
  { l with data := b.foldl (fun (p : List Byte × Nat) x => (p.1.set p.2 x, p.2 + 1)) (l.data, off) |>.1, dirty := true }

/-- Some bytes of a line's data replaced from an offset up; those that are none stay. -/
def putBytes (d : List Byte) (off : Nat) (b : List (Option Byte)) : List Byte :=
  b.foldl (fun (p : List Byte × Nat) x => (match x with
    | some y => p.1.set p.2 y
    | none => p.1, p.2 + 1)) (d, off) |>.1

/-- Bytes of a store performed at the home (R170), each of those of one line at once (R172): into the L2 line, filled under the store's
translation when it is no longer cached (R315); L1 copies on the storing core are updated or dropped, others stay stale (R165, R173). -/
def homeWrite (s : State) (core asid va pa : Nat) (r : Rights) (b : List (Option Byte)) : State :=
  let line := va / 64
  match homeLine (recallLine s asid line) asid line (pa / 64) r with
  | (s, none) => s
  | (s, some l) =>
    let s := l2put s { l with data := putBytes l.data (va % 64) b, dirty := true }
    { s with l1 := s.l1.map fun c =>
        if c.core = core ∧ c.asid = asid ∧ c.line = line then { c with data := putBytes c.data (va % 64) b } else c }

/-! ## Retention of an L2 slice (R381) -/

/-- The home slice of a line (R164). -/
def sliceOf (va : Nat) : Nat := bits va 11 6 ^^^ bits va 17 12 ^^^ bits va 23 18 ^^^ bits va 29 24

/-- The hub cycles of an array's entry or exit (R381). -/
def arrayRamp : ArrayId → Nat
  | .slice _ => 9000
  | .store _ => 12000

/-- A slice is entering, in or leaving retention (R381). -/
def retained (s : State) (va : Nat) : Bool := s.mgmt.asleep.any fun e => e.1 == .slice (sliceOf va)

/-- An access reaches a slice (R381): its idle time starts again, and a retained one begins to leave retention, after its entry is done. -/
def touchSlice (s : State) (va : Nat) : State :=
  if !s.mgmt.retention then s
  else
    let n := sliceOf va
    { s with sliceAt := tput s.sliceAt n s.hub
             mgmt := { s.mgmt with asleep := s.mgmt.asleep.map fun e => if e.1 = .slice n ∧ !e.2.2 then (e.1, max s.hub (e.2.1 + arrayRamp e.1), true) else e } }

/-- An access by the hub or an engine, at the L2 (R236, R182): bytes read under an aspace as a reader of some privilege, a
line at a time. -/
def agentRead (s : State) (aspace : Word) (priv : Bool) : Nat → Nat → Except (Miss × Nat) (State × List Byte)
  | 0, _ => .ok (s, [])
  | n + 1, va =>
    match lineFor (touchSlice s va) aspace priv .load va with
    | .error e => .error (e, va)
    | .ok (s, l) =>
      match agentRead s aspace priv n ((va + 1) % 2 ^ 64) with
      | .error e => .error e
      | .ok (s, r) => .ok (s, l.data.getD (va % 64) 0 :: r)

/-- Bytes written by the hub or an engine, at the L2; every L1 copy of the line is dropped (R182). -/
def agentWrite (s : State) (aspace : Word) (priv : Bool) (va : Nat) : List Byte → Except (Miss × Nat) State
  | [] => .ok s
  | b :: r =>
    match lineFor (touchSlice s va) aspace priv .store va with
    | .error e => .error (e, va)
    | .ok (s, l) =>
      agentWrite (dropL1 (l2put s (lineWrite l (va % 64) [b])) (asidOf aspace) (va / 64)) aspace priv ((va + 1) % 2 ^ 64) r

/-! ## Invalidation (R322) -/

/-- The effect of an invalidation of some pages of an ASID, all steps done: TLB entries removed, walk caches emptied, update-only copies merged,
dirty lines written back, every copy dropped. `test` accepts a virtual page. -/
def invalidatePages (s : State) (asid : Nat) (test : Nat → Bool) : State :=
  let s := { s with tlb := s.tlb.filter fun t => !(t.asid == asid && test t.page), walks := [] }
  let s := (s.upd.filter fun u => u.asid == asid && test (u.line / 64)).foldl (fun s u => recallLine s u.asid u.line) s
  let s := (s.l2.filter fun l => l.asid == asid && test (l.line / 64)).foldl writeBack s
  { s with l2 := s.l2.filter fun l => !(l.asid == asid && test (l.line / 64))
           l1 := s.l1.filter fun l => !(l.asid == asid && test (l.line / 64))
           l1i := s.l1i.filter fun l => !(l.asid == asid && test (l.line / 64)) }

end Sys2Proof.Machine
end

