-- ==== Sys2Proof/Machine/Sha.lean ====
section
/-! DEFINITION. SHA-256, which the spec names for chunk leaves (spec/03_encoding.md R73), measurements (spec/16_isolation.md R340)
and record mode (spec/18_recovery.md R385) without restating it: the function of FIPS 180-4 (PRESUMED, assumption 4). -/

namespace Sys2Proof.Machine

/-- A 32-bit word of SHA-256. -/
abbrev W32 := BitVec 32

/-- The 64 round constants. -/
def shaK : List W32 :=
  [0x428a2f98, 0x71374491, 0xb5c0fbcf, 0xe9b5dba5, 0x3956c25b, 0x59f111f1, 0x923f82a4, 0xab1c5ed5] ++
  [0xd807aa98, 0x12835b01, 0x243185be, 0x550c7dc3, 0x72be5d74, 0x80deb1fe, 0x9bdc06a7, 0xc19bf174] ++
  [0xe49b69c1, 0xefbe4786, 0x0fc19dc6, 0x240ca1cc, 0x2de92c6f, 0x4a7484aa, 0x5cb0a9dc, 0x76f988da] ++
  [0x983e5152, 0xa831c66d, 0xb00327c8, 0xbf597fc7, 0xc6e00bf3, 0xd5a79147, 0x06ca6351, 0x14292967] ++
  [0x27b70a85, 0x2e1b2138, 0x4d2c6dfc, 0x53380d13, 0x650a7354, 0x766a0abb, 0x81c2c92e, 0x92722c85] ++
  [0xa2bfe8a1, 0xa81a664b, 0xc24b8b70, 0xc76c51a3, 0xd192e819, 0xd6990624, 0xf40e3585, 0x106aa070] ++
  [0x19a4c116, 0x1e376c08, 0x2748774c, 0x34b0bcb5, 0x391c0cb3, 0x4ed8aa4a, 0x5b9cca4f, 0x682e6ff3] ++
  [0x748f82ee, 0x78a5636f, 0x84c87814, 0x8cc70208, 0x90befffa, 0xa4506ceb, 0xbef9a3f7, 0xc67178f2]

/-- The initial hash value. -/
def shaH : List W32 :=
  [0x6a09e667, 0xbb67ae85, 0x3c6ef372, 0xa54ff53a, 0x510e527f, 0x9b05688c, 0x1f83d9ab, 0x5be0cd19]

/-- Rotation right. -/
def ror (x : W32) (n : Nat) : W32 := x.rotateRight n

/-- The message schedule extended by `n` words; `w` holds the last words first. -/
def shaSched : Nat → List W32 → List W32
  | 0, w => w
  | n + 1, w =>
    let a := w.getD 1 0
    let b := w.getD 14 0
    let s1 := ror a 17 ^^^ ror a 19 ^^^ (a >>> 10)
    let s0 := ror b 7 ^^^ ror b 18 ^^^ (b >>> 3)
    shaSched n ((s1 + w.getD 6 0 + s0 + w.getD 15 0) :: w)

/-- One round on the working variables a to h. -/
def shaRound (v : List W32) (kw : W32 × W32) : List W32 :=
  match v with
  | [a, b, c, d, e, f, g, h] =>
    let t1 := h + (ror e 6 ^^^ ror e 11 ^^^ ror e 25) + ((e &&& f) ^^^ (~~~e &&& g)) + kw.1 + kw.2
    let t2 := (ror a 2 ^^^ ror a 13 ^^^ ror a 22) + ((a &&& b) ^^^ (a &&& c) ^^^ (b &&& c))
    [t1 + t2, a, b, c, d + t1, e, f, g]
  | l => l

/-- One 64-byte block. -/
def shaBlock (h : List W32) (w : List W32) : List W32 :=
  let ws := (shaSched 48 w.reverse).reverse
  List.zipWith (· + ·) h ((shaK.zip ws).foldl shaRound h)

/-- The big-endian words of a byte string. -/
def shaWords : List Byte → List W32
  | a :: b :: c :: d :: r => (a ++ b ++ c ++ d : BitVec 32) :: shaWords r
  | _ => []

/-- Blocks of 16 words. -/
def shaBlocks : Nat → List W32 → List W32 → List W32
  | 0, h, _ => h
  | n + 1, h, w => shaBlocks n (shaBlock h (w.take 16)) (w.drop 16)

/-- The 64-bit length field, highest byte first. -/
def shaLen (n : Nat) : List Byte := tabulate 8 fun i => BitVec.ofNat 8 (8 * n / 256 ^ (7 - i))

/-- SHA-256 of a byte string: 32 bytes. (PRESUMED, assumption 4) -/
def sha256 (m : List Byte) : List Byte :=
  let z := (119 - m.length % 64) % 64
  let w := shaWords (m ++ 0x80#8 :: List.replicate z 0 ++ shaLen m.length)
  (shaBlocks (w.length / 16) shaH w).flatMap fun x => tabulate 4 fun i => BitVec.ofNat 8 (x.toNat / 256 ^ (3 - i))

/-- The root of a tree of leaves (R73): adjacent nodes are paired level by level, a node without a partner moves up. -/
def merkleLevel : List (List Byte) → List (List Byte)
  | a :: b :: r => sha256 (a ++ b) :: merkleLevel r
  | l => l

/-- The single node that remains after `n` levels. -/
def merkleRoot : Nat → List (List Byte) → List Byte
  | 0, l => l.headD []
  | n + 1, l => if l.length ≤ 1 then l.headD [] else merkleRoot n (merkleLevel l)

end Sys2Proof.Machine
end

