-- ==== Sys2Proof/Machine/Access.lean ====
section
/-! DEFINITION. The memory accesses of a hart's two agents: the checks of spec/09_memory_ops.md R189, the crew window
(spec/02_state.md R26, R27), the store path and forwarding (spec/08_ordering.md R170, R174, R176), loads performed early and late (R174, R175),
engine-owned lines (R182), buffered reduction updates (R181) and versions (spec/11_scheduling.md R262, R263). -/

namespace Sys2Proof.Machine

/-- The outcome of one access: the new state and an answer, a freeze cause, or a wait for a line an engine owns or for the
host. -/
inductive Acc (α : Type) where
  | ok (s : State) (a : α)
  | bad (c : Cause)
  | owned (s : State)

/-- The bytes of memory an operation still has to write (R182): from its next unit to its end. -/
def EngOp.owns (o : EngOp) : Option (Nat × Nat) :=
  match o.kind with
  | .cpy _ (.mem a) len _ _ _ => some (a + 64 * o.unit, a + len)
  | .dzero d len => some (d + 1024 * o.unit, d + len)
  | .dcopy d _ len => some (d + 1024 * o.unit, d + len)
  | _ => none

/-- An engine operation owns a line (R182); its range of addresses may run past 2^64, where it goes on from 0. -/
def EngOp.ownsLine (o : EngOp) (asid line : Nat) : Bool :=
  asidOf o.aspace == asid && (match o.owns with
    | some (lo, hi) => lo < hi && ((lo / 64 ≤ line && line ≤ (hi - 1) / 64) || (lo / 64 ≤ line + 2 ^ 58 && line + 2 ^ 58 ≤ (hi - 1) / 64))
    | none => false)

/-- Some outstanding engine operation owns a line (R182). -/
def isOwned (s : State) (asid line : Nat) : Bool := s.harts.any fun p => p.2.ops.any fun o => o.ownsLine asid line

/-- The bytes of memory an operation still has to read, as ranges (R218, R223, R226, R229); a walk reads in the order of R298, which orders its
loads after the hart's earlier accesses only. (DEDUCED, assumption 74) -/
def EngOp.unread (o : EngOp) : List (Nat × Nat) :=
  match o.kind with
  | .cpy (.mem a) _ len _ _ _ => [(a + 64 * o.unit + o.ahead.length, a + len)]
  | .dcopy _ a len => [(a + 1024 * o.unit, a + len)]
  | .gthr base stride rw cnt active idx _ =>
    ((List.range cnt).filter fun j => 64 * o.unit ≤ j && mbit active j).map fun j =>
      let a := (base + 4 * stride * (idx.slot j).toNat) % 2 ^ 64
      (a, a + 4 * rw)
  | .embag base stride ni _ _ _ idx _ bags _ _ _ =>
    ((List.range ni).filter fun j => o.unit ≤ (bags.slot j).toNat).map fun j =>
      let a := (base + 4 * stride * (idx.slot j).toNat) % 2 ^ 64
      (a, a + 256)
  | _ => []

/-- The window bytes an operation still has to write, as ranges of offsets (R218, R223); a walk's are not known before it writes them
(`coverWalks`). -/
def EngOp.winWrites (o : EngOp) : List (Nat × Nat) :=
  match o.kind with
  | .cpy _ (.win a) len _ _ _ => [(a + 64 * o.unit, a + len)]
  | .gthr _ _ rw cnt _ _ (.win a) => [(a + 256 * rw * o.unit, a + 4 * rw * cnt)]
  | _ => []

/-- The window bytes an operation still has to read (R218). -/
def EngOp.winReads (o : EngOp) : List (Nat × Nat) :=
  match o.kind with
  | .cpy (.win a) _ len _ _ _ => [(a + 64 * o.unit + o.ahead.length, a + len)]
  | _ => []

/-- An operation reaches the crew window. -/
def EngOp.reachesWindow (o : EngOp) : Bool :=
  match o.kind with
  | .walk _ => true
  | _ => o.winReads ++ o.winWrites != []

/-- Window bytes that an access of a hart's vector agent has written: the walks issued before it leave them alone, since accesses to common bytes
take effect in issue order (R168, R182). `seq` is the number of the accessing operation, none for an instruction. (DEDUCED, assumption 74) -/
def coverWalks (s : State) (uid : Nat) (seq : Option Nat) (off n : Nat) : State :=
  if (s.hart uid).ops.any fun o => match o.kind with
    | .walk _ => true
    | _ => false
  then s.modHart uid fun h => { h with ops := h.ops.map fun o =>
    match o.kind with
    | .walk w => if o.seq < seq.getD (o.seq + 1) then { o with kind := .walk { w with yields := (off, off + n) :: w.yields } } else o
    | _ => o }
  else s

/-- A vector store of a hart to window bytes comes after the accesses to them of an operation the hart issued before (R168, R174).
(DEDUCED, assumption 74) -/
def winBefore (h : Hart) (off n : Nat) : Bool := h.ops.any fun o => (o.winReads ++ o.winWrites).any fun r => r.1 < off + n && off < r.2

/-- A write of an operation to window bytes comes after those of an earlier operation of its hart (R182). -/
def winBehind (h : Hart) (o : EngOp) (off n : Nat) : Bool :=
  h.ops.any fun q => q.seq < o.seq && q.winWrites.any fun r => r.1 < off + n && off < r.2

/-- A vector access of a hart to some bytes comes after the reads of an operation the hart issued before (R168, R174); a range may run past 2^64.
(DEDUCED, assumption 74) -/
def readBefore (h : Hart) (asid va n : Nat) : Bool :=
  h.ops.any fun o => asidOf o.aspace == asid && o.unread.any fun r =>
    (r.1 < va + n && va < r.2) || (r.1 < va + 2 ^ 64 + n && va + 2 ^ 64 < r.2)

/-- The outstanding engine operations with their harts. -/
def engOps (s : State) : List (Nat × EngOp) := s.harts.flatMap fun p => p.2.ops.map fun o => (p.1, o)

/-- The lines that the next unit of a copy, a zeroing or a page copy reads and writes. -/
def EngOp.nextLines (o : EngOp) (write : Bool) : List Nat :=
  let span (a n : Nat) : List Nat := if n = 0 then [] else tabulate ((a + n - 1) / 64 + 1 - a / 64) fun i => (a / 64 + i) % 2 ^ 58
  match o.kind, write with
  | .cpy (.mem a) _ len _ _ _, false => span (a + 64 * o.unit) (min 64 (len - 64 * o.unit))
  | .cpy _ (.mem a) len _ _ _, true => span (a + 64 * o.unit) (min 64 (len - 64 * o.unit))
  | .dcopy _ a _, false => span (a + 1024 * o.unit) 1024
  | .dcopy a _ _, true => span (a + 1024 * o.unit) 1024
  | .dzero a _, true => span (a + 1024 * o.unit) 1024
  | _, _ => []

/-- Operation `q` cannot go on before operation `p`: it stands behind it in its engine, or its next unit meets a line `p` owns that it must
wait for (R182, R211). -/
def opBehind (q p : Nat × EngOp) : Bool :=
  let asid := asidOf q.2.aspace
  (q.1 == p.1 && q.2.eng == p.2.eng && p.2.seq < q.2.seq)
    || ((q.1 != p.1 || p.2.seq < q.2.seq) && q.2.seq != p.2.seq && (q.2.nextLines false).any fun l => p.2.ownsLine asid l)
    || (p.2.seq < q.2.seq && (q.2.nextLines true).any fun l => p.2.ownsLine asid l)

/-- The operations that those of a list, by issue number, cannot go on before, the list among them. -/
def waitSet (ops : List (Nat × EngOp)) : Nat → List Nat → List Nat
  | 0, l => l
  | n + 1, l => waitSet ops n ((ops.filter fun p => l.contains p.2.seq || ops.any fun q => l.contains q.2.seq && opBehind q p).map fun p => p.2.seq)

/-- A line is owned by an operation that an engine access of another must wait for (R182). A write waits for an earlier issue. A read waits
for an earlier issue of its hart (R168, R174) and for any operation of another hart, but for one that itself cannot go on before the reading
one. (DEDUCED, assumption 27) -/
def ownedByOther (s : State) (o : EngOp) (write : Bool) (asid line : Nat) : Bool :=
  let ops := engOps s
  ops.any fun q => q.2.seq != o.seq && q.2.ownsLine asid line && (q.2.seq < o.seq
    || (!write && (ops.all fun p => p.2.seq != o.seq || p.1 != q.1) && !(waitSet ops ops.length [q.2.seq]).contains o.seq))

/-- The cause of a failed access (R189): loads, stores and read-modify-writes, fetches; none where the access waits for the host (R416). -/
def missCause (k : Access) (m : Miss) : Option Cause :=
  match k, m with
  | .load, .page => some .loadPage | .load, .perm => some .loadPerm
  | .store, .page => some .storePage | .store, .perm => some .storePerm
  | .fetch, .page => some .fetchPage | .fetch, .perm => some .fetchPerm
  | _, .data => some .dataError
  | _, .wait => none

/-- How a hart's access under an ASID ends that has no translation or no data. -/
def missAcc {α : Type} (s : State) (asid : Nat) (k : Access) (m : Miss) : Acc α :=
  match missCause k m with
  | some c => .bad c
  | none => .owned (noteWait s asid)

/-- Steps 1 to 3 of R189 for an access of `n` bytes whose unit is `u`: MISALIGN, CREW_WINDOW, a non-canonical address. -/
def addrCheck (winSize : Nat) (k : Access) (va n u : Nat) : Option Cause :=
  if va % u ≠ 0 then some .misalign
  else if va < winBase ∧ winBase < va + n then some .misalign
  else if inWindow va then (if winSize < va - winBase + n then some .crewWindow else none)
  else if !canonical va then missCause k .page
  else none

/-- The window allocation of a hart's crew (R27). -/
def winSizeOf (s : State) (h : Hart) : Nat := (s.crew h.crew).winSize

/-- Window bytes at an offset. -/
def winRead (s : State) (crew off n : Nat) : List Byte := memRead (s.crew crew).win off n

/-- Some window bytes lie in a doubleword with an uncorrectable error (R379, R380). -/
def winBad (s : State) (crew off n : Nat) : Bool := (s.crew crew).badWin.any fun d => 8 * d < off + n && off < 8 * d + 8

/-- Window bytes written at an offset: performed at the bank at once (R170). A doubleword written whole holds no error any more. -/
def winWrite (s : State) (crew off : Nat) (b : List Byte) : State :=
  let c := s.crew crew
  s.setCrew crew { c with win := memWrite c.win off b, badWin := c.badWin.filter fun d => !(off ≤ 8 * d && 8 * d + 8 ≤ off + b.length) }

/-- A store is seen by an agent of its own hart: its own agent always, the other once ordered by a fence (R174, R176). -/
def PStore.seen (p : PStore) (asid : Nat) (vec : Bool) : Bool := p.asid == asid && (p.vec == vec || p.hvis)

/-- One byte of a load after forwarding from the hart's own stores and its version (R174, R262). -/
def forward (h : Hart) (asid : Nat) (vec : Bool) (va : Nat) (b : Byte) : Byte :=
  let b := h.stores.foldl (fun b p => if p.seen asid vec && p.va ≤ va then (p.bytes.getD (va - p.va) none).getD b else b) b
  match h.version.find? fun e => e.asid == asid && e.va == va with
  | some e => e.byte
  | none => b

/-! ## Loads performed early and late (R174, R175) (DEDUCED, assumption 10) -/

/-- Two ranges of addresses meet. -/
def rangesMeet (a n b m : Nat) : Bool := a < b + m && b < a + n

/-- What an agent of a hart has read ahead that holds every byte of an access. -/
def Hart.readAhead (h : Hart) (vec : Bool) (asid va n : Nat) : Option Ahead :=
  h.ahead.find? fun a => a.vec == vec && a.asid == asid && a.va ≤ va && va + n ≤ a.va + a.bytes.length

/-- The bytes a load returns, those its agent has read ahead in place of those it finds now (R174). -/
def Hart.early (h : Hart) (vec : Bool) (asid va : Nat) (b : List Byte) : List Byte :=
  match h.readAhead vec asid va b.length with
  | some a => (a.bytes.drop (va - a.va)).take b.length
  | none => b

/-- What an agent has read ahead that a test accepts is forgotten. -/
def Hart.forget (h : Hart) (test : Ahead → Bool) : Hart := { h with ahead := h.ahead.filter fun a => !test a }

/-- What an agent has read ahead is forgotten where it holds some bytes of an access and not all of them, so that no load returns a mixture
(R172). -/
def Hart.wholeAhead (h : Hart) (vec : Bool) (asid va n : Nat) : Hart :=
  h.forget fun a => a.vec == vec && a.asid == asid && rangesMeet a.va a.bytes.length va n && !(a.va ≤ va && va + n ≤ a.va + a.bytes.length)

/-- The accesses of a load that may still be performed, less those a test on an address accepts: they count as performed at the load's issue. -/
def Late.settle (l : Late) (test : Nat → Bool) : Late :=
  { l with slots := l.slots.filter fun p => !test p.2.2, x := l.x.filter fun p => !test p.2.2.2 }

/-- The loads of an agent of a hart performed where a test on an address accepts. -/
def Hart.performLoads (h : Hart) (agents : Bool → Bool) (test : Nat → Nat → Bool) : Hart :=
  { h with landing := h.landing.map fun l => { l with late := l.late.map fun a => if agents a.vec then a.settle (test a.asid) else a } }

/-- An agent of a hart accesses some ranges of bytes after what stands before in program order: its earlier loads of their lines have been
performed, and what it has read of the bytes ahead is used up, or replaced by a store (R174). -/
def Hart.accessed (h : Hart) (vec : Bool) (ranges : List (Nat × Nat)) : Hart :=
  let asid := asidOf h.aspace
  (h.performLoads (· == vec) fun a va => a == asid && ranges.any fun r => (linesOf r.1 r.2).contains (va / 64)).forget fun a =>
    a.vec == vec && a.asid == asid && ranges.any fun r => rangesMeet a.va a.bytes.length r.1 r.2

/-- The earlier loads of some agents of a hart are performed (R177, R179, R185). -/
def Hart.loadsDone (h : Hart) (scalar vector : Bool) : Hart := h.performLoads (fun v => if v then vector else scalar) fun _ _ => true

/-- The later accesses of some agents of a hart come after this point: what they have read ahead is forgotten (R177, R179, R185). -/
def Hart.loadsHeld (h : Hart) (scalar vector : Bool) : Hart := h.forget fun a => if a.vec then vector else scalar

/-! ## Retention of a quad store (R381) -/

/-- The quad store of a crew is entering, in or leaving retention (R381). -/
def storeAsleep (s : State) (crew : Nat) : Bool :=
  match (s.crew crew).quad with
  | some q => s.mgmt.asleep.any fun e => e.1 == .store q
  | none => false

/-- The bytes of a load of one line, with L1 and L2 effects by policy (R165): `.ca` may hit a clean copy of the core's L1. -/
def loadLine (s : State) (uid : Nat) (vec : Bool) (pol : Nat) (va n : Nat) : Acc (List Byte) :=
  let h := s.hart uid
  let asid := asidOf h.aspace
  let line := va / 64
  let fwd (d : List Byte) : List Byte :=
    let b := h.early vec asid va (tabulate n fun i => d.getD (va % 64 + i) 0)
    tabulate n fun i => forward h asid vec (va + i) (b.getD i 0)
  if isOwned s asid line then .owned s
  else
    let updated := s.upd.any fun u => u.asid == asid && u.line == line
    let hit := if pol = 0 ∧ !updated then s.l1.find? fun l => l.core == h.core && l.asid == asid && l.line == line else none
    match hit with
    | some l => if !l.rights.grants h.priv .load then .bad .loadPerm else if l.bad then .bad .dataError else .ok s (fwd l.data)
    | none =>
      if retained s va then .owned (touchSlice s va)
      else match lineFor (touchSlice s va) h.aspace h.priv .load va with
      | .error e => missAcc s asid .load e
      | .ok (t, l) =>
        let s := dropL1Core t h.core asid line
        let s := if pol = 0 && !isHost (l.frame * 64) then { s with l1 := { core := h.core, asid := asid, line := line, data := l.data, rights := l.rights, frame := l.frame } :: s.l1 } else s
        let s := if pol = 2 then l2put s { l with early := true } else s
        .ok s (fwd l.data)

/-- The bytes of a load that may cross lines, in pieces of 32 bytes (R198). -/
def loadPieces (uid : Nat) (vec : Bool) (pol : Nat) : Nat → State → Nat → List Byte → Acc (List Byte)
  | 0, s, _, acc => .ok s acc
  | k + 1, s, va, acc =>
    match loadLine s uid vec pol va 32 with
    | .ok s b => loadPieces uid vec pol k s (va + 32) (acc ++ b)
    | .bad c => .bad c
    | .owned s => .owned s

/-- A load of a hart (R189, R192, R196): `n` bytes of unit `u`. (DEDUCED, assumption 10) -/
def loadAcc (s : State) (uid : Nat) (vec : Bool) (pol : Nat) (va n u : Nat) : Acc (List Byte) :=
  let h := s.hart uid
  match addrCheck (winSizeOf s h) .load va n u with
  | some c => .bad c
  | none =>
    if inWindow va then
      (if storeAsleep s h.crew then .owned s
      else if winBad s h.crew (va - winBase) n then .bad .dataError
      else .ok s (h.early vec (asidOf h.aspace) va (winRead s h.crew (va - winBase) n)))
    else if n ≤ 8 then loadLine s uid vec pol va n
    else loadPieces uid vec pol (n / 32) s va []

/-- The lines a version holds (R263). -/
def versionLines (v : List VerByte) : List (Nat × Nat) := (v.map fun e => (e.asid, e.va / 64)).eraseDups

/-- One byte set in a version. -/
def versionSet (v : List VerByte) (e : VerByte) : List VerByte := e :: v.filter fun k => !(k.asid == e.asid && k.va == e.va)

/-- The bytes of a store put into a version (R262), under the store's translation. -/
def versionPut (v : List VerByte) (asid a pa : Nat) (r : Rights) : List Byte → List VerByte
  | [] => v
  | b :: l => versionPut (versionSet v { asid := asid, va := a, pa := pa, rights := r, byte := b }) asid (a + 1) (pa + 1) r l

/-- The clean L1 copy that a store's access hits, when its recorded bits decide the store (R315). -/
def storeHit (s : State) (h : Hart) (pol line : Nat) : Option L1Line :=
  let asid := asidOf h.aspace
  if pol = 0 && !s.upd.any (fun u => u.asid == asid && u.line == line) then
    s.l1.find? fun l => l.core == h.core && l.asid == asid && l.line == line && l.rights.w && l.rights.d
  else none

/-- The rights and the frame that a store is made under (R315): those its core's L1 copy records, or those of the line at the L2, which a fresh
translation has given where they lacked W or D; the core's copy then records them too. -/
def storeRights (s : State) (h : Hart) (pol va : Nat) : Except Miss (State × Rights × Nat) :=
  match storeHit s h pol (va / 64) with
  | some l => if l.rights.grants h.priv .store then .ok (s, l.rights, l.frame) else .error .perm
  | none =>
    match lineFor s h.aspace h.priv .store va with
    | .error e => .error e
    | .ok (s, l) =>
      .ok ({ s with l1 := s.l1.map fun c => if c.core = h.core ∧ c.asid = asidOf h.aspace ∧ c.line = va / 64 then { c with rights := l.rights, frame := l.frame } else c },
        l.rights, l.frame)

/-- The L2 line of an address marked for early eviction (R165). -/
def markEarly (s : State) (asid line : Nat) : State :=
  { s with l2 := s.l2.map fun l => if l.asid = asid ∧ l.line = line then { l with early := true } else l }

/-- What the policy of a store does to the copies of its line (R165): one other than `.ca` leaves none in the core's L1. -/
def policyCopies (s : State) (core asid line pol : Nat) : State :=
  let s := if pol = 0 then s else dropL1Core s core asid line
  if pol = 2 then markEarly s asid line else s

/-- A store of a hart (R189, R170): checked and translated, then held in the hart's store path until its home acknowledges
it; in a versioned farm it is held as the strip's version instead (R262), which has room for 16,384 lines (R263). (DEDUCED, assumption 11) -/
def storeAcc (s : State) (uid : Nat) (vec : Bool) (pol : Nat) (va : Nat) (b : List Byte) (u : Nat) : Acc Unit :=
  let h := s.hart uid
  let asid := asidOf h.aspace
  match addrCheck (winSizeOf s h) .store va b.length u with
  | some c => .bad c
  | none =>
    if inWindow va then
      (if storeAsleep s h.crew || (vec && winBefore h (va - winBase) b.length) then .owned s
      else
        let s := if vec then coverWalks s uid none (va - winBase) b.length else s
        .ok (winWrite s h.crew (va - winBase) b) ())
    else if isOwned s asid (va / 64) then .owned s
    else if retained s va then .owned (touchSlice s va)
    else
      match storeRights (touchSlice s va) h pol va with
      | .error e => missAcc s asid .store e
      | .ok (s, r, frame) =>
        let s := policyCopies s h.core asid (va / 64) pol
        if h.kern.versioned then
          let ls := versionLines h.version
          if !ls.contains (asid, va / 64) ∧ 16384 ≤ ls.length then .bad .storePerm
          else .ok (s.modHart uid fun h => { h with version := versionPut h.version asid va (frame * 64 + va % 64) r b }) ()
        else
          let s := if hostDown s frame then noteWait s asid else s
          .ok (s.modHart uid fun h => { h with stores := h.stores ++
            [{ vec := vec, asid := asid, va := va, pa := frame * 64 + va % 64, bytes := b.map some, rights := r }] }) ()

/-! ## Acknowledgement (R170) -/

/-- A store writes a byte. -/
def PStore.writes (p : PStore) (va : Nat) : Bool := p.va ≤ va && (p.bytes.getD (va - p.va) none).isSome

/-- Two stores touch a common byte. -/
def PStore.overlaps (p q : PStore) : Bool := p.asid == q.asid && (List.range p.bytes.length).any fun i => p.writes (p.va + i) && q.writes (p.va + i)

/-- One store performed at its home. A store to host memory stays awaited until the host acknowledges it (R178, R187), by a fence that waits
for the store too. A hart that is not resident has no L1 to keep a copy in. -/
def performStore (s : State) (uid : Nat) (p : PStore) : State :=
  let s := homeWrite (touchSlice s p.va) (((s.hart uid).place.map coreOf).getD 160) p.asid p.va p.pa p.rights p.bytes
  let k := (p.asid, p.va / 64)
  if isHost p.pa then s.modHart uid fun h => { h with
    hostLines := (h.hostLines ++ [k]).eraseDups
    fences := h.fences.map fun f => if p.fenced.contains f.id then { f with lines := f.lines ++ [k] } else f } else s

/-- A store of a hart is performed before a later one of it to a common byte, where both are one agent's or a fence has made either visible to
the other agent, which has then read them in that order (R174, R176, R170, R171). -/
def PStore.precedes (p q : PStore) : Bool := p.overlaps q && (p.vec == q.vec || p.hvis || q.hvis)

/-- A store may not be performed yet: an engine owns its line (R182), its slice is in retention (R381), its line is the host's and both links
are down (R416), or an earlier operation of its hart has still to read one of its bytes (R168, R174). -/
def PStore.waits (s : State) (uid : Nat) (p : PStore) : Bool :=
  isOwned s p.asid (p.va / 64) || retained s p.va || hostDown s (p.pa / 64) || (p.vec && readBefore (s.hart uid) p.asid p.va p.bytes.length)

/-- The stores to perform and those that stay: the ones a test accepts, and the earlier ones that must come before them. -/
def splitStores (test : PStore → Bool) : List PStore → List PStore × List PStore
  | [] => ([], [])
  | p :: r =>
    let (a, k) := splitStores test r
    if test p || a.any p.precedes then (p :: a, k) else (a, p :: k)

/-- The stores of a hart that a test accepts performed in order, with those that precede them; the others stay. -/
def settle (s : State) (uid : Nat) (test : PStore → Bool) : State :=
  let (a, k) := splitStores test (s.hart uid).stores
  a.foldl (fun s p => performStore s uid p) (s.modHart uid fun h => { h with stores := k })

/-- Some store that a drain would perform may not be performed yet. -/
def drainWaits (s : State) (uid : Nat) (test : PStore → Bool) : Bool := (splitStores test (s.hart uid).stores).1.any fun p => p.waits s uid

/-- Every earlier store of a hart performed at its home (R177, R185). -/
def drainAll (s : State) (uid : Nat) : State := settle s uid fun _ => true

/-- The earlier stores of one agent of a hart performed at their homes. -/
def drainAgent (s : State) (uid : Nat) (vec : Bool) : State := settle s uid fun p => p.vec == vec

/-- The stores of some agents made visible to the hart's other agent (R178, scope .h). -/
def showStores (s : State) (uid : Nat) (scalar vector : Bool) : State :=
  s.modHart uid fun h => { h with stores := h.stores.map fun p => if (p.vec && vector) || (!p.vec && scalar) then { p with hvis := true } else p }

/-- The loads of some agents of a hart performed, and what some have read ahead forgotten. -/
def orderLoads (s : State) (uid : Nat) (xs xv ys yv : Bool) : State := s.modHart uid fun h => (h.loadsDone xs xv).loadsHeld ys yv

/-- The ASIDs of the context that owns an ASID (R311): a hart's earlier stores may have been made under any of them. -/
def kinAsids (s : State) (asid : Nat) : List Nat :=
  asid :: s.ctxs.flatMap fun p => let l := p.2.asids.map (·.toNat); if l.contains asid then l else []

/-- What a release at scope .s does beyond the acknowledgements (R178): the dirty lines of the context's ASIDs are written back and its
update-only lines merged; host lines are left to the host's acknowledgement. -/
def flushSystem (s : State) (asid : Nat) : State :=
  let kin := kinAsids s asid
  let s := (s.upd.filter fun u => kin.contains u.asid).foldl (fun s u => recallLine s u.asid u.line) s
  (s.l2.filter fun l => kin.contains l.asid && !isHost (l.frame * 64)).foldl writeBack s

/-- The earlier accesses of some agents of a hart (`xs` scalar, `xv` vector) performed at a scope, before the later ones of some (`ys`, `yv`):
at .h a store is shown to the other agent where the later accesses are that agent's (R177, R178). -/
def performAt (s : State) (uid : Nat) (scope : Nat) (xs xv ys yv : Bool) : State :=
  let s := orderLoads s uid xs xv ys yv
  if scope = 0 then showStores s uid (xs && yv) (xv && ys)
  else
    let s := settle s uid fun p => (p.vec && xv) || (!p.vec && xs)
    if scope = 3 then flushSystem s (asidOf (s.hart uid).aspace) else s

/-! ## Atomics and reduction updates (R180, R181, R203, R204) -/

/-- An indivisible read-modify-write of `n` bytes at the home or the bank (R180): the old value. Earlier stores of the same
agent to common bytes take effect first (R174); the core's L1 copy is dropped. -/
def atomicAcc (s : State) (uid : Nat) (vec : Bool) (va n : Nat) (f : Nat → Nat) : Acc Nat :=
  let h := s.hart uid
  let asid := asidOf h.aspace
  match addrCheck (winSizeOf s h) .store va n n with
  | some c => .bad c
  | none =>
    if inWindow va then
      if storeAsleep s h.crew then .owned s
      else if winBad s h.crew (va - winBase) n then .bad .dataError
      else
        let old := natOf (winRead s h.crew (va - winBase) n)
        .ok (winWrite s h.crew (va - winBase) (bytesOf n (f old))) old
    else if isOwned s asid (va / 64) || drainWaits s uid (fun p => p.asid == asid && p.va / 64 == va / 64 && (p.vec == vec || p.hvis)) then .owned s
    else if retained s va then .owned (touchSlice s va)
    else
      let s := settle (touchSlice s va) uid fun p => p.asid == asid && p.va / 64 == va / 64 && (p.vec == vec || p.hvis)
      match lineFor s h.aspace h.priv .store va with
      | .error e => missAcc s asid .store e
      | .ok (t, l) =>
        if hostDown s l.frame then .owned (noteWait s asid)
        else
        let s := t
        let old := natOf ((l.data.drop (va % 64)).take n)
        let s := l2put s (lineWrite l (va % 64) (bytesOf n (f old)))
        let s := dropL1Core s h.core asid (va / 64)
        .ok (if isHost (l.frame * 64) then s.modHart uid fun h => { h with hostLines := (h.hostLines ++ [(asid, va / 64)]).eraseDups } else s) old

/-- An update added to the core's update-only line (R181). -/
def bufferUpdate (s : State) (core asid line : Nat) (op : RedOp) (wide : Bool) (off : Nat) (w : Word) (r : Rights) (frame : Nat) : State :=
  match s.upd.find? fun u => u.core == core && u.asid == asid && u.line == line with
  | some u => { s with upd := s.upd.map fun k => if k.core = core ∧ k.asid = asid ∧ k.line = line then { u with items := u.items ++ [(off, w)] } else k }
  | none => { (dropL1Core s core asid line) with
      upd := s.upd ++ [{ core := core, asid := asid, line := line, op := op, wide := wide, items := [(off, w)], rights := r, frame := frame }] }

/-- A RED or one element of a VREDM (R204, R205): performed at its bank in the window, else buffered in an update-only line of
the core; copies of another operation or size are recalled first. -/
def redAcc (s : State) (uid : Nat) (vec : Bool) (op : RedOp) (wide : Bool) (va : Nat) (w : Word) : Acc Unit :=
  let h := s.hart uid
  let asid := asidOf h.aspace
  let n := if wide then 8 else 4
  let line := va / 64
  match addrCheck (winSizeOf s h) .store va n n with
  | some c => .bad c
  | none =>
    if inWindow va then
      if storeAsleep s h.crew then .owned s
      else if winBad s h.crew (va - winBase) n then .bad .dataError
      else if vec && winBefore h (va - winBase) n then .owned s
      else
        let old := natOf (winRead s h.crew (va - winBase) n)
        let s := if vec then coverWalks s uid none (va - winBase) n else s
        .ok (winWrite s h.crew (va - winBase) (bytesOf n (redInt op (8 * n) old (w.toNat % 2 ^ (8 * n))))) ()
    else if isOwned s asid line || (vec && readBefore h asid va n)
        || drainWaits s uid (fun p => p.asid == asid && p.va / 64 == line && (p.vec == vec || p.hvis)) then .owned s
    else if retained s va then .owned (touchSlice s va)
    else
      let s := settle (touchSlice s va) uid fun p => p.asid == asid && p.va / 64 == line && (p.vec == vec || p.hvis)
      match s.upd.find? fun u => u.asid == asid && u.line == line && u.op == op && u.wide == wide && u.rights.grants h.priv .store with
      | some u => .ok (bufferUpdate s h.core asid line op wide (va % 64) w u.rights u.frame) ()
      | none =>
        match lineFor s h.aspace h.priv .store va with
        | .error e => missAcc s asid .store e
        | .ok (s, l) => .ok (bufferUpdate s h.core asid line op wide (va % 64) w l.rights l.frame) ()

/-! ## Fetch (R57 step 1, R73, R315) -/

/-- A byte as memory below the L1s holds it: the L2 copy, else through the tables. -/
def peekByte (s : State) (aspace : Word) (va : Nat) : Byte :=
  if !canonical va || inWindow va then 0
  else match l2find s (asidOf aspace) (va / 64) with
  | some l => l.data.getD (va % 64) 0
  | none =>
    match walk s aspace va with
    | .leaf _ _ _ ppn => physGet s (ppn * 4096 + va % 4096)
    | _ => 0

/-- The first address of the chunk of a chunked object that an address lies in, when the chunk's bytes, padded with zeros, do not
match its leaf (R73). -/
def chunkBad (s : State) (h : Hart) (va : Nat) : Option Nat :=
  let k := h.kern
  if k.chunks = [] ∨ va < k.chunkBase ∨ k.chunkBase + k.codeLen ≤ va then none
  else
    let i := (va - k.chunkBase) / 4096
    let bytes := tabulate 4096 fun j => if 4096 * i + j < k.codeLen then peekByte s h.aspace (k.chunkBase + 4096 * i + j) else 0
    if sha256 bytes == k.chunks.getD i [] then none else some (k.chunkBase + 4096 * i)

/-- The bytes of an instruction fetch at an address of a hart: from the core's L1 instruction cache, else through the L2, unless the line is an
engine's (R182), its slice in retention (R381) or the access the host's to answer (R416); a fetch that is translated has its chunk checked
(R73). A failure gives the cause and the fault address, and no cause where the fetch waits. (DEDUCED, assumption 53) -/
def fetchAcc (s : State) (uid : Nat) (va n : Nat) : Except (Option Cause × Nat) (State × List Byte) :=
  let h := s.hart uid
  let asid := asidOf h.aspace
  let line := va / 64
  if !canonical va ∨ inWindow va then .error (some .fetchPage, va)
  else
    match s.l1i.find? fun l => l.core == h.core && l.asid == asid && l.line == line with
    | some l =>
      if !l.rights.grants h.priv .fetch then .error (some .fetchPerm, va)
      else if l.bad then .error (some .dataError, va)
      else .ok (s, (l.data.drop (va % 64)).take n)
    | none =>
      let translated := (l2find s asid line).isNone
      if isOwned s asid line || retained s va then .error (none, va)
      else match lineFor (touchSlice s va) h.aspace h.priv .fetch va with
      | .error e => .error (missCause .fetch e, va)
      | .ok (s, l) =>
        match (if translated then chunkBad s h va else none) with
        | some a => .error (some .fetchPerm, a)
        | none =>
          .ok (if isHost (l.frame * 64) then s else { s with l1i := { core := h.core, asid := asid, line := line, data := l.data, rights := l.rights, frame := l.frame } :: s.l1i },
            (l.data.drop (va % 64)).take n)

end Sys2Proof.Machine
end

