-- ==== Sys2Proof/Machine/Grant.lean ====
section
/-! DEFINITION. Lanes: the grants of a core's resident harts, lending and reclaiming (spec/11_scheduling.md R257–R259,
spec/14_power.md R302, spec/17_menders.md R349). -/

namespace Sys2Proof.Machine

/-- The harts resident on a core, in hart-slot order. -/
def residents (s : State) (c : Nat) : List (Nat × Hart) :=
  (List.range 4).flatMap fun k => s.harts.filter fun p => p.2.place == some (4 * c + k)

/-- The hart in a hart slot. -/
def occupant (s : State) (slot : Nat) : Option (Nat × Hart) := s.harts.find? fun p => p.2.place == some slot

/-- A hart that is running its strip or has not ended (R258): running or frozen. -/
def Hart.active (h : Hart) : Bool :=
  match h.status with
  | .running | .frozen _ => true
  | _ => false

/-- The lane groups of a hart's minimum (R257). -/
def Hart.minGroups (h : Hart) : Nat := (h.kern.minVl + 63) / 64

/-- The lane groups a core's free mender pool slots reserve (R349). -/
def reserved (s : State) (c : Nat) : Nat :=
  s.ctxs.foldl (fun a p => a + (p.2.pool.countP fun slot => coreOf slot == c && (occupant s slot).isNone) * ((p.2.mender.minVl + 63) / 64)) 0

/-- `split(P, w)` of R257: the whole parts, then one more to each party in descending order of the discarded fraction, ties
to the earlier party. -/
def split (total : Nat) (w : List Nat) : List Nat :=
  let sum := w.foldl (· + ·) 0
  if sum = 0 then w.map fun _ => 0
  else
    let base := w.map fun x => total * x / sum
    let left := total - base.foldl (· + ·) 0
    let frac := w.map fun x => total * x % sum
    (List.range w.length).map fun i =>
      let before := (List.range w.length).countP fun j =>
        frac.getD i 0 < frac.getD j 0 || (frac.getD j 0 == frac.getD i 0 && j < i)
      base.getD i 0 + (if before < left then 1 else 0)

/-- A hart's own groups in the procedure of R257. -/
abbrev Gs := Table Nat

/-- One farm's turn of R257: its share split evenly over its harts of the core, each up to its preferred VL. -/
def grantFarm (harts : List (Nat × Hart)) (share : Nat) (p : Gs × Nat) : Gs × Nat :=
  ((harts.zip (split share (harts.map fun _ => 1)))).foldl (fun (q : Gs × Nat) x =>
    let g := tgetD q.1 x.1.1 0
    let add := min x.2 (x.1.2.kern.prefVl / 64 - g)
    (tput q.1 x.1.1 (g + add), q.2 - add)) p

/-- One class's turn of R257. -/
def grantClass (act : List (Nat × Hart)) (cls : Nat) (p : Gs × Nat) : Gs × Nat :=
  let mine := act.filter fun x => x.2.kern.cls == cls
  let keys := (mine.map fun x => (x.2.farm, x.2.ctx)).eraseDups
  let keys := sortBy (fun a b => a.1 < b.1 || (a.1 == b.1 && a.2 ≤ b.2)) keys
  let of (k : Nat × Nat) := mine.filter fun x => (x.2.farm, x.2.ctx) == k
  let shares := split p.2 (keys.map fun k => ((of k).head?.map fun x => x.2.kern.weight).getD 1)
  (keys.zip shares).foldl (fun q x => grantFarm (of x.1) x.2 q) p

/-- The walker of a farm has no strip to hand out (R249). -/
def Farm.empty (f : Farm) : Bool := f.requeued == [] && f.strips ≤ f.next

/-- A resident hart whose groups may be lent (R258): a strip-mode hart that has ended its strip while the walker is empty, or a member
that has ended. -/
def workless (s : State) (h : Hart) : Bool :=
  match h.status, h.role with
  | .idle, _ => (match s.farm? h.ctx h.farm with
    | some f => f.empty
    | none => true)
  | .ended, .member => true
  | _, _ => false

/-- The groups of each resident hart of a core by the procedure of R257, those that lend counted with the others. Groups withheld and groups
reserved for free mender pool slots are not in `avail`; a hart with nothing left to do that lends nothing keeps its minimum only (R258).
(DEDUCED, assumption 44) -/
def grantTable (s : State) (c withheld : Nat) : Gs :=
  let rs := residents s c
  let act := rs.filter fun p => p.2.lentTo.isSome || !workless s p.2
  let avail := (s.core c).count - withheld - reserved s c
  let g0 : Gs := rs.foldl (fun t p => tput t p.1 p.2.minGroups) []
  let avail := avail - rs.foldl (fun a p => a + p.2.minGroups) 0
  ((List.range 8).reverse.foldl (fun q cls => grantClass act cls q) (g0, avail)).1

/-- A hart's groups with those lent to it (R258): what the procedure gives its lenders, it holds. -/
def withLoans (rs : List (Nat × Hart)) (t : Gs) (uid : Nat) : Nat :=
  rs.foldl (fun a p => if p.2.lentTo = some uid then a + tgetD t p.1 0 else a) (tgetD t uid 0)

/-- The procedure of R257 run on a core: every grant set, each loan added to its borrower. -/
def regrant (s : State) (c : Nat) : State :=
  let t := grantTable s c (s.core c).withheld
  let rs := residents s c
  t.foldl (fun s p => s.modHart p.1 fun h => { h with grant := 64 * (if h.lentTo.isSome then p.2 else withLoans rs t p.1) }) s

/-- The borrower R258 picks for an idle hart: a hart of its farm on its core that is still running, of the smallest vgrant,
ties to the lower hartid. -/
def borrower (s : State) (owner : Hart) : Option Nat :=
  let cand := (residents s owner.core).filter fun p => p.2.active && p.2.ctx == owner.ctx && p.2.farm == owner.farm
  (cand.foldl (fun (b : Option (Nat × Nat)) p =>
    match b with
    | none => some (p.1, p.2.grant)
    | some q => if p.2.grant < q.2 then some (p.1, p.2.grant) else b) none).map (·.1)

/-- Every loan to a hart ended (R258). -/
def endLoans (s : State) (uid : Nat) : State :=
  { s with harts := tmap (fun _ h => if h.lentTo = some uid then { h with lentTo := none } else h) s.harts }

/-- One idle hart's groups lent, when a borrower exists, whose vgrant rises at once (R258); without one it keeps its minimum. -/
def lendOne (s : State) (uid : Nat) : State :=
  match borrower s (s.hart uid) with
  | some b => (s.modHart b fun k => { k with grant := k.grant + (s.hart uid).grant }).modHart uid fun h => { h with lentTo := some b }
  | none => s.modHart uid fun h => { h with grant := 64 * h.minGroups }

/-- Every loan that R258 asks for on a core is made, in hart-slot order, of the groups each owner holds; then R257 runs. -/
def relend (s : State) (c : Nat) : State :=
  regrant ((residents s c).foldl (fun s p =>
    let h := s.hart p.1
    if h.lentTo.isNone && workless s h then lendOne s p.1 else s) s) c

/-- The loans of every core on which a farm's harts reside (R258), after its walker has become empty. -/
def relendFarm (s : State) (c f : Nat) : State :=
  ((s.harts.filter fun p => p.2.ctx == c && p.2.farm == f && p.2.place.isSome).map fun p => p.2.core).eraseDups.foldl relend s

/-- A hart that has ended its work (R258): loans to it return to their owners, which lend again, and its own groups are lent when
nothing is left to hand out. -/
def lend (s : State) (uid : Nat) : State :=
  let c := (s.hart uid).core
  let mine := (residents s c).foldl (fun a p => if p.2.lentTo = some uid then a + p.2.grant else a) 0
  relend ((endLoans s uid).modHart uid fun h => { h with grant := h.grant - mine }) c

/-- An owner takes back the groups it lent (R259); its first vector-class instruction waits for the borrower's in flight. -/
def reclaim (s : State) (uid : Nat) : State :=
  let s := s.modHart uid fun h => { h with lentTo := none, owes := h.lentTo.map fun b => (b, (s.hart b).cycle) }
  regrant s (s.hart uid).core

/-- The clock a core goes to, by the changes under way and waiting, or the one in force. -/
def Core.target (k : Core) : Nat := k.next.getD (k.changing.getD k.mhz)

/-- A change of a core's clock begins, or follows the one under way, which completes first (R308). -/
def setClock (s : State) (c mhz : Nat) : State :=
  let k := s.core c
  if k.target = mhz then s
  else match k.changing with
    | some m => s.setCore c { k with next := if m = mhz then none else some mhz }
    | none => s.setCore c { k with changing := some mhz, changeAt := s.hub }

/-- The cores of a quad that run above a clock fall to it (R305, R307, R308): a clock change begins on each. -/
def slowQuad (s : State) (q mhz : Nat) : State :=
  (List.range 4).foldl (fun s i => if mhz < (s.core (4 * q + i)).target then setClock s (4 * q + i) mhz else s) s

/-- A quad holds a resident hart. -/
def quadBusy (s : State) (q : Nat) : Bool := s.harts.any fun p => (p.2.place.map fun x => quadOf x == q).getD false

/-- The claim of a quad follows from what enables it (R306): one that begins to stand gets its age, one that no longer stands is released;
the 50 µs at 1.75 GHz of R307 run on. -/
def noteClaim (s : State) (q : Nat) : State :=
  let x := s.quad q
  if x.boostOn && quadBusy s q then (if x.claimAt.isSome then s else s.setQuad q { x with claimAt := some s.hub })
  else
    let s := if x.claimAt.isSome ∨ x.boosting then s.setQuad q { x with claimAt := none, boosting := false } else s
    if x.boosting then slowQuad s q 1600 else s

/-- The time at which a quad's last crew leaves it (R381). -/
def noteEmpty (s : State) (q : Nat) : State := if quadBusy s q then s else s.setQuad q { (s.quad q) with emptyAt := s.hub }

/-- A hart leaves its core: loans by it and to it end, their owners lend again, and R257 runs. -/
def vacate (s : State) (uid : Nat) : State :=
  let c := (s.hart uid).core
  let s := endLoans s uid
  let s := s.modHart uid fun h => { h with place := none, lentTo := none }
  noteEmpty (noteClaim (relend s c) (c / 4)) (c / 4)

/-- The most groups power control may withhold on a core (R302). -/
def withholdLimit (s : State) (c : Nat) : Nat :=
  (s.core c).count - (residents s c).foldl (fun a p => a + p.2.minGroups) 0 - reserved s c

end Sys2Proof.Machine
end

