-- ==== Sys2Proof/Machine/Tags.lean ====
section
/-! DEFINITION. Format tags (spec/02_state.md R35): the format a 10-bit tag names, and the tag of a format. -/

namespace Sys2Proof.Machine

/-- The format a non-reserved tag names (R35). `plane k` is the k-plane format, `fixed w s` a FIXED format of width
`w` and `s` fractional bits, `scale lg short` a SCALE of grouping `2^lg` and block length 16 (`short`) or 32. -/
inductive Fmt where
  | empty | i32 | i16 | i8 | u8 | i64
  | f32 | bf16 | f16 | e4m3 | e5m2 | e2m1
  | plane (k : Nat)
  | fixed (w s : Nat)
  | scale (lg : Nat) (short : Bool)
  | mimg
deriving DecidableEq, Repr

/-- The format of a tag; none for a reserved tag (R35). -/
def fmtOf (t : Tag) : Option Fmt :=
  let p := t.toNat % 128
  match t.toNat / 128 with
  | 0 => if p = 0 then some .empty else none
  | 1 => match p with
    | 0 => some .i32 | 1 => some .i16 | 2 => some .i8 | 3 => some .u8 | 4 => some .i64 | _ => none
  | 2 => match p with
    | 0 => some .f32 | 1 => some .bf16 | 2 => some .f16 | 3 => some .e4m3 | 4 => some .e5m2 | 5 => some .e2m1
    | _ => none
  | 3 => if 2 ≤ p ∧ p ≤ 8 then some (.plane p) else none
  | 4 => match p / 32 with
    | 0 => some (.fixed 32 (p % 32))
    | 1 => if p % 32 ≤ 15 then some (.fixed 16 (p % 32)) else none
    | 2 => some (.fixed 64 (p % 32))
    | _ => none
  | 5 => if p / 16 = 0 ∧ p % 8 < 6 then some (.scale (p % 8) (p / 8 % 2 = 1)) else none
  | 6 => if p = 0 then some .mimg else none
  | _ => none

/-- The tag of a format (R35). -/
def tagOf : Fmt → Tag
  | .empty => 0 | .i32 => 0x080 | .i16 => 0x081 | .i8 => 0x082 | .u8 => 0x083 | .i64 => 0x084
  | .f32 => 0x100 | .bf16 => 0x101 | .f16 => 0x102 | .e4m3 => 0x103 | .e5m2 => 0x104 | .e2m1 => 0x105
  | .plane k => BitVec.ofNat 10 (0x180 + k)
  | .fixed w s => BitVec.ofNat 10 (0x200 + (if w = 32 then 0 else if w = 16 then 32 else 64) + s)
  | .scale lg short => BitVec.ofNat 10 (0x280 + (if short then 8 else 0) + lg)
  | .mimg => 0x300

/-- A tag an encoding may name: neither EMPTY nor reserved (R52–R56). -/
def tagNamed (t : Tag) : Bool :=
  match fmtOf t with
  | none | some .empty => false
  | _ => true

/-- The tags every vector load but VLDB may name (R195). -/
def tagLoad (t : Tag) : Bool :=
  match fmtOf t with
  | none | some .empty | some (.plane _) => false
  | _ => true

/-- A tag of class PLANE (R198, R116). -/
def tagPlane (t : Tag) : Bool :=
  match fmtOf t with
  | some (.plane _) => true
  | _ => false

/-- The targets VCVT may name (R114): not PLANE and not MASKIMG. -/
def tagCvt (t : Tag) : Bool :=
  match fmtOf t with
  | none | some .empty | some (.plane _) | some .mimg => false
  | _ => true

/-- The format class bit of the opcode-use mask that a format belongs to (R63). -/
def fmtBit : Fmt → Option Nat
  | .empty => none
  | .i32 => some 64 | .i16 => some 65 | .i8 => some 66 | .u8 => some 67 | .i64 => some 68
  | .f32 => some 69 | .bf16 => some 70 | .f16 => some 71 | .e4m3 => some 72 | .e5m2 => some 73 | .e2m1 => some 74
  | .plane _ => some 75
  | .fixed w _ => some (if w = 32 then 76 else if w = 16 then 77 else 78)
  | .scale _ _ => some 79 | .mimg => some 80

/-- The format class bit of a tag (R63). -/
def tagBit (t : Tag) : Option Nat := (fmtOf t).bind fmtBit

/-- The width of a format (R113). -/
def Fmt.width : Fmt → Nat
  | .empty => 32 | .i32 => 32 | .i16 => 16 | .i8 => 8 | .u8 => 8 | .i64 => 64
  | .f32 => 32 | .bf16 => 16 | .f16 => 16 | .e4m3 => 8 | .e5m2 => 8 | .e2m1 => 4
  | .plane k => k
  | .fixed w _ => w
  | .scale _ _ => 8
  | .mimg => 32

/-- A 64-bit format, held in a register pair (R32). -/
def Fmt.pair (f : Fmt) : Bool := f.width == 64

end Sys2Proof.Machine
end

