-- ==== Sys2Proof/Machine/Ops.lean ====
section
/-! DEFINITION. The shared operations of a hart: barriers (spec/12_control_ops.md R277, R279), engine sequence numbers
(R43), taking a freeze (R346–R354, the exception of this machine), raising its event and spawning a mender (R349–R351), resuming
and killing a frozen hart (R359, R360), and the issue and the retirement of an instruction (R57–R60, R213, R289). -/

namespace Sys2Proof.Machine

/-- The outcome of a meaning. -/
abbrev Out := Host.Outcome State Fault Refusal

/-! ## Barriers -/

/-- Arrivals counted in the current phase (R277). -/
def Barrier.count (b : Barrier) : Nat := b.others + b.byRank.foldl (fun a p => a + p.2) 0

/-- The flip of a phase (R277). -/
def Barrier.flip (b : Barrier) : Barrier :=
  { b with phase := b.phase + 1, byRank := [], others := 0, shown := b.acc, acc := 0 }

/-- A hart as a phase of a barrier of its crew flips (R277): its event bit is set, and it is released when it waits at that barrier. -/
def Hart.flipped (h : Hart) (n : Nat) : Hart :=
  match h.barWait with
  | some w => if w.bar = n then { h with event := true, barWait := none, barGo := true, waiting := none } else { h with event := true }
  | none => { h with event := true }

/-- A flip's effect on the members of a crew (R277). -/
def wakeCrew (s : State) (crew n : Nat) : State :=
  { s with harts := tmap (fun _ h => if h.crew = crew then h.flipped n else h) s.harts }

/-- A barrier replaced, flipping at once when its arrivals reach the expected count. -/
def putBar (s : State) (crew n : Nat) (b : Barrier) : State :=
  if b.expect ≤ b.count then wakeCrew (s.setCrew crew ((s.crew crew).setBar n b.flip)) crew n
  else s.setCrew crew ((s.crew crew).setBar n b)

/-- One arrival at a barrier (R277): by a member of a rank, or by an operation. -/
def arriveAt (s : State) (crew n : Nat) (rank : Option Nat) : State :=
  let b := (s.crew crew).bar n
  putBar s crew n (match rank with
    | some r => { b with byRank := tput b.byRank r (tgetD b.byRank r 0 + 1) }
    | none => { b with others := b.others + 1 })

/-- The expected count lowered by one for a discarded operation (R144, R215, R279). -/
def lowerBar (s : State) (crew n : Nat) : State :=
  let b := (s.crew crew).bar n
  putBar s crew n { b with expect := b.expect - 1 }

/-- A member of rank `r` leaves one barrier (R279). (DEDUCED, assumption 36) -/
def leaveBar (s : State) (crew r n : Nat) : State :=
  let b := (s.crew crew).bar n
  if b.members.getLsbD r then
    putBar s crew n { b with members := b.members &&& ~~~(BitVec.ofNat 16 (2 ^ r)), expect := b.expect - 1, byRank := tdel b.byRank r }
  else s

/-- A hart leaves the barriers of its crew (R279). -/
def leaveBars (s : State) (uid : Nat) : State :=
  let h := s.hart uid
  (List.range h.kern.barriers).foldl (fun s n => leaveBar s h.crew h.rank n) s

/-- A hart's token of a barrier (R277). -/
def Hart.token (h : Hart) (b : Nat) : Option (BitVec 32) := (h.tokens.find? fun t => t.1 == b).map (·.2)

/-- A hart's token set or cleared. -/
def Hart.setToken (h : Hart) (b : Nat) (t : Option (BitVec 32)) : Hart :=
  { h with tokens := (match t with
    | some p => [(b, p)]
    | none => []) ++ h.tokens.filter fun x => x.1 != b }

/-- A hart that stops while a BWAIT or BARW waits (R270): the instruction has had no effect, so the arrival of a BARW is withdrawn and its
token put back. -/
def withdrawArrival (s : State) (uid : Nat) : State :=
  let h := s.hart uid
  match h.barWait with
  | none => s
  | some w =>
    let c := s.crew h.crew
    let b := c.bar w.bar
    let s := if w.arrived then s.setCrew h.crew (c.setBar w.bar { b with byRank := tput b.byRank h.rank (tgetD b.byRank h.rank 0 - 1) }) else s
    s.modHart uid fun h => { (if w.arrived then h.setToken w.bar w.token else h) with barWait := none }

/-- A report merged into a barrier's accumulating status word (R142). -/
def mergeStatus (acc : Word) (seq : Nat) (r : MatReport) : Word :=
  let a := acc.toNat
  let flags := bits a 7 0 ||| (1 + r.corrected.toNat * 2 + r.uncorrected.toNat * 4 + r.saturated.toNat * 8 + r.skipped.toNat * 16
    + r.scaleNan.toNat * 32)
  let count := min 0xFFFF (bits a 47 32 + r.count)
  let (first, kind) := if bits a 15 8 = 0 then (r.first, r.kind) else (bits a 31 16, bits a 15 8)
  BitVec.ofNat 64 (flags + kind % 256 * 2 ^ 8 + first % 65536 * 2 ^ 16 + count * 2 ^ 32 + seq % 65536 * 2 ^ 48)

/-- An operation's report merged and its arrival made (R141, R214). -/
def reportTo (s : State) (crew n seq : Nat) (r : MatReport) : State :=
  let b := (s.crew crew).bar n
  arriveAt (s.setCrew crew ((s.crew crew).setBar n { b with acc := mergeStatus b.acc seq r })) crew n none

/-- A hart's engines work: it is resident and its crew is not stopped (R366). -/
def working (s : State) (uid : Nat) : Bool := (s.hart uid).place.isSome && !(s.crew (s.hart uid).crew).stopped

/-! ## Signals and the error log -/

/-- MSI-X vector `n` signalled (R411): its pending bit. -/
def signal (s : State) (n : Nat) : State := { s with mgmt := { s.mgmt with msix := s.mgmt.msix ||| BitVec.ofNat 65 (2 ^ n) } }

/-- The number of a unit of the error log, which keys its counter of corrected errors (R384). -/
def LogUnit.key : LogUnit → Nat
  | .l1 => 0 | .l2 => 1 | .memory => 2 | .registers => 3 | .quadStore => 4 | .tlb => 5 | .engine => 6 | .core => 7 | .link => 8 | .swap => 9

/-- A unit of the module has an instance of a number (R8, R12, R16, R17). -/
def LogUnit.placed (u : LogUnit) (n : Nat) : Bool :=
  match u with
  | .l1 | .registers | .engine | .core => n < 160
  | .l2 => n < 64
  | .memory => n < 20
  | .quadStore => n < 40
  | .tlb => n < 30
  | .link => n < 18
  | .swap => n == 0

/-- An entry of the error log (R384) and, for a corrected error, the counter of its unit and core, slice or number: the newest 4096 are
kept; vector 0 is signalled (R411). Kind 1 is a corrected array error, 2 an uncorrectable one, 4 an engine hang, 5 a failed self-test,
6 a resent flit. -/
def logError (s : State) (kind : Nat) (unit : LogUnit) (place : Nat) (corrected : Bool) (addr : Nat) : State :=
  let e : LogEntry := { kind := kind, unit := unit, place := place, corrected := corrected, addr := addr, hub := s.hub % 2 ^ 64 }
  let l := s.mgmt.errors ++ [e]
  let k := 16 * place + unit.key
  let m := { s.mgmt with errors := l.drop (l.length - 4096)
                         corrected := if corrected then tput s.mgmt.corrected k (tgetD s.mgmt.corrected k 0 + 1) else s.mgmt.corrected }
  signal { s with mgmt := m } 0

/-! ## Sequence numbers -/

/-- seqcn (R43): the hart's first k operations to engine n are all complete. -/
def Hart.seqc (h : Hart) (n : Nat) : Nat :=
  if n = 7 then h.issued.getD 7 0 - h.mops.length
  else (h.ops.filter fun o => o.eng.val == n).foldl (fun a o => min a (o.ord - 1)) (h.issued.getD n 0)

/-- The task word (R353). -/
def Hart.taskWord (s : State) (h : Hart) : Word := BitVec.ofNat 64 (h.farm * 2 ^ 32 + (s.crew h.crew).number % 2 ^ 32)

/-! ## Events and menders (R349–R351, R362) -/

/-- The code of a cause (R348). -/
def Cause.code : Cause → Nat
  | .fetchPage => 1 | .fetchPerm => 2 | .loadPage => 3 | .loadPerm => 4 | .storePage => 5 | .storePerm => 6 | .misalign => 7
  | .illegalOp => 8 | .undeclaredOp => 9 | .format => 10 | .stallShort => 11 | .priv => 12 | .brk => 13 | .sysc => 14
  | .engine => 15 | .crewWindow => 16 | .dataError => 17 | .watchdog => 18 | .nested => 19

/-- The aspace of a context's first ASID, with the root table registered for it (R236). -/
def Context.aspace (c : Context) : Word := mkAspace (c.asids.headD 0) c.root

/-- A handle's value (R351). -/
def handleOf (num c : Nat) : Word := BitVec.ofNat 64 (num * 2 ^ 32 + c % 256 * 2 ^ 24)

/-- An event number is in use: by a valid handle or a queued event (R351). -/
def Context.usesEvent (k : Context) (num : Nat) : Bool :=
  (k.handles.any fun h => h.value.toNat / 2 ^ 32 == num) || (k.events.any fun e => !e.taken && e.handle.toNat / 2 ^ 32 == num)

/-- The next event number after one: ascending from 1, skipping numbers in use after a wrap (R351). -/
def Context.nextEvent (k : Context) : Nat → Nat → Nat
  | 0, n => n
  | f + 1, n =>
    let m := if n + 1 < 2 ^ 32 then n + 1 else 1
    if k.usesEvent m then k.nextEvent f m else m

/-- The bytes of a queue entry (R350). -/
def Event.bytes (e : Event) : List Byte :=
  bytesOf 8 e.handle.toNat ++ bytesOf 8 e.addr.toNat ++ bytesOf 8 e.pc.toNat ++ bytesOf 1 e.cause ++ bytesOf 1 e.depth
    ++ bytesOf 2 e.taken.toNat ++ bytesOf 4 e.farm

/-- A queue entry written to the pinned ring (R350). -/
def writeEntry (s : State) (c : Nat) (idx : Nat) (e : Event) : State :=
  let k := s.ctx c
  match agentWrite s k.aspace true (k.fzq.toNat + 32 * (idx % 2 ^ k.fzqLog)) e.bytes with
  | .ok s => hostPassAll s (asidOf k.aspace) (k.fzq.toNat + 32 * (idx % 2 ^ k.fzqLog)) 32
  | .error _ => s

/-- An event appended to a context's queue; a full queue contains the context (R350). -/
def queueEvent (s : State) (c : Nat) (e : Event) : State :=
  let k := s.ctx c
  if 2 ^ k.fzqLog ≤ k.events.length then s.setCtx c { k with containing := true }
  else writeEntry (s.setCtx c { k with events := k.events ++ [e], written := k.written + 1 }) c k.written e

/-- The number of leading entries that are taken. -/
def leadingTaken : List Event → Nat
  | [] => 0
  | e :: r => if e.taken then 1 + leadingTaken r else 0

/-- The queue after its entry of index `i` is dispatched (R350): marked taken, then `t` past the leading taken entries. The
mark is written to the ring when the entry is not the oldest. -/
def dispatchEntry (s : State) (c i : Nat) : State :=
  let k := s.ctx c
  let evs := modAt (fun e => { e with taken := true }) i k.events
  let n := leadingTaken evs
  let s := s.setCtx c { k with events := evs.drop n, taken := k.taken + n }
  if i = 0 then s
  else match evs[i]? with
    | some e => writeEntry s c (k.taken + i) e
    | none => s

/-- The state of R37 for a hart that starts: what a strip, a member and a mender have in common. -/
def freshHart (ctx farm crew rank slot : Nat) (role : Role) (kern : Kern) (aspace : Word) : Hart :=
  { ctx := ctx, farm := farm, crew := crew, rank := rank, role := role, priv := role == .mender, place := some slot
    kern := kern, aspace := aspace, pc := BitVec.ofNat 64 kern.entry }

/-- A mender spawned into a pool slot for an event (R349). -/
def spawnMender (s : State) (c slot : Nat) (e : Event) (frozen : Option Nat) : State :=
  let k := s.ctx c
  let uid := s.nextId
  let crew := s.nextId + 1
  let (asp, task) := match frozen with
    | some f => ((s.hart f).aspace, Hart.taskWord s (s.hart f))
    | none => (k.aspace, BitVec.ofNat 64 (e.farm * 2 ^ 32 + e.strip))
  let h := freshHart c 0 crew 0 slot .mender { k.mender with barriers := 0, shared := 0, nconst := 0, cls := 7, weight := 1 } asp
  let h := (((h.wx 16 e.handle).wx 17 (BitVec.ofNat 64 e.cause)).wx 18 e.addr).wx 19 task
  let s := { s with nextId := s.nextId + 2, harts := tput s.harts uid h
                    crews := tput s.crews crew { ctx := c, farm := 0, number := 0, harts := [uid], quad := some (quadOf slot), started := true } }
  let s := match frozen with
    | some f => s.setCtx c { k with handles := k.handles ++ [{ value := e.handle, hart := f, owner := uid }] }
    | none => s
  noteClaim (regrant s (coreOf slot)) (quadOf slot)

/-- The domain a context excludes others by (R334): whether two slots share it. -/
def sameDomain (d : Nat) (a b : Nat) : Bool := if d = 1 then coreOf a == coreOf b else if d = 2 then quadOf a == quadOf b else false

/-- Two contexts may not both be at two slots: the domain of one of them excludes it (R334). -/
def excludes (s : State) (c d slot x : Nat) : Bool := sameDomain (s.ctx c).domain slot x || sameDomain (s.ctx d).domain slot x

/-- A resident hart of another context bars a slot to a context (R334). -/
def hartBarred (s : State) (c slot : Nat) : Bool :=
  s.harts.any fun p => p.2.ctx != c && (p.2.place.map (excludes s c p.2.ctx slot)).getD false

/-- A pool slot in which a mender may start: free, and no resident hart of another context bars it (R334, R349). (DEDUCED, assumption 43) -/
def openSlot (s : State) (c slot : Nat) : Bool := (occupant s slot).isNone && !hartBarred s c slot

/-- The first free pool slot of a context (R350; which of several is the model's choice). -/
def freeSlot (s : State) (c : Nat) : Option Nat := (s.ctx c).pool.find? (openSlot s c)

/-- A free pool slot for a new event (R350): queued events, oldest first, come before it, so there is none while they can take every free slot. -/
def spareSlot (s : State) (c : Nat) : Option Nat :=
  let k := s.ctx c
  if k.pool.countP (openSlot s c) ≤ k.events.countP (fun e => !e.taken) then none else freeSlot s c

/-- The event of a frozen hart, with a new event number. (DEDUCED, assumption 45) -/
def newEvent (s : State) (c uid depth : Nat) (cause addr pc : Word) : State × Event :=
  let k := s.ctx c
  let n := k.nextEvent (k.handles.length + k.events.length + 1) k.lastEvent
  (s.setCtx c { k with lastEvent := n },
    { handle := handleOf n c, hart := uid, addr := addr, pc := pc, cause := cause.toNat, depth := depth, farm := (s.hart uid).farm, taken := false })

/-- The event a freeze raises (R350, R362): a mender is spawned at once or the event is queued; a mender's own freeze goes to
the root mender with depth 2 and cause NESTED, its inner cause in bits [15:8]. -/
def raiseEvent (s : State) (uid : Nat) (r : FrzRecord) : State :=
  let h := s.hart uid
  match h.role with
  | .mender =>
    s.modCtx h.ctx fun k => { k with rootEvents := k.rootEvents ++
      [{ handle := 0, hart := uid, addr := r.addr, pc := r.pc, cause := Cause.nested.code + r.cause.code * 256, depth := 2, farm := 0, taken := false }] }
  | _ =>
    let (s, e) := newEvent s h.ctx uid 1 (BitVec.ofNat 64 r.cause.code) r.addr r.pc
    match spareSlot s h.ctx with
    | some slot => spawnMender s h.ctx slot e (some uid)
    | none => queueEvent s h.ctx e

/-! ## Freezing (R346, R347, R354) -/

/-- The record of a freeze of a hart as it stands (R353). -/
def Hart.record (h : Hart) (c : Cause) (addr : Word) : FrzRecord :=
  { cause := c, addr := addr, pc := h.pc
    insn := if c = .fetchPage ∨ c = .fetchPerm then 0 else h.insn, hartid := h.place.getD 0
    depth := if h.role = .mender then 2 else 1 }

/-- What a PGREQ of a hart has asked for and learnt is forgotten: the instruction starts again (R270, R281). -/
def forgetPages (s : State) (uid : Nat) : State :=
  s.modCtx (s.hart uid).ctx fun k => { k with
    reqs := k.reqs.map fun r => { r with waiters := r.waiters.filter fun u => u != uid }
    reqRefused := k.reqRefused.filter fun p => p.1 != uid, reqDone := k.reqDone.filter fun p => p.1 != uid }

/-- A hart freezes with a record (R346): its accesses are performed for its own agents, its fixed-latency writes complete and
its remaining stall cycles are dropped (R60), the record is written, then the event is raised. -/
def freeze (s : State) (uid : Nat) (r : FrzRecord) : State :=
  let s := withdrawArrival (forgetPages (performAt s uid 0 true true true true) uid) uid
  let s := s.modHart uid fun h =>
    { h with status := .frozen r, waiting := none, farmWait := none, yield := none, inflight := [], inflightM := [], xlat := [], busy := []
             watch := 0, haltAt := s.hub }
  raiseEvent s uid r

/-- The executing hart freezes with a cause and an address; `vres` is the vresume it leaves, none for unchanged. -/
def stopAt (c : Cause) (addr : Word) (vres : Option Nat) (s : State) : Out :=
  let s := s.modMe fun h => { h with vresume := vres.getD h.vresume }
  .next (freeze s s.cur (s.me.record c addr))

/-- A freeze of R57's checks 2 to 8: at the instruction's address, vresume 0. -/
def stop (c : Cause) (s : State) : Out := stopAt c s.me.pc (some 0) s

/-! ## Waiting (R270, R290, R310) -/

/-- The executing hart waits: it has had no effect, and one cycle passes, charged to a counter. `blocks` marks the waits of
R253. -/
def waitOn (sc : Fin 16) (blocks : Bool) (s : State) : Out :=
  .next (s.modMe fun h => { (h.charge sc.val 1) with
    cycle := (h.cycle + 1) % 2 ^ 64, watch := h.watch + 1, waiting := some { sc := sc, blocks := blocks }
    haltAt := if blocks && !(h.waiting.map (·.blocks)).getD false then s.hub else h.haltAt })

/-- A hart waits for a line an engine owns (R182), or for an array that leaves retention (R381). (DEDUCED, assumption 67) -/
def ownedWait (s : State) : Out := waitOn 7 false s

/-- A hart waits for instruction words at some addresses: their slices leave retention (R381), and a wait for the host begins (R416). -/
def fetchWait (vas : List Nat) (s : State) : Out :=
  let held := vas.any fun a => isOwned s (asidOf s.me.aspace) (a / 64) || retained s a
  ownedWait (if held then vas.foldl touchSlice s else noteWait s (asidOf s.me.aspace))

/-- The stores of some agents of a hart. -/
def agentStores (scalar vector : Bool) (p : PStore) : Bool := (p.vec && vector) || (!p.vec && scalar)

/-- An effect that needs the earlier accesses of a hart performed at their homes (R179, R185) waits in a counter while one may not be. -/
def afterDrain (sc : Fin 16) (uid : Nat) (k : State → Out) (s : State) : Out :=
  if drainWaits s uid fun _ => true then waitOn sc false s else k s

/-! ## Fences that wait (R177, R206) -/

/-- What a fence waits for has been performed. -/
def Hart.fenceMet (h : Hart) (f : FenceWait) : Bool :=
  !(h.stores.any fun p => p.fenced.contains f.id) && f.lines.all fun l => !h.hostLines.contains l

/-- A fence of a hart is satisfied (R177, R178): at .s the device lines are written back, then the clean L1 lines of its core go, and what the
held agents have read ahead is forgotten. -/
def passFence (s : State) (uid : Nat) (f : FenceWait) : State :=
  let s := s.modHart uid fun h => ({ h with fences := h.fences.filter fun g => g.id != f.id }).loadsHeld f.scalar f.vector
  let s := if f.scope = 3 then flushSystem s (asidOf (s.hart uid).aspace) else s
  cleanL1 s (s.hart uid).core

/-! ## Issue (R57–R59, R213, R289) -/

/-- What the checks at issue must know of an instruction: its opcode-use class (R62), the format classes it names (R63), whether
its major is privileged (R57 step 4), the long-word header, the registers it reads and writes (`mu`: the masks of `mr` it reads
unchained; `mvr` and `mvw`: the registers a matrix operation reads and writes in its turn, R125), whether its checks of step 5 read
registers, whether it reads its vector sources chained (R122), whether it waits until a source's producer has finished, as the scalar reads VMVXS
and MASKQ do (R121, R122), whether it is a scalar instruction of R149, whose freezes leave
vresume alone, the scalar unit it occupies (R161), the agent whose memory access it makes, true for the vector agent (R168), whether it needs
a physical register group (R191), and the micro-step a bad source is found in (R146). -/
structure Prof where
  cls    : Nat
  fmts   : List Nat := []
  priv   : Bool := false
  hdr    : Option Hdr := none
  xr     : List Reg := []
  xw     : List Reg := []
  vr     : List VR := []
  vw     : List VR := []
  mr     : List MR := []
  mw     : List MR := []
  mu     : List MR := []
  mvr    : List VR := []
  mvw    : List VR := []
  late   : Bool := false
  chain  : Bool := false
  final  : Bool := false
  scalar : Bool := false
  unit   : Option Nat := none
  acc    : Option Bool := none
  rename : Bool := false
  micro  : Hart → Option (Fin 8) := fun _ => none

/-- A loop replay runs (R282). -/
def Hart.replaying (h : Hart) : Bool := h.lpstate.getLsbD 62

/-- The registers an outstanding engine operation has reserved (R213): vectors, masks, scalars, and the counter its readers
wait in. (DEDUCED, assumption 28) -/
def EngOp.reserves (o : EngOp) : List VR × List MR × List Reg × Fin 16 :=
  match o.kind with
  | .cpy _ (.grp v _) _ _ _ _ => (vgroup v 8, [], [], 1)
  | .gthr _ _ _ _ _ _ (.grp v _) => (vgroup v 8, [], [], 1)
  | .embag _ _ _ _ _ _ _ _ _ d m _ => (vgroup d 8, m.toList, [], 1)
  | .recv d _ xh => (if d.val % 2 = 0 then [d, vplus d 1] else [d], [], [xh], 14)
  | .walk w => ((match w.group with
    | some v => vgroup v 8
    | none => []), [], [], 1)
  | _ => ([], [], [], 1)

/-- The C group of a matrix operation (R131, R137). -/
def MatOp.dests (o : MatOp) : List VR :=
  match o.kind with
  | .mmaq => vgroup o.vc 8
  | .mqtrs _ => [o.vc]
  | _ => vgroup o.vc 4

/-- The registers a matrix operation reads (R127). -/
def MatOp.sources (o : MatOp) : List VR :=
  o.va :: vgroup o.vb 8 ++ (match o.kind with
    | .mmas _ => [o.vs]
    | .mmasc => vgroup o.vs 2
    | _ => []) ++ (if o.z then [] else match o.kind with
    | .mqtrs _ => []
    | _ => o.dests)

/-- A chained reader may read a matrix operation's result (R138): its rows are written. (DEDUCED, assumption 22) -/
def MatOp.rowsDone (o : MatOp) : Bool :=
  match o.kind with
  | .mqtrs _ => false
  | _ => o.vl ≤ 16 * o.row

/-- Two lists of register numbers meet. (DEDUCED, assumption 22) -/
def meets {α : Type} [BEq α] (a b : List α) : Bool := a.any fun r => b.contains r

/-- The registers the loop sequencer steps after the last body instruction of an iteration (R283). -/
def Hart.loopRegs (h : Hart) : List Reg :=
  let w := h.lpstate.toNat
  if h.replaying && bits w 27 22 == bits w 21 16 then [Fin.ofNat 32 (bits w 32 28), Fin.ofNat 32 (bits w 37 33)] else []

/-- The scalar registers an instruction must find free: those it reads and writes, and those the sequencer steps with it (R283, R289). -/
def needX (p : Prof) (steps : List Reg) : List Reg := (p.xr ++ p.xw ++ steps).filter fun r => r != 0

/-- A scoreboarded result that an instruction waits for (R208, R289). -/
def awaits (p : Prof) (steps : List Reg) (l : Landing) : Bool :=
  meets l.vregs (p.vr ++ p.mvr) || meets l.masks p.mr || meets l.xregs (needX p steps)

/-- An instruction reads its scalar sources a cycle late, through the broadcast into the lane array (R161): a long one but a load or store.
(DESIGN CHOICE, assumption 9) -/
def Prof.broadcast (p : Prof) : Bool := p.hdr.isSome && p.cls != 21 && p.cls != 22

/-- A scalar source whose fixed distance is not covered yet (R161): a register the sequencer steps is no broadcast. -/
def Hart.unripe (h : Hart) (p : Prof) (steps : List Reg) : Bool :=
  h.xlat.any fun e => (p.xr.contains e.1 && h.sinceCycle e.2.1 < e.2.2 + p.broadcast.toNat)
    || (steps.contains e.1 && h.sinceCycle e.2.1 < e.2.2)

/-- The producer of a mask that a mask query reads has not finished (R121). -/
def Hart.unfinished (h : Hart) (p : Prof) : Bool :=
  p.final && p.hdr.isNone && h.inflightM.any fun f => p.mr.contains f.reg && h.sinceCycle f.issued < f.chime + f.unchained

/-- A scalar unit is at work (R161). -/
def Hart.unitBusy (h : Hart) (u : Nat) : Bool := h.busy.any fun b => b.1 == u && h.sinceCycle b.2.1 < b.2.2

/-- A reason and its counter, when it holds. -/
def because (b : Bool) (sc : Fin 16) : List (Fin 16) := if b then [sc] else []

/-- The counters of the waits an instruction is held in before its registers are free (R121, R138, R161, R208, R213, R127, R289); `steps` are the
scalar registers that the sequencer steps with it. -/
def Hart.hazards (h : Hart) (p : Prof) (steps : List Reg) : List (Fin 16) :=
  let xs := needX p steps
  because (h.landing.any (awaits p steps) || h.unripe p steps || h.unfinished p) 1
    ++ because ((p.unit.map h.unitBusy).getD false) 2
    ++ ((h.ops.filter fun o => meets o.reserves.1 (p.vr ++ p.vw ++ p.mvr ++ p.mvw) || meets o.reserves.2.1 (p.mr ++ p.mw)
        || meets o.reserves.2.2.1 xs).map fun o => o.reserves.2.2.2)
    ++ because (h.farmPend.any fun f => xs.contains f.2) 5
    ++ because (h.mops.any fun o => meets o.dests p.vw || (meets o.dests p.vr && !(p.chain && o.rowsDone))) 1
    ++ because (h.mops.any fun o => meets o.sources p.vw) 2

/-- A fixed-latency write is too recent for a reader (R58, R59); a producer with no chained column has one distance. -/
def Hart.tooRecent (h : Hart) (chain : Bool) (issued chained unchained : Nat) : Bool :=
  h.sinceCycle issued < (if chain then chained else unchained)

/-- A producer of a register that an unchained reader finds with its last element group unwritten (R122): its occupancy holds the reader, one
that waits for the producer (`final`) whatever the distance and another once its stall count is covered (R59). (DEDUCED, assumption 34) -/
def holds (h : Hart) (final : Bool) (issued unchained chime : Nat) : Bool :=
  (final || unchained ≤ h.sinceCycle issued) && h.sinceCycle issued < chime + unchained

/-- The newest fixed-latency producer of some source holds its unchained reader (R122). -/
def Hart.held (h : Hart) (p : Prof) : Bool :=
  ((if p.chain then [] else p.vr) ++ p.mvr).any (fun r =>
    match h.inflight.find? fun f => f.reg == r with
    | some f => holds h p.final f.issued f.unchained f.chime
    | none => false)
  || p.mu.any fun r =>
    match h.inflightM.find? fun f => f.reg == r with
    | some f => holds h p.final f.issued f.unchained f.chime
    | none => false

/-- Some source of an instruction is read too early (R59). An element mask is always a chained
read; the scalar reads of R121 and VMVXS are interlocked. -/
def Hart.shortRead (h : Hart) (p : Prof) : Bool :=
  (h.inflight.any fun f => (!p.final && p.vr.contains f.reg && h.tooRecent p.chain f.issued f.chained f.unchained)
      || (p.mvr.contains f.reg && h.tooRecent false f.issued f.chained f.unchained))
    || (p.hdr.isSome && h.inflightM.any fun f => p.mr.contains f.reg && h.tooRecent (!p.mu.contains f.reg) f.issued f.chained f.unchained)

/-- A source carries a data-error mark or holds an uncorrectable error (R101, R143, R149), whatever vl and wherever in the register the error
lies; a matrix instruction freezes for a marked operand only. (DESIGN CHOICE, assumption 78) -/
def Hart.badSource (h : Hart) (p : Prof) : Bool :=
  (p.vr.any fun r => h.marks.getLsbD r.val || h.vBad.getLsbD r.val) || (p.mvr.any fun r => h.marks.getLsbD r.val)
    || (p.xr.any fun r => r != 0 && h.xBad.getLsbD r.val) || p.mr.any fun r => h.mBad.getLsbD r.val

/-- The 64-byte requests the harts of a core have outstanding (R191). -/
def requests (s : State) (c : Nat) : Nat := (residents s c).foldl (fun a x => x.2.landing.foldl (fun a l => a + l.reqs) (a + x.2.stores.length)) 0

/-- The vector loads of a core that hold a physical register group (R191). -/
def renamed (s : State) (c : Nat) : Nat := (residents s c).foldl (fun a x => a + x.2.landing.countP fun l => l.vregs != []) 0

/-- The physical register groups of a core's rename pool: 2 MiB less the harts' own registers, in groups of eight (R12, R191). (DESIGN CHOICE,
assumption 9) -/
def renamePool : Nat := 48

/-- A borrower's instructions still hold lanes their owner has taken back (R259). -/
def lanesHeld (s : State) (o : Option (Nat × Nat)) : Bool :=
  match o with
  | none => false
  | some (b, t) =>
    let h := s.hart b
    h.place.isSome && ((h.inflight.any fun f => f.issued < t && h.sinceCycle f.issued < f.chime)
      || h.inflightM.any fun f => f.issued < t && h.sinceCycle f.issued < f.chime)

/-- A fence of the hart holds a later access of one of its agents (R177, R206). -/
def Hart.fenced (h : Hart) (acc : Option Bool) : Bool :=
  match acc with
  | some vec => h.fences.any fun f => (if vec then f.vector else f.scalar) && !h.fenceMet f
  | none => false

/-- What holds an instruction at issue (R57, R191, R206, R259), by the counters of the waits: its registers, a fence, its core's requests, rename
pool and reclaimed lanes. -/
def State.holdsOf (s : State) (p : Prof) : List (Fin 16) :=
  let h := s.me
  h.hazards p h.loopRegs ++ because (h.fenced p.acc) 12 ++ because (p.acc.isSome && 2048 ≤ requests s h.core) 2
    ++ because (p.rename && renamePool ≤ renamed s h.core) 8 ++ because (p.hdr.isSome && lanesHeld s h.owes) 10

/-- The first wait that holds an instruction at issue, if any. -/
def State.hold (s : State) (p : Prof) : Option (Fin 16) := (s.holdsOf p).head?

/-- A held instruction waits: every counter whose reason holds advances, and sc7 for a wait for a load's fill from beyond the L1 (R290). -/
def holdOn (p : Prof) (sc : Fin 16) (s : State) : Out :=
  let fill := s.me.landing.any fun l => l.beyond && awaits p s.me.loopRegs l
  let also := ((s.holdsOf p ++ because fill 7).eraseDups).filter (· != sc)
  waitOn sc (sc == 14) (s.modMe fun h => also.foldl (fun h n => h.charge n.val 1) h)

/-- The hart `cur` exists, is resident, is not stopped and runs. -/
def State.live (s : State) : Bool :=
  match tget s.harts s.cur with
  | some h => h.status == .running && working s s.cur
  | none => false

/-- The checks of R57 from step 5, then the reads' waits and errors; `ill` is the part of step 5 that the hart's state decides and
`fmt` says whether the tag checks of step 7 pass. An instruction that passes goes on with `k`, where an engine instruction makes the checks
of its own (R212). (DEDUCED, assumption 17) (DEDUCED, assumption 24) -/
def issueChecks (p : Prof) (ill fmt : State → Bool) (k : State → Out) (s : State) : Out :=
  let h := s.me
  let vres := if p.scalar then none else some 0
  if ill s || (match p.hdr with
    | some d => (d.first || d.last) && !h.replaying
    | none => false) then stopAt .illegalOp h.pc vres s
  else if (p.cls :: p.fmts).any fun b => !h.kern.mask.getLsbD b then stopAt .undeclaredOp h.pc vres s
  else
    match s.hold p with
    | some sc => holdOn p sc s
    | none =>
      if !fmt s then stop .format s
      else if h.chk && h.shortRead p then stop .stallShort s
      else if h.held p then waitOn 2 false s
      else if h.badSource p then .next (freeze s s.cur { (h.record .dataError 0) with micro := p.micro h })
      else k s

/-- The fences that are satisfied are over before the hart's next access (R177). -/
def endFence (p : Prof) (s : State) : State :=
  if p.acc.isSome then (s.me.fences.filter s.me.fenceMet).foldl (fun s f => passFence s s.cur f) s else s

/-- The issue of an instruction (R57): an owner takes back its lent lanes at its issue (R259), a fence that is satisfied is over before the
next access (R177), then the checks from step 4. -/
def issue (p : Prof) (ill fmt : State → Bool) (k : State → Out) (s : State) : Out :=
  if !s.live then .refused .noHart
  else
    let s := if s.me.lentTo.isSome then reclaim s s.cur else s
    let s := endFence p s
    let h := s.me
    if p.priv && !h.priv then stopAt .priv h.pc (if p.scalar then none else some 0) s
    else
      match (if p.late then s.hold p else none) with
      | some sc => holdOn p sc s
      | none => issueChecks p ill fmt k s

/-! ## Register reads at issue (R59) -/

/-- The slots of a vector register as a reader at this issue sees them: before each producer that is too recent, newest first
(R59); the tag is the current one (R36). (DEDUCED, assumption 68) -/
def earlyV (h : Hart) (chain : Bool) (r : VR) (cur : VReg) : List Inflight → VReg
  | [] => cur
  | f :: l =>
    if f.reg = r then (if h.tooRecent chain f.issued f.chained f.unchained then earlyV h chain r f.old l else cur)
    else earlyV h chain r cur l

/-- The same for a mask register. -/
def earlyM (h : Hart) (chain : Bool) (r : MR) (cur : MaskBits) : List InflightM → MaskBits
  | [] => cur
  | f :: l =>
    if f.reg = r then (if h.tooRecent chain f.issued f.chained f.unchained then earlyM h chain r f.old l else cur)
    else earlyM h chain r cur l

/-- A vector source read at issue. -/
def Hart.srcV (h : Hart) (chain : Bool) (r : VR) : VReg := { (earlyV h chain r (h.rv r) h.inflight) with tag := (h.rv r).tag }

/-- A mask source read at issue. -/
def Hart.srcM (h : Hart) (r : MR) : MaskBits := earlyM h true r (h.rm r) h.inflightM

/-- A mask source of an unchained reader, read at issue. -/
def Hart.srcMU (h : Hart) (r : MR) : MaskBits := earlyM h false r (h.rm r) h.inflightM

/-- A vector register written with a fixed latency (R58); its occupancy is one chime (R122). -/
def Hart.wvLat (h : Hart) (chained unchained : Nat) (r : VR) (a : VReg) : Hart :=
  { ((h.renameV r).wv r a) with inflight := { reg := r, old := h.rv r, issued := h.cycle, chained := chained, unchained := unchained, chime := h.chime } :: h.inflight }

/-- The occupancy of the results of the instruction at issue, where it is not one chime (R122). -/
def Hart.occupy (h : Hart) (n : Nat) : Hart :=
  { h with inflight := h.inflight.map fun f => if f.issued = h.cycle then { f with chime := n } else f
           inflightM := h.inflightM.map fun f => if f.issued = h.cycle then { f with chime := n } else f }

/-- A vector register written by a scoreboarded result: readers wait on their own, so no distance is kept. -/
def Hart.wvSb (h : Hart) (r : VR) (a : VReg) : Hart :=
  { ((h.renameV r).wv r a) with inflight := h.inflight.filter fun f => f.reg != r }

/-- A mask register written with a fixed latency. -/
def Hart.wmLat (h : Hart) (chained unchained : Nat) (r : MR) (a : MaskBits) : Hart :=
  { ((h.renameM r).wm r a) with inflightM := { reg := r, old := h.rm r, issued := h.cycle, chained := chained, unchained := unchained, chime := h.chime } :: h.inflightM }

/-- A mask register written by a scoreboarded result. -/
def Hart.wmSb (h : Hart) (r : MR) (a : MaskBits) : Hart :=
  { ((h.renameM r).wm r a) with inflightM := h.inflightM.filter fun f => f.reg != r }

/-! ## Retirement -/

/-- The sequencer's step after a body instruction (R283): at the last one the increments, the trip count and the next pc. -/
def Hart.seqStep (h : Hart) : Hart :=
  let w := h.lpstate.toNat
  let pos := bits w 27 22
  let len := bits w 21 16
  if pos = len then
    let ra : Reg := Fin.ofNat 32 (bits w 32 28)
    let rb : Reg := Fin.ofNat 32 (bits w 37 33)
    let ia : Word := BitVec.ofInt 64 (4 * sint 12 (bits w 49 38))
    let ib : Word := BitVec.ofInt 64 (4 * sint 12 (bits w 61 50))
    let h := h.wx ra (h.rx ra + ia)
    let h := h.wx rb (h.rx rb + ib)
    let trips := bits w 15 0 - 1
    if trips = 0 then { h with lpstate := 0, lpBody := [], pc := h.lpBase + BitVec.ofNat 64 (8 * (len + 1)) }
    else { h with lpstate := BitVec.ofNat 64 (w - bits w 15 0 - pos * 2 ^ 22 + trips), pc := h.lpBase }
  else { h with lpstate := BitVec.ofNat 64 (w + 2 ^ 22), pc := h.pc + 8 }

/-- The counters and marks of a retirement: one issue cycle, the stall cycles (sc0) and the bubbles (sc13), which the watchdog counts from
the retirement on (R310); writes in flight that no distance can reach any more are forgotten. (DESIGN CHOICE, assumption 9) -/
def Hart.account (h : Hart) (stall bubble : Nat) : Hart :=
  let h := (h.charge 0 stall).charge 13 bubble
  let h := { h with cycle := (h.cycle + 1 + stall + bubble) % 2 ^ 64 }
  { h with
    retired := (h.retired + 1) % 2 ^ 64, watch := stall + bubble, waiting := none, barWait := none, barGo := false, farmWait := none
    inflight := h.inflight.filter fun f => h.sinceCycle f.issued < max 15 (f.chime + f.unchained)
    inflightM := h.inflightM.filter fun f => h.sinceCycle f.issued < max 15 (f.chime + f.unchained)
    xlat := h.xlat.filter fun e => h.sinceCycle e.2.1 ≤ e.2.2
    busy := h.busy.filter fun b => h.sinceCycle b.2.1 < b.2.2 }

/-- A 32-bit instruction retires and the hart goes on at an address. -/
def Hart.goto (h : Hart) (pc : Word) (bubble : Nat) : Hart := { (h.account 0 bubble) with pc := pc }

/-- A 32-bit instruction retires. -/
def Hart.done (h : Hart) : Hart := h.goto (h.pc + 4) 0

/-- A long instruction retires (R58): the next instruction is the sequencer's in a loop replay; vresume is 0 (R31). -/
def Hart.doneL (h : Hart) (d : Hdr) : Hart :=
  let h := if h.replaying then h.seqStep else { h with pc := h.pc + 8 }
  { (h.account d.stall.val 0) with vresume := 0, owes := none }

/-- The executing hart's scalar instruction completes with a change of the hart. -/
def finish (f : Hart → Hart) (s : State) : Out := .next (s.modMe fun h => (f h).done)

/-- The executing hart's long instruction completes with a change of the hart. -/
def finishL (d : Hdr) (f : Hart → Hart) (s : State) : Out := .next (s.modMe fun h => (f h).doneL d)

/-- No state-dependent check. -/
def noIll (_ : State) : Bool := false
/-- No tag check. -/
def anyFmt (_ : State) : Bool := true

/-! ## Ending a hart (R249, R250, R264, R274, R351, R360) -/

/-- The operations of a hart discarded (R144, R215): the barriers they name are lowered. -/
def discardOps (s : State) (uid : Nat) : State :=
  let h := s.hart uid
  let bars := h.ops.filterMap (·.bar) ++ h.mops.filterMap (·.bar)
  let s := bars.foldl (fun s b => lowerBar s h.crew b.val) s
  let s := s.modHart uid fun h => { h with ops := [], mops := [], landing := [], farmPend := [] }
  let c := s.core h.core
  if c.mangle = some uid then s.setCore h.core { c with mangle := none } else s

/-- The mailbox messages of a hart discarded and counted (R232, R274). -/
def discardMail (s : State) (uid : Nat) : State :=
  let n := (s.hart uid).mail.length
  let s := s.modHart uid fun h => { h with mail := [] }
  { s with torus := { s.torus with discards := s.torus.discards + n } }

/-- The handles dispatched to a mender that ends return to the tail of the queue with new handles (R351). -/
def returnHandles (s : State) (c uid : Nat) : State :=
  ((s.ctx c).handles.filter fun x => x.owner == uid).foldl (fun s x =>
    let s := s.modCtx c fun k => { k with handles := k.handles.filter fun y => y.value != x.value }
    match (s.hart x.hart).status with
    | .frozen r =>
      let (s, e) := newEvent s c x.hart 1 (BitVec.ofNat 64 r.cause.code) r.addr r.pc
      queueEvent s c e
    | _ => s) s

/-- A number put into an ascending list (R264). -/
def putSorted (l : List Nat) (n : Nat) : List Nat := sortBy (fun a b => a ≤ b) (n :: l)

/-- A farm's count of ended or killed work changed. -/
def countEnd (s : State) (c f : Nat) (killed requeue : Bool) (n : Nat) : State :=
  match s.farm? c f with
  | some x => s.setFarm { x with
      dropped := x.dropped + killed.toNat
      ended := if requeue then x.ended else x.ended + n
      requeued := x.requeued }
  | none => s

/-- The host-memory accesses of a hart that ends are left to its farm, which waits for them (R251). -/
def leaveHostLines (s : State) (uid : Nat) : State :=
  let h := s.hart uid
  match s.farm? h.ctx h.farm with
  | some x => (s.setFarm { x with hostLines := (x.hostLines ++ h.hostLines).eraseDups }).modHart uid fun h => { h with hostLines := [] }
  | none => s

/-- The strip, member or mender of a hart ends (R249, R250, R360); `killed` by a FRZEND. The hart idles, lends its lanes, or
leaves. -/
def endHart (s : State) (uid : Nat) (killed : Bool) : State :=
  let h := s.hart uid
  let s := leaveHostLines s uid
  match h.role with
  | .mender =>
    let s := vacate s uid
    let s := returnHandles s h.ctx uid
    { s with harts := tdel s.harts uid, crews := tdel s.crews h.crew }
  | .strip =>
    let again := killed && h.kern.versioned
    let num := (s.crew h.crew).number
    let s := countEnd s h.ctx h.farm killed again 1
    let s := if again then
        match s.farm? h.ctx h.farm with
        | some x => s.setFarm { x with requeued := putSorted x.requeued num }
        | none => s
      else s
    lend (s.modHart uid fun h => { h with status := .idle, waiting := none, haltAt := s.hub, version := [], tokens := [], stores := [] }) uid
  | .member =>
    let s := s.modHart uid fun h => { h with status := .ended, waiting := none, haltAt := s.hub, version := [], tokens := [], stores := [] }
    let c := s.crew h.crew
    if c.harts.all fun u => (s.hart u).status == .ended then
      let s := countEnd s h.ctx h.farm killed false 1
      let s := c.harts.foldl vacate s
      { s with harts := c.harts.foldl tdel s.harts, crews := tdel s.crews h.crew }
    else
      let s := countEnd s h.ctx h.farm killed true 0
      lend s uid

/-- A handle is valid for a context (R351). -/
def handleHart (s : State) (c : Nat) (w : Word) : Option Nat := ((s.ctx c).handles.find? fun x => x.value == w).map (·.hart)

/-- A handle released. -/
def releaseHandle (s : State) (c : Nat) (w : Word) : State :=
  s.modCtx c fun k => { k with handles := k.handles.filter fun x => x.value != w }

/-- The stores of a hart that ends performed, but for those that must wait, which are left for their homes to perform in their order (R182). -/
def leaveStores (s : State) (uid : Nat) : State :=
  if drainWaits s uid fun _ => true then
    let h := s.hart uid
    { (s.modHart uid fun h => { h with stores := [] }) with orphans := s.orphans ++ h.stores.map fun p => (h.ctx, h.farm, p) }
  else drainAll s uid

/-- FRZEND's kill of a hart (R360): operations and messages discarded, barriers left, version discarded, the strip or member
ended and counted. -/
def killHart (s : State) (uid : Nat) : State :=
  let s := discardOps s uid
  let s := discardMail s uid
  let s := leaveBars s uid
  let s := leaveStores s uid
  endHart s uid true

/-! ## Resumption (R359) -/

/-- Whether a hart's pc is the body instruction at pos (R284). -/
def Hart.atBody (h : Hart) : Bool := h.pc == h.lpBase + BitVec.ofNat 64 (8 * bits h.lpstate.toNat 27 22)

/-- An operation of a hart has stopped and not been reported (R215). -/
def Hart.queuedFault (h : Hart) : Option EngOp := h.ops.find? fun o => (o.stop.map (!·.reported)).getD false

/-- The engine word of a stopped operation (R215). -/
def EngOp.word (o : EngOp) : Word :=
  BitVec.ofNat 64 (o.eng.val + ((o.stop.map (·.sub)).getD 0) * 16 + (match o.kind with
    | .walk w => w.count
    | _ => o.unit) % 2 ^ 24 * 2 ^ 8 + o.ord % 2 ^ 32 * 2 ^ 32)

/-- The word at a hart's pc through the instruction fetch path, for a record (R353); zero where it cannot be fetched. -/
def peekWord (s : State) (uid : Nat) : Word :=
  let pc := (s.hart uid).pc.toNat
  match fetchAcc s uid pc 4 with
  | .error _ => 0
  | .ok (_, b) =>
    if natOf b % 2 = 0 ∨ pc % 8 = 4 then BitVec.ofNat 64 (natOf b)
    else match fetchAcc s uid pc 8 with
      | .ok (_, b) => BitVec.ofNat 64 (natOf b)
      | .error _ => 0

/-- A hart freezes for its queued engine fault (R215). -/
def reportEngine (s : State) (uid : Nat) : State :=
  match (s.hart uid).queuedFault with
  | none => s
  | some o =>
    let s := s.modHart uid fun h => { h with
      insn := peekWord s uid
      ops := h.ops.map fun q => if q.eng = o.eng ∧ q.ord = o.ord then { q with stop := q.stop.map fun x => { x with reported := true } } else q }
    let r := (s.hart uid).record .engine ((o.stop.map (·.addr)).getD 0)
    freeze s uid { r with engw := o.word }

/-- The crew of a hart that a mender is given (R253, R347): one that has stopped for a replacement goes on, unless a lane retirement forces it
off its core, and engine faults met while it stopped are reported (R369). -/
def holdCrew (s : State) (uid : Nat) : State :=
  let c := (s.hart uid).crew
  let k := s.crew c
  if k.evict then s
  else
    let s := s.setCrew c { k with stopped := false, replace := false }
    if k.stopped then k.harts.foldl (fun s u => if (s.hart u).status == .running then reportEngine s u else s) s else s

/-- An operation is complete (R211, R214): it leaves, counts, sets the event bit (R273), its writes are performed at its barrier's
scope, and it reports and arrives. -/
def completeOp (s : State) (uid : Nat) (o : EngOp) : State :=
  let s := s.modHart uid fun h => { h with ops := h.ops.filter fun q => !(q.eng == o.eng && q.ord == o.ord), event := true }
  let h := s.hart uid
  match o.bar with
  | some b =>
    let s := if ((s.crew h.crew).bar b.val).scope = 3 then flushSystem s (asidOf o.aspace) else s
    reportTo s h.crew b.val (h.seqc o.eng.val) {}
  | none => s

/-! ## Torus messages (R230–R232) -/

/-- The module coordinates of a target word (R230). -/
def Msg.module_ (m : Msg) : BitVec 15 := BitVec.ofNat 15 m.target.toNat

/-- The mailbox slot of a target word (R230). -/
def Msg.slot (m : Msg) : Nat := bits m.target.toNat 17 15

/-- A pair of registers travels (R32, R230). -/
def Msg.pair (m : Msg) : Bool := ((fmtOf m.tag).map Fmt.pair).getD false

/-- A target lies in the configured torus (R230, R414). -/
def inTorus (s : State) (w : BitVec 15) : Bool :=
  (List.range 3).all fun i => bits w.toNat (5 * i + 4) (5 * i) < bits s.torus.size.toNat (5 * i + 4) (5 * i)

/-- The port a message leaves by: one of those that are not down, where one is. (DESIGN CHOICE, assumption 5) -/
def choosePort (s : State) (m : Msg) : Nat :=
  let l := (List.range 6).filter fun p => ((tget s.torus.ports p).map (·.state)).getD 0 != 0
  let k := Config.pick (m.target.toNat + m.ord)
  if l = [] then k % 6 else l.getD (k % l.length) 0

/-- The hart's next sends enter the sending port in issue order; one that is stopped or whose target lies outside the torus holds
back the later ones (R215, R232). -/
def portSends (uid : Nat) : List EngOp → State → State
  | [], s => s
  | o :: l, s =>
    match o.kind with
    | .send _ true => portSends uid l s
    | .send m false =>
      if o.stop.isSome || !inTorus s m.module_ then s
      else
        let m := { m with port := choosePort s m }
        let s := s.modHart uid fun h => { h with ops := h.ops.map fun q => if q.eng = o.eng ∧ q.ord = o.ord then { q with kind := .send m true } else q }
        portSends uid l { s with torus := { s.torus with held := s.torus.held ++ [m] } }
    | _ => portSends uid l s

/-- A message written by a waiting RECV (R231): the tag, the slots, zero bits above them, and the header. -/
def putMessage (s : State) (uid : Nat) (d : VR) (xh : Reg) (m : Msg) : State :=
  s.modHart uid fun h =>
    let h := h.wvSb d { tag := m.tag, slots := trimSlots m.lo }
    let h := if m.pair then h.wvSb (vplus d 1) { tag := m.tag, slots := trimSlots m.hi } else h
    h.wx xh m.header

/-- What a RECV of a message freezes with: R64's check of the tag, then an odd register for a pair (R231). -/
def recvCause (h : Hart) (d : VR) (m : Msg) : Option Cause :=
  if (match tagBit m.tag with
    | some b => !h.kern.mask.getLsbD b
    | none => false) then some .undeclaredOp
  else if m.pair && d.val % 2 == 1 then some .format
  else none

/-- A message given to an outstanding RECV of its slot (R231): written and complete, or left in the slot with the hart frozen. -/
def giveRecv (s : State) (uid : Nat) (o : EngOp) (d : VR) (slot : Nat) (xh : Reg) (m : Msg) : State :=
  let h := s.hart uid
  match recvCause h d m with
  | none => completeOp (putMessage (s.modHart uid fun h => { h with mail := tdel h.mail slot }) uid d xh m) uid o
  | some c =>
    let s := s.modHart uid fun h => { h with mail := tput h.mail slot m, event := true }
    match h.status with
    | .running =>
      let s := s.modHart uid fun h => { h with insn := peekWord s uid }
      freeze s uid ((s.hart uid).record c h.pc)
    | _ => s

/-- The outstanding RECVs of a hart take the messages that wait in their slots (R231). -/
def retake (s : State) (uid : Nat) : State :=
  (s.hart uid).ops.foldl (fun s o =>
    match o.kind with
    | .recv d slot xh =>
      match tget (s.hart uid).mail slot.val with
      | some m => giveRecv s uid o d slot.val xh m
      | none => s
    | _ => s) s

/-- A reported stop cleared for the operation to go on from its unit (R215); a walk stopped by its count starts it again (R298). -/
def EngOp.goOn (o : EngOp) : EngOp :=
  if (o.stop.map (·.reported)).getD false then
    { o with stop := none, kind := (match o.kind with
      | .walk w => .walk (if 2 ^ 24 ≤ w.count then { w with count := 0 } else w)
      | k => k) }
  else o

/-- The hart of a handle goes on (R359, R363): reported engine stops continue from their units, the clean L1 lines of its core
are invalidated, and a queued engine fault or a lost body instruction freezes it again at once; its torus operations go on. -/
def resume (s : State) (uid : Nat) : State :=
  let s := s.modHart uid fun h => { h with
    status := .running, watch := 0, lost := 0
    ops := h.ops.map EngOp.goOn }
  let s := cleanL1 s (s.hart uid).core
  let h := s.hart uid
  if h.queuedFault.isSome then reportEngine s uid
  else if h.replaying && !h.atBody then
    let s := s.modHart uid fun h => { h with insn := peekWord s uid }
    freeze s uid ((s.hart uid).record .illegalOp h.pc)
  else retake (portSends uid h.ops s) uid

end Sys2Proof.Machine
end

