-- ==== Sys2Proof/Machine/Flags.lean ====
section
/-! DEFINITION. Flags and ranges: the fflags an instruction raises (spec/02_state.md R41, spec/04_formats.md R90), the ranges
and saturation of integer and fixed-point formats (R81, R82), and the widths of formats (R113). -/

namespace Sys2Proof.Machine

/-- Flags raised are ORed into fflags (R41, R160). -/
def Hart.raise (h : Hart) (f : Fl) : Hart := { h with fflags := h.fflags ||| f }

/-- An INT format (R35). -/
def Fmt.isInt : Fmt → Bool
  | .i32 | .i16 | .i8 | .u8 | .i64 => true
  | _ => false

/-- A FIXED format (R35). -/
def Fmt.isFixed : Fmt → Bool
  | .fixed _ _ => true
  | _ => false

/-- A format of class FLOAT (R35). -/
def Fmt.isFloat : Fmt → Bool
  | .f32 | .bf16 | .f16 | .e4m3 | .e5m2 | .e2m1 => true
  | _ => false

/-- A float format that elementwise arithmetic accepts (R87). -/
def Fmt.isArith : Fmt → Bool
  | .f32 | .bf16 | .f16 => true
  | _ => false

/-- The floating-point layout of a FLOAT format (R78). -/
def Fmt.ff : Fmt → FF
  | .bf16 => .bf16 | .f16 => .f16 | .e4m3 => .e4m3 | .e5m2 => .e5m2 | .e2m1 => .e2m1
  | _ => .f32

/-- The fractional bits of a FIXED format; an integer has none (R82, R92). -/
def Fmt.frac : Fmt → Nat
  | .fixed _ s => s
  | _ => 0

/-- The least value of an INT or FIXED format (R81, R82). -/
def Fmt.lo : Fmt → Int
  | .u8 => 0
  | f => -((2 ^ (f.width - 1) : Nat) : Int)

/-- The greatest value of an INT or FIXED format. -/
def Fmt.hi : Fmt → Int
  | .u8 => 255
  | f => ((2 ^ (f.width - 1) : Nat) : Int) - 1

/-- The integer a pattern of an INT or FIXED format stands for: two's complement, unsigned for UINT8 (R81). -/
def Fmt.int (f : Fmt) (p : Nat) : Int :=
  match f with
  | .u8 => ((p % 256 : Nat) : Int)
  | f => sint f.width p

/-- An integer modulo 2^w (R81). -/
def Fmt.wrap (f : Fmt) (z : Int) : Nat := wrapNat f.width z

/-- An integer clamped to a range: the value, and QS when the clamp changes it (R81). -/
def clampTo (lo hi z : Int) : Int × Fl := if z < lo then (lo, QS) else if hi < z then (hi, QS) else (z, 0)

/-- An integer clamped to a format's range (R81, R82). -/
def Fmt.sat (f : Fmt) (z : Int) : Nat × Fl :=
  let (y, fl) := clampTo f.lo f.hi z
  (f.wrap y, fl)

/-- Round half up by n bits (R82). -/
def halfUp (n : Nat) (z : Int) : Int := if n = 0 then z else (z + ((2 ^ (n - 1) : Nat) : Int)) / ((2 ^ n : Nat) : Int)

end Sys2Proof.Machine
end

