-- ==== Sys2Proof/Machine/Operands.lean ====
section
/-! DEFINITION. The operands of long instructions: sources of the four kinds and their adoption of a tag (spec/03_encoding.md
R50, R51, spec/04_formats.md R88), packed sub-elements and register pairs (spec/02_state.md R32), the tag checks of a source
(R36), and the elementwise frame (spec/05_vector_ops.md R100). -/

namespace Sys2Proof.Machine

/-! ## Reading elements -/

/-- Element `e` of a register, or of a pair with its high half in the second register (R32). -/
def elem (pair : Bool) (lo hi : VReg) (e : Nat) : Nat :=
  if pair then (lo.slot e).toNat + (hi.slot e).toNat * 2 ^ 32 else (lo.slot e).toNat

/-- An operand at issue: a register or pair, or one converted pattern for every value. -/
inductive Opd where
  | reg (lo hi : VReg)
  | imm (p : Nat)

/-- Sub-element `j` of element `e` of an operand of width `w` (R32). -/
def Opd.sub (o : Opd) (w e j : Nat) : Nat :=
  match o with
  | .reg lo hi => elem (w == 64) lo hi e / 2 ^ (w * j) % 2 ^ w
  | .imm p => p

/-- An element built from its sub-elements, with the flags they raise. -/
def pack (w : Nat) (f : Nat → Nat × Fl) : Nat × Fl :=
  (List.range (if w = 64 then 1 else 32 / w)).foldl (fun p j =>
    let (v, fl) := f j
    (p.1 + v % 2 ^ w * 2 ^ (w * j), p.2 ||| fl)) (0, 0)

/-! ## Adoption (R88) -/

/-- A constant-bank word; an index at or beyond the declared count reads as zero (R34). -/
def Hart.const (h : Hart) (i : Nat) : Nat := (h.kern.bank.getD i 0).toNat

/-- A scalar, constant or literal source as an integer, for an INT or FIXED tag. -/
def srcInt (h : Hart) : Src → Int
  | .v _ => 0
  | .x r => (h.rx r).toInt
  | .c i => sint 32 (h.const i.val)
  | .lit p => p.toInt

/-- A scalar, constant or literal source as a value, for a FLOAT tag. -/
def srcFloat (h : Hart) : Src → FVal
  | .v _ => .fin ⟨false, 0, 0⟩
  | .x r => FF.f32.read ((h.rx r).toNat % 2 ^ 32)
  | .c i => FF.f32.read (h.const i.val)
  | .lit p => e5m6 p.toNat

/-- The one conversion of an adopted source (R88): the pattern and its flags. -/
def adopt (h : Hart) (f : Fmt) (b : Src) : Nat × Fl :=
  if f.isFloat then f.ff.put 0 false (srcFloat h b) else f.sat (srcInt h b)

/-- A source read as an unsigned count or index, without adopting a tag (R105, R117, R118). -/
def srcCount (h : Hart) : Src → Nat
  | .v _ => 0
  | .x r => (h.rx r).toNat
  | .c i => h.const i.val
  | .lit p => p.toNat

/-! ## Tags (R36) -/

/-- The format of a register's tag; none when it is reserved. -/
def Hart.fmt (h : Hart) (r : VR) : Option Fmt := fmtOf (h.rv r).tag

/-- The registers an operand of a format occupies. -/
def opRegs (f : Option Fmt) (r : VR) : List VR :=
  match f with
  | some g => if g.pair then [r, vplus r 1] else [r]
  | none => [r]

/-- A vector source passes: its format is accepted, and a pair is named by its even register and carries equal tags (R32). -/
def Hart.okSrc (h : Hart) (accept : Fmt → Bool) (r : VR) : Bool :=
  match h.fmt r with
  | some f => accept f && (!f.pair || (r.val % 2 == 0 && (h.rv r).tag == (h.rv (vplus r 1)).tag))
  | none => false

/-- A destination passes: a 64-bit result names an even register (R32). -/
def okDst (f : Fmt) (d : VR) : Bool := !f.pair || d.val % 2 == 0

/-- A second source passes: a vector register carries the same tag as the first (R87), a pair in an even register with equal
tags; other kinds adopt. -/
def Hart.okSame (h : Hart) (a : VR) : Src → Bool
  | .v r => (h.rv r).tag == (h.rv a).tag && h.okSrc (fun _ => true) r
  | _ => true

/-- The vector registers a source of any kind reads. -/
def Hart.srcRegs (h : Hart) : Src → List VR
  | .v r => opRegs (h.fmt r) r
  | _ => []

/-- The scalar registers a source of any kind reads. -/
def srcX : Src → List Reg
  | .x r => [r]
  | _ => []

/-- A vector operand read at issue. -/
def Hart.opd (h : Hart) (chain : Bool) (r : VR) : Opd := .reg (h.srcV chain r) (h.srcV chain (vplus r 1))

/-- A source of any kind read at issue under the tag it adopts: the operand and the flags of its conversion. (DEDUCED, assumption 18) -/
def Hart.src (h : Hart) (chain : Bool) (f : Fmt) : Src → Opd × Fl
  | .v r => (h.opd chain r, 0)
  | b => (.imm (adopt h f b).1, (adopt h f b).2)

/-! ## Results -/

/-- How a vector result lands: with fixed distances for chained and unchained consumers (R122), or scoreboarded. -/
inductive Lat where
  | fixed (chained unchained : Nat)
  | board
deriving DecidableEq, Repr

/-- The cycles until the last element group of a result of a chime is written (R122). (DESIGN CHOICE, assumption 9) -/
def Lat.span (l : Lat) (chime : Nat) : Nat :=
  match l with
  | .fixed _ u => chime + u
  | .board => 14 + 4 * chime

/-- A lane instruction at work for a number of cycles, which accesses to vresume wait for, and to fflags when it can set a flag (R160). (DEDUCED,
assumption 88) -/
def Hart.atWork (h : Hart) (flags : Bool) (n : Nat) : Hart := { h with busy := (if flags then 4 else 5, h.cycle, n) :: h.busy }

/-- A source adopts a tag, which can raise flags (R88). -/
def adopts : Src → Bool
  | .v _ => false
  | _ => true

/-- A vector register written under a latency. -/
def Hart.putV (h : Hart) (l : Lat) (r : VR) (a : VReg) : Hart :=
  match l with
  | .fixed c u => h.wvLat c u r a
  | .board => h.wvSb r a

/-- A mask register written under a latency. -/
def Hart.putM (h : Hart) (l : Lat) (r : MR) (a : MaskBits) : Hart :=
  match l with
  | .fixed c u => h.wmLat c u r a
  | .board => h.wmSb r a

/-- The marks of a register kept: only a write from slot 0 that keeps no old bits rewrites the whole register (R143). -/
def keepMarks (old : Hart) (s : Nat) (h : Hart) : Hart := if s = 0 then h else { h with marks := old.marks, vBad := old.vBad }

/-- Element `e` is active under an element mask. -/
def activeAt (m : Option MaskBits) (e : Nat) : Bool :=
  match m with
  | some b => mbit b e
  | none => true

/-- The element mask of an instruction, read at issue. -/
def Hart.emask (h : Hart) (m : Option MR) : Option MaskBits := m.map h.srcM

/-- The elementwise frame of R100 with R31's restart: elements below vresume and, under an unchanged tag, masked-off elements
keep their bits; the tail is zero; nothing is written at vl = 0 or at vresume ≥ vl. `op e` gives an element and its flags. -/
def Hart.frame (h : Hart) (lat : Lat) (m : Option MaskBits) (d : VR) (rt : Tag) (pair : Bool) (fl : Fl) (op : Nat → Nat × Fl) : Hart :=
  let s := h.vresume
  if h.vl ≤ s then h
  else
    let old := (h.rv d, h.rv (vplus d 1))
    let keep := old.1.tag = rt
    let vals := tabulate h.vl fun e =>
      if e < s then ((elem pair old.1 old.2 e, 0) : Nat × Fl)
      else if activeAt m e then op e
      else if keep then (elem pair old.1 old.2 e, 0) else (0, 0)
    let lo : VReg := { tag := rt, slots := trimSlots (vals.map fun v => BitVec.ofNat 32 v.1) }
    let hi : VReg := { tag := rt, slots := trimSlots (vals.map fun v => BitVec.ofNat 32 (v.1 / 2 ^ 32)) }
    let g := h.putV lat d lo
    let g := if pair then g.putV lat (vplus d 1) hi else g
    let kept : Bool := keep && (List.range h.vl).any fun e => !activeAt m e
    (keepMarks h (s + kept.toNat) g).raise (vals.foldl (fun a v => a ||| v.2) fl)

/-- A mask result of R33 and R109: masked-off positions keep their bit, bits from vl up are cleared, positions below vresume
are unchanged. -/
def Hart.frameM (h : Hart) (lat : Lat) (m : Option MaskBits) (d : MR) (start : Nat) (fl : Fl) (op : Nat → Bool × Fl) : Hart :=
  if h.vl ≤ start then h
  else
    let old := h.rm d
    let vals := tabulate h.vl fun e =>
      if e < start then ((mbit old e, 0) : Bool × Fl)
      else if activeAt m e then op e
      else (mbit old e, 0)
    let bitsOf := vals.map (·.1)
    (h.putM lat d (mbuild h.vl fun e => bitsOf.getD e false)).raise (vals.foldl (fun a v => a ||| v.2) fl)

/-- One slot of a register replaced. -/
def VReg.setSlot (r : VReg) (e : Nat) (v : Slot) : VReg := { r with slots := trimSlots (r.all.set e v) }

/-! ## Mask images (R33, R112) -/

/-- The MASKIMG image of a mask's 1024 bits (R33, R112, R358). -/
def maskImage (n : Nat) (m : MaskBits) : VReg :=
  VReg.build (tagOf .mimg) 32 fun i => BitVec.ofNat 32 ((m.toNat % 2 ^ n) / 2 ^ (32 * i))

/-- The mask of an image. -/
def imageMask (v : VReg) : MaskBits := mbuild 1024 fun e => (v.slot (e / 32)).getLsbD (e % 32)

end Sys2Proof.Machine
end

