-- ==== Sys2Proof/Machine/Alu.lean ====
section
/-! DEFINITION. Scalar integer instructions (spec/07_scalar_ops.md R148–R154): ALU, immediates, shifts, LIU and ADDPC. -/

namespace Sys2Proof.Machine

/-- A two-source register instruction of class 0: result register, sources, and the result (R148). -/
def alu2 (cls : Nat) (d a b : Reg) (f : Word → Word → Word) (s : State) : Out :=
  issue { cls := cls, xr := [a, b], xw := [d], scalar := true } noIll anyFmt
    (finish fun h => h.wx d (f (h.rx a) (h.rx b))) s

/-- A one-source register instruction. -/
def alu1 (cls : Nat) (d a : Reg) (f : Word → Word) (s : State) : Out :=
  issue { cls := cls, xr := [a], xw := [d], scalar := true } noIll anyFmt (finish fun h => h.wx d (f (h.rx a))) s

/-- A two-source instruction of class 1 with a longer latency, and the unit it occupies for it (R161). -/
def slow2 (d a b : Reg) (unit : Option Nat) (lat : Word → Word → Nat) (f : Word → Word → Word) (s : State) : Out :=
  issue { cls := 1, xr := [a, b], xw := [d], scalar := true, unit := unit } noIll anyFmt
    (finish fun h =>
      let n := lat (h.rx a) (h.rx b)
      { ((h.wx d (f (h.rx a) (h.rx b))).late d n) with busy := (unit.map fun u => (u, h.cycle, n)).toList ++ h.busy }) s

/-- The bits of a number. -/
def bitLen (n : Nat) : Nat := if n = 0 then 0 else Nat.log2 n + 1

/-- The occupancy of a division by the magnitude of its quotient (R161). -/
def divTime (q : Nat) : Nat := 6 + (bitLen q + 1) / 2

/-- A signed division (R161): a zero divisor has no quotient bits. -/
def divTimeS (a b : Word) : Nat := divTime (a.toInt.tdiv b.toInt).natAbs

/-- An unsigned division. -/
def divTimeU (a b : Word) : Nat := divTime (a.toNat / b.toNat)

/-- One for a relation that holds, else zero. -/
def flag (p : Bool) : Word := if p then 1 else 0

/-- The shift amount: the low six bits (R150). -/
def shamt (b : Word) : Nat := b.toNat % 64

/-- Leading zero bits; 64 for zero (R150). -/
def leadingZeros (a : Word) : Nat := if a.toNat = 0 then 64 else 63 - Nat.log2 a.toNat

/-- Trailing zero bits of the low `n` bits, counted from bit `64 - n`. -/
def trailingFrom (a : Word) : Nat → Nat
  | 0 => 64
  | n + 1 => if a.getLsbD (63 - n) then 63 - n else trailingFrom a n

/-- Trailing zero bits; 64 for zero (R150). -/
def trailingZeros (a : Word) : Nat := trailingFrom a 64

/-- The number of set bits (R150). -/
def popCount (a : Word) : Nat := (List.range 64).countP fun i => a.getLsbD i

/-- DIV (R151): truncated toward zero; all ones for a zero divisor. -/
def divS (a b : Word) : Word := if b = 0 then BitVec.allOnes 64 else BitVec.ofInt 64 (a.toInt.tdiv b.toInt)

/-- REM (R151): the sign of the dividend; the dividend for a zero divisor. -/
def remS (a b : Word) : Word := if b = 0 then a else BitVec.ofInt 64 (a.toInt.tmod b.toInt)

/-- DIVU (R151). -/
def divU (a b : Word) : Word := if b = 0 then BitVec.allOnes 64 else BitVec.ofNat 64 (a.toNat / b.toNat)

/-- REMU (R151). -/
def remU (a b : Word) : Word := if b = 0 then a else BitVec.ofNat 64 (a.toNat % b.toNat)

/-- Bits [127:64] of the signed product (R150). -/
def mulHigh (a b : Word) : Word := BitVec.ofInt 64 (a.toInt * b.toInt / ((2 ^ 64 : Nat) : Int))

/-- Bits [127:64] of the unsigned product (R150). -/
def mulHighU (a b : Word) : Word := BitVec.ofNat 64 (a.toNat * b.toNat / 2 ^ 64)

/-- ADD (R150): xa + xb. -/
def execAdd (d a b : Reg) (s : State) : Out := alu2 0 d a b (fun x y => x + y) s

/-- SUB (R150): xa − xb. -/
def execSub (d a b : Reg) (s : State) : Out := alu2 0 d a b (fun x y => x - y) s

/-- AND (R150): xa AND xb. -/
def execAnd (d a b : Reg) (s : State) : Out := alu2 0 d a b (fun x y => x &&& y) s

/-- OR (R150): xa OR xb. -/
def execOr (d a b : Reg) (s : State) : Out := alu2 0 d a b (fun x y => x ||| y) s

/-- XOR (R150): xa XOR xb. -/
def execXor (d a b : Reg) (s : State) : Out := alu2 0 d a b (fun x y => x ^^^ y) s

/-- SLL (R150): xa shifted left by xb[5:0]. -/
def execSll (d a b : Reg) (s : State) : Out := alu2 0 d a b (fun x y => x <<< shamt y) s

/-- SRL (R150): xa shifted right, zero-filled. -/
def execSrl (d a b : Reg) (s : State) : Out := alu2 0 d a b (fun x y => x >>> shamt y) s

/-- SRA (R150): xa shifted right, sign-filled. -/
def execSra (d a b : Reg) (s : State) : Out := alu2 0 d a b (fun x y => x.sshiftRight (shamt y)) s

/-- SLT (R150): signed less-than. -/
def execSlt (d a b : Reg) (s : State) : Out := alu2 0 d a b (fun x y => flag (x.slt y)) s

/-- SLTU (R150): unsigned less-than. -/
def execSltu (d a b : Reg) (s : State) : Out := alu2 0 d a b (fun x y => flag (x.ult y)) s

/-- MIN (R150): the smaller, signed. -/
def execMin (d a b : Reg) (s : State) : Out := alu2 0 d a b (fun x y => if y.slt x then y else x) s

/-- MAX (R150): the larger, signed. -/
def execMax (d a b : Reg) (s : State) : Out := alu2 0 d a b (fun x y => if x.slt y then y else x) s

/-- MINU (R150): the smaller, unsigned. -/
def execMinu (d a b : Reg) (s : State) : Out := alu2 0 d a b (fun x y => if y.ult x then y else x) s

/-- MAXU (R150): the larger, unsigned. -/
def execMaxu (d a b : Reg) (s : State) : Out := alu2 0 d a b (fun x y => if x.ult y then y else x) s

/-- MUL (R150): bits [63:0] of the product. -/
def execMul (d a b : Reg) (s : State) : Out := slow2 d a b none (fun _ _ => 3) (fun x y => x * y) s

/-- MULH (R150): bits [127:64] of the signed product. -/
def execMulh (d a b : Reg) (s : State) : Out := slow2 d a b none (fun _ _ => 4) (fun x y => mulHigh x y) s

/-- MULHU (R150): bits [127:64] of the unsigned product. -/
def execMulhu (d a b : Reg) (s : State) : Out := slow2 d a b none (fun _ _ => 4) (fun x y => mulHighU x y) s

/-- DIV (R150): the quotient of R151. -/
def execDiv (d a b : Reg) (s : State) : Out := slow2 d a b (some 0) divTimeS (fun x y => divS x y) s

/-- DIVU (R150): the unsigned quotient of R151. -/
def execDivu (d a b : Reg) (s : State) : Out := slow2 d a b (some 0) divTimeU (fun x y => divU x y) s

/-- REM (R150): the remainder of R151. -/
def execRem (d a b : Reg) (s : State) : Out := slow2 d a b (some 0) divTimeS (fun x y => remS x y) s

/-- REMU (R150): the unsigned remainder of R151. -/
def execRemu (d a b : Reg) (s : State) : Out := slow2 d a b (some 0) divTimeU (fun x y => remU x y) s

/-- CLZ (R150): leading zero bits. -/
def execClz (d a : Reg) (s : State) : Out := alu1 0 d a (fun x => BitVec.ofNat 64 (leadingZeros x)) s

/-- CTZ (R150): trailing zero bits. -/
def execCtz (d a : Reg) (s : State) : Out := alu1 0 d a (fun x => BitVec.ofNat 64 (trailingZeros x)) s

/-- POPC (R150): set bits. -/
def execPopc (d a : Reg) (s : State) : Out := alu1 0 d a (fun x => BitVec.ofNat 64 (popCount x)) s

/-- ADDI (R152): ADD of the sign-extended imm15. -/
def execAddi (d a : Reg) (i : BitVec 15) (s : State) : Out := alu1 0 d a (fun x => x + i.signExtend 64) s

/-- ANDI (R152): AND. -/
def execAndi (d a : Reg) (i : BitVec 15) (s : State) : Out := alu1 0 d a (fun x => x &&& i.signExtend 64) s

/-- ORI (R152): OR. -/
def execOri (d a : Reg) (i : BitVec 15) (s : State) : Out := alu1 0 d a (fun x => x ||| i.signExtend 64) s

/-- XORI (R152): XOR. -/
def execXori (d a : Reg) (i : BitVec 15) (s : State) : Out := alu1 0 d a (fun x => x ^^^ i.signExtend 64) s

/-- SLTI (R152): SLT. -/
def execSlti (d a : Reg) (i : BitVec 15) (s : State) : Out := alu1 0 d a (fun x => flag (x.slt (i.signExtend 64))) s

/-- SLTIU (R152): SLTU of the sign-extended imm15. -/
def execSltiu (d a : Reg) (i : BitVec 15) (s : State) : Out := alu1 0 d a (fun x => flag (x.ult (i.signExtend 64))) s

/-- SLLI (R153). -/
def execSlli (d a : Reg) (n : BitVec 6) (s : State) : Out := alu1 0 d a (fun x => x <<< n.toNat) s

/-- SRLI (R153). -/
def execSrli (d a : Reg) (n : BitVec 6) (s : State) : Out := alu1 0 d a (fun x => x >>> n.toNat) s

/-- SRAI (R153). -/
def execSrai (d a : Reg) (n : BitVec 6) (s : State) : Out := alu1 0 d a (fun x => x.sshiftRight n.toNat) s

/-- The upper immediate of R154: imm20 sign-extended and multiplied by 4096. -/
def upper (i : BitVec 20) : Word := i.signExtend 64 <<< 12

/-- LIU (R154). -/
def execLiu (d : Reg) (i : BitVec 20) (s : State) : Out :=
  issue { cls := 0, xw := [d], scalar := true } noIll anyFmt (finish fun h => h.wx d (upper i)) s

/-- ADDPC (R154): from the address of the instruction. -/
def execAddpc (d : Reg) (i : BitVec 20) (s : State) : Out :=
  issue { cls := 0, xw := [d], scalar := true } noIll anyFmt (finish fun h => h.wx d (h.pc + upper i)) s

end Sys2Proof.Machine
end

