-- ==== Sys2Proof/Machine/Control.lean ====
section
/-! DEFINITION. Control flow, SYS, SETVL, barriers, sequence numbers, the loop sequencer and the mask queries
(spec/12_control_ops.md R270–R284, spec/08_ordering.md R179, spec/05_vector_ops.md R121). A transfer's target is fetched by the
next step, which freezes at the target when that fetch fails (R272). -/

namespace Sys2Proof.Machine

/-! ## Branches and jumps -/

/-- A conditional branch (R271): taken, two bubbles (R291). -/
def branch (a b : Reg) (off : BitVec 15) (p : Word → Word → Bool) (s : State) : Out :=
  issue { cls := 0, xr := [a, b] } noIll anyFmt (fun s => .next (s.modMe fun h =>
    if p (h.rx a) (h.rx b) then h.goto (h.pc + off.signExtend 64 * 4) 2 else h.done)) s

/-- BEQ (R271). -/
def execBeq (a b : Reg) (off : BitVec 15) (s : State) : Out := branch a b off (fun x y => x == y) s
/-- BNE (R271). -/
def execBne (a b : Reg) (off : BitVec 15) (s : State) : Out := branch a b off (fun x y => x != y) s
/-- BLT (R271). -/
def execBlt (a b : Reg) (off : BitVec 15) (s : State) : Out := branch a b off (fun x y => x.slt y) s
/-- BGE (R271). -/
def execBge (a b : Reg) (off : BitVec 15) (s : State) : Out := branch a b off (fun x y => !x.slt y) s
/-- BLTU (R271). -/
def execBltu (a b : Reg) (off : BitVec 15) (s : State) : Out := branch a b off (fun x y => x.ult y) s
/-- BGEU (R271). -/
def execBgeu (a b : Reg) (off : BitVec 15) (s : State) : Out := branch a b off (fun x y => !x.ult y) s

/-- JAL (R271): the link, then the target. -/
def execJal (d : Reg) (off : BitVec 20) (s : State) : Out :=
  issue { cls := 0, xw := [d] } noIll anyFmt (fun s => .next (s.modMe fun h =>
    (h.wx d (h.pc + 4)).goto (h.pc + off.signExtend 64 * 4) 1)) s

/-- JALR (R271): a target that is not a multiple of 4 freezes with MISALIGN before any effect. -/
def execJalr (d a : Reg) (i : BitVec 15) (s : State) : Out :=
  issue { cls := 0, xr := [a], xw := [d] } noIll anyFmt (fun s =>
    let t := s.me.rx a + i.signExtend 64
    if t.toNat % 4 ≠ 0 then stopAt .misalign t none s
    else .next (s.modMe fun h => (h.wx d (h.pc + 4)).goto t 3)) s

/-! ## SYS (R273, R274) -/

/-- SYSC and BRK: a freeze whose record holds the code; the fault address is 0 (R348). -/
def codeFreeze (c : Cause) (code : BitVec 15) (s : State) : Out :=
  issue { cls := 0 } noIll anyFmt (fun s => .next (freeze s s.cur { (s.me.record c 0) with code := code })) s

/-- SYSC (R273). -/
def execSysc (code : BitVec 15) (s : State) : Out := codeFreeze .sysc code s

/-- BRK (R273). -/
def execBrk (code : BitVec 15) (s : State) : Out := codeFreeze .brk code s

/-- WAITE (R273). -/
def execWaite (s : State) : Out :=
  issue { cls := 0 } noIll anyFmt (fun s =>
    if s.me.event then finish (fun h => { h with event := false }) s else waitOn 5 false s) s

/-- The other ready harts of the executing hart's core: running, and held by no wait (R273). (DEDUCED, assumption 60) -/
def readyOthers (s : State) : List Nat :=
  ((residents s s.me.core).filter fun p => p.1 != s.cur && p.2.status == .running && p.2.waiting.isNone).map (·.1)

/-- YIELD (R273): the hart waits until each other ready hart of the core has issued a vector-class instruction, or for 16 cycles. -/
def execYield (s : State) : Out :=
  issue { cls := 0 } noIll anyFmt (fun s =>
    let (n, l) := s.me.yield.getD (0, readyOthers s)
    if n = 16 || (l.filter fun u => (readyOthers s).contains u) == [] then finish (fun h => { h with yield := none }) s
    else waitOn 3 false (s.modMe fun h => { h with yield := some (n + 1, l) })) s

/-- DELAY (R273): n cycles in sc0. -/
def execDelay (n : BitVec 10) (s : State) : Out :=
  issue { cls := 0 } noIll anyFmt (fun s => .next (s.modMe fun h => { (h.account n.toNat 0) with pc := h.pc + 4 })) s

/-- One byte of a version performed (R262), under the translation its store had. -/
def commitByte (s : State) (uid : Nat) (e : VerByte) : State :=
  hostPass (homeWrite s (s.hart uid).core e.asid e.va e.pa e.rights [some e.byte]) e.asid (e.va / 64)

/-- The commit of a hart's version at every scope (R262). (DESIGN CHOICE, assumption 58) -/
def commitVersion (s : State) (uid : Nat) : State :=
  let h := s.hart uid
  if h.version = [] then s
  else
    let s := h.version.reverse.foldl (fun s e => commitByte s uid e) s
    flushSystem (s.modHart uid fun h => { h with version := [] }) (asidOf h.aspace)

/-- A byte of a hart's version, or of a store it has pending, cannot be performed yet: an engine owns its line (R182), its slice is in retention
(R381) or the host's links are down (R416). -/
def commitWaits (s : State) (uid : Nat) : Bool :=
  ((s.hart uid).version.any fun e => isOwned s e.asid (e.va / 64) || retained s e.va || hostDown s (e.pa / 64)) || drainWaits s uid fun _ => true

/-- The stale bytes of a version translated afresh (R262, R322; DESIGN CHOICE, assumption 58): the pages that an invalidation has covered since
their stores. A failure gives its address. -/
def freshVersion (s : State) (uid : Nat) : List VerByte → Except (Miss × Nat) State
  | [] => .ok s
  | e :: l =>
    if !e.stale then freshVersion s uid l
    else
      let h := s.hart uid
      let asp := if asidOf h.aspace = e.asid then h.aspace else mkAspace (BitVec.ofNat 16 e.asid) (s.ctx h.ctx).root
      match translate s asp h.priv .store e.va with
      | .error m => .error (m, e.va)
      | .ok (s, ppn, r) =>
        freshVersion (s.modHart uid fun h => { h with version := h.version.map fun k =>
          if k.asid = e.asid ∧ k.va = e.va then { k with pa := ppn * 4096 + e.va % 4096, rights := r, stale := false } else k }) uid l

/-- EXIT (R274): waits for engine and matrix operations, performs both agents' accesses at .d, commits the version, leaves the
barriers, discards messages and ends the strip, member or mender; its waits count in sc5. (DEDUCED, assumption 59) -/
def execExit (s : State) : Out :=
  issue { cls := 0 } noIll anyFmt (fun s =>
    if s.me.ops ≠ [] ∨ s.me.mops ≠ [] then waitOn 5 false s
    else if commitWaits s s.cur then waitOn 5 false (s.me.version.foldl (fun s e => touchSlice s e.va) s)
    else match freshVersion s s.cur s.me.version with
    | .error (m, va) =>
      match missCause .store m with
      | some c => stopAt c (BitVec.ofNat 64 va) none s
      | none => waitOn 5 false (noteWait s (asidOf s.me.aspace))
    | .ok s =>
      let u := s.cur
      let s := drainAll s u
      let s := commitVersion s u
      let s := leaveBars s u
      let s := discardMail s u
      let s := s.modHart u Hart.done
      .next (endHart s u false)) s

/-! ## Vector length (R275) and mask queries (R121) -/

/-- SETVL's effect: vl := min(r, G), returned. -/
def setVl (d : Reg) (r : Nat) (h : Hart) : Hart :=
  let n := min r h.grant
  ({ h with vl := n }).wx d (BitVec.ofNat 64 n)

/-- SETVL from a register (R275). -/
def execSetvlReg (d a : Reg) (s : State) : Out :=
  issue { cls := 0, xr := [a], xw := [d] } noIll anyFmt (finish fun h => setVl d (h.rx a).toNat h) s

/-- SETVL of an immediate (R275). -/
def execSetvlImm (d : Reg) (n : BitVec 14) (s : State) : Out :=
  issue { cls := 0, xw := [d] } noIll anyFmt (finish fun h => setVl d n.toNat h) s

/-- A mask query (R121): the final value of the mask, once its producer has finished. -/
def maskQuery (d : Reg) (m : MR) (f : Nat → MaskBits → Word) (s : State) : Out :=
  issue { cls := 0, xw := [d], mr := [m], final := true } noIll anyFmt (finish fun h => h.wx d (f h.vl (h.rm m))) s

/-- The set bits of a mask below vl. -/
def maskCount (vl : Nat) (m : MaskBits) : Nat := (List.range vl).countP fun e => mbit m e

/-- MPOP (R121). -/
def execMpop (d : Reg) (m : MR) (s : State) : Out := maskQuery d m (fun vl b => BitVec.ofNat 64 (maskCount vl b)) s

/-- MANY (R121). -/
def execMany (d : Reg) (m : MR) (s : State) : Out := maskQuery d m (fun vl b => if 0 < maskCount vl b then 1 else 0) s

/-- MFIRST (R121): all ones when no bit is set. -/
def execMfirst (d : Reg) (m : MR) (s : State) : Out :=
  maskQuery d m (fun vl b =>
    match (List.range vl).find? fun e => mbit b e with
    | some e => BitVec.ofNat 64 e
    | none => BitVec.allOnes 64) s

/-! ## Barriers (R276–R278, R179) -/

/-- The issue of a BAR instruction: a barrier number at or beyond the crew's count is ILLEGAL_OP. -/
def barIssue (bar : Fin 128) (xr xw : List Reg) (k : State → Out) (s : State) : Out :=
  issue { cls := 0, xr := xr, xw := xw } (fun s => s.me.kern.barriers ≤ bar.val) anyFmt k s

/-- A release at a scope (R178, R179): the hart's accesses are performed; at .s a store to host memory is waited for. -/
def release (sc : Nat) (k : State → Out) (s : State) : Out :=
  if sc = 0 then k (performAt s s.cur 0 true true true true)
  else afterDrain 7 s.cur (fun s =>
    let s := performAt s s.cur sc true true true true
    if sc = 3 ∧ s.me.hostLines ≠ [] then waitOn 12 false s else k s) s

/-- An acquire at a scope (R179): what the hart's agents have read ahead is forgotten. -/
def acquire (sc : Nat) (s : State) : State :=
  let s := orderLoads s s.cur false false true true
  if sc = 0 then s else cleanL1 s s.me.core

/-- The executing hart's barrier. -/
def myBar (s : State) (bar : Fin 128) : Barrier := (s.crew s.me.crew).bar bar.val

/-- The arrival of BARV (R277): the token, then the count. -/
def arriveMe (s : State) (bar : Fin 128) : State :=
  let p := (myBar s bar).phase
  let s := s.modMe fun h => h.setToken bar.val (some p)
  arriveAt s s.me.crew bar.val (some s.me.rank)

/-- The wait half (R277): until the phase differs from the token, or without one until the next flip, which releases the waiter; then the
acquire. `w` is how the hart waits. -/
def barWaitHalf (bar : Fin 128) (w : BarWait) (s : State) : Out :=
  let h := s.me
  let b := myBar s bar
  let flipped : Bool := match h.token bar.val with
    | some p => p != b.phase
    | none => false
  if h.barGo || flipped then finish (fun h => h.setToken bar.val none) (acquire b.scope.val s)
  else waitOn 4 true (s.modMe fun h => { h with barWait := some (h.barWait.getD w) })

/-- BINIT (R278): E, the members and the scope; the status words are cleared; a count already reached flips at once. -/
def execBinit (a : Reg) (bar : Fin 128) (sc : Fin 4) (s : State) : Out :=
  barIssue bar [a] [] (fun s =>
    let h := s.me
    let w := (h.rx a).toNat
    let e := bits w 15 0
    let mem := bits w 31 16
    if e = 0 ∨ bits w 63 32 ≠ 0 ∨ 2 ^ (s.crew h.crew).size ≤ mem then stop .illegalOp s
    else
      let b := { (myBar s bar) with expect := e, members := BitVec.ofNat 16 mem, scope := sc, acc := 0, shown := 0 }
      finish id (putBar s h.crew bar.val b)) s

/-- BARV (R277): release, then arrive. -/
def execBarv (bar : Fin 128) (s : State) : Out :=
  barIssue bar [] [] (fun s => release (myBar s bar).scope.val (fun s => finish id (arriveMe s bar)) s) s

/-- BWAIT (R277). -/
def execBwait (bar : Fin 128) (s : State) : Out := barIssue bar [] [] (barWaitHalf bar { bar := bar.val }) s

/-- BARW (R277): BARV, then BWAIT. A BARW that has arrived and waits does not arrive again. (DEDUCED, assumption 35) -/
def execBarw (bar : Fin 128) (s : State) : Out :=
  barIssue bar [] [] (fun s =>
    let w : BarWait := { bar := bar.val, arrived := true, token := s.me.token bar.val }
    if s.me.barGo || s.me.barWait.isSome then barWaitHalf bar w s
    else release (myBar s bar).scope.val (fun s => barWaitHalf bar w (arriveMe s bar)) s) s

/-- BTEST (R277): the readable status word. -/
def execBtest (d : Reg) (bar : Fin 128) (s : State) : Out :=
  barIssue bar [] [d] (fun s =>
    let w := (myBar s bar).shown
    finish (fun h => h.wx d w) s) s

/-! ## Sequence numbers (R280) -/

/-- SEQRD (R280). -/
def execSeqrd (d : Reg) (n : Fin 8) (s : State) : Out :=
  issue { cls := 0, xw := [d] } noIll anyFmt (finish fun h => h.wx d (BitVec.ofNat 64 (h.seqc n.val))) s

/-- SEQWAIT (R280): a count beyond the operations issued freezes with ENGINE, sub-cause control. -/
def execSeqwait (a : Reg) (n : Fin 8) (s : State) : Out :=
  issue { cls := 0, xr := [a] } noIll anyFmt (fun s =>
    let h := s.me
    let k := (h.rx a).toNat
    if h.issued.getD n.val 0 < k then
      .next (freeze s s.cur { (h.record .engine 0) with engw := BitVec.ofNat 64 (n.val + 16 + k % 2 ^ 32 * 2 ^ 32) })
    else if h.seqc n.val < k then waitOn 5 true s
    else finish id s) s

/-! ## The loop sequencer (R282–R284) -/

/-- LPSET (R282). -/
def execLpset (a : Reg) (len : BitVec 12) (s : State) : Out :=
  issue { cls := 0, xr := [a] } noIll anyFmt (fun s =>
    let h := s.me
    let w := (h.rx a).toNat
    if bits w 63 62 ≠ 0 ∨ bits w 27 16 ≠ 0 then stop .illegalOp s
    else finish (fun h => { h with lpstate := BitVec.ofNat 64 (w + (len.toNat / 8 - 1) * 2 ^ 16) }) s) s

/-- How the body check of LPRUN ends: the words, a failed fetch at an address, or another failure. -/
inductive BodyCheck where
  | ok (s : State) (words : List Word)
  | fetch (c : Cause) (a : Nat)
  | illegal
  | waits

/-- The body words fetched in ascending order and checked (R283): long, F on the first only, L on the last only. A failed fetch has the
failing word's address, a chunk mismatch of R73 too; a word of a line an engine owns, or in an array in retention, is waited for (R182, R381). -/
def bodyWords (uid base len : Nat) : Nat → State → List Word → BodyCheck
  | 0, s, acc =>
    let ok := (List.range (len + 1)).all fun i =>
      let w := (acc.getD i 0)
      w.getLsbD 0 && w.getLsbD 61 == (i == 0) && w.getLsbD 62 == (i == len)
    if ok then .ok s acc else .illegal
  | n + 1, s, acc =>
    let a := (base + 8 * (len - n)) % 2 ^ 64
    match fetchAcc s uid a 8 with
    | .error (some c, _) => .fetch c a
    | .error (none, _) => .waits
    | .ok (s, b) => bodyWords uid base len n s (acc ++ [BitVec.ofNat 64 (natOf b)])

/-- LPRUN (R283): with no trips left the body is skipped; otherwise the body is checked and the replay starts. -/
def execLprun (s : State) : Out :=
  issue { cls := 0 } noIll anyFmt (fun s =>
    let h := s.me
    let w := h.lpstate.toNat
    let len := bits w 21 16
    let base := ((h.pc.toNat + 4 + 7) / 8 * 8) % 2 ^ 64
    if bits w 15 0 = 0 then
      .next (s.modMe fun h => { (h.account 0 1) with lpstate := 0, pc := BitVec.ofNat 64 (base + 8 * (len + 1)) })
    else
      match bodyWords s.cur base len (len + 1) s [] with
      | .fetch c a => stopAt c (BitVec.ofNat 64 a) none s
      | .illegal => stop .illegalOp s
      | .waits => fetchWait (tabulate (len + 1) fun i => (base + 8 * i) % 2 ^ 64) s
      | .ok s ws =>
        .next (s.modMe fun h => { (h.account 0 1) with
          lpstate := BitVec.ofNat 64 (w - bits w 27 22 * 2 ^ 22 + 2 ^ 62 - w / 2 ^ 62 * 2 ^ 62)
          lpBase := BitVec.ofNat 64 base, lpBody := ws, pc := BitVec.ofNat 64 base })) s

end Sys2Proof.Machine
end

