-- ==== Sys2Proof/Machine/Vec.lean ====
section
/-! DEFINITION. Elementwise vector instructions: VARITH, VFMA, VLOGIC, VEST, VCMP, the mask operations and VMERGE
(spec/05_vector_ops.md R100–R112), with the latencies of R122. -/

namespace Sys2Proof.Machine

/-- The operation of an elementwise instruction on one sub-element: the format, the rounding mode of frm, up to three
patterns. -/
abbrev SubOp := Fmt → Nat → Nat → Nat → Nat → Nat × Fl

/-- The profile of an elementwise instruction: its sources are read chained (R122). -/
def ewProf (cls : Nat) (hd : Hdr) (m : Option MR) (h : Hart) (dst : List VR) (a : VR) (b : Option Src) (c : Option VR) : Prof :=
  { cls := cls, hdr := some hd, chain := true, mr := m.toList, vw := dst
    vr := opRegs (h.fmt a) a ++ (b.map h.srcRegs).getD [] ++ (c.map fun r => opRegs (h.fmt r) r).getD []
    xr := (b.map srcX).getD [] }

/-- The tag checks of an elementwise instruction (R36, R87): an accepted first source, sources of equal tags, and an even
destination for a pair. -/
def ewFmt (accept : Fmt → Bool) (d : Option VR) (a : VR) (b : Option Src) (c : Option VR) (s : State) : Bool :=
  let h := s.me
  h.okSrc accept a && (b.map (h.okSame a)).getD true && (c.map fun r => h.okSame a (.v r)).getD true
    && (match d, h.fmt a with
      | some r, some f => okDst f r
      | _, _ => true)

/-- One sub-element of an optional third source. -/
def subOpt (o : Option Opd) (w e j : Nat) : Nat :=
  match o with
  | some p => p.sub w e j
  | none => 0

/-- An elementwise instruction of R100: the result tag is the first source's. -/
def elementwise (cls : Nat) (hd : Hdr) (m : Option MR) (d a : VR) (b : Option Src) (c : Option VR) (accept : Fmt → Bool)
    (lat : Fmt → Lat) (op : SubOp) (s : State) : Out :=
  let dst := opRegs (s.me.fmt a) d
  issue (ewProf cls hd m s.me dst a b c) noIll (ewFmt accept (some d) a b c)
    (finishL hd fun h =>
      let f := (h.fmt a).getD .i32
      let x := h.opd true a
      let (y, fl) := match b with
        | some q => h.src true f q
        | none => (.imm 0, 0)
      let z := c.map (h.opd true)
      let w := f.width
      (h.frame (lat f) (h.emask m) d (h.rv a).tag f.pair fl fun e =>
        pack w fun j => op f h.frm (x.sub w e j) (y.sub w e j) (subOpt z w e j)).atWork (cls != 11 || (b.map adopts).getD false)
          ((lat f).span h.chime)) s

/-! ## VARITH (R104, R105) -/

/-- The formats of an INT column, a float column and a FIXED column of R104. -/
def cols (int flt fix : Bool) (f : Fmt) : Bool := (int && f.isInt) || (flt && f.isArith) || (fix && f.isFixed)

/-- The distances of R122 for an integer and a float operation. -/
def latIF (i : Nat) (f : Fmt) : Lat := if f.isFloat then .fixed 4 6 else .fixed i (i + 2)

/-- An integer or FIXED operation that wraps, and a float operation. -/
def ifOp (i : Int → Int → Int) (g : FF → Nat → Nat → Nat → Nat × Fl) : SubOp := fun f mode x y _ =>
  if f.isFloat then g f.ff mode x y else (f.wrap (i (f.int x) (f.int y)), 0)

/-- A saturating integer or FIXED operation. -/
def satOp (i : Int → Int → Int) : SubOp := fun f _ x y _ => f.sat (i (f.int x) (f.int y))

/-- A two-source VARITH instruction. -/
def varith2 (hd : Hdr) (m : Option MR) (d a : VR) (b : Src) (accept : Fmt → Bool) (i : Nat) (op : SubOp) (s : State) : Out :=
  elementwise 8 hd m d a (some b) none accept (latIF i) op s

/-- VADD (R104). -/
def execVadd (hd : Hdr) (m : Option MR) (d a : VR) (b : Src) (s : State) : Out :=
  varith2 hd m d a b (cols true true true) 2 (ifOp (fun x y => x + y) FF.add) s

/-- VSUB (R104). -/
def execVsub (hd : Hdr) (m : Option MR) (d a : VR) (b : Src) (s : State) : Out :=
  varith2 hd m d a b (cols true true true) 2 (ifOp (fun x y => x - y) FF.sub) s

/-- VMUL (R104). -/
def execVmul (hd : Hdr) (m : Option MR) (d a : VR) (b : Src) (s : State) : Out :=
  varith2 hd m d a b (cols true true false) 3 (ifOp (fun x y => x * y) FF.mul) s

/-- VMULH (R104): the high w bits of the exact product. -/
def execVmulh (hd : Hdr) (m : Option MR) (d a : VR) (b : Src) (s : State) : Out :=
  varith2 hd m d a b (cols true false false) 3 (fun f _ x y _ => (f.wrap (f.int x * f.int y / ((2 ^ f.width : Nat) : Int)), 0)) s

/-- VMIN (R104, R96). -/
def execVmin (hd : Hdr) (m : Option MR) (d a : VR) (b : Src) (s : State) : Out :=
  varith2 hd m d a b (cols true true true) 2 (ifOp (fun x y => if y < x then y else x) fun f _ x y => f.minmax false x y) s

/-- VMAX (R104, R96). -/
def execVmax (hd : Hdr) (m : Option MR) (d a : VR) (b : Src) (s : State) : Out :=
  varith2 hd m d a b (cols true true true) 2 (ifOp (fun x y => if x < y then y else x) fun f _ x y => f.minmax true x y) s

/-- A float with its sign changed; a NaN gives the canonical NaN (R104, R79). -/
def signOp (g : Bool → Bool) (f : FF) (x : Nat) : Nat × Fl :=
  let v := f.read x
  if v.isNan then (f.qnan, v.sig) else (f.pat (g (x / f.signBit % 2 == 1)) (x % f.signBit), 0)

/-- VABS (R104). -/
def execVabs (hd : Hdr) (m : Option MR) (d a : VR) (s : State) : Out :=
  elementwise 8 hd m d a none none (cols true true true) (latIF 2)
    (ifOp (fun x _ => (x.natAbs : Int)) fun f _ x _ => signOp (fun _ => false) f x) s

/-- VNEG (R104). -/
def execVneg (hd : Hdr) (m : Option MR) (d a : VR) (s : State) : Out :=
  elementwise 8 hd m d a none none (cols true true true) (latIF 2) (ifOp (fun x _ => -x) fun f _ x _ => signOp (fun n => !n) f x) s

/-- VDIV (R104): integers truncate toward zero and a zero divisor gives all ones; INT64-pair freezes with FORMAT. -/
def execVdiv (hd : Hdr) (m : Option MR) (d a : VR) (b : Src) (s : State) : Out :=
  elementwise 9 hd m d a (some b) none (fun f => cols true true false f && !f.pair) (fun _ => .board)
    (ifOp (fun x y => if y = 0 then -1 else x.tdiv y) FF.div) s

/-- VSQRT (R104). -/
def execVsqrt (hd : Hdr) (m : Option MR) (d a : VR) (s : State) : Out :=
  elementwise 9 hd m d a none none (cols false true false) (fun _ => .board) (fun f mode x _ _ => f.ff.sqrt mode x) s

/-- VADDS (R104). -/
def execVadds (hd : Hdr) (m : Option MR) (d a : VR) (b : Src) (s : State) : Out :=
  varith2 hd m d a b (cols true false true) 2 (satOp fun x y => x + y) s

/-- VSUBS (R104). -/
def execVsubs (hd : Hdr) (m : Option MR) (d a : VR) (b : Src) (s : State) : Out :=
  varith2 hd m d a b (cols true false true) 2 (satOp fun x y => x - y) s

/-- VQMUL (R104, R82): the product rounded half up by s, saturated. -/
def execVqmul (hd : Hdr) (m : Option MR) (d a : VR) (b : Src) (s : State) : Out :=
  varith2 hd m d a b (cols false false true) 3 (fun f _ x y _ => f.sat (halfUp f.frac (f.int x * f.int y))) s

/-- VQSHR (R105): the count is unsigned, does not adopt a tag, and values above 63 count as 63. -/
def execVqshr (hd : Hdr) (m : Option MR) (d a : VR) (b : Src) (s : State) : Out :=
  issue { (ewProf 8 hd m s.me (opRegs (s.me.fmt a) d) a none none) with xr := srcX b } noIll
    (ewFmt (cols false false true) (some d) a none none)
    (finishL hd fun h =>
      let f := (h.fmt a).getD .i32
      let x := h.opd true a
      let n := min 63 (srcCount h b)
      (h.frame (latIF 3 f) (h.emask m) d (h.rv a).tag f.pair 0 fun e => pack f.width fun j =>
        if f.width ≤ n then (0, 0) else f.sat (halfUp n (f.int (x.sub f.width e j)))).atWork true (h.chime + 5)) s

/-! ## VFMA (R106) -/

/-- ±(a × b) ± c in a format (R106). -/
def fmaOp (np nc : Bool) : SubOp := fun f mode x y z =>
  if f.isFloat then f.ff.fma mode np nc x y z
  else
    let p := (if np then -1 else 1) * (f.int x * f.int y)
    let c := (if nc then -1 else 1) * f.int z
    if f.isFixed then f.sat (halfUp f.frac (p + c * ((2 ^ f.frac : Nat) : Int))) else (f.wrap (p + c), 0)

/-- The formats of VFMA: INT64-pair is not one (R106). -/
def fmaFmt (f : Fmt) : Bool := cols true true true f && f != .i64

/-- VFMA (R106). -/
def execVfma (hd : Hdr) (m : Option MR) (d a : VR) (b : Src) (c : VR) (s : State) : Out :=
  elementwise 10 hd m d a (some b) (some c) fmaFmt (fun _ => .fixed 4 6) (fmaOp false false) s

/-- VFMS (R106). -/
def execVfms (hd : Hdr) (m : Option MR) (d a : VR) (b : Src) (c : VR) (s : State) : Out :=
  elementwise 10 hd m d a (some b) (some c) fmaFmt (fun _ => .fixed 4 6) (fmaOp false true) s

/-- VFNMA (R106). -/
def execVfnma (hd : Hdr) (m : Option MR) (d a : VR) (b : Src) (c : VR) (s : State) : Out :=
  elementwise 10 hd m d a (some b) (some c) fmaFmt (fun _ => .fixed 4 6) (fmaOp true true) s

/-- VFNMS (R106). -/
def execVfnms (hd : Hdr) (m : Option MR) (d a : VR) (b : Src) (c : VR) (s : State) : Out :=
  elementwise 10 hd m d a (some b) (some c) fmaFmt (fun _ => .fixed 4 6) (fmaOp true false) s

/-! ## VLOGIC (R107) -/

/-- The formats of the bitwise operations. -/
def bitFmt (f : Fmt) : Bool := f.isInt || f.isFloat || f.isFixed
/-- The formats of the shifts. -/
def shiftFmt (f : Fmt) : Bool := f.isInt || f.isFixed

/-- A two-source bitwise operation: it raises no flag of its own, and its second source's adoption raises R88's. (DESIGN CHOICE, assumption 76) -/
def vbit (hd : Hdr) (m : Option MR) (d a : VR) (b : Src) (g : Nat → Nat → Nat) (s : State) : Out :=
  elementwise 11 hd m d a (some b) none bitFmt (fun _ => .fixed 1 3) (fun _ _ x y _ => (g x y, 0)) s

/-- A shift: the amount is the low log2(w) bits of the second operand (R107). -/
def vshift (hd : Hdr) (m : Option MR) (d a : VR) (b : Src) (g : Fmt → Nat → Nat → Nat) (s : State) : Out :=
  elementwise 11 hd m d a (some b) none shiftFmt (fun _ => .fixed 1 3) (fun f _ x y _ => (g f x (y % f.width), 0)) s

/-- VAND (R107). -/
def execVand (hd : Hdr) (m : Option MR) (d a : VR) (b : Src) (s : State) : Out := vbit hd m d a b (fun x y => x &&& y) s
/-- VOR (R107). -/
def execVor (hd : Hdr) (m : Option MR) (d a : VR) (b : Src) (s : State) : Out := vbit hd m d a b (fun x y => x ||| y) s
/-- VXOR (R107). -/
def execVxor (hd : Hdr) (m : Option MR) (d a : VR) (b : Src) (s : State) : Out := vbit hd m d a b (fun x y => x ^^^ y) s
/-- VNOT (R107). -/
def execVnot (hd : Hdr) (m : Option MR) (d a : VR) (s : State) : Out :=
  elementwise 11 hd m d a none none bitFmt (fun _ => .fixed 1 3) (fun f _ x _ _ => (2 ^ f.width - 1 - x, 0)) s
/-- VSLL (R107). -/
def execVsll (hd : Hdr) (m : Option MR) (d a : VR) (b : Src) (s : State) : Out := vshift hd m d a b (fun f x n => x * 2 ^ n % 2 ^ f.width) s
/-- VSRL (R107). -/
def execVsrl (hd : Hdr) (m : Option MR) (d a : VR) (b : Src) (s : State) : Out := vshift hd m d a b (fun _ x n => x / 2 ^ n) s
/-- VSRA (R107): for UINT8 it fills with zeros. -/
def execVsra (hd : Hdr) (m : Option MR) (d a : VR) (b : Src) (s : State) : Out :=
  vshift hd m d a b (fun f x n => f.wrap (f.int x / ((2 ^ n : Nat) : Int))) s

/-! ## VEST (R108) -/

/-- VRSQE (R108, R99). -/
def execVrsqe (hd : Hdr) (m : Option MR) (d a : VR) (s : State) : Out :=
  elementwise 12 hd m d a none none Fmt.isArith (fun _ => .fixed 3 5) (fun f _ x _ _ => f.ff.rsqe x) s

/-- VRCPE (R108, R99). -/
def execVrcpe (hd : Hdr) (m : Option MR) (d a : VR) (s : State) : Out :=
  elementwise 12 hd m d a none none Fmt.isArith (fun _ => .fixed 3 5) (fun f _ x _ _ => f.ff.rcpe x) s

/-! ## VCMP (R109) -/

/-- A relation of two integers: 0 EQ, 1 NE, 2 LT, 3 LE, 4 GT, 5 GE. -/
def intRel (c : Nat) (x y : Int) : Bool :=
  match c with
  | 0 => x == y
  | 1 => x != y
  | 2 => decide (x < y)
  | 3 => decide (x ≤ y)
  | 4 => decide (y < x)
  | _ => decide (y ≤ x)

/-- The conjunction over the sub-elements of an element, with the flags. -/
def allSubs (w : Nat) (f : Nat → Bool × Fl) : Bool × Fl :=
  (List.range (if w = 64 then 1 else 32 / w)).foldl (fun p j =>
    let (b, fl) := f j
    (p.1 && b, p.2 ||| fl)) (true, 0)

/-- A comparison (R109): one mask bit per element, the conjunction over its sub-elements. -/
def vcompare (c : Nat) (hd : Hdr) (m : Option MR) (d : MR) (a : VR) (b : Src) (s : State) : Out :=
  let accept (f : Fmt) := f.isInt || f.isArith || f.isFixed
  issue { (ewProf 13 hd m s.me [] a (some b) none) with mw := [d] } noIll (ewFmt accept none a (some b) none)
    (finishL hd fun h =>
      let f := (h.fmt a).getD .i32
      let x := h.opd true a
      let (y, fl) := h.src true f b
      (h.frameM (.fixed 2 4) (h.emask m) d h.vresume fl fun e => allSubs f.width fun j =>
        let p := x.sub f.width e j
        let q := y.sub f.width e j
        if f.isFloat then f.ff.cmp c p q else (intRel c (f.int p) (f.int q), 0)).atWork true (h.chime + 4)) s

/-- VCMP.EQ (R109). -/
def execVcmpEq (hd : Hdr) (m : Option MR) (d : MR) (a : VR) (b : Src) (s : State) : Out := vcompare 0 hd m d a b s
/-- VCMP.NE (R109). -/
def execVcmpNe (hd : Hdr) (m : Option MR) (d : MR) (a : VR) (b : Src) (s : State) : Out := vcompare 1 hd m d a b s
/-- VCMP.LT (R109). -/
def execVcmpLt (hd : Hdr) (m : Option MR) (d : MR) (a : VR) (b : Src) (s : State) : Out := vcompare 2 hd m d a b s
/-- VCMP.LE (R109). -/
def execVcmpLe (hd : Hdr) (m : Option MR) (d : MR) (a : VR) (b : Src) (s : State) : Out := vcompare 3 hd m d a b s
/-- VCMP.GT (R109). -/
def execVcmpGt (hd : Hdr) (m : Option MR) (d : MR) (a : VR) (b : Src) (s : State) : Out := vcompare 4 hd m d a b s
/-- VCMP.GE (R109). -/
def execVcmpGe (hd : Hdr) (m : Option MR) (d : MR) (a : VR) (b : Src) (s : State) : Out := vcompare 5 hd m d a b s

/-! ## VMASK (R110–R112) -/

/-- A mask operation: it ignores vresume (R31, R102). -/
def maskOp (hd : Hdr) (m : Option MR) (d : MR) (src : List MR) (op : List MaskBits → Nat → Bool) (s : State) : Out :=
  issue { cls := 13, hdr := some hd, mr := m.toList ++ src, mw := [d] } noIll anyFmt
    (finishL hd fun h =>
      let vals := src.map h.srcM
      (h.frameM (.fixed 1 2) (h.emask m) d 0 0 fun e => (op vals e, 0)).occupy 1) s

/-- The bit of the `i`-th mask operand. -/
def nth (l : List MaskBits) (i e : Nat) : Bool := mbit (l.getD i 0) e

/-- MAND (R110). -/
def execMand (hd : Hdr) (m : Option MR) (d a b : MR) (s : State) : Out := maskOp hd m d [a, b] (fun l e => nth l 0 e && nth l 1 e) s
/-- MOR (R110). -/
def execMor (hd : Hdr) (m : Option MR) (d a b : MR) (s : State) : Out := maskOp hd m d [a, b] (fun l e => nth l 0 e || nth l 1 e) s
/-- MXOR (R110). -/
def execMxor (hd : Hdr) (m : Option MR) (d a b : MR) (s : State) : Out := maskOp hd m d [a, b] (fun l e => nth l 0 e != nth l 1 e) s
/-- MNOT (R110). -/
def execMnot (hd : Hdr) (m : Option MR) (d a : MR) (s : State) : Out := maskOp hd m d [a] (fun l e => !nth l 0 e) s
/-- MSET (R110). -/
def execMset (hd : Hdr) (m : Option MR) (d : MR) (s : State) : Out := maskOp hd m d [] (fun _ _ => true) s
/-- MMOV of a mask to a mask (R110). -/
def execMmovMaskToMask (hd : Hdr) (m : Option MR) (d a : MR) (s : State) : Out := maskOp hd m d [a] (fun l e => nth l 0 e) s

/-- VMERGE (R110, R111): moves bits; a converted second source raises its flags. -/
def execVmerge (hd : Hdr) (sel : MR) (d a : VR) (b : Src) (s : State) : Out :=
  issue (ewProf 13 hd (some sel) s.me (opRegs (s.me.fmt a) d) a (some b) none) noIll (ewFmt bitFmt (some d) a (some b) none)
    (finishL hd fun h =>
      let f := (h.fmt a).getD .i32
      let x := h.opd true a
      let (y, fl) := h.src true f b
      let c := h.srcM sel
      (h.frame (.fixed 1 3) none d (h.rv a).tag f.pair fl fun e => pack f.width fun j =>
        (if mbit c e then y.sub f.width e j else x.sub f.width e j, 0)).atWork (adopts b) (h.chime + 3)) s

/-- MMOV of an image to a mask (R110, R112). -/
def execMmovImageToMask (hd : Hdr) (d : MR) (a : VR) (s : State) : Out :=
  issue { cls := 13, hdr := some hd, vr := [a], mw := [d] } noIll (fun s => s.me.fmt a == some .mimg)
    (finishL hd fun h =>
      let v := imageMask (h.srcV false a)
      (h.frameM (.fixed 3 3) none d 0 0 fun e => (mbit v e, 0)).occupy ((h.vl + 255) / 256)) s

/-- MMOV of a mask to an image (R112). -/
def execMmovMaskToImage (hd : Hdr) (d : VR) (a : MR) (s : State) : Out :=
  issue { cls := 13, hdr := some hd, mr := [a], mu := [a], vw := [d] } noIll anyFmt
    (finishL hd fun h => if h.vl = 0 then h else (h.putV (.fixed 3 3) d (maskImage h.vl (h.srcMU a))).occupy ((h.vl + 255) / 256)) s

end Sys2Proof.Machine
end

