-- ==== Sys2Proof/Machine/Convert.lean ====
section
/-! DEFINITION. Conversions: VCVT, VCVTS and VPLANE (spec/05_vector_ops.md R113–R116, spec/04_formats.md R84–R86, R91, R92). -/

namespace Sys2Proof.Machine

/-! ## Values in registers -/

/-- Element `i` of a PLANE k register, as its k bits (R84). -/
def planeBits (r : VReg) (k i : Nat) : Nat :=
  let b := i / 256
  let x := i % 256
  (List.range k).foldl (fun a p => 2 * a + ((r.slot (8 * k * b + 8 * p + x / 32)).toNat / 2 ^ (x % 32)) % 2) 0

/-- Value `i` of a group of registers of a format, `per` values to a register or pair (R113). -/
def valueAt (f : Fmt) (regs : List VReg) (per i : Nat) : Nat :=
  let g := i / per
  let p := i % per
  match f with
  | .plane k => planeBits (regs.getD g {}) k p
  | f =>
    if f.pair then elem true (regs.getD (2 * g) {}) (regs.getD (2 * g + 1) {}) p
    else ((regs.getD g {}).slot (p * f.width / 32)).toNat / 2 ^ (f.width * (p % (32 / f.width))) % 2 ^ f.width

/-- The registers that hold `n` values of a format, `per` to a register or pair, with the flags their values raise; slots the
values do not reach are zero (R113). -/
def packGroup (f : Fmt) (vl per n regs : Nat) (val : Nat → Nat × Fl) : List VReg × Fl :=
  let cell (g e : Nat) : Nat × Fl := pack f.width fun j =>
    let p := if f.pair then e else e * (32 / f.width) + j
    if p < per ∧ g * per + p < n then val (g * per + p) else (0, 0)
  let groups := tabulate (if f.pair then regs / 2 else regs) fun g => tabulate vl (cell g)
  let fl := groups.foldl (fun a l => l.foldl (fun b c => b ||| c.2) a) 0
  let lo (l : List (Nat × Fl)) : VReg := { tag := tagOf f, slots := trimSlots (l.map fun c => BitVec.ofNat 32 c.1) }
  let hi (l : List (Nat × Fl)) : VReg := { tag := tagOf f, slots := trimSlots (l.map fun c => BitVec.ofNat 32 (c.1 / 2 ^ 32)) }
  (groups.flatMap fun l => if f.pair then [lo l, hi l] else [lo l], fl)

/-! ## One value (R91, R92) -/

/-- The integer an INT, FIXED or PLANE pattern stands for (R81, R82, R84). -/
def Fmt.stored (f : Fmt) (p : Nat) : Int :=
  match f with
  | .plane k => sint k p * ((2 ^ (8 - k) : Nat) : Int)
  | f => f.int p

/-- An integer brought into an INT or FIXED format (R92). -/
def Fmt.range (f : Fmt) (sat : Bool) (z : Int) : Nat × Fl := if sat then f.sat z else (f.wrap z, 0)

/-- A signed integer × 2^n rounded by a mode. -/
def scaleInt (mode : Nat) (z n : Int) : Int :=
  let (q, _) := quantize mode (z < 0) z.natAbs n 0
  if z < 0 then -(q : Int) else q

/-- A value into an INT or FIXED format (R92). -/
def Fmt.fromValue (f : Fmt) (mode : Nat) (v : FVal) : Nat × Fl :=
  let (z, fl) := v.toInt mode f.frac f.lo f.hi
  (f.wrap z, fl)

/-- The conversion of one pattern (R91, R92). A pair of formats R92 gives no rule for takes a free value (assumption 7). (DEDUCED, assumption 31) -/
def convert (f g : Fmt) (mode : Nat) (sat : Bool) (p : Nat) : Nat × Fl :=
  match f.isFloat, g.isFloat, f, g with
  | true, true, _, _ =>
    if f = g then (let v := f.ff.read p; if v.isNan then (f.ff.qnan, v.sig) else (p, 0)) else g.ff.put mode sat (f.ff.read p)
  | true, false, _, .scale _ _ => toE8m0 (f.ff.read p)
  | true, false, _, _ => g.fromValue mode (f.ff.read p)
  | false, true, .scale _ _, _ =>
    match e8m0 p with
    | some e => g.ff.put mode sat (.fin ⟨false, 1, e⟩)
    | none => g.ff.put mode sat (.nan false)
  | false, true, _, _ => g.ff.put mode sat (intVal (f.stored p) f.frac)
  | false, false, .scale _ _, _ => if f = g then (p, 0) else Config.openConversion (tagOf f) (tagOf g) mode sat p
  | false, false, _, .scale _ _ => Config.openConversion (tagOf f) (tagOf g) mode sat p
  | false, false, _, _ => if f = g then (p, 0) else g.range sat (scaleInt mode (f.stored p) ((g.frac : Int) - f.frac))

/-! ## The geometry of R113 -/

/-- The least power of two not below a number up to 16. -/
def pow2Above (n : Nat) : Nat := if n ≤ 1 then 1 else if n ≤ 2 then 2 else if n ≤ 4 then 4 else if n ≤ 8 then 8 else 16

/-- The group size of a conversion between two widths. -/
def ratio (ws wd : Nat) : Nat := (max ws wd + min ws wd - 1) / min ws wd

/-- The number of values a conversion processes. -/
def convCount (ws wd vl : Nat) : Nat := if min ws wd = 64 then vl else 32 * vl / min ws wd

/-- The values in one register or pair of a side of width `w`. -/
def perReg (w vl : Nat) : Nat := if w = 64 then vl else 32 * vl / w

/-- The registers of a side: one on the narrow side, a pair when both sides are 64 wide, the group on the wide side. A group of pairs has
whole pairs: where the ratio is odd the last pair's second register is one of them. (DEDUCED, assumption 82) -/
def sideRegs (w other : Nat) (base : VR) : List VR :=
  if w = 64 ∧ other = 64 then [base, vplus base 1]
  else if other < w then vgroup base (if w = 64 then 2 * ((ratio w other + 1) / 2) else ratio w other)
  else [base]

/-- The PLANE rule of R84 on vl. -/
def planeVl (f : Fmt) (vl : Nat) : Bool :=
  match f with
  | .plane k => vl % (8 * k) == 0
  | _ => true

/-- The FORMAT checks of R113 on a conversion of `a` into `d` of a format; `extra` are further source registers. (DEDUCED, assumption 32) -/
def convOk (h : Hart) (f g : Fmt) (d a : VR) (extra : List VR) : Bool :=
  let ws := f.width
  let wd := g.width
  let r := ratio ws wd
  let src := sideRegs ws wd a
  let dst := sideRegs wd ws d
  let wide := if ws < wd then d else a
  r ≤ 16 && (ws == wd || wide.val % pow2Above r == 0)
    && (r == 1 || !meets (src ++ extra) dst)
    && src.all (fun q => (h.rv q).tag == (h.rv a).tag)
    && (ws != 64 || a.val % 2 == 0) && (wd != 64 || d.val % 2 == 0)
    && (min ws wd == 64 || 32 * h.vl % min ws wd == 0) && (max ws wd == 64 || 32 * h.vl % max ws wd == 0)
    && planeVl f h.vl && planeVl g h.vl

/-- The registers of a conversion written: whole, or from vresume up at ratio 1 (R102, R114). -/
def Hart.putGroup (h : Hart) (lat : Lat) (start : Nat) (d : VR) (l : List VReg) : Hart :=
  if h.vl ≤ start then h
  else (l.foldl (fun (p : Hart × Nat) v =>
    let r := vplus d p.2
    let old := h.rv r
    let v := if start = 0 then v else { v with slots := trimSlots (tabulate 1024 fun e => if e < start then old.slot e else v.slot e) }
    (keepMarks h start (p.1.putV lat r v), p.2 + 1)) (h, 0)).1

/-- The distances of R122 for a conversion of a ratio. -/
def latCvt (r : Nat) : Lat := if r = 1 then .fixed 3 5 else .fixed 5 5

/-- The conversion mode: 7 is the mode in frm (R54). -/
def cvtMode (c : CvtCtl) (h : Hart) : Nat := if c.mode.val = 7 then h.frm else c.mode.val

/-- The sources a conversion may read: every class but EMPTY and MASKIMG (R114). -/
def cvtSource (f : Fmt) : Bool := f != .empty && f != .mimg

/-- The widths of a conversion's sides, as far as the source tag is known. -/
def convWidths (h : Hart) (a : VR) (g : Fmt) : Nat × Nat := (((h.fmt a).getD .i32).width, g.width)

/-- VCVT (R114). -/
def execVcvt (hd : Hdr) (d a : VR) (c : CvtCtl) (s : State) : Out :=
  let g := (fmtOf c.tag).getD .i32
  let (ws, wd) := convWidths s.me a g
  let one : Bool := ratio ws wd == 1
  issue { cls := 14, fmts := (fmtBit g).toList, hdr := some hd, vr := sideRegs ws wd a, vw := sideRegs wd ws d, chain := one } noIll
    (fun s => match s.me.fmt a with
      | some f => cvtSource f && convOk s.me f g d a []
      | none => false)
    (finishL hd fun h =>
      let f := (h.fmt a).getD .i32
      let regs := (sideRegs ws wd a).map (h.srcV one)
      let start := if one then h.vresume else 0
      if h.vl ≤ start then h
      else
        let (out, fl) := packGroup g h.vl (perReg wd h.vl) (convCount ws wd h.vl) (sideRegs wd ws d).length fun i =>
          if i * wd / (if wd = 64 then 64 else 32) < start then (0, 0)
          else convert f g (cvtMode c h) c.sat (valueAt f regs (perReg ws h.vl) i)
        (((h.putGroup (latCvt (ratio ws wd)) start d out).raise fl).occupy (ratio ws wd * h.chime)).atWork true (ratio ws wd * h.chime + 5)) s

/-! ## Block scales (R85, R86, R115) -/

/-- A format that may be block-scaled (R85). -/
def Fmt.scalable (f : Fmt) : Bool := f == .e4m3 || f == .e5m2 || f == .e2m1 || f == .i8

/-- The block length of a SCALE tag. -/
def blockLen (short : Bool) : Nat := if short then 16 else 32

/-- The FORMAT checks of R86 for a format of width `w` at a vl. -/
def scaleOk (lg : Nat) (short : Bool) (w vl : Nat) : Bool :=
  2 ^ lg ≤ w * blockLen short / 8 && vl % (w * blockLen short / 32) == 0

/-- The scale byte of value `i` of the group's register `r` (R86). -/
def scaleByte (sr : VReg) (short : Bool) (w vl r i : Nat) : Nat :=
  let b := r * (32 * vl / (w * blockLen short)) + i / blockLen short
  (sr.slot (b / 4)).toNat / 2 ^ (8 * (b % 4)) % 256

/-- A value of a format as an exact value: a float or an INT8 (R115). -/
def Fmt.value (f : Fmt) (p : Nat) : FVal := if f.isFloat then f.ff.read p else intVal (f.int p) 0

/-- A value times a power of two. -/
def FVal.scaled (v : FVal) (n : Int) : FVal :=
  match v with
  | .fin d => .fin { d with e := d.e + n }
  | v => v

/-- One value of VCVTS (R115): `n` is the scale's exponent, none for 0xFF. -/
def convertScaled (f g : Fmt) (mode : Nat) (sat : Bool) (n : Option Int) (p : Nat) : Nat × Fl :=
  match n with
  | none => (if g.isFloat then g.ff.qnan else 0, NV)
  | some e =>
    let v := (f.value p).scaled (if f.scalable then e else -e)
    if g.isFloat then g.ff.put mode sat v else g.fromValue mode v

/-- The pairing of VCVTS (R115): exactly one scaled side, the other FP32, BF16 or FP16. -/
def scalePair (f g : Fmt) : Bool := (f.scalable && g.isArith) || (g.scalable && f.isArith)

/-- VCVTS (R115). -/
def execVcvts (hd : Hdr) (d a sc : VR) (c : CvtCtl) (s : State) : Out :=
  let g := (fmtOf c.tag).getD .i32
  let (ws, wd) := convWidths s.me a g
  issue { cls := 15, fmts := (fmtBit g).toList, hdr := some hd, vr := sideRegs ws wd a ++ [sc], vw := sideRegs wd ws d } noIll
    (fun s => match s.me.fmt a, s.me.fmt sc with
      | some f, some (.scale lg short) =>
        scalePair f g && scaleOk lg short (min ws wd) s.me.vl && convOk s.me f g d a [sc]
      | _, _ => false)
    (finishL hd fun h =>
      if h.vl = 0 then h
      else
        let f := (h.fmt a).getD .i32
        let regs := (sideRegs ws wd a).map (h.srcV false)
        let sr := h.srcV false sc
        let (lg, short) := match h.fmt sc with
          | some (.scale lg short) => (lg, short)
          | _ => (0, false)
        let r := (if f.scalable then a.val else d.val) % 2 ^ lg
        let (out, fl) := packGroup g h.vl (perReg wd h.vl) (convCount ws wd h.vl) (sideRegs wd ws d).length fun i =>
          convertScaled f g (cvtMode c h) c.sat (e8m0 (scaleByte sr short (min ws wd) h.vl r i)) (valueAt f regs (perReg ws h.vl) i)
        (((h.putGroup (.fixed 5 5) 0 d out).raise fl).occupy (ratio ws wd * h.chime)).atWork true (ratio ws wd * h.chime + 5)) s

/-! ## VPLANE (R116) -/

/-- One slot of a PLANE k register of `n` values (R84): plane `p` of 32 elements of a block. -/
def planeSlot (k n t : Nat) (val : Nat → Nat) : Slot :=
  let p := t % (8 * k) / 8
  let first := 256 * (t / (8 * k)) + 32 * (t % 8)
  BitVec.ofNat 32 (natOfBits 32 fun x => first + x < n && bit (val (first + x)) (7 - p))

/-- VPLANE (R116): the top k bits of INT8 values, in planes. -/
def execVplane (hd : Hdr) (d a : VR) (t : Tag) (s : State) : Out :=
  let k := t.toNat % 16
  issue { cls := 16, fmts := [75], hdr := some hd, vr := sideRegs 8 k a, vw := [d] } noIll
    (fun s => s.me.fmt a == some .i8 && convOk s.me .i8 (.plane k) d a [])
    (finishL hd fun h =>
      if h.vl = 0 then h
      else
        let regs := (sideRegs 8 k a).map (h.srcV false)
        let n := convCount 8 k h.vl
        (h.putV (.fixed 5 5) d (VReg.build t h.vl fun e => planeSlot k n e (valueAt .i8 regs (perReg 8 h.vl)))).occupy (ratio 8 k * h.chime)) s

end Sys2Proof.Machine
end

