-- ==== Sys2Proof/Machine/Csr.lean ====
section
/-! DEFINITION. Control and status registers: the map of R41, the checks of R42 and the four instructions (spec/02_state.md
R41–R44, spec/07_scalar_ops.md R159, R160). -/

namespace Sys2Proof.Machine

/-- The value of a CSR as the executing hart reads it (R41); none for an undefined number. (DEDUCED, assumption 19) -/
def csrVal (s : State) (h : Hart) (n : Nat) : Option Word :=
  let k := s.ctx h.ctx
  let c := s.core h.core
  let num := (s.crew h.crew).number
  if 0x010 ≤ n ∧ n ≤ 0x017 then some (BitVec.ofNat 64 (h.seqc (n - 0x010)))
  else if 0x030 ≤ n ∧ n ≤ 0x03F then some (BitVec.ofNat 64 (h.sc.getD (n - 0x030) 0))
  else match n with
  | 0x000 => some (BitVec.ofNat 64 h.vl)
  | 0x001 => some (BitVec.ofNat 64 h.grant)
  | 0x002 => some (BitVec.ofNat 64 h.vresume)
  | 0x003 => some (BitVec.ofNat 64 h.frm)
  | 0x004 => some (h.fflags.setWidth 64)
  | 0x005 => some (if h.chk then 1 else 0)
  | 0x006 => some h.lpstate
  | 0x008 => some (BitVec.ofNat 64 (h.place.getD 0))
  | 0x009 => some (BitVec.ofNat 64 num)
  | 0x00A => some (BitVec.ofNat 64 h.rank)
  | 0x00B => some (BitVec.ofNat 64 (h.farm % 2 ^ 32))
  | 0x00C => some (BitVec.ofNat 64 num)
  | 0x020 => some (BitVec.ofNat 64 h.cycle)
  | 0x021 => some (BitVec.ofNat 64 h.retired)
  | 0x100 => some h.aspace
  | 0x101 => some (k.fzq &&& ~~~(63 : Word))
  | 0x102 => some (BitVec.ofNat 64 k.pool.length)
  | 0x103 => some (c.mask.setWidth 64)
  | 0x104 => some ((c.mask >>> 64).setWidth 64)
  | _ => none

/-- A CSR that CSR writes may change (R41). -/
def csrWritable (n : Nat) : Bool := 2 ≤ n && n ≤ 6

/-- The reserved bits of a writable CSR (R41, R159, R282). -/
def csrReserved (n : Nat) : Word :=
  match n with
  | 2 => ~~~(0x7FF : Word)
  | 3 => ~~~(0x7 : Word)
  | 4 => ~~~(0x3F : Word)
  | 5 => ~~~(0x1 : Word)
  | _ => 0x8000000000000000

/-- A value a writable CSR accepts (R42, R159, R282): no reserved bit or value, and lpstate[62] unchanged. -/
def csrAccepts (h : Hart) (n : Nat) (w : Word) : Bool :=
  w &&& csrReserved n == 0 && (match n with
    | 2 => w.toNat ≤ 1024
    | 3 => w.toNat ≤ 4
    | 6 => w.getLsbD 62 == h.replaying
    | _ => true)

/-- A writable CSR written. -/
def csrPut (h : Hart) (n : Nat) (w : Word) : Hart :=
  match n with
  | 2 => { h with vresume := w.toNat }
  | 3 => { h with frm := w.toNat }
  | 4 => { h with fflags := w.setWidth 6 }
  | 5 => { h with chk := w.getLsbD 0 }
  | 6 => { h with lpstate := w }
  | _ => h

/-- A fixed-latency vector instruction of a hart has not finished (R122). -/
def Hart.lanesBusy (h : Hart) : Bool :=
  (h.inflight.any fun f => h.sinceCycle f.issued < f.chime + f.unchained) || h.inflightM.any fun f => h.sinceCycle f.issued < f.chime + f.unchained

/-- What an access to a CSR waits for (R160): to vresume, every earlier vector-class instruction; to fflags, every earlier scalar
floating-point instruction and lane instruction that can set a flag. -/
def csrWaits (h : Hart) (n : Nat) : Bool :=
  (n == 2 && ((h.landing.any fun l => l.vregs != [] || l.masks != []) || h.mops != [] || h.ops != [] || h.lanesBusy || h.unitBusy 4 || h.unitBusy 5))
    || (n == 4 && (h.unitBusy 3 || h.unitBusy 4))

/-- A CSR write that R42 refuses: to a read-only CSR, or of a value the CSR does not accept; an operand of CSRS or CSRC must name no reserved
bit. -/
def csrRefused (h : Hart) (num : Nat) (sets : Bool) (x : Word) (w : Option Word) : Bool :=
  match w with
  | none => false
  | some w => !csrWritable num || !csrAccepts h num w || (sets && x &&& csrReserved num != 0)

/-- A CSR instruction (R159), with the checks of R42 in step 5 of R57: an undefined number is ILLEGAL_OP, privileged or not, a CSRW to a
read-only CSR is whatever its operand holds, and the checks of a value are made of a register without an error. `f` gives the value written
from the old value and the operand, none for a read. -/
def csrIssue (d : Reg) (a : Option Reg) (n : BitVec 12) (f : Word → Word → Option Word) (sets : Bool) (s : State) : Out :=
  let num := n.toNat
  let opd (h : Hart) : Word := (a.map h.rx).getD 0
  let wr (s : State) : Option Word := f ((csrVal s s.me num).getD 0) (opd s.me)
  issue { cls := 0, xr := a.toList, xw := [d], scalar := true, late := true, priv := 0x100 ≤ num && num ≤ 0x104 }
    (fun s => (csrVal s s.me num).isNone || (a.isSome && !sets && !csrWritable num)
      || (!(a.any fun r => r != 0 && s.me.xBad.getLsbD r.val) && csrRefused s.me num sets (opd s.me) (wr s)))
    anyFmt (fun s =>
      let old := (csrVal s s.me num).getD 0
      if csrWaits s.me num then waitOn 1 false s
      else
        match wr s with
        | none => finish (fun h => h.wx d old) s
        | some w => finish (fun h => (csrPut h num w).wx d old) s) s

/-- CSRR (R159). -/
def execCsrr (d : Reg) (n : BitVec 12) (s : State) : Out := csrIssue d none n (fun _ _ => none) false s

/-- CSRW (R159). -/
def execCsrw (d a : Reg) (n : BitVec 12) (s : State) : Out := csrIssue d (some a) n (fun _ x => some x) false s

/-- CSRS (R159): an operand of zero is a read (R42). -/
def execCsrs (d a : Reg) (n : BitVec 12) (s : State) : Out :=
  csrIssue d (some a) n (fun old x => if x = 0 then none else some (old ||| x)) true s

/-- CSRC (R159): an operand of zero is a read (R42). -/
def execCsrc (d a : Reg) (n : BitVec 12) (s : State) : Out :=
  csrIssue d (some a) n (fun old x => if x = 0 then none else some (old &&& ~~~x)) true s

end Sys2Proof.Machine
end

