-- ==== Sys2Proof/Machine/Matrix.lean ====
section
/-! DEFINITION. Matrix instructions and the Mangle (spec/06_matrix_ops.md R125–R144, spec/04_formats.md R93, R94): the checks at
issue, the queue, and the events that start an operation, write its rows and complete it. -/

namespace Sys2Proof.Machine

/-! ## Formats and checks (R128, R133) -/

/-- The depth of an operation of width `w` (R128). -/
def depth (w : Nat) : Nat := 512 / w

/-- An E4M3 or E5M2 format. -/
def isF8 (f : Fmt) : Bool := f == .e4m3 || f == .e5m2
/-- An INT8 or UINT8 format. -/
def isI8 (f : Fmt) : Bool := f == .i8 || f == .u8

/-- The C format of a pair under MMA and MMAS (R128). -/
def mmaResult (a b : Fmt) : Option Fmt :=
  if (a == .bf16 && b == .bf16) || (a == .f16 && b == .f16) || (isF8 a && isF8 b) || (a == .e2m1 && b == .e2m1) then some .f32
  else if (isI8 a && isI8 b) || (a == .i16 && b == .i16) || (a == .plane 4 && b == .plane 4) || (a == .plane 8 && b == .plane 8) then some .i32
  else none

/-- The C format of a pair (R128, R136, R137); for a solve, `a` is the right-hand side and `b` the factor. -/
def MatKind.result (k : MatKind) (a b : Fmt) : Option Fmt :=
  match k with
  | .mma | .mmas _ => mmaResult a b
  | .mmasc => if (isF8 a && isF8 b) || (isI8 a && isI8 b) || (a == .e2m1 && b == .e2m1) then some .f32 else none
  | .mmaq => match a, b with
    | .fixed 16 x, .fixed 16 y => if x + y ≤ 31 then some (.fixed 64 (x + y)) else none
    | _, _ => none
  | .mqtrs _ => match a, b with
    | .fixed 32 x, .fixed 16 _ => some (.fixed 32 x)
    | _, _ => none

/-- The rule of R133 and R134–R137 on vl. -/
def MatKind.vlOk (k : MatKind) (a : Fmt) (vl : Nat) : Bool :=
  vl % 16 == 0 && planeVl a vl && (match k with
    | .mmas big => vl % (if big then 512 else 256) == 0
    | .mqtrs _ => vl % 32 == 0
    | _ => true)

/-- The third operand's rule: MASKIMG for MMAS, equal SCALE tags that fit A's format for MMASC. -/
def MatKind.thirdOk (k : MatKind) (h : Hart) (a : Fmt) (vs : VR) : Bool :=
  match k with
  | .mmas _ => h.fmt vs == some .mimg
  | .mmasc => match h.fmt vs with
    | some (.scale lg short) => (h.rv vs).tag == (h.rv (vplus vs 1)).tag && scaleOk lg short a.width h.vl
    | _ => false
  | _ => true

/-- The result format of a matrix instruction whose FORMAT checks of R133 pass; `tb` is the B tag a CPYM names. (DEDUCED, assumption 20) -/
def matCheck (h : Hart) (k : MatKind) (z : Bool) (vc va vb vs : VR) (tb : Option Tag) : Option Fmt :=
  match h.fmt va, fmtOf (tb.getD (h.rv vb).tag) with
  | some a, some b =>
    match k.result a b with
    | some r =>
      let c := match k with
        | .mmaq => vgroup vc 8
        | .mqtrs _ => []
        | _ => vgroup vc 4
      if (tb.isSome || (vgroup vb 8).all fun q => (h.rv q).tag == (h.rv vb).tag) && k.vlOk a h.vl && k.thirdOk h a vs
          && (z || c.all fun q => (h.rv q).tag == tagOf r) then some r else none
    | none => none
  | _, _ => none

/-! ## The queue (R125) -/

/-- A new operation of a hart, with the tags of its operands, that of B named by a CPYM (R138); the operands a fixed-latency producer has not
delivered yet are captured as they are read at issue (R59). -/
def newMatOp (h : Hart) (k : MatKind) (z : Bool) (vc va vb vs : VR) (tb : Option Tag) (bar : Option (Fin 128)) (copy : Option Nat) : MatOp :=
  let o : MatOp := { kind := k, z := z, vc := vc, va := va, vb := vb, vs := vs, vl := h.vl, bar := bar, copy := copy, started := false
                     row := 0, report := {}, tags := ((h.rv va).tag, tb.getD (h.rv vb).tag, (h.rv vs).tag)
                     early := [], badWords := [], badCells := [] }
  { o with early := ((o.sources.filter fun r => h.srcV false r != h.rv r).eraseDups).map fun r => (r, h.srcV false r) }

/-- What completing a matrix operation does beside the queue (R140–R143): the event bit, the report and the arrival, or the marks
of its destinations. -/
def reportMat (s : State) (uid : Nat) (o : MatOp) : State :=
  let s := s.modHart uid fun h => { h with event := true }
  let h := s.hart uid
  match o.bar with
  | some b => reportTo s h.crew b.val (h.seqc 7) o.report
  | none =>
    if o.report.uncorrected then
      s.modHart uid fun h => { h with marks := o.dests.foldl (fun m r => m ||| BitVec.ofNat 32 (2 ^ r.val)) h.marks }
    else s

/-- An operation put into the executing hart's queue: at vl > 0 its destinations take the result tag (R138); at vl = 0 with an empty
queue it completes at once (R132, R141). -/
def enqueueMat (o : MatOp) (rt : Tag) (s : State) : State :=
  let s := s.modMe fun h => { h with issued := modAt (· + 1) 7 h.issued }
  if o.vl = 0 ∧ o.copy = none ∧ s.me.mops = [] then reportMat s s.cur o
  else s.modMe fun h =>
    let h := { h with mops := h.mops ++ [o] }
    if o.vl = 0 then h else o.dests.foldl (fun h r => h.wtag r rt) h

/-- The registers a matrix instruction writes and, unless Z, reads as C. -/
def matDests (k : MatKind) (vc : VR) : List VR :=
  match k with
  | .mmaq => vgroup vc 8
  | .mqtrs _ => [vc]
  | _ => vgroup vc 4

/-- The registers a matrix instruction reads (R127). -/
def matReads (k : MatKind) (z : Bool) (vc va vb vs : VR) : List VR :=
  va :: vgroup vb 8 ++ (match k with
    | .mmas _ => [vs]
    | .mmasc => vgroup vs 2
    | _ => []) ++ (match k with
    | .mqtrs _ => []
    | _ => if z then [] else matDests k vc)

/-- A status barrier at or beyond the crew's count (R133). -/
def badBar (h : Hart) (bar : Option (Fin 128)) : Bool := (bar.map fun b => decide (h.kern.barriers ≤ b.val)).getD false

/-- A matrix instruction (R133): the checks, the wait for a queue entry, then the queue. -/
def matIssue (cls : Nat) (hd : Hdr) (k : MatKind) (z : Bool) (vc va vb vs : VR) (bar : Option (Fin 128)) (s : State) : Out :=
  issue { cls := cls, hdr := some hd, mvr := matReads k z vc va vb vs, mvw := matDests k vc } (fun s => badBar s.me bar)
    (fun s => (matCheck s.me k z vc va vb vs none).isSome)
    (fun s =>
      let h := s.me
      if 4 ≤ h.mops.length then waitOn 2 false s
      else
        let rt := ((matCheck h k z vc va vb vs none).map tagOf).getD 0
        finishL hd id (enqueueMat (newMatOp h k z vc va vb vs none bar none) rt s)) s

/-- MMA (R132). -/
def execMma (hd : Hdr) (z : Bool) (vc va vb : VR) (bar : Option (Fin 128)) (s : State) : Out := matIssue 23 hd .mma z vc va vb 0 bar s

/-- MMAS (R134). -/
def execMmas (hd : Hdr) (z big : Bool) (vc va vb vm : VR) (bar : Option (Fin 128)) (s : State) : Out :=
  matIssue 24 hd (.mmas big) z vc va vb vm bar s

/-- MMASC (R135). -/
def execMmasc (hd : Hdr) (z : Bool) (vc va vb vs : VR) (bar : Option (Fin 128)) (s : State) : Out := matIssue 25 hd .mmasc z vc va vb vs bar s

/-- MMAQ (R136). -/
def execMmaq (hd : Hdr) (z : Bool) (vc va vb : VR) (bar : Option (Fin 128)) (s : State) : Out := matIssue 26 hd .mmaq z vc va vb 0 bar s

/-- MQTRS.LO (R137). -/
def execMqtrsLo (hd : Hdr) (d b f : VR) (bar : Option (Fin 128)) (s : State) : Out := matIssue 27 hd (.mqtrs false) true d b f 0 bar s

/-- MQTRS.UP (R137). -/
def execMqtrsUp (hd : Hdr) (d b f : VR) (bar : Option (Fin 128)) (s : State) : Out := matIssue 27 hd (.mqtrs true) true d b f 0 bar s

/-! ## Elements (R129–R131) -/

/-- An operand as the operation reads it. -/
def MatOp.reg (o : MatOp) (h : Hart) (r : VR) : VReg :=
  match o.early.find? fun p => p.1 == r with
  | some p => p.2
  | none => h.rv r

/-- The format of A, or of the right-hand side. -/
def MatOp.fa (o : MatOp) : Fmt := (fmtOf o.tags.1).getD .i8
/-- The format of B, or of the factor. -/
def MatOp.fb (o : MatOp) : Fmt := (fmtOf o.tags.2.1).getD .i8

/-- One value of a register read alone. -/
def oneAt (f : Fmt) (r : VReg) (i : Nat) : Nat := valueAt f [r] (2 ^ 20) i

/-- A (i, k) (R129). -/
def MatOp.a (o : MatOp) (h : Hart) (i k : Nat) : Nat := oneAt o.fa (o.reg h o.va) (i * depth o.fa.width + k)

/-- B (k, n) (R130). -/
def MatOp.b (o : MatOp) (h : Hart) (k n : Nat) : Nat :=
  let r := depth o.fb.width / 8
  oneAt o.fb (o.reg h (vplus o.vb (k / r))) (k % r * 64 + n)

/-- C (i, n), the incoming value (R131): a pair element for MMAQ. -/
def MatOp.c (o : MatOp) (h : Hart) (i n : Nat) : Nat :=
  let e := 16 * i + n % 16
  match o.kind with
  | .mmaq => elem true (o.reg h (vplus o.vc (2 * (n / 16)))) (o.reg h (vplus o.vc (2 * (n / 16) + 1))) e
  | _ => ((o.reg h (vplus o.vc (n / 16))).slot e).toNat

/-- The side of an MMAS block. -/
def blockSide (big : Bool) : Nat := if big then 32 else 16

/-- The bit of the block of A (i, k) in the bitmap (R134). -/
def blockBit (big : Bool) (dep i k : Nat) : Nat := i / blockSide big * (dep / blockSide big) + k / blockSide big

/-- The block of A (i, k) is present (R134). -/
def MatOp.present (o : MatOp) (h : Hart) (i k : Nat) : Bool :=
  match o.kind with
  | .mmas big =>
    let t := blockBit big (depth o.fa.width) i k
    ((o.reg h o.vs).slot (t / 32)).getLsbD (t % 32)
  | _ => true

/-- The SCALE parameters of MMASC. -/
def MatOp.scaleParams (o : MatOp) : Nat × Bool :=
  match fmtOf o.tags.2.2 with
  | some (.scale lg short) => (lg, short)
  | _ => (0, false)

/-- The scale byte of an A element (R135, R86). -/
def MatOp.scaleA (o : MatOp) (h : Hart) (i k : Nat) : Nat :=
  let (lg, short) := o.scaleParams
  let w := o.fa.width
  scaleByte (o.reg h o.vs) short w o.vl (o.va.val % 2 ^ lg) (i * depth w + k)

/-- The scale byte of a B element (R135). -/
def MatOp.scaleB (o : MatOp) (h : Hart) (k n : Nat) : Nat :=
  let (_, short) := o.scaleParams
  let b := k / blockLen short * 64 + n
  ((o.reg h (vplus o.vs 1)).slot (b / 4)).toNat / 2 ^ (8 * (b % 4)) % 256

/-! ## Sums (R93, R94) -/

/-- The FP32 sum of an incoming value and products: specials first, then one rounding (R93). -/
def matFloat (l : List FVal) : Nat :=
  let nan := l.any FVal.isNan
  let pos := l.any fun v => v == .inf false
  let neg := l.any fun v => v == .inf true
  if nan || (pos && neg) then FF.f32.qnan
  else if pos || neg then FF.f32.pat neg FF.f32.infMag
  else (FF.f32.sum 0 (l.filterMap fun v => match v with
    | .fin d => some d
    | _ => none)).1

/-- One exact product of MMA, MMAS or MMASC as a value, and whether a NaN scale reached it. -/
def MatOp.floatProduct (o : MatOp) (h : Hart) (i k n : Nat) : FVal × Bool :=
  if !o.present h i k then (.fin ⟨false, 0, 0⟩, false)
  else
    let p := ((o.fa.value (o.a h i k)).mul (o.fb.value (o.b h k n))).1
    match o.kind with
    | .mmasc =>
      match e8m0 (o.scaleA h i k), e8m0 (o.scaleB h k n) with
      | some x, some y => (p.scaled (x + y), false)
      | _, _ => (.nan false, true)
    | _ => (p, false)

/-- One product of an integer operation. -/
def MatOp.intProduct (o : MatOp) (h : Hart) (i k n : Nat) : Int :=
  if !o.present h i k then 0 else o.fa.stored (o.a h i k) * o.fb.stored (o.b h k n)

/-- The result format of an operation in the queue. -/
def MatOp.res (o : MatOp) : Fmt := (o.kind.result o.fa o.fb).getD .i32

/-- One element of C: its pattern, whether it was clamped, and whether a NaN scale reached it. -/
def MatOp.cell (o : MatOp) (h : Hart) (i n : Nat) : Nat × Bool × Bool :=
  let ks := List.range (depth o.fa.width)
  let f := o.res
  if f.isFloat then
    let ps := ks.map fun k => o.floatProduct h i k n
    let c := if o.z then (.fin ⟨false, 0, 0⟩) else FF.f32.read (o.c h i n)
    (matFloat (c :: ps.map (·.1)), false, ps.any (·.2))
  else
    let c := if o.z then 0 else f.int (o.c h i n)
    let (p, fl) := f.sat (ks.foldl (fun a k => a + o.intProduct h i k n) c)
    (p, fl != 0, false)

/-- What a bad element holds (R143). -/
def Fmt.badCell (f : Fmt) : Nat := if f.isFloat then FF.f32.qnan else 2 ^ (f.width - 1)

/-! ## Bad words (R143) -/

/-- The slots of a register that hold one of its values. -/
def slotsOf (f : Fmt) (i : Nat) : List Nat :=
  match f with
  | .plane k => (List.range k).map fun p => 8 * k * (i / 256) + 8 * p + i % 256 / 32
  | f => [i * f.width / 32]

/-- A word of an operand is bad: one met, or any of a register with an error in the register store. (DEDUCED, assumption 23) -/
def MatOp.bad (o : MatOp) (r : VR) (slot : Nat) : Bool := o.badWords.contains (r, slot) || o.badRegs.contains r

/-- Element (i, n) of C depends on a bad word: an operand, the incoming C, a scale or the bitmap (R143); an element of a clear block, and the B
element it meets, are none (R134). -/
def MatOp.depends (o : MatOp) (h : Hart) (i n : Nat) : Bool :=
  let d := depth o.fa.width
  let r := d / 8
  let (_, short) := o.scaleParams
  (List.range d).any (fun k =>
    (o.present h i k && ((slotsOf o.fa (i * d + k)).any (o.bad o.va) || (slotsOf o.fb (k % r * 64 + n)).any (o.bad (vplus o.vb (k / r)))))
    || (match o.kind with
      | .mmasc =>
        let (lg, _) := o.scaleParams
        let wd := o.fa.width
        o.bad o.vs ((o.va.val % 2 ^ lg * (32 * o.vl / (wd * blockLen short)) + (i * d + k) / blockLen short) / 4)
          || o.bad (vplus o.vs 1) ((k / blockLen short * 64 + n) / 4)
      | .mmas big => o.bad o.vs (blockBit big d i k / 32)
      | _ => false))
  || (!o.z && (match o.kind with
    | .mmaq => o.bad (vplus o.vc (2 * (n / 16))) (16 * i + n % 16) || o.bad (vplus o.vc (2 * (n / 16) + 1)) (16 * i + n % 16)
    | _ => o.bad (vplus o.vc (n / 16)) (16 * i + n % 16)))

/-- The operands with an error in the register store noted, before the operation reads or writes (R143, R379). -/
def MatOp.noteBad (o : MatOp) (h : Hart) : MatOp :=
  { o with badRegs := (o.badRegs ++ o.sources.filter fun r => h.vBad.getLsbD r.val).eraseDups }

/-- The index of an element of C in a report (R142). -/
def MatOp.index (o : MatOp) (i n : Nat) : Nat :=
  (match o.kind with
    | .mmaq => 1024 * (2 * (n / 16))
    | _ => 1024 * (n / 16)) + 16 * i + n % 16

/-! ## Rows (R138) -/

/-- A C register with its slots of one row replaced, and its tail zero. -/
def setRow (r : VReg) (vl i : Nat) (row : List Nat) : VReg :=
  { r with slots := trimSlots (tabulate vl fun e => if e / 16 = i then BitVec.ofNat 32 (row.getD (e % 16) 0) else r.slot e) }

/-- The values of one row written into the registers. -/
def MatOp.putRow (o : MatOp) (h : Hart) (i : Nat) (row : List Nat) : Hart :=
  let part (g : Nat) := (row.drop (16 * g)).take 16
  match o.kind with
  | .mmaq => (List.range 4).foldl (fun h g =>
    let lo := vplus o.vc (2 * g)
    let hi := vplus o.vc (2 * g + 1)
    let h := h.wvSb lo (setRow (h.rv lo) o.vl i (part g))
    h.wvSb hi (setRow (h.rv hi) o.vl i ((part g).map fun v => v / 2 ^ 32))) h
  | _ => (List.range 4).foldl (fun h g =>
    let r := vplus o.vc g
    h.wvSb r (setRow (h.rv r) o.vl i (part g))) h

/-- A report with one more bad element. -/
def MatReport.addBad (r : MatReport) (idx kind : Nat) : MatReport :=
  { r with uncorrected := true, count := min 0xFFFF (r.count + 1)
           first := if r.count = 0 then idx else r.first, kind := if r.count = 0 then kind else r.kind }

/-- One row of an operation computed, reported and written: `cells` are the elements a bad product or accumulator word reaches,
with its error kind (R143). The elements meet a report in ascending rows and, within one, in ascending n. (DESIGN CHOICE, assumption 79) -/
def MatOp.runRow (o : MatOp) (h : Hart) (i : Nat) (cells : List (Nat × Nat)) (kind : Nat) : MatOp × Hart :=
  let o := o.noteBad h
  let f := o.res
  let vals := tabulate 64 fun n =>
    let word := o.depends h i n
    let hit := word || cells.contains (i, n)
    (if hit then (f.badCell, false, false) else o.cell h i n, hit, word)
  let rep := (List.range 64).foldl (fun (r : MatReport) n =>
    match vals[n]? with
    | some (c, hit, word) =>
      let r := { r with saturated := r.saturated || c.2.1, scaleNan := r.scaleNan || c.2.2 }
      if hit then r.addBad (o.index i n) (if word then 1 else kind) else r
    | none => r) o.report
  let skip := (List.range (depth o.fa.width)).any fun k => !o.present h i k
  ({ o with report := { rep with skipped := rep.skipped || skip }, row := i + 1 }, o.putRow h i (vals.map (·.1.1)))

/-! ## The triangular solve (R137) -/

/-- Factor entry t (r, c). -/
def MatOp.t (o : MatOp) (h : Hart) (r c : Nat) : Int := o.fb.stored (o.b h r c)

/-- One system solved: the rows in order, each value with whether it was clamped and whether it is bad. -/
def MatOp.solve (o : MatOp) (h : Hart) (upper : Bool) (j : Nat) : List (Nat × Nat × Bool × Bool) :=
  let f := o.fa
  let sf := o.fb.frac
  let order := if upper then (List.range 32).reverse else List.range 32
  (order.foldl (fun (acc : List (Nat × Nat × Bool × Bool) × Bool) r =>
    let e := 32 * j + r
    let dep := o.bad o.va e || (List.range 32).any fun c =>
      (if upper then r < c else c < r) && o.bad (vplus o.vb (r / 4)) ((r % 4 * 64 + c) / 2)
    let bad := acc.2 || dep || o.badCells.contains (j, r)
    let sum : Int := acc.1.foldl (fun a y => a + o.t h r y.1 * f.int y.2.1) 0
    let v := f.int ((o.reg h o.va).slot e).toNat * ((2 ^ sf : Nat) : Int) - sum
    let (p, fl) := f.sat (halfUp sf v)
    (acc.1 ++ [(r, if bad then f.badCell else p, !bad && fl != 0, bad)], bad)) ([], false)).1

/-- The whole solution: the register and the report, whose first affected element is the lowest. (DESIGN CHOICE, assumption 79) -/
def MatOp.runSolve (o : MatOp) (h : Hart) (upper : Bool) : MatOp × Hart :=
  let o := o.noteBad h
  let sys := tabulate (o.vl / 32) fun j => o.solve h upper j
  let at_ (e : Nat) : Nat × Bool × Bool := (((sys.getD (e / 32) []).find? fun y => y.1 == e % 32).map (·.2)).getD (0, false, false)
  let rep := (List.range o.vl).foldl (fun (r : MatReport) e =>
    let (_, sat, bad) := at_ e
    let r := { r with saturated := r.saturated || sat }
    if bad then r.addBad e (if o.badWords ≠ [] ∨ o.badRegs ≠ [] then 1 else max 2 r.kind) else r) o.report
  ({ o with report := rep }, if o.vl = 0 then h else h.wvSb o.vc (VReg.build (h.rv o.vc).tag o.vl fun e => BitVec.ofNat 32 (at_ e).1))

/-! ## The Mangle's events (R126, R138, R141) -/

/-- An operation may start: the tile of a CPYM has landed (R221). -/
def MatOp.ready (o : MatOp) : Bool := o.copy.isNone && !o.started

/-- The hart whose operation the Mangle takes next (R126): the highest class among harts with an operation that may start, and
within it the first hart slot after the one served last. -/
def mangleNext (s : State) (c : Nat) : Option Nat :=
  let cand := (residents s c).filter fun p => (p.2.mops.head?.map MatOp.ready).getD false && !(s.crew p.2.crew).stopped
  let top := cand.foldl (fun m p => max m p.2.kern.cls) 0
  let best := cand.filter fun p => p.2.kern.cls == top
  let dist (p : Nat × Hart) : Nat := (p.2.place.getD 0 + 8 - ((s.core c).rotor + 1)) % 4
  (best.foldl (fun (b : Option (Nat × Hart)) p =>
    match b with
    | none => some p
    | some q => if dist p < dist q then some p else b) none).map (·.1)

/-- The first operation of a hart's queue replaced. -/
def setHead (s : State) (uid : Nat) (o : MatOp) : State := s.modHart uid fun h => { h with mops := o :: h.mops.drop 1 }

/-- MATRIX_OPERATION_START (R126). -/
def execMatrixOperationStart (core hart : Nat) (s : State) : Out :=
  if (s.core core).mangle.isNone && mangleNext s core == some hart then
    match (s.hart hart).mops with
    | o :: _ =>
      let s := setHead s hart { o with started := true, watch := 0 }
      .next (s.setCore core { (s.core core) with mangle := some hart, rotor := (s.hart hart).place.getD 0 % 4 })
    | [] => .refused .notEnabled
  else .refused .notEnabled

/-- The errors a row pair meets: bit 7 of `err` a corrected error, `bad` with kind 1 an uncorrectable word (register, slot), and
with kind 2 or 3 an element of C, or (system, row) of a solve (R142, R143). (DEDUCED, assumption 23) -/
def MatOp.meet (o : MatOp) (err : BitVec 8) (bad : Option (Nat × Nat)) : MatOp × List (Nat × Nat) :=
  let o := { o with report := { o.report with corrected := o.report.corrected || err.getLsbD 7 } }
  let kind := err.toNat % 4
  match bad, o.kind with
  | none, _ => (o, [])
  | some w, .mqtrs _ =>
    if kind = 1 then ({ o with badWords := (Fin.ofNat 32 w.1, w.2) :: o.badWords }, [])
    else if kind = 0 then (o, []) else ({ o with badCells := w :: o.badCells, report := { o.report with kind := kind } }, [])
  | some w, _ => if kind = 1 then ({ o with badWords := (Fin.ofNat 32 w.1, w.2) :: o.badWords }, []) else if kind = 0 then (o, []) else (o, [w])

/-- The errors of a row pair logged (R384): a corrected one, and an uncorrectable word or a residue mismatch. -/
def logPair (s : State) (core : Nat) (err : BitVec 8) (bad : Option (Nat × Nat)) : State :=
  let s := if err.getLsbD 7 then logError s 1 .registers core true 0 else s
  if bad.isSome && err.toNat % 4 != 0 then logError s 2 (if err.toNat % 4 = 1 then .registers else .engine) core false 0 else s

/-- ROW_PAIR_WRITE (R138): the next two rows are written; a solve's rows stream and its result waits for completion. -/
def execRowPairWrite (hart : Nat) (err : BitVec 8) (bad : Option (Nat × Nat)) (s : State) : Out :=
  let h := s.hart hart
  match h.mops with
  | o :: _ =>
    if o.started && (s.core h.core).mangle == some hart && 16 * o.row < o.vl then
      let (o, cells) := o.meet err bad
      match o.kind with
      | .mqtrs _ =>
        .next (logPair (setHead s hart { o with row := o.row + 2, watch := 0 }) h.core err bad)
      | _ =>
        let last := o.row + 1
        let (o, h) := o.runRow h o.row cells (err.toNat % 4)
        let (o, h) := if 16 * last < o.vl then o.runRow h last cells (err.toNat % 4) else (o, h)
        .next (logPair (setHead (s.setHart hart h) hart { o with watch := 0 }) h.core err bad)
    else .refused .notEnabled
  | [] => .refused .notEnabled

/-- MATRIX_COMPLETE (R140, R141): every row is written; the operation leaves the queue, counts in seqc7 and reports. -/
def execMatrixComplete (hart : Nat) (s : State) : Out :=
  let h := s.hart hart
  match h.mops with
  | o :: _ =>
    if o.started && (s.core h.core).mangle == some hart && o.vl ≤ 16 * o.row then
      let (o, h) := match o.kind with
        | .mqtrs up => o.runSolve h up
        | _ => (o, h)
      let s := s.setHart hart { h with mops := h.mops.drop 1 }
      let c := s.core h.core
      .next (reportMat (s.setCore h.core { c with mangle := none }) hart o)
    else .refused .notEnabled
  | [] => .refused .notEnabled

end Sys2Proof.Machine
end

