-- ==== Sys2Proof/Machine/Engine.lean ====
section
/-! DEFINITION. Engine instructions CPY, CPYM, GTHR, EMBAG, DZERO and DCOPY, and the progress of their operations
(spec/10_engine_ops.md R211–R229, spec/08_ordering.md R182–R184, spec/04_formats.md R98). -/

namespace Sys2Proof.Machine

/-! ## Issue (R211, R212, R368) -/

/-- A failed control check: ENGINE, sub-cause control, unit 0, with the ordinal the operation would have taken (R212, R215). -/
def ctlFail (n : Nat) (s : State) : Out :=
  let s := s.modMe fun h => { h with vresume := 0 }
  let k := s.me.issued.getD n 0 + 1
  .next (freeze s s.cur { (s.me.record .engine 0) with engw := BitVec.ofNat 64 (n + 16 + k % 2 ^ 32 * 2 ^ 32) })

/-- A failed MISALIGN or CREW_WINDOW check of an engine instruction (R212). -/
def engFail (c : Cause) (a : Nat) (s : State) : Out := stopAt c (BitVec.ofNat 64 a) (some 0) s

/-- A completion barrier of a control word that is out of range (R212). -/
def barBad (h : Hart) (be : Bool) (b : Nat) : Bool := be && h.kern.barriers ≤ b

/-- The completion barrier of a control word. -/
def barOf (be : Bool) (b : Nat) : Option (Fin 128) := if be then some (Fin.ofNat 128 b) else none

/-- A memory range of an engine instruction touches the crew window (R212). -/
def touchesWindow (a n : Nat) : Bool := inWindow a || (n != 0 && a < winTop && winBase < a + n)

/-- Two ranges of `n` bytes overlap, addresses counted modulo 2^64 (R212). -/
def overlap (a b n : Nat) : Bool := n != 0 && ((b + 2 ^ 64 - a) % 2 ^ 64 < n || (a + 2 ^ 64 - b) % 2 ^ 64 < n)

/-- A window range lies outside the crew's allocation (R27, R212). -/
def outsideWin (s : State) (off n : Nat) : Bool := winSizeOf s s.me == 0 || winSizeOf s s.me < off + n

/-- A virtual address of a window offset. -/
def winAddr (off : Nat) : Nat := (winBase + off) % 2 ^ 64

/-- The start of an operation (R211): its ordinal, its ownership of memory lines with the copies in every L1 dropped and update-only
copies merged (R182), and the hart's earlier vector accesses before it; what the vector agent
has read ahead is read again after it (DEDUCED, assumption 10). -/
def startOp (n : Fin 8) (bar : Option (Fin 128)) (kind : OpKind) (s : State) : State :=
  let s := settle s s.cur fun p => p.vec || p.hvis
  let h := s.me
  let o : EngOp := { eng := n, ord := h.issued.getD n.val 0 + 1, seq := s.nextId, aspace := h.aspace, priv := h.priv, vl := h.vl
                     bar := bar, unit := 0, stop := none, kind := kind }
  let s := { s with nextId := s.nextId + 1 }
  let asid := asidOf h.aspace
  let s := match o.owns with
    | some (lo, hi) => ((linesOf lo (hi - lo)).map (· % 2 ^ 58)).foldl (fun s l => dropL1 (recallLine s asid l) asid l) s
    | none => s
  let s := orderLoads s s.cur false true false true
  s.modMe fun h => { h with issued := modAt (· + 1) n.val h.issued, ops := h.ops ++ [o] }

/-- The engine instruction's wait for one of its hart's 64 operations (R368), and for its hart's earlier vector stores to be performed at their
homes (R182, R178), then its checks. -/
def withRoom (k : State → Out) (s : State) : Out :=
  if 64 ≤ s.me.ops.length then waitOn 2 false s
  else if drainWaits s s.cur (fun p => p.vec || p.hvis) then ownedWait s
  else k s

/-- A destination group at issue: all 8 registers take the tag and hold zero bits until the engine writes them (R218, R223, R226),
also at vl = 0, where R31 writes nothing of its own. (DEDUCED, assumption 25) -/
def openGroup (d : VR) (t : Tag) (h : Hart) : Hart := (vgroup d 8).foldl (fun h r => h.wvSb r { tag := t, slots := [] }) h

/-! ## Engine accesses -/

/-- The sub-cause of a failed engine access (R215). -/
def subOf (m : Miss) : Nat :=
  match m with
  | .page => 2
  | .perm => 3
  | .data => 4
  | .wait => 0

/-- How one unit of an operation ends: done, a failed access with its sub-cause and address, or a wait: for a line another engine owns, for an
array in retention (R381), or for the host (R416). -/
inductive UnitEnd (α : Type) where
  | ok (s : State) (a : α)
  | fail (sub : Nat) (addr : Nat)
  | blocked (s : State)

/-- The end of an access of an engine that has no translation or no data (R215). -/
def missEnd {α : Type} (s : State) (asid : Nat) (m : Miss) (va : Nat) : UnitEnd α :=
  if m = .wait then .blocked (noteWait s asid) else .fail (subOf m) va

/-- What a unit that waits leaves behind: its wait for the host, and an array that has begun to leave retention for it. -/
def noted (s t : State) : State :=
  { s with hostWaits := t.hostWaits, sliceAt := t.sliceAt, mgmt := { s.mgmt with asleep := t.mgmt.asleep } }

/-- A unit that waits does something by waiting: it makes an array leave retention, or begins a wait for the host. -/
def wakes (s t : State) : Bool := t.mgmt.asleep != s.mgmt.asleep || t.hostWaits != s.hostWaits

/-- An engine's access to some lines of an ASID, each at its home slice (R381). -/
def atSlices {α : Type} (s : State) (ls : List Nat) (k : State → UnitEnd α) : UnitEnd α :=
  let t := ls.foldl (fun s l => touchSlice s (64 * l)) s
  if ls.any fun l => retained s (64 * l) then .blocked t else k t

/-- Bytes, each with whether an uncorrectable error was in it (R216). -/
abbrev Marked := List (Byte × Bool)

/-- Bytes without an error. -/
def clean (b : List Byte) : Marked := b.map fun x => (x, false)

/-- The bytes alone. -/
def plain (b : Marked) : List Byte := b.map (·.1)

/-- Some bytes hold an error. -/
def anyBad (b : Marked) : Bool := b.any (·.2)

/-- The parts of a range that lie in one line each, as (address, length). -/
def linePieces (a n : Nat) : List (Nat × Nat) :=
  (linesOf a n).map fun l => (max a (64 * l) % 2 ^ 64, min (a + n) (64 * l + 64) - max a (64 * l))

/-- A read by an engine of bytes of one line; `soft` for a register destination, which takes the data and a mark (R216). -/
def engPiece (s : State) (o : EngOp) (soft : Bool) (a n : Nat) : UnitEnd Marked :=
  let asid := asidOf o.aspace
  if ownedByOther s o false asid (a / 64) then .blocked s
  else atSlices s [a / 64] fun s =>
    match agentRead s o.aspace o.priv n a with
    | .ok (s, b) => .ok s (clean b)
    | .error (.data, va) =>
      if soft then
        match agentRead { s with bad := [] } o.aspace o.priv n a with
        | .ok (t, b) => .ok { t with bad := s.bad } (b.map fun x => (x, true))
        | .error (m, va) => missEnd s asid m va
      else .fail 4 va
    | .error (m, va) => missEnd s asid m va

/-- Pieces read in order. -/
def engPieces (o : EngOp) (soft : Bool) : List (Nat × Nat) → State → Marked → UnitEnd Marked
  | [], s, acc => .ok s acc
  | p :: l, s, acc =>
    match engPiece s o soft p.1 p.2 with
    | .ok s b => engPieces o soft l s (acc ++ b)
    | .fail c a => .fail c a
    | .blocked t => .blocked t

/-- A read by an engine, a line at a time. -/
def engRead (s : State) (o : EngOp) (soft : Bool) (a n : Nat) : UnitEnd Marked := engPieces o soft (linePieces a n) s []

/-- A read by an engine of window bytes: an error in them marks a register destination and stops another (R216, R380). -/
def winPiece (s : State) (crew : Nat) (soft : Bool) (off n : Nat) : UnitEnd Marked :=
  let b : Marked := (winRead s crew off n).mapIdx fun i x => (x, winBad s crew (off + i) 1)
  match (if soft then none else b.findIdx? (·.2)) with
  | some i => .fail 4 (winAddr (off + i))
  | none => .ok s b

/-- A write by an engine to memory. -/
def engWrite (s : State) (o : EngOp) (a : Nat) (b : List Byte) : UnitEnd Unit :=
  let asid := asidOf o.aspace
  let ls := (linesOf a b.length).map (· % 2 ^ 58)
  if ls.any fun l => ownedByOther s o true asid l then .blocked s
  else atSlices s ls fun s =>
    match agentWrite s o.aspace o.priv a b with
    | .ok t => if ls.any (fun l => ((l2find t asid l).map fun x => hostDown t x.frame).getD false) then .blocked (noteWait s asid)
      else .ok (hostPassAll t asid a b.length) ()
    | .error (m, va) => missEnd s asid m va

/-- Words of a byte string, each with whether an error is in it. -/
def wordsOf : Marked → List (Slot × Bool)
  | a :: b :: c :: d :: r => (BitVec.ofNat 32 (natOf (plain [a, b, c, d])), anyBad [a, b, c, d]) :: wordsOf r
  | _ => []

/-- A run of slots replaced from a position. -/
def VReg.putSlots (r : VReg) (at_ : Nat) (l : List Slot) : VReg :=
  { r with slots := trimSlots (tabulate 1024 fun e => if at_ ≤ e ∧ e < at_ + l.length then l.getD (e - at_) 0 else r.slot e) }

/-- Words written into a group, `per` slots to a register, from word `q` of the group on; a register that an error reaches is marked
(R216). -/
def putWords (base : VR) (per q : Nat) (l : List (Slot × Bool)) (h : Hart) : Hart :=
  (List.range 8).foldl (fun h g =>
    let lo := max q (g * per)
    let hi := min (q + l.length) ((g + 1) * per)
    if hi ≤ lo then h
    else
      let r := vplus base g
      let part := (l.drop (lo - q)).take (hi - lo)
      let h' := { h with v := h.v.set r.val ((h.rv r).putSlots (lo - g * per) (part.map (·.1))) }
      if part.any (·.2) then { h' with marks := h'.marks ||| BitVec.ofNat 32 (2 ^ r.val) } else h') h

/-- The bytes of a captured group, `per` slots to a register. -/
def groupBytes (vals : List VReg) (per : Nat) : List Byte := vals.flatMap fun v => (tabulate per v.slot).flatMap fun w => bytesOf 4 w.toNat

/-! ## Units of work (R215) -/

/-- The slots of a register that a copy's group side uses (R218). -/
def EngOp.per (o : EngOp) (tile : Bool) : Nat := if tile then 128 else o.vl

/-- A destination that takes an error as a mark (R216). -/
def Side.soft (d : Side) : Bool :=
  match d with
  | .grp _ _ => true
  | _ => false

/-- Pieces of a window source read in order, each at once (R218). -/
def winPieces (crew : Nat) (soft : Bool) : List (Nat × Nat) → State → Marked → UnitEnd Marked
  | [], s, acc => .ok s acc
  | p :: l, s, acc =>
    match winPiece s crew soft p.1 p.2 with
    | .ok s b => winPieces crew soft l s (acc ++ b)
    | .fail c a => .fail c a
    | .blocked t => .blocked t

/-- The bytes of a source from position `p` that a copy must have read for its unit to end at `stop`, up to the end of the line that
holds the last of them: each line of the source is read once, whole (R218). -/
def ahead (a p stop len : Nat) : List (Nat × Nat) :=
  if stop ≤ p then [] else linePieces (a + p) (min len (((a + stop + 63) / 64) * 64 - a) - p)

/-- Unit `k` of a copy: the 64 destination bytes from 64 k (R218, R219); the answer is the bytes delivered and the source bytes read and not
delivered. (DEDUCED, assumption 26) -/
def copyUnit (s : State) (uid : Nat) (o : EngOp) (src dst : Side) (len : Nat) (tile : Bool) (ptr : Option Nat) : UnitEnd (Nat × Marked) :=
  let lo := 64 * o.unit
  let n := min 64 (len - lo)
  let crew := (s.hart uid).crew
  let got : UnitEnd Marked := match src with
    | .mem a => engPieces o dst.soft (ahead a (lo + o.ahead.length) (lo + n) len) s o.ahead
    | .win off => winPieces crew dst.soft (ahead off (lo + o.ahead.length) (lo + n) len) s o.ahead
    | .grp _ vals => .ok s (clean (((groupBytes vals (o.per tile)).drop lo).take n))
  match got with
  | .fail c a => .fail c a
  | .blocked t => .blocked t
  | .ok s all =>
    let b := all.take n
    let put : UnitEnd Unit := match dst with
      | .mem a => engWrite s o ((a + lo) % 2 ^ 64) (plain b)
      | .win off =>
        if winBehind (s.hart uid) o (off + lo) n then .blocked s
        else .ok (winWrite (coverWalks s uid (some o.seq) (off + lo) n) crew (off + lo) (plain b)) ()
      | .grp base _ => .ok (s.modHart uid (putWords base (o.per tile) (lo / 4) (wordsOf b))) ()
    match put with
    | .fail c a => .fail c a
    | .blocked t => .blocked t
    | .ok s _ =>
      .ok (match ptr with
        | some p => winWrite s crew p (bytesOf 8 (lo + n))
        | none => s) (lo + n, all.drop n)

/-- The address of a row of a gather (R223). -/
def rowAddr (base stride i : Nat) : Nat := (base + 4 * stride * i) % 2 ^ 64

/-- The active positions of a gather's batch, the one of its unit (R223). -/
def EngOp.batch (o : EngOp) (cnt : Nat) (active : MaskBits) : List Nat :=
  (tabulate 64 fun i => 64 * o.unit + i).filter fun j => j < cnt && mbit active j

/-- The parts of a batch's rows in the order in which they are read: each distinct row once, in ascending position order, a line at a time
(R223). Each part is given with its row's address. -/
def batchPieces (rows : List Nat) (n : Nat) : List (Nat × Nat × Nat) := rows.eraseDups.flatMap fun a => (linePieces a n).map fun p => (a, p)

/-- The parts of `l` read that `got` does not hold yet, at most `k` of them; a failing one fails with its row's first byte (R224). -/
def gatherRows (o : EngOp) (soft : Bool) : Nat → List (Nat × Nat × Nat) → State → Nat → Marked → UnitEnd Marked
  | 0, _, s, _, got => .ok s got
  | _, [], s, _, got => .ok s got
  | k + 1, (row, a, n) :: l, s, skip, got =>
    if n ≤ skip then gatherRows o soft (k + 1) l s (skip - n) got
    else match engPiece s o soft a n with
    | .ok s b => gatherRows o soft k l s 0 (got ++ b)
    | .fail c _ => .fail c row
    | .blocked t => .blocked t

/-- Unit `q` of a gather: positions 64 q to 64 q + 63, with the parts of their rows that are not read yet. -/
def gatherUnit (s : State) (uid : Nat) (o : EngOp) (base stride rw cnt : Nat) (active : MaskBits) (idx : VReg) (dst : Side) : UnitEnd Unit :=
  let js := o.batch cnt active
  let addr (j : Nat) : Nat := rowAddr base stride (idx.slot j).toNat
  let rows := (js.map addr).eraseDups
  let n := 4 * rw
  let ps := batchPieces rows n
  let off := match dst with
    | .win off => off
    | _ => 0
  if !dst.soft && js.any fun j => winBehind (s.hart uid) o (off + n * j) n then .blocked s
  else match gatherRows o dst.soft ps.length ps s o.ahead.length o.ahead with
  | .fail c a => .fail c a
  | .blocked t => .blocked t
  | .ok s all =>
    .ok (js.foldl (fun s j =>
      let b := (all.drop (n * rows.idxOf (addr j))).take n
      match dst with
      | .grp d _ => s.modHart uid (putWords d o.vl (rw * j) (wordsOf b))
      | .win off => winWrite (coverWalks s uid (some o.seq) (off + n * j) n) (s.hart uid).crew (off + n * j) (plain b)
      | .mem _ => s) s) ()

/-- The row format of EMBAG (R225): FP32, BF16, FP16, with its width in bytes. -/
def rowFF (fmt : Nat) : FF × Nat := if fmt = 0 then (.f32, 4) else if fmt = 1 then (.bf16, 2) else (.f16, 2)

/-- The dirty L2 copies of a physical line written back (R184, R317). -/
def cleanFrame (s : State) (frame : Nat) : State := (s.l2.filter fun l => l.copies s frame && l.dirty).foldl writeBack s

/-- Every cached copy of the line at a place of the memory dropped, update-only copies merged and dirty ones written back before (R184). -/
def dropPlace (s : State) (a : Nat) : State :=
  let same (f : Nat) : Bool := steer s (f * 64) == a
  let s := (s.upd.filter fun u => same u.frame).foldl (fun s u => recallLine s u.asid u.line) s
  let s := (s.l2.filter fun l => same l.frame && l.dirty).foldl writeBack s
  { s with l2 := s.l2.filter fun l => !same l.frame, l1 := s.l1.filter fun l => !same l.frame, l1i := s.l1i.filter fun l => !same l.frame }

/-- Every cached copy of a physical line dropped (R184, R329). -/
def dropFrame (s : State) (frame : Nat) : State := dropPlace s (steer s (frame * 64))

/-- A physical line read below the L2, its dirty L2 copies written back first (R184); none when it holds an uncorrectable error. -/
def lineBelow (s : State) (frame : Nat) : Option (State × List Byte) :=
  let s := cleanFrame s frame
  if isBad s frame then none else some (s, memRead s.mem (steer s (frame * 64)) 64)

/-- A row of a bag, within one line-aligned 256-byte unit: from the ranks of the capacity tier below the L2, from other memory through the L2
(R226, R184). An uncorrectable error stops the operation (R227). -/
def spoolRead (s : State) (o : EngOp) (a n : Nat) : UnitEnd (List Byte) :=
  let asid := asidOf o.aspace
  if (linesOf a n).any fun l => ownedByOther s o false asid l then .blocked s
  else atSlices s (linesOf a n) fun s =>
  match translate s o.aspace o.priv .load a with
  | .error m => missEnd s asid m a
  | .ok (s, ppn, _) =>
    if farBase ≤ ppn * 4096 ∧ ppn * 4096 < hostBase then
      let first := ppn * 64 + a / 64 % 64
      let s := (linesOf a n).foldl (fun s l => recallLine s asid l) s
      let frames := tabulate ((a % 64 + n + 63) / 64) fun i => first + i
      match frames.foldl (fun (r : Except Nat (State × List Byte)) f =>
        match r with
        | .error e => .error e
        | .ok (s, b) => (match lineBelow s f with
          | some (s, d) => .ok (s, b ++ d)
          | none => .error f)) (.ok (s, [])) with
      | .ok (s, b) => .ok s ((b.drop (a % 64)).take n)
      | .error f => .fail 4 (max a (a / 64 * 64 + 64 * (f - first)))
    else match engRead s o false a n with
    | .ok s b => .ok s (plain b)
    | .fail c a => .fail c a
    | .blocked t => .blocked t

/-- The rows of a bag read in index-vector order (R226, R227): none where a walk ends at an entry with V = 0 and a residency mask is named. (DEDUCED, assumption 69) -/
def bagRows (o : EngOp) (masked : Bool) (n : Nat) : List Nat → State → List (Option (List Byte)) → UnitEnd (List (Option (List Byte)))
  | [], s, acc => .ok s acc.reverse
  | a :: l, s, acc =>
    match spoolRead s o a n with
    | .ok s b => bagRows o masked n l s (some b :: acc)
    | .blocked t => .blocked t
    | .fail c va => if masked && c == 2 && canonical va && !inWindow va then bagRows o masked n l s (none :: acc) else .fail c va

/-- The fused accumulation of one bag value over positions in order (R98). -/
def accumulate (l : List (Nat × Nat)) : Nat := l.foldl (fun acc p => (FF.f32.fma 0 false false p.1 p.2 acc).1) 0

/-- Partials combined in order, from the first one present (R98). -/
def combine (l : List Nat) : Nat :=
  match l with
  | [] => 0
  | a :: r => r.foldl (fun x y => (FF.f32.add 0 x y).1) a

/-- One value of a bag (R98): `l` lists (row address, weight, value) in index-vector order; ranks within a channel, then
channels. -/
def poolValue (l : List (Nat × Nat × Nat)) : Nat :=
  combine ((List.range 12).filterMap fun ch =>
    let mine := l.filter fun p => p.1 / 4096 % 12 == ch
    if mine = [] then none
    else some (combine ((List.range 4).filterMap fun rk =>
      let r := mine.filter fun p => p.1 / 256 % 4 == rk
      if r = [] then none else some (accumulate (r.map (·.2))))))

/-- Value `k` of a row, widened to FP32 (R98). -/
def rowValue (fmt k : Nat) (b : List Byte) : Nat :=
  let (f, w) := rowFF fmt
  (FF.f32.put 0 false (f.read (natOf ((b.drop (w * k)).take w)))).1

/-- Unit `b` of an EMBAG: one bag, and whether it was missing (R226, R227). -/
def bagUnit (s : State) (uid : Nat) (o : EngOp) (base stride ni fmt d : Nat) (idx wts bags : VReg) (dst : VR) (masked : Bool) : UnitEnd Bool :=
  let js := (List.range ni).filter fun j => (bags.slot j).toNat == o.unit
  let addr (j : Nat) : Nat := rowAddr base stride (idx.slot j).toNat
  match bagRows o masked ((rowFF fmt).2 * d) (js.map addr) s [] with
  | .fail c a => .fail c a
  | .blocked t => .blocked t
  | .ok s rows =>
    let miss := rows.any (·.isNone)
    let vals := tabulate d fun k =>
      if miss then (0 : Nat)
      else poolValue ((js.zip rows).map fun p => (addr p.1, (wts.slot p.1).toNat, rowValue fmt k (p.2.getD [])))
    .ok (s.modHart uid (putWords dst o.vl (o.unit * d) (vals.map fun v => (BitVec.ofNat 32 v, false)))) miss

/-- A page of a page command translated before its first row; a failure is at the page's first byte (R229). -/
def pageFrame (s : State) (o : EngOp) (k : Access) (a : Nat) : UnitEnd Nat :=
  match translate s o.aspace o.priv k a with
  | .ok (s, ppn, _) => .ok s ppn
  | .error m => missEnd s (asidOf o.aspace) m a

/-- The pages of the page a command is in, the destination's before the source's: translated at its first row (R229). -/
def pageFrames (s : State) (o : EngOp) (dst : Nat) (src : Option Nat) : UnitEnd (Nat × Nat) :=
  match o.pages with
  | some p => .ok s p
  | none =>
    let page := 4096 * (o.unit / 4)
    match pageFrame s o .store ((dst + page) % 2 ^ 64) with
    | .fail c a => .fail c a
    | .blocked t => .blocked t
    | .ok s d =>
      match src with
      | none => .ok s (d, 0)
      | some a =>
        match pageFrame s o .load ((a + page) % 2 ^ 64) with
        | .fail c a => .fail c a
        | .blocked t => .blocked t
        | .ok s f => .ok s (d, f)

/-- A source row read below the L2, with its dirty copies written back first (R184). -/
def rowBelow (frame : Nat) : Nat → State → Option (State × List Byte)
  | 0, s => some (s, [])
  | n + 1, s =>
    match lineBelow s frame with
    | none => none
    | some (s, b) => (rowBelow (frame + 1) n s).map fun r => (r.1, b ++ r.2)

/-- A destination line written below the L2, left in no cache (R184); an error of the old data goes with it. -/
def putBelow (s : State) (frame : Nat) (b : List Byte) : State :=
  let s := dropFrame s frame
  { s with mem := memWrite s.mem (steer s (frame * 64)) b, bad := s.bad.filter fun n => n != steer s (frame * 64) / 64 }

/-- Unit `k` of a page command: a 1 KiB row of the destination (R229); `src` none for DZERO. The answer is the pages to keep for the next
row. -/
def pageUnit (s : State) (o : EngOp) (dst : Nat) (src : Option Nat) : UnitEnd (Option (Nat × Nat)) :=
  let off := 1024 * o.unit
  let asid := asidOf o.aspace
  let outs := (linesOf (dst + off) 1024).map (· % 2 ^ 58)
  let ins := (src.map fun a => (linesOf (a + off) 1024).map (· % 2 ^ 58)).getD []
  if (outs.any fun l => ownedByOther s o true asid l) || ins.any fun l => ownedByOther s o false asid l then .blocked s
  else atSlices s (outs ++ ins) fun s => match pageFrames s o dst src with
  | .fail c a => .fail c a
  | .blocked t => .blocked t
  | .ok s p =>
    let row := 16 * (o.unit % 4)
    let df := p.1 * 64 + row
    let sf := p.2 * 64 + row
    if hostDown s df ∨ (src.isSome ∧ hostDown s sf) then .blocked (noteWait s asid)
    else
      let s := ins.foldl (fun s l => recallLine s asid l) s
      match (match src with
        | none => some (s, List.replicate 1024 0#8)
        | some _ => rowBelow sf 16 s) with
      | none => .fail 4 (((src.getD 0) + off) % 2 ^ 64)
      | some (s, b) =>
        .ok ((List.range 16).foldl (fun s i => putBelow s (df + i) ((b.drop (64 * i)).take 64)) s) (if o.unit % 4 = 3 then none else some p)

/-- The units of an operation (R215). -/
def EngOp.units (o : EngOp) : Nat :=
  match o.kind with
  | .cpy _ _ len _ _ _ => (len + 63) / 64
  | .gthr _ _ _ cnt _ _ _ => (cnt + 63) / 64
  | .embag _ _ _ nb _ _ _ _ _ _ _ _ => nb
  | .dzero _ len => len / 1024
  | .dcopy _ _ len => len / 1024
  | _ => 0

/-- One unit of an operation performed: the operation after it. -/
def unitStep (s : State) (uid : Nat) (o : EngOp) : UnitEnd EngOp :=
  let o' := { o with unit := o.unit + 1, ahead := [], watch := 0, chan := o.eng == 0 }
  match o.kind with
  | .cpy src dst len tile ptr _ =>
    match copyUnit s uid o src dst len tile ptr with
    | .ok s p => .ok s { o' with kind := .cpy src dst len tile ptr p.1, ahead := p.2 }
    | .fail c a => .fail c a
    | .blocked t => .blocked t
  | .gthr base stride rw cnt active idx dst =>
    match gatherUnit s uid o base stride rw cnt active idx dst with
    | .ok s _ => .ok s o'
    | .fail c a => .fail c a
    | .blocked t => .blocked t
  | .embag base stride ni nb fmt d idx wts bags dst mask miss =>
    match bagUnit s uid o base stride ni fmt d idx wts bags dst mask.isSome with
    | .ok s m => .ok s { o' with kind := .embag base stride ni nb fmt d idx wts bags dst mask (if m then miss ||| BitVec.ofNat 1024 (2 ^ o.unit) else miss) }
    | .fail c a => .fail c a
    | .blocked t => .blocked t
  | .dzero dst _ =>
    match pageUnit s o dst none with
    | .ok s p => .ok s { o' with pages := p }
    | .fail c a => .fail c a
    | .blocked t => .blocked t
  | .dcopy dst src _ =>
    match pageUnit s o dst (some src) with
    | .ok s p => .ok s { o' with pages := p }
    | .fail c a => .fail c a
    | .blocked t => .blocked t
  | _ => .blocked s

/-- An operation of a hart replaced. -/
def setOp (s : State) (uid : Nat) (o : EngOp) : State :=
  s.modHart uid fun h => { h with ops := h.ops.map fun q => if q.eng = o.eng ∧ q.ord = o.ord then o else q }

/-- How a run of units ends: every unit done, a failure at the operation's unit, or blocked. -/
inductive RunEnd where
  | done (s : State) (o : EngOp)
  | fail (s : State) (o : EngOp) (sub addr : Nat)
  | blocked (s : State)

/-- At most `n` units of an operation in order; each is recorded in the hart as it is done. -/
def runUnits (uid : Nat) : Nat → State → EngOp → RunEnd
  | 0, s, o => .done s o
  | n + 1, s, o =>
    match unitStep s uid o with
    | .ok s o => runUnits uid n (setOp s uid o) o
    | .fail c a => .fail s o c a
    | .blocked t => .blocked (noted s t)

/-- The remaining units of an operation. -/
def runAll (s : State) (uid : Nat) (o : EngOp) : RunEnd := runUnits uid (o.units - o.unit) s o

/-- The operation an engine works on for a hart: the first, when it is not stopped (R211, R215). -/
def headOp (h : Hart) (n : Nat) : Option EngOp :=
  match h.ops.find? fun o => o.eng.val == n with
  | some o => if o.stop.isNone then some o else none
  | none => none

/-- The copies of a core that have one of its four Shuttle channels (R12). -/
def shuttlesUsed (s : State) (c : Nat) : Nat := (residents s c).foldl (fun a p => a + p.2.ops.countP (·.chan)) 0

/-- An engine may work on an operation of a hart that is resident and not stopped (R211, R215), unless it waits for a quad store in retention
(R381): it is the hart's first of its engine; or it is a
copy, every earlier copy of the hart has started and none has stopped, and a channel is its own or free. -/
def canRun (s : State) (uid : Nat) (o : EngOp) : Bool :=
  let h := s.hart uid
  let before := h.ops.filter fun q => q.eng == o.eng && q.ord < o.ord
  working s uid && o.stop.isNone && (!o.reachesWindow || !storeAsleep s h.crew)
    && (if o.eng = 0 then (before.all fun q => q.stop.isNone && q.chan) && (o.chan || shuttlesUsed s h.core < 4) else before == [])

/-- The first operation of an engine for a hart, when the engine may work on it. -/
def engHead (s : State) (uid n : Nat) : Option EngOp := (headOp (s.hart uid) n).filter (canRun s uid)

/-- The operation of an ordinal of an engine for a hart, when the engine may work on it. -/
def engOp (s : State) (uid n k : Nat) : Option EngOp := (s.hart uid).ops.find? fun o => o.eng.val == n && o.ord == k && canRun s uid o

/-- An operation goes on by one unit (R215), before its completion. -/
def oneUnit (hart : Nat) (o : EngOp) (s : State) : Out :=
  if o.unit < o.units then
    match runUnits hart 1 s o with
    | .done s _ => .next s
    | .blocked t => if wakes s t then .next t else .refused .notEnabled
    | .fail .. => .refused .notEnabled
  else .refused .notEnabled

/-- One unit of the operation of an ordinal of an engine. -/
def engineUnit (hart : Nat) (eng : Fin 8) (k : Nat) (s : State) : Out :=
  match engOp s hart eng.val k with
  | some o => oneUnit hart o s
  | none => .refused .notEnabled

/-- The next line of the rows of a hart's gather read (R223, R224). -/
def gatherLine (hart : Nat) (s : State) : Out :=
  match engHead s hart 1 with
  | some o =>
    match o.kind with
    | .gthr base stride rw cnt active idx dst =>
      let ps := batchPieces ((o.batch cnt active).map fun j => rowAddr base stride (idx.slot j).toNat) (4 * rw)
      match gatherRows o dst.soft 1 ps s o.ahead.length o.ahead with
      | .ok s got => .next (setOp s hart { o with ahead := got })
      | .blocked t => if wakes s t then .next (noted s t) else .refused .notEnabled
      | .fail .. => .refused .notEnabled
    | _ => .refused .notEnabled
  | none => .refused .notEnabled

/-- The completion of an operation of a hart, with its remaining units, when `test` accepts it. -/
def completeEngine (hart : Nat) (o : Option EngOp) (test : EngOp → Bool) (last : State → EngOp → State) (s : State) : Out :=
  match o with
  | some o =>
    if !test o then .refused .notEnabled
    else match runAll s hart o with
    | .done s o => .next (completeOp (last s o) hart o)
    | .blocked t => if wakes s t then .next t else .refused .notEnabled
    | .fail .. => .refused .notEnabled
  | none => .refused .notEnabled

/-! ## CPY (R217–R220) -/

/-- The kind of a source side and its value. -/
def srcSide (h : Hart) : CpySrc → Side
  | .mem xa => .mem (h.rx xa).toNat
  | .win xa => .win (h.rx xa).toNat
  | .grp v => .grp v ((vgroup v 8).map (h.srcV false))

/-- The kind of a destination side and its value. -/
def dstSide (h : Hart) : CpyDst → Side
  | .mem xa => .mem (h.rx xa).toNat
  | .win xa => .win (h.rx xa).toNat
  | .grp v _ => .grp v []

/-- The registers of a group a copy of `len` bytes reads, `per` slots each. -/
def groupUsed (v : VR) (per len : Nat) : List VR := vgroup v (if per = 0 then 0 else min 8 ((len + 4 * per - 1) / (4 * per)))

/-- The control check of one side (R212). -/
def sideBad (s : Side) (len : Nat) : Bool :=
  match s with
  | .mem a => touchesWindow a len
  | _ => false

/-- The address of a side for a MISALIGN (R218). -/
def sideAddr (s : Side) : Nat :=
  match s with
  | .mem a => a
  | .win o => winAddr o
  | .grp _ _ => 0

/-- A side is not a multiple of 4 (R218). -/
def sideOdd (s : Side) : Bool :=
  match s with
  | .mem a => a % 4 != 0
  | .win o => o % 4 != 0
  | .grp _ _ => false

/-- The offset of a window side outside the allocation (R212). -/
def sideOut (s : State) (d : Side) (len : Nat) : Option Nat :=
  match d with
  | .win o => if outsideWin s o len then some (winAddr o) else none
  | _ => none

/-- The ranges of a copy's two sides overlap (R212). -/
def sidesMeet (a b : Side) (len : Nat) : Bool :=
  match a, b with
  | .mem x, .mem y => overlap x y len
  | .win x, .win y => overlap x y len
  | _, _ => false

/-- The MISALIGN and CREW_WINDOW checks of a copy, then its start (R212, R218, R219). (DEDUCED, assumption 24) -/
def copyStart (src dst : Side) (tag : Tag) (len : Nat) (tile : Bool) (ptr : Option Nat) (bar : Option (Fin 128)) (k : State → Out) (s : State) : Out :=
  if sideOdd src then engFail .misalign (sideAddr src) s
  else if sideOdd dst then engFail .misalign (sideAddr dst) s
  else
    let p : Side := match ptr with
      | some o => .win o
      | none => .mem 0
    match (sideOut s src len <|> sideOut s dst len <|> sideOut s p 8) with
    | some a => engFail .crewWindow a s
    | none =>
      let s := match dst with
        | .grp v _ => s.modMe (openGroup v tag)
        | _ => s
      let s := match ptr with
        | some o => winWrite s s.me.crew o (bytesOf 8 0)
        | none => s
      k (startOp 0 bar (.cpy src dst len tile ptr 0) s)

/-- CPY (R217). -/
def execCpy (hd : Hdr) (src : CpySrc) (dst : CpyDst) (xc : Reg) (s : State) : Out :=
  let w := (s.me.rx xc).toNat
  let len := bits w 29 0
  let gl := bits w 63 62
  let per := if gl = 0 then s.me.vl else 128
  let used := match src with
    | .grp v => groupUsed v per len
    | _ => []
  let (vw, tag) : List VR × Tag := match dst with
    | .grp v t => (vgroup v 8, t)
    | _ => ([], 0)
  let xs := (match src with
    | .mem a => [a]
    | .win a => [a]
    | .grp _ => []) ++ (match dst with
    | .mem a => [a]
    | .win a => [a]
    | .grp _ _ => [])
  let grp : Bool := (match src with
    | .grp _ => true
    | _ => false) || vw != []
  issue { cls := 28, fmts := (tagBit tag).toList, hdr := some hd, xr := xc :: xs, vr := used, vw := vw, late := true, acc := some true } noIll
    (fun s => used.all fun r => tagNamed (s.me.rv r).tag)
    (withRoom fun s =>
      let h := s.me
      let a := srcSide h src
      let b := dstSide h dst
      if bits w 41 40 ≠ 0 ∨ bits w 31 30 ≠ 0 ∨ 2 ≤ gl ∨ len % 4 ≠ 0 ∨ (grp ∧ 32 * per < len) ∨ sideBad a len ∨ sideBad b len
          ∨ sidesMeet a b len ∨ barBad h (bit w 39) (bits w 38 32) then ctlFail 0 s
      else copyStart a b tag len (gl == 1) (if bit w 61 then some (8 * bits w 60 42) else none) (barOf (bit w 39) (bits w 38 32))
        (finishL hd id) s) s

/-! ## CPYM (R221) -/

/-- The MMA operands of a CPYM's control word: Z, C, A and the status barrier. -/
def cpymOps (w : Nat) : Bool × VR × VR × Option (Fin 128) :=
  (bit w 63, Fin.ofNat 32 (bits w 62 58), Fin.ofNat 32 (bits w 57 53), barOf (bit w 52) (bits w 51 45))

/-- The checks of R133 on a CPYM's operands whose outcome is ILLEGAL_OP. -/
def cpymIll (h : Hart) (vc va vb : VR) (bar : Option (Fin 128)) : Bool :=
  vc.val % 4 != 0 || meets (vgroup vc 4) (vgroup vb 8) || (vgroup vb 8).contains va || (vgroup vc 4).contains va || badBar h bar

/-- CPYM (R221): a copy of a 4096-byte tile, then an MMA at its program position. -/
def execCpym (hd : Hdr) (win : Bool) (vb : VR) (xa : Reg) (t : Tag) (xc : Reg) (s : State) : Out :=
  let w := (s.me.rx xc).toNat
  let (z, vc, va, bar) := cpymOps w
  issue { cls := 28, fmts := 23 :: (tagBit t).toList, hdr := some hd, xr := [xa, xc], vw := vgroup vb 8, late := true, acc := some true
          mvr := va :: (if z then [] else vgroup vc 4), mvw := vgroup vc 4 }
    (fun s => cpymIll s.me vc va vb bar)
    (fun s => (matCheck s.me .mma z vc va vb 0 (some t)).isSome)
    (withRoom fun s =>
      let h := s.me
      if 4 ≤ h.mops.length then waitOn 2 false s
      else
        let a : Side := if win then .win (h.rx xa).toNat else .mem (h.rx xa).toNat
        if bits w 44 0 ≠ 0 ∨ sideBad a 4096 then ctlFail 0 s
        else
          let rt := ((matCheck h .mma z vc va vb 0 (some t)).map tagOf).getD 0
          let o := newMatOp h .mma z vc va vb 0 (some t) bar (some (h.issued.getD 0 0 + 1))
          let o := { o with early := o.early.filter fun p => !(vgroup vb 8).contains p.1 }
          copyStart a (.grp vb []) t 4096 true none none (fun s => finishL hd id (enqueueMat o rt s)) s) s

/-! ## GTHR (R222–R224) -/

/-- A GTHR to a register group or to the window. -/
def gatherIssue (hd : Hdr) (m : Option MR) (d : Option (VR × Tag)) (xa : Reg) (vi : VR) (xc : Reg) (s : State) : Out :=
  issue { cls := 29, fmts := (d.bind fun p => tagBit p.2).toList, hdr := some hd, xr := [xa, xc], vr := [vi], mr := m.toList, acc := some true
          vw := match d with
            | some p => vgroup p.1 8
            | none => [] } noIll
    (fun s => s.me.fmt vi == some .i32)
    (withRoom fun s =>
      let h := s.me
      let w := (h.rx xc).toNat
      let base := (h.rx xa).toNat
      let rw := bits w 10 0
      let cnt := bits w 21 11
      let off := 64 * bits w 63 48
      if rw = 0 ∨ 1024 < rw ∨ h.vl < cnt ∨ (d.isSome ∧ (off ≠ 0 ∨ 32 * h.vl < cnt * 4 * rw))
          ∨ barBad h (bit w 47) (bits w 46 40) then ctlFail 1 s
      else if base % 4 ≠ 0 then engFail .misalign base s
      else if d.isNone ∧ outsideWin s off (cnt * 4 * rw) then engFail .crewWindow (winAddr off) s
      else
        let act := (h.emask m).getD (BitVec.allOnes 1024)
        let dst : Side := match d with
          | some p => .grp p.1 []
          | none => .win off
        let idx := h.srcV false vi
        let s := match d with
          | some p => s.modMe (openGroup p.1 p.2)
          | none => s
        finishL hd id (startOp 1 (barOf (bit w 47) (bits w 46 40)) (.gthr base (bits w 39 22) rw cnt act idx dst) s)) s

/-- GTHR to a register group (R222 fn 0). -/
def execGthr (hd : Hdr) (m : Option MR) (d : VR) (xa : Reg) (vi : VR) (t : Tag) (xc : Reg) (s : State) : Out :=
  gatherIssue hd m (some (d, t)) xa vi xc s

/-- GTHR to the crew window (R222 fn 1). -/
def execGthrWindow (hd : Hdr) (m : Option MR) (xa : Reg) (vi : VR) (xc : Reg) (s : State) : Out := gatherIssue hd m none xa vi xc s

/-! ## EMBAG (R225–R227) -/

/-- EMBAG (R225). -/
def execEmbag (hd : Hdr) (m : Option MR) (d : VR) (xa : Reg) (vi : VR) (xc : Reg) (s : State) : Out :=
  let regs := [vi, vplus vi 1, vplus vi 2]
  issue { cls := 30, hdr := some hd, xr := [xa, xc], vr := regs, vw := vgroup d 8, mw := m.toList, acc := some true } noIll
    (fun s => regs.map s.me.fmt == [some .i32, some .f32, some .i32])
    (withRoom fun s =>
      let h := s.me
      let w := (h.rx xc).toNat
      let base := (h.rx xa).toNat
      let stride := bits w 47 32
      let ni := bits w 31 21
      let nb := bits w 20 10
      let fmt := bits w 9 8
      let len := bits w 7 0
      let idx := h.srcV false vi
      let bags := h.srcV false (vplus vi 2)
      let rowBad (j : Nat) : Bool :=
        nb ≤ (bags.slot j).toNat || 256 < rowAddr base stride (idx.slot j).toNat % 256 + len * (rowFF fmt).2
      if bits w 63 56 ≠ 0 ∨ fmt = 3 ∨ len = 0 ∨ (if fmt = 0 then 64 else 128) < len ∨ nb = 0 ∨ 1024 < nb ∨ h.vl < ni
          ∨ 8 * h.vl < nb * len ∨ (List.range ni).any rowBad ∨ barBad h (bit w 55) (bits w 54 48) then ctlFail 2 s
      else if base % 4 ≠ 0 then engFail .misalign base s
      else
        let wts := h.srcV false (vplus vi 1)
        finishL hd id (startOp 2 (barOf (bit w 55) (bits w 54 48)) (.embag base stride ni nb fmt len idx wts bags d m 0)
          (s.modMe (openGroup d (tagOf .f32))))) s

/-! ## DZERO and DCOPY (R228, R229) -/

/-- A page command. -/
def pageCommand (hd : Hdr) (xd : Reg) (xs : Option Reg) (xc : Reg) (s : State) : Out :=
  issue { cls := 31, hdr := some hd, xr := xd :: xc :: xs.toList, acc := some true } noIll anyFmt
    (withRoom fun s =>
      let h := s.me
      let w := (h.rx xc).toNat
      let d := (h.rx xd).toNat
      let src := xs.map fun r => (h.rx r).toNat
      let len := bits w 31 0
      let srcBad : Bool := match src with
        | some a => touchesWindow a len || overlap a d len
        | none => false
      if bits w 63 40 ≠ 0 ∨ len = 0 ∨ len % 4096 ≠ 0 ∨ touchesWindow d len ∨ srcBad ∨ barBad h (bit w 39) (bits w 38 32) then ctlFail 6 s
      else if d % 4096 ≠ 0 then engFail .misalign d s
      else
        let bar := barOf (bit w 39) (bits w 38 32)
        match src with
        | some a => if a % 4096 ≠ 0 then engFail .misalign a s else finishL hd id (startOp 6 bar (.dcopy d a len) s)
        | none => finishL hd id (startOp 6 bar (.dzero d len) s)) s

/-- DZERO (R228). -/
def execDzero (hd : Hdr) (xd xc : Reg) (s : State) : Out := pageCommand hd xd none xc s

/-- DCOPY (R228). -/
def execDcopy (hd : Hdr) (xd xs xc : Reg) (s : State) : Out := pageCommand hd xd (some xs) xc s

/-! ## Progress events -/

/-- The MMA of a CPYM still waits for the copy of an ordinal (R221). -/
def Hart.tileFor (h : Hart) (ord : Nat) : Bool := h.mops.any fun m => m.copy == some ord

/-- WRITE_POINTER_PUBLISH (R219): the copy's next line is delivered and its end published. -/
def execWritePointerPublish (hart ord : Nat) (s : State) : Out :=
  match engOp s hart 0 ord with
  | some o =>
    match o.kind with
    | .cpy _ _ _ _ (some _) _ => oneUnit hart o s
    | _ => .refused .notEnabled
  | none => .refused .notEnabled

/-- CPYM_MMA_ISSUE (R221): the tile's last byte has landed, and its MMA may start. -/
def execCpymMmaIssue (hart : Nat) (s : State) : Out :=
  match (s.hart hart).ops.find? fun o => o.eng == 0 && (s.hart hart).tileFor o.ord && canRun s hart o with
  | some o =>
    match runAll s hart o with
    | .done s o => .next (s.modHart hart fun h => { h with mops := h.mops.map fun m => if m.copy = some o.ord then { m with copy := none } else m })
    | _ => .refused .notEnabled
  | none => .refused .notEnabled

/-- The end of a copy (R211): every byte is written and the final pointer published. -/
def endCopy (hart : Nat) (o : Option EngOp) (s : State) : Out :=
  completeEngine hart o (fun o => !(s.hart hart).tileFor o.ord) (fun s o =>
    match o.kind with
    | .cpy _ _ len _ (some p) _ => winWrite s (s.hart hart).crew p (bytesOf 8 len)
    | _ => s) s

/-- COPY_COMPLETE (R211): the hart's first copy ends. -/
def execCopyComplete (hart : Nat) (s : State) : Out := endCopy hart (engHead s hart 0) s

/-- A copy ends that an earlier one of its hart need not have ended before (R43). -/
def copyDone (hart ord : Nat) (s : State) : Out := endCopy hart (engOp s hart 0 ord) s

/-- GATHER_COMPLETE (R211, R223). -/
def execGatherComplete (hart : Nat) (s : State) : Out := completeEngine hart (engHead s hart 1) (fun _ => true) (fun s _ => s) s

/-- EMBAG_COMPLETE (R226, R227): every bag is written, then the residency mask. -/
def execEmbagComplete (hart : Nat) (s : State) : Out :=
  completeEngine hart (engHead s hart 2) (fun _ => true) (fun s o =>
    match o.kind with
    | .embag _ _ _ _ _ _ _ _ _ _ (some r) miss => s.modHart hart fun h => h.wmSb r miss
    | _ => s) s

/-- PAGE_COMMAND_COMPLETE (R229, R184). -/
def execPageCommandComplete (hart : Nat) (s : State) : Out := completeEngine hart (engHead s hart 6) (fun _ => true) (fun s _ => s) s

end Sys2Proof.Machine
end

