-- ==== Sys2Proof/Machine/Fpu.lean ====
section
/-! DEFINITION. Scalar floating point (spec/07_scalar_ops.md R155–R158): FPU and FMA. `z` is the size, true for FP64. -/

namespace Sys2Proof.Machine

/-- The floating-point format of a size (R80). -/
def scalarFF (z : Bool) : FF := if z then .f64 else .f32

/-- A register's value as an operand of a size: an FP32 operand is its low half (R80). -/
def fpOp (z : Bool) (w : Word) : Nat := if z then w.toNat else w.toNat % 2 ^ 32

/-- The time of a scalar floating-point instruction (R161): its latency, and the unit it occupies with the occupancy, in FP32 or FP64. -/
structure FpTime where
  lat  : Nat
  unit : Option (Nat × Nat) := none
deriving DecidableEq, Repr

/-- FADD, FSUB, FMUL, FMIN and FMAX (R161). -/
def timeAdd (z : Bool) : FpTime := { lat := 4 + z.toNat }
/-- The FMA family (R161). -/
def timeFma (z : Bool) : FpTime := { lat := 5 + z.toNat }
/-- FDIV (R161). -/
def timeDiv (z : Bool) : FpTime := if z then { lat := 24, unit := some (1, 22) } else { lat := 14, unit := some (1, 12) }
/-- FSQRT (R161). -/
def timeSqrt (z : Bool) : FpTime := if z then { lat := 28, unit := some (2, 26) } else { lat := 16, unit := some (2, 14) }
/-- FCVT, FCMP, and FCLASS and FMVX (R161): the same in both sizes. -/
def timeAny (n : Nat) : FpTime := { lat := n }

/-- The issue of an FPU or FMA instruction (R149): class bit 2, and format bit 81 with size 1. -/
def fpIssue (z : Bool) (t : FpTime) (xr : List Reg) (d : Reg) (k : State → Out) (s : State) : Out :=
  issue { cls := 2, fmts := if z then [81] else [], xr := xr, xw := [d], scalar := true, unit := t.unit.map (·.1) } noIll anyFmt k s

/-- A result pattern and its flags written (R148, R155), with the instruction's time. -/
def fpPut (t : FpTime) (d : Reg) (p : Nat × Fl) (h : Hart) : Hart :=
  { (((h.wx d (BitVec.ofNat 64 p.1)).late d t.lat).raise p.2) with
    busy := (3, h.cycle, t.lat) :: (t.unit.map fun u => (u.1, h.cycle, u.2)).toList ++ h.busy }

/-- An FPU instruction of two sources: the format, the rounding mode and the operands give the result. -/
def fp2 (z : Bool) (t : FpTime) (d a b : Reg) (f : FF → Nat → Nat → Nat → Nat × Fl) (s : State) : Out :=
  fpIssue z t [a, b] d (finish fun h => fpPut t d (f (scalarFF z) h.frm (fpOp z (h.rx a)) (fpOp z (h.rx b))) h) s

/-- An FPU instruction of one source. -/
def fp1 (z : Bool) (t : FpTime) (d a : Reg) (f : FF → Nat → Nat → Nat × Fl) (s : State) : Out :=
  fpIssue z t [a] d (finish fun h => fpPut t d (f (scalarFF z) h.frm (fpOp z (h.rx a))) h) s

/-- An FMA instruction (R156): `np` negates the product and `nc` the addend. -/
def fp3 (z np nc : Bool) (d a b c : Reg) (s : State) : Out :=
  fpIssue z (timeFma z) [a, b, c] d (finish fun h =>
    fpPut (timeFma z) d ((scalarFF z).fma h.frm np nc (fpOp z (h.rx a)) (fpOp z (h.rx b)) (fpOp z (h.rx c))) h) s

/-- FADD (R155): xa + xb, rounded. -/
def execFadd (z : Bool) (d a b : Reg) (s : State) : Out := fp2 z (timeAdd z) d a b (fun f m x y => f.add m x y) s

/-- FSUB (R155): xa − xb, rounded. -/
def execFsub (z : Bool) (d a b : Reg) (s : State) : Out := fp2 z (timeAdd z) d a b (fun f m x y => f.sub m x y) s

/-- FMUL (R155): xa × xb, rounded. -/
def execFmul (z : Bool) (d a b : Reg) (s : State) : Out := fp2 z (timeAdd z) d a b (fun f m x y => f.mul m x y) s

/-- FDIV (R155): xa / xb, rounded. -/
def execFdiv (z : Bool) (d a b : Reg) (s : State) : Out := fp2 z (timeDiv z) d a b (fun f m x y => f.div m x y) s

/-- FSQRT (R155). -/
def execFsqrt (z : Bool) (d a : Reg) (s : State) : Out := fp1 z (timeSqrt z) d a (fun f m x => f.sqrt m x) s

/-- FMIN (R96). -/
def execFmin (z : Bool) (d a b : Reg) (s : State) : Out := fp2 z (timeAdd z) d a b (fun f _ x y => f.minmax false x y) s

/-- FMAX (R96). -/
def execFmax (z : Bool) (d a b : Reg) (s : State) : Out := fp2 z (timeAdd z) d a b (fun f _ x y => f.minmax true x y) s

/-- FCVT between the two sizes (R157 sub 0): the source is of the other size. -/
def execFcvtFloat (z : Bool) (d a : Reg) (s : State) : Out :=
  fpIssue z (timeAny 3) [a] d (finish fun h => fpPut (timeAny 3) d ((scalarFF z).put h.frm false ((scalarFF !z).read (fpOp (!z) (h.rx a)))) h) s

/-- A float rounded to a 64-bit integer of a range (R92). -/
def toInt64 (lo hi : Int) (f : FF) (m x : Nat) : Nat × Fl :=
  let (v, fl) := (f.read x).toInt m 0 lo hi
  (wrapNat 64 v, fl)

/-- FCVT to a signed 64-bit integer (R157 sub 1). -/
def execFcvtToInt64 (z : Bool) (d a : Reg) (s : State) : Out :=
  fp1 z (timeAny 3) d a (toInt64 (-((2 ^ 63 : Nat) : Int)) (((2 ^ 63 : Nat) : Int) - 1)) s

/-- FCVT to an unsigned 64-bit integer (R157 sub 2). -/
def execFcvtToUint64 (z : Bool) (d a : Reg) (s : State) : Out := fp1 z (timeAny 3) d a (toInt64 0 (((2 ^ 64 : Nat) : Int) - 1)) s

/-- FCVT from a signed 64-bit integer (R157 sub 3). -/
def execFcvtFromInt64 (z : Bool) (d a : Reg) (s : State) : Out :=
  fpIssue z (timeAny 3) [a] d (finish fun h => fpPut (timeAny 3) d ((scalarFF z).put h.frm false (intVal (h.rx a).toInt 0)) h) s

/-- FCVT from an unsigned 64-bit integer (R157 sub 4). -/
def execFcvtFromUint64 (z : Bool) (d a : Reg) (s : State) : Out :=
  fpIssue z (timeAny 3) [a] d (finish fun h => fpPut (timeAny 3) d ((scalarFF z).put h.frm false (intVal (h.rx a).toNat 0)) h) s

/-- A relation as a result (R158). -/
def fpRel (c : Nat) (f : FF) (x y : Nat) : Nat × Fl :=
  let (p, fl) := f.cmp c x y
  (p.toNat, fl)

/-- FCMP.EQ (R158). -/
def execFcmpEq (z : Bool) (d a b : Reg) (s : State) : Out := fp2 z (timeAny 2) d a b (fun f _ x y => fpRel 0 f x y) s

/-- FCMP.LT (R158). -/
def execFcmpLt (z : Bool) (d a b : Reg) (s : State) : Out := fp2 z (timeAny 2) d a b (fun f _ x y => fpRel 2 f x y) s

/-- FCMP.LE (R158). -/
def execFcmpLe (z : Bool) (d a b : Reg) (s : State) : Out := fp2 z (timeAny 2) d a b (fun f _ x y => fpRel 3 f x y) s

/-- FCLASS (R158): raises nothing. -/
def execFclass (z : Bool) (d a : Reg) (s : State) : Out := fp1 z (timeAny 1) d a (fun f _ x => (f.classify x, 0)) s

/-- FMVX (R155): the bits, an FP32 zero-extended. -/
def execFmvx (z : Bool) (d a : Reg) (s : State) : Out := fp1 z (timeAny 1) d a (fun _ _ x => (x, 0)) s

/-- FMA (R156): a × b + c. -/
def execFma (z : Bool) (d a b c : Reg) (s : State) : Out := fp3 z false false d a b c s

/-- FMS (R156): a × b − c. -/
def execFms (z : Bool) (d a b c : Reg) (s : State) : Out := fp3 z false true d a b c s

/-- FNMA (R156): −(a × b) − c. -/
def execFnma (z : Bool) (d a b c : Reg) (s : State) : Out := fp3 z true true d a b c s

/-- FNMS (R156): −(a × b) + c. -/
def execFnms (z : Bool) (d a b c : Reg) (s : State) : Out := fp3 z true false d a b c s

end Sys2Proof.Machine
end

