-- ==== Sys2Proof/WellFormed.lean ====
section
/-! DEFINITION. Well-formed instructions: the field values of an `Instr` that its encoding admits, beyond what the
types of its fields already say (spec/03_encoding.md R48, R52–R56; the reserved encodings of R57 step 5). An event has
no encoding, so every event is well formed. -/

namespace Sys2Proof
open Machine

/-- A source whose kind tag is not 00 (R105, R117). -/
def Src.notVector : Src → Bool
  | .v _ => false
  | _ => true

/-- A source of kind 01 or 11: the element index of VMVXS and VMVSX (R118). -/
def Src.isIndex : Src → Bool
  | .x _ | .lit _ => true
  | _ => false

/-- The conversion control of R54: modes 5 and 6 are reserved, and so is an EMPTY or reserved target tag. -/
def CvtCtl.wf (c : CvtCtl) : Bool := c.mode.val != 5 && c.mode.val != 6 && tagNamed c.tag

/-- The load fields of R53 for the loads other than VLDB (R195). -/
def LdCtl.wf (c : LdCtl) : Bool := c.pol.val < 3 && tagLoad c.tag

/-- Register `r` lies in the group of `n` registers that starts at `base`. -/
def inGroup (base : VR) (n : Nat) (r : VR) : Bool := base.val ≤ r.val && r.val < base.val + n

/-- Two register groups share no register (R133). -/
def disjoint (a : VR) (n : Nat) (b : VR) (k : Nat) : Bool := a.val + n ≤ b.val || b.val + k ≤ a.val

/-- The well-formedness of an instruction. (DEDUCED, assumption 21) (DEDUCED, assumption 61) -/
def Instr.wf : Instr → Bool
  | .lpset _ len => len.toNat % 8 == 0 && 8 ≤ len.toNat && len.toNat ≤ 512
  | .vqshr _ _ _ _ b => b.notVector
  | .vcvt _ _ _ c => c.wf && tagCvt c.tag
  | .vcvts _ _ _ _ c => c.wf
  | .vplane _ _ _ t => tagPlane t
  | .vslideup _ _ d a n => n.notVector && d != a
  | .vslidedn _ _ _ _ n => n.notVector
  | .vgathr _ _ d a i => d != a && d != i
  | .vcompr _ _ d a => d != a
  | .vexpnd _ _ d a => d != a
  | .vid _ _ _ t => tagNamed t
  | .vsplat _ _ _ b t => b.notVector && tagNamed t
  | .vmvxs _ _ _ i => i.isIndex
  | .vmvsx _ _ _ i => i.isIndex
  | .vld _ _ _ _ c => c.wf
  | .vlds _ _ _ _ _ c => c.wf
  | .vldx _ _ _ _ _ c => c.wf
  | .vldff _ _ _ _ c => c.wf
  | .vldb _ _ _ c => c.pol.val < 3 && tagPlane c.tag
  | .vld2d _ _ _ _ _ _ c => c.wf
  | .vst _ _ _ _ p => p.val < 3
  | .vsts _ _ _ _ _ p => p.val < 3
  | .vstx _ _ _ _ _ p => p.val < 3
  | .mma _ _ c a b _ => c.val % 4 == 0 && b.val % 8 == 0 && disjoint c 4 b 8 && disjoint a 1 b 8 && disjoint a 1 c 4
  | .mmas _ _ _ c a b m _ => c.val % 4 == 0 && b.val % 8 == 0 && disjoint c 4 b 8 && disjoint a 1 b 8
      && disjoint a 1 c 4 && disjoint m 1 b 8 && disjoint m 1 c 4 && a != m
  | .mmasc _ _ c a b s _ => c.val % 4 == 0 && b.val % 8 == 0 && s.val % 2 == 0 && disjoint c 4 b 8 && disjoint a 1 b 8
      && disjoint a 1 c 4 && disjoint s 2 b 8 && disjoint s 2 c 4 && disjoint s 2 a 1
  | .mmaq _ _ c a b _ => c.val % 8 == 0 && b.val % 8 == 0 && disjoint c 8 b 8 && disjoint a 1 b 8 && disjoint a 1 c 8
  | .mqtrsLo _ d b f _ => f.val % 8 == 0 && disjoint d 1 f 8 && disjoint b 1 f 8
  | .mqtrsUp _ d b f _ => f.val % 8 == 0 && disjoint d 1 f 8 && disjoint b 1 f 8
  | .cpy _ src dst _ =>
    match src, dst with
    | .grp v, .mem _ => v.val % 8 == 0
    | .grp v, .win _ => v.val % 8 == 0
    | .grp _, .grp _ _ => false
    | _, .grp v t => v.val % 8 == 0 && tagNamed t
    | _, _ => true
  | .cpym _ _ vb _ t _ => vb.val % 8 == 0 && tagNamed t
  | .gthr _ _ d _ _ t _ => d.val % 8 == 0 && tagNamed t
  | .embag _ _ d _ vi _ => d.val % 8 == 0 && vi.val ≤ 29
  | .wvrun _ d _ _ => d.val % 8 == 0
  | _ => true

end Sys2Proof
end

