-- ==== Sys2Proof/Decode.lean ====
section
/-! DEFINITION. The decoder and, after it, the encoder of Zhevdin 3.2 (spec/03_encoding.md R46–R56, R57 steps 3–5) and of
the walker instructions (spec/13_walker.md R297). A word is a natural number, bit 0 the least significant bit. The
decoder is total: it answers an instruction or a named rejection. Reading a word is cut in two: the fields of its layout,
then the instruction those fields stand for. -/

namespace Sys2Proof
open Machine

/-- Why a word is not an instruction. -/
inductive Reject where
  /-- A reserved major opcode, 32-bit major 0x00 among them (R57 step 3). -/
  | reservedMajor
  /-- A reserved function or sub-field, a non-zero field that must be zero, a kind a field does not accept, or another
  reserved encoding (R57 step 5); `priv` marks majors 0x31 and 0x32, whose privilege check comes first (R57 step 4). -/
  | reservedField (priv : Bool)
  /-- Fewer bytes than the instruction has. -/
  | truncated
deriving DecidableEq, Repr

/-- A named condition on the fields of an encoding. -/
def need (p : Bool) (i : Instr) : Option Instr := if p then some i else none

/-! ## The 32-bit layouts (R47) -/

/-- The major opcode of a 32-bit word, bits [6:1]. -/
def fMaj (w : Nat) : Nat := w / 2 % 64
/-- xd, bits [11:7]. -/
def fXd (w : Nat) : Reg := Fin.ofNat 32 (w / 2 ^ 7)
/-- xa, bits [16:12]. -/
def fXa (w : Nat) : Reg := Fin.ofNat 32 (w / 2 ^ 12)
/-- xb, bits [21:17]. -/
def fXb (w : Nat) : Reg := Fin.ofNat 32 (w / 2 ^ 17)
/-- fn, bits [31:22]. -/
def fFn (w : Nat) : Nat := w / 2 ^ 22 % 1024
/-- imm15, bits [31:17]. -/
def fImm (w : Nat) : BitVec 15 := BitVec.ofNat 15 (w / 2 ^ 17)
/-- off20 or imm20, bits [31:12]. -/
def fImm20 (w : Nat) : BitVec 20 := BitVec.ofNat 20 (w / 2 ^ 12)
/-- The SB offset offhi:offlo (R47). -/
def fOff (w : Nat) : BitVec 15 := BitVec.ofNat 15 ((w / 2 ^ 7 % 32) * 1024 + w / 2 ^ 22 % 1024)

/-- A word of layout SR. -/
def packR (maj fn : Nat) (xb xa xd : Reg) : Nat := maj * 2 + xd.val * 2 ^ 7 + xa.val * 2 ^ 12 + xb.val * 2 ^ 17 + fn * 2 ^ 22
/-- A word of layout SI or SS. -/
def packI (maj : Nat) (imm : BitVec 15) (xa xd : Reg) : Nat := maj * 2 + xd.val * 2 ^ 7 + xa.val * 2 ^ 12 + imm.toNat * 2 ^ 17
/-- A word of layout SB. -/
def packB (maj : Nat) (off : BitVec 15) (xb xa : Reg) : Nat :=
  maj * 2 + off.toNat / 1024 * 2 ^ 7 + xa.val * 2 ^ 12 + xb.val * 2 ^ 17 + off.toNat % 1024 * 2 ^ 22
/-- A word of layout SJ or SU. -/
def packU (maj : Nat) (imm : BitVec 20) (xd : Reg) : Nat := maj * 2 + xd.val * 2 ^ 7 + imm.toNat * 2 ^ 12

/-! ## The 32-bit majors (R48) -/

/-- Major 0x01 (R150). -/
def decAlu (fn : Nat) (d a b : Reg) : Option Instr :=
  match fn with
  | 0 => some (.add d a b) | 1 => some (.sub d a b) | 2 => some (.and d a b) | 3 => some (.or d a b)
  | 4 => some (.xor d a b) | 5 => some (.sll d a b) | 6 => some (.srl d a b) | 7 => some (.sra d a b)
  | 8 => some (.slt d a b) | 9 => some (.sltu d a b) | 10 => some (.min d a b) | 11 => some (.max d a b)
  | 12 => some (.minu d a b) | 13 => some (.maxu d a b) | 14 => some (.mul d a b) | 15 => some (.mulh d a b)
  | 16 => some (.mulhu d a b) | 17 => some (.div d a b) | 18 => some (.divu d a b) | 19 => some (.rem d a b)
  | 20 => some (.remu d a b)
  | 21 => need (b == 0) (.clz d a) | 22 => need (b == 0) (.ctz d a) | 23 => need (b == 0) (.popc d a)
  | _ => none

/-- Major 0x08 (R153): `i` is imm15. -/
def decShi (i : Nat) (d a : Reg) : Option Instr :=
  let n := BitVec.ofNat 6 i
  match i / 64 with
  | 0 => some (.slli d a n) | 1 => some (.srli d a n) | 2 => some (.srai d a n)
  | _ => none

/-- Major 0x0B (R155): fn[3:0] the function, fn[4] the size, fn[7:5] the sub-field, fn[9:8] zero. -/
def decFpu (fn : Nat) (d a b : Reg) : Option Instr :=
  let z := fn / 16 % 2 == 1
  match fn / 32, fn % 16 with
  | 0, 0 => some (.fadd z d a b) | 0, 1 => some (.fsub z d a b) | 0, 2 => some (.fmul z d a b)
  | 0, 3 => some (.fdiv z d a b) | 0, 4 => need (b == 0) (.fsqrt z d a)
  | 0, 5 => some (.fmin z d a b) | 0, 6 => some (.fmax z d a b)
  | 0, 7 => need (b == 0) (.fcvtFloat z d a) | 1, 7 => need (b == 0) (.fcvtToInt64 z d a)
  | 2, 7 => need (b == 0) (.fcvtToUint64 z d a) | 3, 7 => need (b == 0) (.fcvtFromInt64 z d a)
  | 4, 7 => need (b == 0) (.fcvtFromUint64 z d a)
  | 0, 8 => some (.fcmpEq z d a b) | 1, 8 => some (.fcmpLt z d a b) | 2, 8 => some (.fcmpLe z d a b)
  | 0, 9 => need (b == 0) (.fclass z d a) | 0, 10 => need (b == 0) (.fmvx z d a)
  | _, _ => none

/-- Major 0x0C (R156): fn[4:0] the third source, fn[6:5] the function, fn[7] the size, fn[9:8] zero. -/
def decFma (fn : Nat) (d a b : Reg) : Option Instr :=
  let c : Reg := Fin.ofNat 32 fn
  let z := fn / 128 == 1
  match fn / 32 with
  | 0 => some (.fma z d a b c) | 1 => some (.fms z d a b c) | 2 => some (.fnma z d a b c) | 3 => some (.fnms z d a b c)
  | 4 => some (.fma z d a b c) | 5 => some (.fms z d a b c) | 6 => some (.fnma z d a b c) | 7 => some (.fnms z d a b c)
  | _ => none

/-- Major 0x1C (R203): fn[3:0] the operation, fn[4] the size. -/
def decAmo (fn : Nat) (d a b : Reg) : Option Instr :=
  let z := fn / 16 == 1
  if fn / 32 = 0 then
    match fn % 16 with
    | 0 => some (.amoAdd z d a b) | 1 => some (.amoAnd z d a b) | 2 => some (.amoOr z d a b) | 3 => some (.amoXor z d a b)
    | 4 => some (.amoMin z d a b) | 5 => some (.amoMax z d a b) | 6 => some (.amoMinu z d a b)
    | 7 => some (.amoMaxu z d a b) | 8 => some (.amoSwap z d a b) | 9 => some (.cas z d a b)
    | _ => none
  else none

/-- Major 0x1D (R204): fn[2:0] the operation, fn[3] the size, FADD of size 32 only; xd zero. -/
def decRed (fn : Nat) (d a b : Reg) : Option Instr :=
  let z := fn / 8 == 1
  if fn / 16 = 0 ∧ d = 0 then
    match fn % 8 with
    | 0 => some (.redAdd z a b) | 1 => some (.redMin z a b) | 2 => some (.redMax z a b) | 3 => some (.redAnd z a b)
    | 4 => some (.redOr z a b) | 5 => some (.redXor z a b) | 6 => need (!z) (.redFadd a b)
    | _ => none
  else none

/-- Major 0x1E (R206): fn[1:0] the kind, fn[3:2] the scope. -/
def decFence (fn : Nat) (d a b : Reg) : Option Instr :=
  let sc : Fin 4 := Fin.ofNat 4 (fn / 4)
  if fn / 16 = 0 ∧ d = 0 ∧ a = 0 ∧ b = 0 then
    match fn % 4 with
    | 0 => some (.fncSv sc) | 1 => some (.fncVs sc) | 2 => some (.fncVv sc) | _ => some (.fncAa sc)
  else none

/-- Major 0x28 (R273): the xd field is the function; `i` is imm15. -/
def decSys (f : Reg) (i : BitVec 15) (a : Reg) : Option Instr :=
  if a = 0 then
    match f.val with
    | 0 => some (.sysc i) | 1 => some (.brk i)
    | 2 => need (i == 0) .waite | 3 => need (i == 0) .yield | 4 => need (i == 0) .exit
    | 5 => need (decide (i.toNat < 1024)) (.delay (BitVec.ofNat 10 i.toNat))
    | _ => none
  else none

/-- Major 0x29 (R159): imm15[14:13] the operation, imm15[12] zero, imm15[11:0] the CSR number. -/
def decCsr (i : Nat) (d a : Reg) : Option Instr :=
  let n := BitVec.ofNat 12 i
  match i / 4096 with
  | 0 => need (a == 0) (.csrr d n) | 2 => some (.csrw d a n) | 4 => some (.csrs d a n) | 6 => some (.csrc d a n)
  | _ => none

/-- Major 0x2A (R121): xa[3:0] names the mask. -/
def decMaskq (fn : Nat) (d a b : Reg) : Option Instr :=
  let m : MR := Fin.ofNat 16 a.val
  if a.val < 16 ∧ b = 0 then
    match fn with
    | 0 => some (.mpop d m) | 1 => some (.many d m) | 2 => some (.mfirst d m) | _ => none
  else none

/-- Major 0x2B (R275): imm15[14] selects the register or the immediate request. -/
def decSetvl (i : Nat) (d a : Reg) : Option Instr :=
  if i / 16384 = 0 then need (i == 0) (.setvlReg d a) else need (a == 0) (.setvlImm d (BitVec.ofNat 14 i))

/-- Major 0x2C (R276): imm15[6:0] the barrier, [9:7] the operation, [11:10] the scope of BINIT, [14:12] zero. -/
def decBar (i : Nat) (d a : Reg) : Option Instr :=
  let bar : Fin 128 := Fin.ofNat 128 i
  let sc : Fin 4 := Fin.ofNat 4 (i / 1024)
  if i / 4096 = 0 then
    match i / 128 % 8 with
    | 0 => need (d == 0) (.binit a bar sc)
    | 1 => need (sc == 0 && d == 0 && a == 0) (.barv bar) | 2 => need (sc == 0 && d == 0 && a == 0) (.bwait bar)
    | 3 => need (sc == 0 && d == 0 && a == 0) (.barw bar) | 4 => need (sc == 0 && a == 0) (.btest d bar)
    | _ => none
  else none

/-- Major 0x2D (R280): imm15[2:0] the engine, imm15[3] the operation, the rest zero. -/
def decSeq (i : Nat) (d a : Reg) : Option Instr :=
  let n : Fin 8 := Fin.ofNat 8 i
  match i / 8 with
  | 0 => need (a == 0) (.seqrd d n) | 1 => need (d == 0) (.seqwait a n) | _ => none

/-- Major 0x2F (R282): imm15[14:13] the operation, imm15[12] and xd zero. -/
def decLoop (i : Nat) (d a : Reg) : Option Instr :=
  if d = 0 then
    match i / 4096 with
    | 0 => some (.lpset a (BitVec.ofNat 12 i)) | 2 => need (i == 8192 && a == 0) .lprun | _ => none
  else none

/-- Major 0x31 (R355): fn[2:0] the function; `d` is a scalar or a vector register. -/
def decMend (fn : Nat) (d a b : Reg) : Option Instr :=
  match fn with
  | 0 => need (a == 0 && b == 0) (.frznext d)
  | 1 => some (.frzrd d a b) | 2 => some (.frzrdv d a b) | 3 => some (.frzwr d a b) | 4 => some (.frzwrv d a b)
  | 5 => some (.frzgo d a b) | 6 => need (b == 0) (.frzend d a) | 7 => some (.frzbar d a b)
  | _ => none

/-- Major 0x32 (R318, R337). -/
def decPriv (fn : Nat) (d a b : Reg) : Option Instr :=
  match fn with
  | 0 => need (b == 0) (.aspset d a) | 1 => some (.pgmap d a b) | 2 => some (.fencecap d a b) | _ => none

/-- A 32-bit major that is not reserved (R48). -/
def major32 (m : Nat) : Bool := (1 ≤ m && m ≤ 0x0C) || (0x10 ≤ m && m ≤ 0x16) || (0x18 ≤ m && m ≤ 0x32)

/-- The instruction of a 32-bit word, with reserved fields answered none. -/
def raw32 (w : Nat) : Option Instr :=
  let d := fXd w; let a := fXa w; let b := fXb w; let i := fImm w; let fn := fFn w
  match fMaj w with
  | 0x01 => decAlu fn d a b
  | 0x02 => some (.addi d a i) | 0x03 => some (.andi d a i) | 0x04 => some (.ori d a i)
  | 0x05 => some (.xori d a i) | 0x06 => some (.slti d a i) | 0x07 => some (.sltiu d a i)
  | 0x08 => decShi i.toNat d a
  | 0x09 => some (.liu d (fImm20 w)) | 0x0A => some (.addpc d (fImm20 w))
  | 0x0B => decFpu fn d a b | 0x0C => decFma fn d a b
  | 0x10 => some (.lb d a i) | 0x11 => some (.lh d a i) | 0x12 => some (.lw d a i) | 0x13 => some (.ld d a i)
  | 0x14 => some (.lbu d a i) | 0x15 => some (.lhu d a i) | 0x16 => some (.lwu d a i)
  | 0x18 => some (.sb d a i) | 0x19 => some (.sh d a i) | 0x1A => some (.sw d a i) | 0x1B => some (.sd d a i)
  | 0x1C => decAmo fn d a b | 0x1D => decRed fn d a b | 0x1E => decFence fn d a b
  | 0x1F =>
    match fn with
    | 0 => need (d == 0 && b == 0) (.cflush a) | 1 => need (d == 0 && b == 0) (.cinv a) | _ => none
  | 0x20 => some (.beq a b (fOff w)) | 0x21 => some (.bne a b (fOff w)) | 0x22 => some (.blt a b (fOff w))
  | 0x23 => some (.bge a b (fOff w)) | 0x24 => some (.bltu a b (fOff w)) | 0x25 => some (.bgeu a b (fOff w))
  | 0x26 => some (.jal d (fImm20 w)) | 0x27 => some (.jalr d a i)
  | 0x28 => decSys d i a | 0x29 => decCsr i.toNat d a | 0x2A => decMaskq fn d a b | 0x2B => decSetvl i.toNat d a
  | 0x2C => decBar i.toNat d a | 0x2D => decSeq i.toNat d a
  | 0x2E =>
    match fn with
    | 0 => some (.pgreq d a b) | 1 => some (.pghint d a b) | _ => none
  | 0x2F => decLoop i.toNat d a
  | 0x30 =>
    match fn with
    | 0 => need (b == 0) (.farm d a) | 1 => need (b == 0) (.farmwait d a) | _ => none
  | 0x31 => decMend fn d a b | 0x32 => decPriv fn d a b
  | _ => none

/-! ## The long layouts (R49–R56) -/

/-- The fields of a long word (R49), bits [51:24] kept together in `mid` because R53–R56 cut them in other ways. -/
structure LongF where
  top   : Bool
  last  : Bool
  first : Bool
  stall : Fin 16
  s3    : Fin 32
  mid   : BitVec 28
  mreg  : Fin 16
  mkd   : Bool
  vd    : Fin 32
  fn    : Fin 64
  major : Fin 128
deriving DecidableEq, Repr

/-- The fields of a 64-bit word. -/
def unpackLong (w : Nat) : LongF :=
  { top := w / 2 ^ 63 % 2 == 1, last := w / 2 ^ 62 % 2 == 1, first := w / 2 ^ 61 % 2 == 1
    stall := Fin.ofNat 16 (w / 2 ^ 57), s3 := Fin.ofNat 32 (w / 2 ^ 52), mid := BitVec.ofNat 28 (w / 2 ^ 24)
    mreg := Fin.ofNat 16 (w / 2 ^ 20), mkd := w / 2 ^ 19 % 2 == 1, vd := Fin.ofNat 32 (w / 2 ^ 14)
    fn := Fin.ofNat 64 (w / 2 ^ 8), major := Fin.ofNat 128 (w / 2) }

/-- The 64-bit word of some fields. -/
def packLong (f : LongF) : Nat :=
  1 + f.major.val * 2 + f.fn.val * 2 ^ 8 + f.vd.val * 2 ^ 14 + f.mkd.toNat * 2 ^ 19 + f.mreg.val * 2 ^ 20
    + f.mid.toNat * 2 ^ 24 + f.s3.val * 2 ^ 52 + f.stall.val * 2 ^ 57 + f.first.toNat * 2 ^ 61 + f.last.toNat * 2 ^ 62
    + f.top.toNat * 2 ^ 63

/-- The kind tag of source 1, bits [25:24]. -/
def LongF.k1 (f : LongF) : Nat := f.mid.toNat % 4
/-- The payload of source 1, bits [37:26]. -/
def LongF.p1 (f : LongF) : Nat := f.mid.toNat / 4 % 4096
/-- The kind tag of source 2, bits [39:38]. -/
def LongF.k2 (f : LongF) : Nat := f.mid.toNat / 2 ^ 14 % 4
/-- The payload of source 2, bits [51:40]. -/
def LongF.p2 (f : LongF) : Nat := f.mid.toNat / 2 ^ 16
/-- The conversion control, bits [51:38] (R54). -/
def LongF.ctl (f : LongF) : Nat := f.mid.toNat / 2 ^ 14
/-- The stall count and the loop-replay flags. -/
def LongF.hdr (f : LongF) : Hdr := { stall := f.stall, last := f.last, first := f.first }
/-- The element mask: none when the instruction is unmasked; mk = 0 with mreg ≠ 0 is a reserved encoding (R57). -/
def LongF.mask (f : LongF) : Option (Option MR) :=
  if f.mkd then some (some f.mreg) else if f.mreg = 0 then some none else none
/-- mk and mreg must be zero. -/
def LongF.nomask (f : LongF) : Bool := !f.mkd && f.mreg == 0

/-- A register payload, bits [11:5] zero. -/
def regPay (p : Nat) : Option (Fin 32) := if p < 32 then some (Fin.ofNat 32 p) else none
/-- A mask payload, bits [11:4] zero (R50). -/
def maskPay (p : Nat) : Option MR := if p < 16 then some (Fin.ofNat 16 p) else none

/-- A source of any kind (R50). -/
def srcOf (k p : Nat) : Option Src :=
  match k with
  | 0 => (regPay p).map .v
  | 1 => (regPay p).map .x
  | 2 => some (.c (Fin.ofNat 4096 p))
  | _ => some (.lit (BitVec.ofNat 12 p))

/-- Source 1 of kind 00. -/
def LongF.v1 (f : LongF) : Option VR := if f.k1 = 0 then regPay f.p1 else none
/-- Source 2 of kind 00. -/
def LongF.v2 (f : LongF) : Option VR := if f.k2 = 0 then regPay f.p2 else none
/-- Source 1 of kind 01. -/
def LongF.x1 (f : LongF) : Option Reg := if f.k1 = 1 then regPay f.p1 else none
/-- Source 2 of kind 01. -/
def LongF.x2 (f : LongF) : Option Reg := if f.k2 = 1 then regPay f.p2 else none
/-- Source 2 absent: k2 and s2 zero. -/
def LongF.no2 (f : LongF) : Bool := f.k2 == 0 && f.p2 == 0
/-- Source 1 absent: k1 and s1 zero. -/
def LongF.no1 (f : LongF) : Bool := f.k1 == 0 && f.p1 == 0

/-- VARITH, VFMA, VLOGIC and VCMP: a masked instruction of a vector source and a source of any kind. -/
def two (f : LongF) (k : Option MR → VR → Src → Instr) : Option Instr :=
  match f.mask, f.v1, srcOf f.k2 f.p2 with
  | some m, some a, some b => some (k m a b)
  | _, _, _ => none

/-- A masked instruction of one vector source: k2 and s2 zero. -/
def one (f : LongF) (k : Option MR → VR → Instr) : Option Instr :=
  match f.mask, f.v1 with
  | some m, some a => need f.no2 (k m a)
  | _, _ => none

/-- Majors 0x00–0x04, 0x08, 0x0A (R52). -/
def rawArith (f : LongF) : Option Instr :=
  let h := f.hdr; let d := f.vd
  let s3z := f.s3 == 0
  match f.major.val, f.fn.val with
  | 0x00, 0 => if s3z then two f (.vadd h · d · ·) else none
  | 0x00, 1 => if s3z then two f (.vsub h · d · ·) else none
  | 0x00, 2 => if s3z then two f (.vmul h · d · ·) else none
  | 0x00, 3 => if s3z then two f (.vmulh h · d · ·) else none
  | 0x00, 4 => if s3z then two f (.vmin h · d · ·) else none
  | 0x00, 5 => if s3z then two f (.vmax h · d · ·) else none
  | 0x00, 6 => if s3z then one f (.vabs h · d ·) else none
  | 0x00, 7 => if s3z then one f (.vneg h · d ·) else none
  | 0x00, 8 => if s3z then two f (.vdiv h · d · ·) else none
  | 0x00, 9 => if s3z then one f (.vsqrt h · d ·) else none
  | 0x00, 10 => if s3z then two f (.vadds h · d · ·) else none
  | 0x00, 11 => if s3z then two f (.vsubs h · d · ·) else none
  | 0x00, 12 => if s3z then two f (.vqmul h · d · ·) else none
  | 0x00, 13 => if s3z then two f (.vqshr h · d · ·) else none
  | 0x01, 0 => two f (.vfma h · d · · f.s3) | 0x01, 1 => two f (.vfms h · d · · f.s3)
  | 0x01, 2 => two f (.vfnma h · d · · f.s3) | 0x01, 3 => two f (.vfnms h · d · · f.s3)
  | 0x02, 0 => if s3z then two f (.vand h · d · ·) else none
  | 0x02, 1 => if s3z then two f (.vor h · d · ·) else none
  | 0x02, 2 => if s3z then two f (.vxor h · d · ·) else none
  | 0x02, 3 => if s3z then one f (.vnot h · d ·) else none
  | 0x02, 4 => if s3z then two f (.vsll h · d · ·) else none
  | 0x02, 5 => if s3z then two f (.vsrl h · d · ·) else none
  | 0x02, 6 => if s3z then two f (.vsra h · d · ·) else none
  | 0x03, 0 => if s3z then one f (.vrsqe h · d ·) else none
  | 0x03, 1 => if s3z then one f (.vrcpe h · d ·) else none
  | 0x08, 0 => if s3z then one f (.vredsum h · d ·) else none
  | 0x08, 1 => if s3z then one f (.vredmax h · d ·) else none
  | 0x08, 2 => if s3z then one f (.vredmin h · d ·) else none
  | 0x08, 3 => if s3z then one f (.vredc h · d ·) else none
  | 0x0A, 0 => if s3z then one f (.vqnorm h · d ·) else none
  | 0x0B, 0 =>
    match f.mask, f.v1, f.v2 with
    | some m, some a, some b => need s3z (.vdot4 h m d a b)
    | _, _, _ => none
  | _, _ => none

/-- VCMP (R109): vd[3:0] names the destination mask. -/
def rawCmp (f : LongF) : Option Instr :=
  let h := f.hdr
  match maskPay f.vd.val with
  | none => none
  | some d =>
    if f.s3 = 0 then
      match f.fn.val with
      | 0 => two f (.vcmpEq h · d · ·) | 1 => two f (.vcmpNe h · d · ·) | 2 => two f (.vcmpLt h · d · ·)
      | 3 => two f (.vcmpLe h · d · ·) | 4 => two f (.vcmpGt h · d · ·) | 5 => two f (.vcmpGe h · d · ·)
      | _ => none
    else none

/-- VMASK (R110–R112). -/
def rawMask (f : LongF) : Option Instr :=
  let h := f.hdr
  let ma := if f.k1 = 0 then maskPay f.p1 else none
  let mb := if f.k2 = 0 then maskPay f.p2 else none
  if f.s3 = 0 then
    match f.fn.val with
    | 0 => match f.mask, maskPay f.vd.val, ma, mb with
      | some m, some d, some a, some b => some (.mand h m d a b)
      | _, _, _, _ => none
    | 1 => match f.mask, maskPay f.vd.val, ma, mb with
      | some m, some d, some a, some b => some (.mor h m d a b)
      | _, _, _, _ => none
    | 2 => match f.mask, maskPay f.vd.val, ma, mb with
      | some m, some d, some a, some b => some (.mxor h m d a b)
      | _, _, _, _ => none
    | 3 => match f.mask, maskPay f.vd.val, ma with
      | some m, some d, some a => need f.no2 (.mnot h m d a)
      | _, _, _ => none
    | 4 => match f.mask, maskPay f.vd.val with
      | some m, some d => need (f.no1 && f.no2) (.mset h m d)
      | _, _ => none
    | 5 => match f.mask, maskPay f.vd.val, ma with
      | some m, some d, some a => need f.no2 (.mmovMaskToMask h m d a)
      | _, _, _ => none
    | 6 => match f.v1, srcOf f.k2 f.p2 with
      | some a, some b => need (!f.mkd) (.vmerge h f.mreg f.vd a b)
      | _, _ => none
    | 7 => match maskPay f.vd.val, f.v1 with
      | some d, some a => need (f.nomask && f.no2) (.mmovImageToMask h d a)
      | _, _ => none
    | 8 => match ma with
      | some a => need (f.nomask && f.no2) (.mmovMaskToImage h f.vd a)
      | _ => none
    | _ => none
  else none

/-- The conversion control of R54 from bits [51:38]. -/
def ctlOf (c : Nat) : CvtCtl :=
  { sat := c / 8192 == 1, mode := Fin.ofNat 8 (c / 1024), tag := BitVec.ofNat 10 c }

/-- VCVT, VCVTS and VPLANE (R114–R116). -/
def rawCvt (f : LongF) : Option Instr :=
  let h := f.hdr
  match f.v1 with
  | none => none
  | some a =>
    if f.nomask then
      match f.fn.val with
      | 0 => need (f.s3 == 0) (.vcvt h f.vd a (ctlOf f.ctl))
      | 1 => some (.vcvts h f.vd a f.s3 (ctlOf f.ctl))
      | 2 => need (f.s3 == 0 && f.ctl / 1024 == 0) (.vplane h f.vd a (BitVec.ofNat 10 f.ctl))
      | _ => none
    else none

/-- VPERM (R117, R118). -/
def rawPerm (f : LongF) : Option Instr :=
  let h := f.hdr; let d := f.vd
  let tag2 := if f.k2 = 0 ∧ f.p2 < 1024 then some (BitVec.ofNat 10 f.p2) else none
  if f.s3 = 0 then
    match f.fn.val with
    | 0 => two f (.vslideup h · d · ·)
    | 1 => two f (.vslidedn h · d · ·)
    | 2 => match f.mask, f.v1, f.v2 with
      | some m, some a, some i => some (.vgathr h m d a i)
      | _, _, _ => none
    | 3 => match f.v1 with
      | some a => need (f.mkd && f.no2) (.vcompr h f.mreg d a)
      | _ => none
    | 4 => match f.v1 with
      | some a => need (f.mkd && f.no2) (.vexpnd h f.mreg d a)
      | _ => none
    | 5 => match f.mask, tag2 with
      | some m, some t => need f.no1 (.vid h m d t)
      | _, _ => none
    | 6 => match f.mask, srcOf f.k1 f.p1, tag2 with
      | some m, some b, some t => some (.vsplat h m d b t)
      | _, _, _ => none
    | 7 => match f.v1, srcOf f.k2 f.p2 with
      | some a, some i => need f.nomask (.vmvxs h d a i)
      | _, _ => none
    | 8 => match f.x1, srcOf f.k2 f.p2 with
      | some a, some i => need f.nomask (.vmvsx h d a i)
      | _, _ => none
    | _ => none
  else none

/-- VSTRM (R286). -/
def rawStrm (f : LongF) : Option Instr :=
  let h := f.hdr
  if f.k2 = 3 ∧ f.p2 < 4 ∧ f.s3 = 0 then
    let s : Fin 4 := Fin.ofNat 4 f.p2
    match f.fn.val with
    | 0 => match f.v1 with
      | some a => need (f.mkd && f.vd == 0) (.vspush h f.mreg a s)
      | _ => none
    | 1 => need (f.nomask && f.no1) (.vspop h f.vd s)
    | 2 => need (f.nomask && f.no1) (.vscnt h f.vd s)
    | _ => none
  else none

/-! The memory fields of R53. -/

/-- xa, bits [28:24]. -/
def LongF.xa (f : LongF) : Reg := Fin.ofNat 32 f.mid.toNat
/-- ix, bits [33:29]. -/
def LongF.ix (f : LongF) : Fin 32 := Fin.ofNat 32 (f.mid.toNat / 2 ^ 5)
/-- The named tag, bits [43:34]. -/
def LongF.tag (f : LongF) : Tag := BitVec.ofNat 10 (f.mid.toNat / 2 ^ 10)
/-- The cache policy, bits [45:44]. -/
def LongF.pol (f : LongF) : Fin 4 := Fin.ofNat 4 (f.mid.toNat / 2 ^ 20)
/-- rz, bit [46]. -/
def LongF.rz (f : LongF) : Bool := f.mid.toNat / 2 ^ 22 % 2 == 1
/-- rmask, bits [50:47]. -/
def LongF.rmask (f : LongF) : MR := Fin.ofNat 16 (f.mid.toNat / 2 ^ 23)
/-- Bit [51], reserved. -/
def LongF.bit51 (f : LongF) : Bool := f.mid.toNat / 2 ^ 27 == 1

/-- The load control of R53; rz = 0 with rmask ≠ 0 and bit 51 set are reserved encodings. -/
def LongF.ld (f : LongF) : Option LdCtl :=
  if f.bit51 then none
  else if f.rz then some { tag := f.tag, pol := f.pol, rmask := some f.rmask }
  else if f.rmask = 0 then some { tag := f.tag, pol := f.pol, rmask := none }
  else none

/-- A store's or VREDM's fields that must be zero: the tag, rz, rmask and bit 51. -/
def LongF.stOk (f : LongF) : Bool := !f.bit51 && !f.rz && f.rmask == 0 && f.tag == 0

/-- The vector loads, major 0x10 (R194). -/
def rawVld (f : LongF) : Option Instr :=
  let h := f.hdr
  match f.mask, f.ld with
  | some m, some c =>
    match f.fn.val with
    | 0 => need (f.s3 == 0 && f.ix == 0) (.vld h m f.vd f.xa c)
    | 1 => need (f.s3 == 0) (.vlds h m f.vd f.xa f.ix c)
    | 2 => need (f.s3 == 0) (.vldx h m f.vd f.xa f.ix c)
    | 3 => need (f.s3 == 0 && f.ix == 0) (.vldff h m f.vd f.xa c)
    | 4 => need (f.s3 == 0 && f.ix == 0 && f.nomask) (.vldb h f.vd f.xa c)
    | 5 => some (.vld2d h m f.vd f.xa f.ix f.s3 c)
    | _ => none
  | _, _ => none

/-- The vector stores, major 0x11 (R202). -/
def rawVst (f : LongF) : Option Instr :=
  let h := f.hdr
  match f.mask with
  | some m =>
    if f.stOk ∧ f.s3 = 0 then
      match f.fn.val with
      | 0 => need (f.ix == 0) (.vst h m f.vd f.xa f.pol)
      | 1 => some (.vsts h m f.vd f.xa f.ix f.pol)
      | 2 => some (.vstx h m f.vd f.xa f.ix f.pol)
      | _ => none
    else none
  | none => none

/-- The vector reduction updates, major 0x12 (R205). -/
def rawVredm (f : LongF) : Option Instr :=
  let h := f.hdr
  match f.mask with
  | some m =>
    if f.stOk ∧ f.s3 = 0 ∧ f.pol = 0 then
      match f.fn.val with
      | 0 => some (.vredmAdd h m f.vd f.xa f.ix) | 1 => some (.vredmMin h m f.vd f.xa f.ix)
      | 2 => some (.vredmMax h m f.vd f.xa f.ix) | 3 => some (.vredmAnd h m f.vd f.xa f.ix)
      | 4 => some (.vredmOr h m f.vd f.xa f.ix) | 5 => some (.vredmXor h m f.vd f.xa f.ix)
      | 6 => some (.vredmFadd h m f.vd f.xa f.ix)
      | _ => none
    else none
  | none => none

/-- The status barrier of a matrix instruction (R55): s2 payload [11] enables it, s1 payload [11:5] names it. -/
def LongF.matBar (f : LongF) : Option (Option (Fin 128)) :=
  if f.p2 / 2048 = 1 then some (some (Fin.ofNat 128 (f.p1 / 32)))
  else if f.p1 / 32 = 0 then some none
  else none

/-- The matrix majors (R55). -/
def rawMat (f : LongF) : Option Instr :=
  let h := f.hdr; let z := f.fn.val % 2 == 1
  let a : VR := Fin.ofNat 32 f.p1; let b : VR := Fin.ofNat 32 f.p2
  if f.nomask ∧ f.k1 = 0 ∧ f.k2 = 0 ∧ f.p2 / 32 % 64 = 0 then
    match f.matBar with
    | none => none
    | some bar =>
      match f.major.val with
      | 0x18 => need (decide (f.fn.val < 2) && f.s3 == 0) (.mma h z f.vd a b bar)
      | 0x19 => need (decide (f.fn.val < 4)) (.mmas h z (f.fn.val / 2 == 1) f.vd a b f.s3 bar)
      | 0x1A => need (decide (f.fn.val < 2)) (.mmasc h z f.vd a b f.s3 bar)
      | 0x1B => need (decide (f.fn.val < 2) && f.s3 == 0) (.mmaq h z f.vd a b bar)
      | _ => need (decide (f.fn.val < 2) && f.s3 == 0) (if z then .mqtrsUp h f.vd a b bar else .mqtrsLo h f.vd a b bar)
  else none

/-- CPY (R217): fn[1:0] the source kind and fn[3:2] the destination kind. -/
def rawCpy (f : LongF) : Option Instr :=
  let h := f.hdr
  if f.nomask then
    match f.fn.val with
    | 0 => match f.x1, f.x2 with
      | some s, some d => need (f.vd == 0) (.cpy h (.mem s) (.mem d) f.s3)
      | _, _ => none
    | 1 => match f.x1, f.x2 with
      | some s, some d => need (f.vd == 0) (.cpy h (.win s) (.mem d) f.s3)
      | _, _ => none
    | 2 => match f.v1, f.x2 with
      | some s, some d => need (f.vd == s) (.cpy h (.grp s) (.mem d) f.s3)
      | _, _ => none
    | 4 => match f.x1, f.x2 with
      | some s, some d => need (f.vd == 0) (.cpy h (.mem s) (.win d) f.s3)
      | _, _ => none
    | 5 => match f.x1, f.x2 with
      | some s, some d => need (f.vd == 0) (.cpy h (.win s) (.win d) f.s3)
      | _, _ => none
    | 6 => match f.v1, f.x2 with
      | some s, some d => need (f.vd == s) (.cpy h (.grp s) (.win d) f.s3)
      | _, _ => none
    | 8 => match f.x1 with
      | some s => need (f.k2 == 0 && decide (f.p2 < 1024)) (.cpy h (.mem s) (.grp f.vd (BitVec.ofNat 10 f.p2)) f.s3)
      | _ => none
    | 9 => match f.x1 with
      | some s => need (f.k2 == 0 && decide (f.p2 < 1024)) (.cpy h (.win s) (.grp f.vd (BitVec.ofNat 10 f.p2)) f.s3)
      | _ => none
    | _ => none
  else none

/-- The other engine majors (R56, R221, R222). -/
def rawEng (f : LongF) : Option Instr :=
  let h := f.hdr
  match f.major.val with
  | 0x20 => rawCpy f
  | 0x21 => match f.x1 with
    | some s => need (f.nomask && decide (f.fn.val < 2) && f.k2 == 0 && decide (f.p2 < 1024))
        (.cpym h (f.fn.val == 1) f.vd s (BitVec.ofNat 10 f.p2) f.s3)
    | _ => none
  | 0x22 =>
    match f.mask with
    | some m =>
      if f.k1 = 1 ∧ f.k2 = 0 then
        match f.fn.val with
        | 0 => need (f.p2 / 32 % 16 == 0) (.gthr h m f.vd (Fin.ofNat 32 f.p1) (Fin.ofNat 32 f.p2)
            (BitVec.ofNat 10 (f.p2 / 512 * 128 + f.p1 / 32)) f.s3)
        | 1 => need (decide (f.p1 < 32) && decide (f.p2 < 32) && f.vd == 0)
            (.gthrWindow h m (Fin.ofNat 32 f.p1) (Fin.ofNat 32 f.p2) f.s3)
        | _ => none
      else none
    | none => none
  | 0x23 => match f.mask, f.x1, f.v2 with
    | some m, some xa, some vi => need (f.fn == 0) (.embag h m f.vd xa vi f.s3)
    | _, _, _ => none
  | 0x24 => match f.x1 with
    | none => none
    | some xd =>
      if f.nomask ∧ f.vd = 0 then
        match f.fn.val with
        | 0 => need f.no2 (.dzero h xd f.s3)
        | 1 => match f.x2 with
          | some xs => some (.dcopy h xd xs f.s3)
          | none => none
        | _ => none
      else none
  | 0x25 => match f.v1, f.x2 with
    | some v, some xt => need (f.nomask && f.vd == 0 && f.fn == 0) (.send h v xt f.s3)
    | _, _ => none
  | 0x26 => need (f.nomask && f.fn == 0 && f.no1 && f.k2 == 3 && decide (f.p2 < 8)) (.recv h f.vd (Fin.ofNat 8 f.p2) f.s3)
  | 0x27 => match f.mask, f.v1, f.x2 with
    | some m, some v, some xq => need (f.vd == 0 && f.fn == 0) (.tqpush h m v xq f.s3)
    | _, _, _ => none
  | _ => match f.x1 with
    | some xa => need (f.nomask && f.fn == 0 && f.no2) (.wvrun h f.vd xa f.s3)
    | none => none

/-- A long major that is not reserved (R52–R56). -/
def major64 (m : Nat) : Bool :=
  m ≤ 0x0B || (0x10 ≤ m && m ≤ 0x12) || (0x18 ≤ m && m ≤ 0x1C) || (0x20 ≤ m && m ≤ 0x28)

/-- The instruction the fields of a long word stand for, with reserved fields answered none. -/
def rawLong (f : LongF) : Option Instr :=
  if f.top then none
  else
    match f.major.val with
    | 0x04 => rawCmp f | 0x05 => rawMask f | 0x06 => rawCvt f | 0x07 => rawPerm f | 0x09 => rawStrm f
    | 0x10 => rawVld f | 0x11 => rawVst f | 0x12 => rawVredm f
    | 0x18 => rawMat f | 0x19 => rawMat f | 0x1A => rawMat f | 0x1B => rawMat f | 0x1C => rawMat f
    | 0x20 => rawEng f | 0x21 => rawEng f | 0x22 => rawEng f | 0x23 => rawEng f | 0x24 => rawEng f
    | 0x25 => rawEng f | 0x26 => rawEng f | 0x27 => rawEng f | 0x28 => rawEng f
    | _ => rawArith f

/-- A 32-bit hart word (R57 steps 3 and 5). -/
def decode32 (w : Nat) : Except Reject Instr :=
  if major32 (fMaj w) then
    match (raw32 w).filter Instr.wf with
    | some i => .ok i
    | none => .error (.reservedField (fMaj w == 0x31 || fMaj w == 0x32))
  else .error .reservedMajor

/-- A 64-bit hart word (R57 steps 3 and 5). -/
def decode64 (w : Nat) : Except Reject Instr :=
  if major64 (unpackLong w).major.val then
    match (rawLong (unpackLong w)).filter Instr.wf with
    | some i => .ok i
    | none => .error (.reservedField false)
  else .error .reservedMajor

/-- The number little-endian bytes stand for (R3). -/
def leNat : List Byte → Nat
  | [] => 0
  | b :: l => b.toNat + 256 * leNat l

/-- The `n` little-endian bytes of a number (R3). -/
def leBytes : Nat → Nat → List Byte
  | 0, _ => []
  | n + 1, v => BitVec.ofNat 8 v :: leBytes n (v / 256)

/-- The decoder on bytes: bit 0 of the first gives the length (R46). Answers the instruction and its length in bytes. -/
def decodeBytes (l : List Byte) : Except Reject (Instr × Nat) :=
  let n := if (leNat (l.take 1)) % 2 = 1 then 8 else 4
  if l.length < n then .error .truncated
  else if n = 8 then (decode64 (leNat (l.take 8))).map (·, 8)
  else (decode32 (leNat (l.take 4))).map (·, 4)

/-! ## Walker words (R297) -/

/-- A walker instruction as its own type, which the walker executes; `WOp.instr` is the `Instr` it stands for. -/
inductive WOp where
  | ldw (sz : Fin 4) (wd wa : WReg) (i : BitVec 14) | ldix (sz : Fin 4) (wd wa wb : WReg)
  | addw (wd wa wb : WReg) (i : BitVec 14) | subw (wd wa wb : WReg) | shlw (wd wa wb : WReg) (i : BitVec 14)
  | andw (wd wa wb : WReg) | cmpw (c : Fin 6) (wd wa wb : WReg)
  | brwZ (wa : WReg) (i : BitVec 14) | brwNz (wa : WReg) (i : BitVec 14) | loopw (wa : WReg) (i : BitVec 14)
  | emit (sz : Fin 4) (wb wa : WReg) (i : BitVec 14) | emitz (wa wb : WReg) | flush (wa wb : WReg)
  | haccAcc (wd wa wb wc : WReg) | haccRst (wd : WReg) | waitw (wa wb : WReg) | sigw | endw
deriving DecidableEq, Repr

/-- The instruction a walker operation stands for. (Lean's runtime bounds the constructors of one type that compiled code
may build, so this one function is marked for the kernel alone; nothing a step runs calls it.) -/
noncomputable def WOp.instr : WOp → Instr
  | .ldw sz wd wa i => .ldw sz wd wa i | .ldix sz wd wa wb => .ldix sz wd wa wb
  | .addw wd wa wb i => .addw wd wa wb i | .subw wd wa wb => .subw wd wa wb | .shlw wd wa wb i => .shlw wd wa wb i
  | .andw wd wa wb => .andw wd wa wb | .cmpw c wd wa wb => .cmpw c wd wa wb
  | .brwZ wa i => .brwZ wa i | .brwNz wa i => .brwNz wa i | .loopw wa i => .loopw wa i
  | .emit sz wb wa i => .emit sz wb wa i | .emitz wa wb => .emitz wa wb | .flush wa wb => .flush wa wb
  | .haccAcc wd wa wb wc => .haccAcc wd wa wb wc | .haccRst wd => .haccRst wd | .waitw wa wb => .waitw wa wb
  | .sigw => .sigw | .endw => .endw

/-- A named condition on the fields of a walker word. -/
def needW (p : Bool) (o : WOp) : Option WOp := if p then some o else none

/-- A 32-bit walker word: op [3:0], wd [7:4], wa [11:8], wb [15:12], sz [17:16], imm14 [31:18]; a field its op does not
use must be zero. -/
def decodeWOp (w : Nat) : Option WOp :=
  let wd : WReg := Fin.ofNat 16 (w / 2 ^ 4)
  let wa : WReg := Fin.ofNat 16 (w / 2 ^ 8)
  let wb : WReg := Fin.ofNat 16 (w / 2 ^ 12)
  let sz : Fin 4 := Fin.ofNat 4 (w / 2 ^ 16)
  let i : BitVec 14 := BitVec.ofNat 14 (w / 2 ^ 18)
  match w % 16 with
  | 0 => needW (wb == 0) (.ldw sz wd wa i)
  | 1 => needW (i == 0) (.ldix sz wd wa wb)
  | 2 => needW (sz == 0) (.addw wd wa wb i)
  | 3 => needW (sz == 0 && i == 0) (.subw wd wa wb)
  | 4 => needW (sz == 0) (.shlw wd wa wb i)
  | 5 => needW (sz == 0 && i == 0) (.andw wd wa wb)
  | 6 => if i.toNat < 6 then needW (sz == 0) (.cmpw (Fin.ofNat 6 i.toNat) wd wa wb) else none
  | 7 => match sz.val with
    | 0 => needW (wd == 0 && wb == 0) (.brwZ wa i) | 1 => needW (wd == 0 && wb == 0) (.brwNz wa i) | _ => none
  | 8 => needW (wd == 0 && wb == 0 && sz == 0) (.loopw wa i)
  | 9 => needW (wd == 0) (.emit sz wb wa i)
  | 10 => needW (wd == 0 && sz == 0 && i == 0) (.emitz wa wb)
  | 11 => needW (wd == 0 && sz == 0 && i == 0) (.flush wa wb)
  | 12 => match sz.val with
    | 0 => needW (decide (i.toNat < 16)) (.haccAcc wd wa wb (Fin.ofNat 16 i.toNat))
    | 1 => needW (wa == 0 && wb == 0 && i == 0) (.haccRst wd)
    | _ => none
  | 13 => needW (wd == 0 && sz == 0 && i == 0) (.waitw wa wb)
  | 14 => needW (wd == 0 && wa == 0 && wb == 0 && sz == 0 && i == 0) .sigw
  | _ => needW (wd == 0 && wa == 0 && wb == 0 && sz == 0 && i == 0) .endw

/-- The instruction of a walker word. -/
noncomputable def decodeWalker (w : Nat) : Option Instr := (decodeWOp w).map WOp.instr

/-! ## The encoder -/

/-- The encoding of an instruction: a 32-bit hart word, a 64-bit hart word, or a walker word. -/
inductive Enc where
  | w32 (w : Nat)
  | w64 (w : Nat)
  | walk (w : Nat)
deriving DecidableEq, Repr

/-- A walker word from its fields. -/
def packW (op : Nat) (wd wa wb : WReg) (sz : Nat) (i : Nat) : Enc :=
  .walk (op + wd.val * 2 ^ 4 + wa.val * 2 ^ 8 + wb.val * 2 ^ 12 + sz * 2 ^ 16 + i * 2 ^ 18)

/-- The kind tag and payload of a source (R50). -/
def Src.enc : Src → Nat × Nat
  | .v r => (0, r.val) | .x r => (1, r.val) | .c i => (2, i.val) | .lit p => (3, p.toNat)

/-- Bits [51:24] of the common long layout: source 1 then source 2, each a kind and a payload. -/
def mid12 (s1 s2 : Nat × Nat) : BitVec 28 := BitVec.ofNat 28 (s1.1 + s1.2 * 4 + s2.1 * 2 ^ 14 + s2.2 * 2 ^ 16)

/-- Bits [51:24] of the memory layout (R53). -/
def midMem (xa : Reg) (ix : Fin 32) (tag : Tag) (pol : Fin 4) (rm : Option MR) : BitVec 28 :=
  BitVec.ofNat 28 (xa.val + ix.val * 2 ^ 5 + tag.toNat * 2 ^ 10 + pol.val * 2 ^ 20
    + (match rm with | some m => 2 ^ 22 + m.val * 2 ^ 23 | none => 0))

/-- A long word of the common layout. -/
def long (maj : Fin 128) (fn : Nat) (h : Hdr) (m : Option MR) (d : Fin 32) (mid : BitVec 28) (s3 : Fin 32) : Enc :=
  .w64 (packLong { top := false, last := h.last, first := h.first, stall := h.stall, s3 := s3, mid := mid
                   mreg := m.getD 0, mkd := m.isSome, vd := d, fn := Fin.ofNat 64 fn, major := maj })

/-- A long word of a vector source and a source of any kind. -/
def long2 (maj : Fin 128) (fn : Nat) (h : Hdr) (m : Option MR) (d : Fin 32) (a : VR) (b : Src) (s3 : Fin 32 := 0) : Enc :=
  long maj fn h m d (mid12 (0, a.val) b.enc) s3

/-- A long word of one vector source. -/
def long1 (maj : Fin 128) (fn : Nat) (h : Hdr) (m : Option MR) (d : Fin 32) (a : VR) : Enc :=
  long maj fn h m d (mid12 (0, a.val) (0, 0)) 0

/-- A mask number as a 5-bit field. -/
def mfield (m : MR) : Fin 32 := Fin.ofNat 32 m.val

/-- A matrix word (R55). -/
def longMat (maj : Fin 128) (fn : Nat) (h : Hdr) (d a b s3 : Fin 32) (bar : Option (Fin 128)) : Enc :=
  long maj fn h none d
    (mid12 (0, a.val + (match bar with | some n => n.val * 32 | none => 0))
      (0, b.val + (match bar with | some _ => 2048 | none => 0))) s3

/-- A word of layout SR. -/
def encR (maj fn : Nat) (xb xa xd : Reg) : Enc := .w32 (packR maj fn xb xa xd)
/-- A word of layout SI or SS. -/
def encI (maj : Nat) (imm : BitVec 15) (xa xd : Reg) : Enc := .w32 (packI maj imm xa xd)
/-- A word of layout SB. -/
def encB (maj : Nat) (off : BitVec 15) (xb xa : Reg) : Enc := .w32 (packB maj off xb xa)
/-- An imm15 from a number. -/
def im (n : Nat) : BitVec 15 := BitVec.ofNat 15 n

/-- The encoding of an instruction (R48, R52–R56, R297); none for an event. -/
def encode : Instr → Option Enc
  | .add d a b => some (encR 1 0 b a d) | .sub d a b => some (encR 1 1 b a d) | .and d a b => some (encR 1 2 b a d)
  | .or d a b => some (encR 1 3 b a d) | .xor d a b => some (encR 1 4 b a d) | .sll d a b => some (encR 1 5 b a d)
  | .srl d a b => some (encR 1 6 b a d) | .sra d a b => some (encR 1 7 b a d) | .slt d a b => some (encR 1 8 b a d)
  | .sltu d a b => some (encR 1 9 b a d) | .min d a b => some (encR 1 10 b a d) | .max d a b => some (encR 1 11 b a d)
  | .minu d a b => some (encR 1 12 b a d) | .maxu d a b => some (encR 1 13 b a d) | .mul d a b => some (encR 1 14 b a d)
  | .mulh d a b => some (encR 1 15 b a d) | .mulhu d a b => some (encR 1 16 b a d) | .div d a b => some (encR 1 17 b a d)
  | .divu d a b => some (encR 1 18 b a d) | .rem d a b => some (encR 1 19 b a d) | .remu d a b => some (encR 1 20 b a d)
  | .clz d a => some (encR 1 21 0 a d) | .ctz d a => some (encR 1 22 0 a d) | .popc d a => some (encR 1 23 0 a d)
  | .addi d a i => some (encI 2 i a d) | .andi d a i => some (encI 3 i a d) | .ori d a i => some (encI 4 i a d)
  | .xori d a i => some (encI 5 i a d) | .slti d a i => some (encI 6 i a d) | .sltiu d a i => some (encI 7 i a d)
  | .slli d a n => some (encI 8 (im n.toNat) a d) | .srli d a n => some (encI 8 (im (64 + n.toNat)) a d)
  | .srai d a n => some (encI 8 (im (128 + n.toNat)) a d)
  | .liu d i => some (.w32 (packU 9 i d)) | .addpc d i => some (.w32 (packU 10 i d))
  | .fadd z d a b => some (encR 11 (z.toNat * 16) b a d) | .fsub z d a b => some (encR 11 (1 + z.toNat * 16) b a d)
  | .fmul z d a b => some (encR 11 (2 + z.toNat * 16) b a d) | .fdiv z d a b => some (encR 11 (3 + z.toNat * 16) b a d)
  | .fsqrt z d a => some (encR 11 (4 + z.toNat * 16) 0 a d) | .fmin z d a b => some (encR 11 (5 + z.toNat * 16) b a d)
  | .fmax z d a b => some (encR 11 (6 + z.toNat * 16) b a d)
  | .fcvtFloat z d a => some (encR 11 (7 + z.toNat * 16) 0 a d)
  | .fcvtToInt64 z d a => some (encR 11 (39 + z.toNat * 16) 0 a d)
  | .fcvtToUint64 z d a => some (encR 11 (71 + z.toNat * 16) 0 a d)
  | .fcvtFromInt64 z d a => some (encR 11 (103 + z.toNat * 16) 0 a d)
  | .fcvtFromUint64 z d a => some (encR 11 (135 + z.toNat * 16) 0 a d)
  | .fcmpEq z d a b => some (encR 11 (8 + z.toNat * 16) b a d) | .fcmpLt z d a b => some (encR 11 (40 + z.toNat * 16) b a d)
  | .fcmpLe z d a b => some (encR 11 (72 + z.toNat * 16) b a d)
  | .fclass z d a => some (encR 11 (9 + z.toNat * 16) 0 a d) | .fmvx z d a => some (encR 11 (10 + z.toNat * 16) 0 a d)
  | .fma z d a b c => some (encR 12 (c.val + z.toNat * 128) b a d)
  | .fms z d a b c => some (encR 12 (c.val + 32 + z.toNat * 128) b a d)
  | .fnma z d a b c => some (encR 12 (c.val + 64 + z.toNat * 128) b a d)
  | .fnms z d a b c => some (encR 12 (c.val + 96 + z.toNat * 128) b a d)
  | .lb d a i => some (encI 0x10 i a d) | .lh d a i => some (encI 0x11 i a d) | .lw d a i => some (encI 0x12 i a d)
  | .ld d a i => some (encI 0x13 i a d) | .lbu d a i => some (encI 0x14 i a d) | .lhu d a i => some (encI 0x15 i a d)
  | .lwu d a i => some (encI 0x16 i a d)
  | .sb s a i => some (encI 0x18 i a s) | .sh s a i => some (encI 0x19 i a s) | .sw s a i => some (encI 0x1A i a s)
  | .sd s a i => some (encI 0x1B i a s)
  | .amoAdd z d a b => some (encR 0x1C (z.toNat * 16) b a d) | .amoAnd z d a b => some (encR 0x1C (1 + z.toNat * 16) b a d)
  | .amoOr z d a b => some (encR 0x1C (2 + z.toNat * 16) b a d) | .amoXor z d a b => some (encR 0x1C (3 + z.toNat * 16) b a d)
  | .amoMin z d a b => some (encR 0x1C (4 + z.toNat * 16) b a d) | .amoMax z d a b => some (encR 0x1C (5 + z.toNat * 16) b a d)
  | .amoMinu z d a b => some (encR 0x1C (6 + z.toNat * 16) b a d) | .amoMaxu z d a b => some (encR 0x1C (7 + z.toNat * 16) b a d)
  | .amoSwap z d a b => some (encR 0x1C (8 + z.toNat * 16) b a d) | .cas z d a b => some (encR 0x1C (9 + z.toNat * 16) b a d)
  | .redAdd z a b => some (encR 0x1D (z.toNat * 8) b a 0) | .redMin z a b => some (encR 0x1D (1 + z.toNat * 8) b a 0)
  | .redMax z a b => some (encR 0x1D (2 + z.toNat * 8) b a 0) | .redAnd z a b => some (encR 0x1D (3 + z.toNat * 8) b a 0)
  | .redOr z a b => some (encR 0x1D (4 + z.toNat * 8) b a 0) | .redXor z a b => some (encR 0x1D (5 + z.toNat * 8) b a 0)
  | .redFadd a b => some (encR 0x1D 6 b a 0)
  | .fncSv sc => some (encR 0x1E (sc.val * 4) 0 0 0) | .fncVs sc => some (encR 0x1E (1 + sc.val * 4) 0 0 0)
  | .fncVv sc => some (encR 0x1E (2 + sc.val * 4) 0 0 0) | .fncAa sc => some (encR 0x1E (3 + sc.val * 4) 0 0 0)
  | .cflush a => some (encR 0x1F 0 0 a 0) | .cinv a => some (encR 0x1F 1 0 a 0)
  | .beq a b o => some (encB 0x20 o b a) | .bne a b o => some (encB 0x21 o b a) | .blt a b o => some (encB 0x22 o b a)
  | .bge a b o => some (encB 0x23 o b a) | .bltu a b o => some (encB 0x24 o b a) | .bgeu a b o => some (encB 0x25 o b a)
  | .jal d o => some (.w32 (packU 0x26 o d)) | .jalr d a i => some (encI 0x27 i a d)
  | .sysc c => some (encI 0x28 c 0 0) | .brk c => some (encI 0x28 c 0 1) | .waite => some (encI 0x28 0 0 2)
  | .yield => some (encI 0x28 0 0 3) | .exit => some (encI 0x28 0 0 4) | .delay n => some (encI 0x28 (im n.toNat) 0 5)
  | .csrr d n => some (encI 0x29 (im n.toNat) 0 d) | .csrw d a n => some (encI 0x29 (im (8192 + n.toNat)) a d)
  | .csrs d a n => some (encI 0x29 (im (16384 + n.toNat)) a d) | .csrc d a n => some (encI 0x29 (im (24576 + n.toNat)) a d)
  | .mpop d m => some (encR 0x2A 0 0 (mfield m) d) | .many d m => some (encR 0x2A 1 0 (mfield m) d)
  | .mfirst d m => some (encR 0x2A 2 0 (mfield m) d)
  | .setvlReg d a => some (encI 0x2B 0 a d) | .setvlImm d n => some (encI 0x2B (im (16384 + n.toNat)) 0 d)
  | .binit a b sc => some (encI 0x2C (im (b.val + sc.val * 1024)) a 0) | .barv b => some (encI 0x2C (im (128 + b.val)) 0 0)
  | .bwait b => some (encI 0x2C (im (256 + b.val)) 0 0) | .barw b => some (encI 0x2C (im (384 + b.val)) 0 0)
  | .btest d b => some (encI 0x2C (im (512 + b.val)) 0 d)
  | .seqrd d n => some (encI 0x2D (im n.val) 0 d) | .seqwait a n => some (encI 0x2D (im (8 + n.val)) a 0)
  | .pgreq d a b => some (encR 0x2E 0 b a d) | .pghint d a b => some (encR 0x2E 1 b a d)
  | .lpset a n => some (encI 0x2F (im n.toNat) a 0) | .lprun => some (encI 0x2F 8192 0 0)
  | .farm d a => some (encR 0x30 0 0 a d) | .farmwait d a => some (encR 0x30 1 0 a d)
  | .frznext d => some (encR 0x31 0 0 0 d) | .frzrd d a b => some (encR 0x31 1 b a d)
  | .frzrdv d a b => some (encR 0x31 2 b a d) | .frzwr d a b => some (encR 0x31 3 b a d)
  | .frzwrv d a b => some (encR 0x31 4 b a d) | .frzgo d a b => some (encR 0x31 5 b a d)
  | .frzend d a => some (encR 0x31 6 0 a d) | .frzbar d a b => some (encR 0x31 7 b a d)
  | .aspset d a => some (encR 0x32 0 0 a d) | .pgmap d a b => some (encR 0x32 1 b a d)
  | .fencecap d a b => some (encR 0x32 2 b a d)
  | .vadd h m d a b => some (long2 0 0 h m d a b) | .vsub h m d a b => some (long2 0 1 h m d a b)
  | .vmul h m d a b => some (long2 0 2 h m d a b) | .vmulh h m d a b => some (long2 0 3 h m d a b)
  | .vmin h m d a b => some (long2 0 4 h m d a b) | .vmax h m d a b => some (long2 0 5 h m d a b)
  | .vabs h m d a => some (long1 0 6 h m d a) | .vneg h m d a => some (long1 0 7 h m d a)
  | .vdiv h m d a b => some (long2 0 8 h m d a b) | .vsqrt h m d a => some (long1 0 9 h m d a)
  | .vadds h m d a b => some (long2 0 10 h m d a b) | .vsubs h m d a b => some (long2 0 11 h m d a b)
  | .vqmul h m d a b => some (long2 0 12 h m d a b) | .vqshr h m d a b => some (long2 0 13 h m d a b)
  | .vfma h m d a b c => some (long2 1 0 h m d a b c) | .vfms h m d a b c => some (long2 1 1 h m d a b c)
  | .vfnma h m d a b c => some (long2 1 2 h m d a b c) | .vfnms h m d a b c => some (long2 1 3 h m d a b c)
  | .vand h m d a b => some (long2 2 0 h m d a b) | .vor h m d a b => some (long2 2 1 h m d a b)
  | .vxor h m d a b => some (long2 2 2 h m d a b) | .vnot h m d a => some (long1 2 3 h m d a)
  | .vsll h m d a b => some (long2 2 4 h m d a b) | .vsrl h m d a b => some (long2 2 5 h m d a b)
  | .vsra h m d a b => some (long2 2 6 h m d a b)
  | .vrsqe h m d a => some (long1 3 0 h m d a) | .vrcpe h m d a => some (long1 3 1 h m d a)
  | .vcmpEq h m d a b => some (long2 4 0 h m (mfield d) a b) | .vcmpNe h m d a b => some (long2 4 1 h m (mfield d) a b)
  | .vcmpLt h m d a b => some (long2 4 2 h m (mfield d) a b) | .vcmpLe h m d a b => some (long2 4 3 h m (mfield d) a b)
  | .vcmpGt h m d a b => some (long2 4 4 h m (mfield d) a b) | .vcmpGe h m d a b => some (long2 4 5 h m (mfield d) a b)
  | .mand h m d a b => some (long 5 0 h m (mfield d) (mid12 (0, a.val) (0, b.val)) 0)
  | .mor h m d a b => some (long 5 1 h m (mfield d) (mid12 (0, a.val) (0, b.val)) 0)
  | .mxor h m d a b => some (long 5 2 h m (mfield d) (mid12 (0, a.val) (0, b.val)) 0)
  | .mnot h m d a => some (long 5 3 h m (mfield d) (mid12 (0, a.val) (0, 0)) 0)
  | .mset h m d => some (long 5 4 h m (mfield d) 0 0)
  | .mmovMaskToMask h m d a => some (long 5 5 h m (mfield d) (mid12 (0, a.val) (0, 0)) 0)
  | .vmerge h sel d a b =>
    some (.w64 (packLong { top := false, last := h.last, first := h.first, stall := h.stall, s3 := 0
                           mid := mid12 (0, a.val) b.enc, mreg := sel, mkd := false, vd := d, fn := 6, major := 5 }))
  | .mmovImageToMask h d a => some (long1 5 7 h none (mfield d) a)
  | .mmovMaskToImage h d a => some (long 5 8 h none d (mid12 (0, a.val) (0, 0)) 0)
  | .vcvt h d a c => some (long 6 0 h none d
      (BitVec.ofNat 28 (a.val * 4 + (c.tag.toNat + c.mode.val * 1024 + c.sat.toNat * 8192) * 2 ^ 14)) 0)
  | .vcvts h d a s c => some (long 6 1 h none d
      (BitVec.ofNat 28 (a.val * 4 + (c.tag.toNat + c.mode.val * 1024 + c.sat.toNat * 8192) * 2 ^ 14)) s)
  | .vplane h d a t => some (long 6 2 h none d (BitVec.ofNat 28 (a.val * 4 + t.toNat * 2 ^ 14)) 0)
  | .vslideup h m d a n => some (long2 7 0 h m d a n) | .vslidedn h m d a n => some (long2 7 1 h m d a n)
  | .vgathr h m d a i => some (long2 7 2 h m d a (.v i))
  | .vcompr h m d a => some (long1 7 3 h (some m) d a) | .vexpnd h m d a => some (long1 7 4 h (some m) d a)
  | .vid h m d t => some (long 7 5 h m d (mid12 (0, 0) (0, t.toNat)) 0)
  | .vsplat h m d b t => some (long 7 6 h m d (mid12 b.enc (0, t.toNat)) 0)
  | .vmvxs h d a i => some (long2 7 7 h none d a i)
  | .vmvsx h d a i => some (long 7 8 h none d (mid12 (1, a.val) i.enc) 0)
  | .vredsum h m d a => some (long1 8 0 h m d a) | .vredmax h m d a => some (long1 8 1 h m d a)
  | .vredmin h m d a => some (long1 8 2 h m d a) | .vredc h m d a => some (long1 8 3 h m d a)
  | .vspush h m a s => some (long 9 0 h (some m) 0 (mid12 (0, a.val) (3, s.val)) 0)
  | .vspop h d s => some (long 9 1 h none d (mid12 (0, 0) (3, s.val)) 0)
  | .vscnt h d s => some (long 9 2 h none d (mid12 (0, 0) (3, s.val)) 0)
  | .vqnorm h m d a => some (long1 0x0A 0 h m d a) | .vdot4 h m d a b => some (long2 0x0B 0 h m d a (.v b))
  | .vld h m d xa c => some (long 0x10 0 h m d (midMem xa 0 c.tag c.pol c.rmask) 0)
  | .vlds h m d xa ix c => some (long 0x10 1 h m d (midMem xa ix c.tag c.pol c.rmask) 0)
  | .vldx h m d xa vi c => some (long 0x10 2 h m d (midMem xa vi c.tag c.pol c.rmask) 0)
  | .vldff h m d xa c => some (long 0x10 3 h m d (midMem xa 0 c.tag c.pol c.rmask) 0)
  | .vldb h d xa c => some (long 0x10 4 h none d (midMem xa 0 c.tag c.pol c.rmask) 0)
  | .vld2d h m d xa ix xc c => some (long 0x10 5 h m d (midMem xa ix c.tag c.pol c.rmask) xc)
  | .vst h m s xa p => some (long 0x11 0 h m s (midMem xa 0 0 p none) 0)
  | .vsts h m s xa ix p => some (long 0x11 1 h m s (midMem xa ix 0 p none) 0)
  | .vstx h m s xa vi p => some (long 0x11 2 h m s (midMem xa vi 0 p none) 0)
  | .vredmAdd h m s xa vi => some (long 0x12 0 h m s (midMem xa vi 0 0 none) 0)
  | .vredmMin h m s xa vi => some (long 0x12 1 h m s (midMem xa vi 0 0 none) 0)
  | .vredmMax h m s xa vi => some (long 0x12 2 h m s (midMem xa vi 0 0 none) 0)
  | .vredmAnd h m s xa vi => some (long 0x12 3 h m s (midMem xa vi 0 0 none) 0)
  | .vredmOr h m s xa vi => some (long 0x12 4 h m s (midMem xa vi 0 0 none) 0)
  | .vredmXor h m s xa vi => some (long 0x12 5 h m s (midMem xa vi 0 0 none) 0)
  | .vredmFadd h m s xa vi => some (long 0x12 6 h m s (midMem xa vi 0 0 none) 0)
  | .mma h z c a b bar => some (longMat 0x18 z.toNat h c a b 0 bar)
  | .mmas h z g c a b m bar => some (longMat 0x19 (z.toNat + g.toNat * 2) h c a b m bar)
  | .mmasc h z c a b s bar => some (longMat 0x1A z.toNat h c a b s bar)
  | .mmaq h z c a b bar => some (longMat 0x1B z.toNat h c a b 0 bar)
  | .mqtrsLo h d b f bar => some (longMat 0x1C 0 h d b f 0 bar)
  | .mqtrsUp h d b f bar => some (longMat 0x1C 1 h d b f 0 bar)
  | .cpy h src dst xc =>
    match src, dst with
    | .mem s, .mem d => some (long 0x20 0 h none 0 (mid12 (1, s.val) (1, d.val)) xc)
    | .win s, .mem d => some (long 0x20 1 h none 0 (mid12 (1, s.val) (1, d.val)) xc)
    | .grp v, .mem d => some (long 0x20 2 h none v (mid12 (0, v.val) (1, d.val)) xc)
    | .mem s, .win d => some (long 0x20 4 h none 0 (mid12 (1, s.val) (1, d.val)) xc)
    | .win s, .win d => some (long 0x20 5 h none 0 (mid12 (1, s.val) (1, d.val)) xc)
    | .grp v, .win d => some (long 0x20 6 h none v (mid12 (0, v.val) (1, d.val)) xc)
    | .mem s, .grp v t => some (long 0x20 8 h none v (mid12 (1, s.val) (0, t.toNat)) xc)
    | .win s, .grp v t => some (long 0x20 9 h none v (mid12 (1, s.val) (0, t.toNat)) xc)
    | .grp _, .grp _ _ => none
  | .cpym h w vb xa t xc => some (long 0x21 w.toNat h none vb (mid12 (1, xa.val) (0, t.toNat)) xc)
  | .gthr h m d xa vi t xc => some (long 0x22 0 h m d
      (mid12 (1, xa.val + t.toNat % 128 * 32) (0, vi.val + t.toNat / 128 * 512)) xc)
  | .gthrWindow h m xa vi xc => some (long 0x22 1 h m 0 (mid12 (1, xa.val) (0, vi.val)) xc)
  | .embag h m d xa vi xc => some (long 0x23 0 h m d (mid12 (1, xa.val) (0, vi.val)) xc)
  | .dzero h xd xc => some (long 0x24 0 h none 0 (mid12 (1, xd.val) (0, 0)) xc)
  | .dcopy h xd xs xc => some (long 0x24 1 h none 0 (mid12 (1, xd.val) (1, xs.val)) xc)
  | .send h v xt xh => some (long 0x25 0 h none 0 (mid12 (0, v.val) (1, xt.val)) xh)
  | .recv h d s xh => some (long 0x26 0 h none d (mid12 (0, 0) (3, s.val)) xh)
  | .tqpush h m v xq xc => some (long 0x27 0 h m 0 (mid12 (0, v.val) (1, xq.val)) xc)
  | .wvrun h d xa xc => some (long 0x28 0 h none d (mid12 (1, xa.val) (0, 0)) xc)
  | .ldw sz wd wa i => some (packW 0 wd wa 0 sz.val i.toNat) | .ldix sz wd wa wb => some (packW 1 wd wa wb sz.val 0)
  | .addw wd wa wb i => some (packW 2 wd wa wb 0 i.toNat) | .subw wd wa wb => some (packW 3 wd wa wb 0 0)
  | .shlw wd wa wb i => some (packW 4 wd wa wb 0 i.toNat) | .andw wd wa wb => some (packW 5 wd wa wb 0 0)
  | .cmpw c wd wa wb => some (packW 6 wd wa wb 0 c.val)
  | .brwZ wa i => some (packW 7 0 wa 0 0 i.toNat) | .brwNz wa i => some (packW 7 0 wa 0 1 i.toNat)
  | .loopw wa i => some (packW 8 0 wa 0 0 i.toNat) | .emit sz wb wa i => some (packW 9 0 wa wb sz.val i.toNat)
  | .emitz wa wb => some (packW 10 0 wa wb 0 0) | .flush wa wb => some (packW 11 0 wa wb 0 0)
  | .haccAcc wd wa wb wc => some (packW 12 wd wa wb 0 wc.val) | .haccRst wd => some (packW 12 wd 0 0 1 0)
  | .waitw wa wb => some (packW 13 0 wa wb 0 0) | .sigw => some (packW 14 0 0 0 0 0) | .endw => some (packW 15 0 0 0 0 0)
  | _ => none

/-- The decoder that belongs to an encoding. -/
noncomputable def decodeEnc : Enc → Option Instr
  | .w32 w => (decode32 w).toOption
  | .w64 w => (decode64 w).toOption
  | .walk w => decodeWalker w

/-- The instruction the decoder reads from a table word (the bits above `nbits` are zero): a hart word where bit 0 and
`nbits` name its length and the hart decoder accepts it, else a walker word. A 32-bit row with bit 0 set is a walker row
first: every long row of the table has no bits of its own. (DESIGN CHOICE, assumption 15) -/
noncomputable def decodeTableWord (nbits w : Nat) : Option Instr :=
  let v := w % 2 ^ nbits
  if nbits ≤ 32 then
    if v % 2 = 0 then
      match decode32 v with
      | .ok i => some i
      | .error _ => decodeWalker v
    else
      match decodeWalker v with
      | some i => some i
      | none => (decode64 v).toOption
  else if v % 2 = 1 then (decode64 v).toOption
  else (decode32 v).toOption

/-- An event of the module: a row of the opcode table with no words. -/
def Instr.isEvent (i : Instr) : Bool := (encode i).isNone && i.wf

end Sys2Proof
end

