-- ==== Sys2Proof/Machine/Torus.lean ====
section
/-! DEFINITION. SEND and RECV, and the delivery of torus messages (spec/10_engine_ops.md R230–R232). The sending port, the hub's
waiting messages and the discard counter are `State.torus`. -/

namespace Sys2Proof.Machine

/-- SEND (R230): a tag other than EMPTY; the message captures vl, the tag and the slots, and enters the sending port. (DEDUCED, assumption 37) -/
def execSend (hd : Hdr) (vs : VR) (xt xh : Reg) (s : State) : Out :=
  issue { cls := 32, hdr := some hd, xr := [xt, xh], vr := opRegs (s.me.fmt vs) vs, acc := some true } noIll (fun s => s.me.okSrc (· != .empty) vs)
    (withRoom fun s =>
      let h := s.me
      let v := h.srcV false vs
      let w := h.srcV false (vplus vs 1)
      let m : Msg := {
        target := h.rx xt, header := h.rx xh, tag := v.tag, n := h.vl, lo := tabulate h.vl v.slot
        hi := if h.srcRegs (.v vs) = [vs] then [] else tabulate h.vl w.slot
        srcMod := s.torus.own, srcCtx := h.ctx, srcHart := s.cur, ord := s.nextId }
      let s := startOp 4 none (.send m false) s
      finishL hd id (portSends s.cur s.me.ops s)) s

/-- RECV (R231): a message in the slot is taken at once; otherwise the operation waits on the slot, one to a slot. -/
def execRecv (hd : Hdr) (d : VR) (slot : Fin 8) (xh : Reg) (s : State) : Out :=
  issue { cls := 32, hdr := some hd, xw := [xh], vw := if d.val % 2 = 0 then [d, vplus d 1] else [d] } noIll anyFmt
    (withRoom fun s =>
      let h := s.me
      if h.ops.any fun o => (match o.kind with
        | .recv _ k _ => k == slot
        | _ => false) then waitOn 14 true s
      else
        match tget h.mail slot.val with
        | some m =>
          match recvCause h d m with
          | some c => stop c s
          | none =>
            let s := startOp 5 none (.recv d slot xh) s
            match s.me.ops.getLast? with
            | some o => finishL hd id (giveRecv s s.cur o d slot.val xh m)
            | none => finishL hd id s
        | none => finishL hd id (startOp 5 none (.recv d slot xh) s)) s

/-! ## Delivery (R232) -/

/-- Where a message goes: a hart in residence, a wait for its crew, or nowhere. -/
inductive Target where
  | hart (uid : Nat)
  | wait
  | none
deriving DecidableEq, Repr

/-- The context that accepts a message: the one whose acceptance list holds the sender's pair (R232, R332). -/
def acceptor (s : State) (m : Msg) : Option Nat :=
  (s.ctxs.find? fun p => !p.2.contained && p.2.acceptList.contains (m.srcMod, m.srcCtx)).map (·.1)

/-- A hart is the one a target word names within a context (R232, R235, R248). -/
def named (s : State) (c : Nat) (m : Msg) (h : Hart) : Bool :=
  let w := m.target.toNat
  h.ctx == c && h.farm == bits w 63 32 && h.role != .mender && (s.crew h.crew).number == bits w 31 22 && h.rank == bits w 21 18
    && h.active

/-- The target of a message: its farm still runs; its crew is resident, is saved or has not started, or is gone. (DEDUCED, assumption 38) -/
def msgTarget (s : State) (m : Msg) : Target :=
  let w := m.target.toNat
  match acceptor s m with
  | none => .none
  | some c =>
    match s.farm? c (bits w 63 32) with
    | none => .none
    | some f =>
      if f.code == .done || f.code == .contained then .none
      else match s.harts.find? fun p => named s c m p.2 with
      | some (u, h) => if h.place.isSome then .hart u else .wait
      | none =>
        if s.crews.any fun p => p.2.ctx == c && p.2.farm == bits w 63 32 && p.2.number == bits w 31 22 && !p.2.started && bits w 21 18 < p.2.size
        then .wait else .none

/-- A message removed from the sending port or the hub. -/
def Torus.take (t : Torus) (m : Msg) : Torus := { t with held := t.held.erase m, waiting := t.waiting.erase m }

/-- A message delivered to a hart's waiting RECV or empty slot; none when the slot is full. -/
def deliver (s : State) (uid : Nat) (m : Msg) : Option State :=
  let h := s.hart uid
  match tget h.mail m.slot with
  | some _ => none
  | none =>
    let s := { s with torus := s.torus.take m }
    match h.ops.find? fun o => (match o.kind with
        | .recv _ k _ => k.val == m.slot
        | _ => false) with
    | some o =>
      match o.kind with
      | .recv d _ xh => some (giveRecv s uid o d m.slot xh m)
      | _ => none
    | none => some (s.modHart uid fun h => { h with mail := tput h.mail m.slot m, event := true })

/-- An earlier message of the same hart to the same mailbox slot, of one module, is still on its way (R232). -/
def overtakes (l : List Msg) (m : Msg) : Bool :=
  l.any fun q => q.srcMod == m.srcMod && q.srcHart == m.srcHart && q.srcCtx == m.srcCtx && q.target == m.target
    && q.ord < m.ord

/-- MESSAGE_ARRIVAL (R232): the `k`-th of the messages in the ports and at the hub reaches this module. -/
def execMessageArrival (k : Nat) (s : State) : Out :=
  let all := s.torus.held ++ s.torus.waiting
  match all[k]? with
  | none => .refused .notEnabled
  | some m =>
    if m.module_ != s.torus.own || overtakes all m then .refused .notEnabled
    else match msgTarget s m with
    | .none => .next { s with torus := { (s.torus.take m) with discards := s.torus.discards + 1 } }
    | .wait =>
      if s.torus.held.contains m then .next { s with torus := { s.torus with held := s.torus.held.erase m, waiting := s.torus.waiting ++ [m] } }
      else .refused .notEnabled
    | .hart u =>
      match deliver s u m with
      | some s => .next s
      | none => .refused .notEnabled

/-- A torus port is up, with 8 lanes or degraded (R414). -/
def portUp (s : State) (p : Nat) : Bool :=
  let st := ((tget s.torus.ports p).map (·.state)).getD 0
  st == 1 || st == 2

/-- MESSAGE_ACCEPTED (R211, R232): a hart's first SEND in the port completes: its message was accepted or discarded here, or is one
for another module, which has taken it through its port; it waits while the port trains (R382). -/
def execMessageAccepted (hart : Nat) (s : State) : Out :=
  match headOp (s.hart hart) 4 with
  | some o =>
    match o.kind with
    | .send m true =>
      let here : Bool := m.module_ == s.torus.own
      if (s.torus.held.contains m || s.torus.waiting.contains m) && (here || !portUp s m.port) then .refused .notEnabled
      else .next (completeOp { s with torus := s.torus.take m } hart o)
    | _ => .refused .notEnabled
  | none => .refused .notEnabled

end Sys2Proof.Machine
end

