-- ==== Sys2Proof/Machine/Walker.lean ====
section
/-! DEFINITION. The Weevil format walker (spec/13_walker.md R293–R301): WVRUN, the start of a walk, the walker instructions and
the hash accumulator. A walker instruction acts on the walk at the head of the executing hart's engine 3. -/

namespace Sys2Proof.Machine

/-! ## WVRUN (R293) -/

/-- The group tag of a run word (R293). -/
def runTag (w : Nat) : Tag := BitVec.ofNat 10 (bits w 50 41)

/-- A tag a walk's group may carry: not EMPTY, reserved, or of class PLANE, SCALE or MASKIMG (R293). -/
def walkTag (t : Tag) : Bool :=
  match fmtOf t with
  | some .empty | some (.plane _) | some (.scale _ _) | some .mimg | none => false
  | some _ => true

/-- WVRUN (R293): the descriptor is read by the walk, which reaches the crew window too (R26, R298). -/
def execWvrun (hd : Hdr) (d : VR) (xa xc : Reg) (s : State) : Out :=
  let w := (s.me.rx xc).toNat
  let win : Bool := bit w 40
  issue { cls := 34, fmts := if win then [] else (tagBit (runTag w)).toList, hdr := some hd, xr := [xa, xc], acc := some true
          vw := if win then [] else vgroup d 8, late := true } noIll anyFmt
    (withRoom fun s =>
      let h := s.me
      let a := (h.rx xa).toNat
      let bar := barOf (bit w 39) (bits w 38 32)
      if bits w 63 51 ≠ 0 ∨ (win ∧ (d ≠ 0 ∨ runTag w ≠ 0)) ∨ (!win ∧ !walkTag (runTag w)) ∨ barBad h (bit w 39) (bits w 38 32) then ctlFail 3 s
      else if a % 64 ≠ 0 then engFail .misalign a s
      else
        let k : Walk := { desc := a, arg := bits w 31 0, group := if win then none else some d }
        let s := if win then s else s.modMe (openGroup d (runTag w))
        finishL hd id (startOp 3 bar (.walk k) s)) s

/-! ## The walk and its accesses -/

/-- An operation stops at its unit, and its hart freezes at its next boundary when it runs (R215). -/
def stopOp (s : State) (uid : Nat) (o : EngOp) (sub addr : Nat) : State :=
  let s := setOp s uid { o with stop := some { sub := sub, addr := BitVec.ofNat 64 addr, reported := false } }
  if (s.hart uid).status = .running then reportEngine s uid else s

/-- A walker register: w0 reads as zero (R296). -/
def Walk.rx (w : Walk) (r : WReg) : Word := if r = 0 then 0 else w.regs.getD r.val 0

/-- A walker register written, with whether an uncorrectable error is in the value: w0 ignores writes (R296). -/
def Walk.wx (w : Walk) (r : WReg) (v : Word) (mark : Bool) : Walk :=
  let m := BitVec.ofNat 16 (2 ^ r.val)
  if r = 0 then w else { w with regs := w.regs.set r.val v, bad := if mark then w.bad ||| m else w.bad &&& ~~~m }

/-- An uncorrectable error has reached a walker register. -/
def Walk.tainted (w : Walk) (r : WReg) : Bool := w.bad.getLsbD r.val

/-- A read of a walk: the window of the hart's crew (R26), else memory through the L2 (R298). -/
def walkRead (s : State) (o : EngOp) (soft : Bool) (a n : Nat) : UnitEnd Marked :=
  if inWindow a then (if outsideWin s (a - winBase) n then .fail 1 a else winPiece s s.me.crew soft (a - winBase) n)
  else engRead s o soft a n

/-- A read of a walk at a multiple of its size (R298). -/
def walkLoad (s : State) (o : EngOp) (soft : Bool) (a n : Nat) : UnitEnd Marked :=
  if a % n ≠ 0 then .fail 1 a else walkRead s o soft a n

/-! ## The start of a walk (R294, R295) -/

/-- The walk with the fields of its descriptor and its initial registers; none when a field is refused (R294, R296). -/
def Walk.begin (w : Walk) (size : Nat) (b : List Byte) : Option Walk :=
  let dw (i : Nat) : Nat := natOf ((b.drop (8 * i)).take 8)
  let pw := dw 1
  let em := dw 2
  let ht := dw 3
  let cnt := bits pw 8 0
  let off := 64 * bits em 19 0
  let len := 64 * bits em 39 20
  let hoff := 64 * bits ht 19 0
  let lg := bits ht 24 20
  if dw 0 % 4 ≠ 0 ∨ cnt = 0 ∨ 256 < cnt ∨ bits pw 15 9 ≠ 0 ∨ bits pw 63 48 ≠ 0 ∨ bits em 63 40 ≠ 0 ∨ (w.group.isSome ∧ em ≠ 0)
      ∨ size < off + len ∨ bits ht 63 25 ≠ 0 ∨ (lg ≠ 0 ∧ (lg < 5 ∨ 19 < lg ∨ size < hoff + 8 * 2 ^ lg)) then none
  else some { w with
    begun := true, addr := dw 0, cnt := cnt, version := bits pw 47 16, emitOff := off, emitLen := len, htOff := hoff, htLog := lg
    regs := tabulate 16 fun i => if 1 ≤ i ∧ i ≤ 4 then BitVec.ofNat 64 (dw (3 + i)) else if i = 5 then BitVec.ofNat 64 w.arg else 0 }

/-- A program slot holds a walk's program (R295). -/
def ProgSlot.holds (p : ProgSlot) (asid : Nat) (w : Walk) : Bool :=
  p.asid == asid && p.addr == w.addr && p.count == w.cnt && p.version == w.version

/-- A program slot is used by a running walk of its quad (R295). -/
def slotUsed (s : State) (q : Nat) (p : ProgSlot) : Bool :=
  s.harts.any fun x => (match x.2.place with
    | some slot => quadOf slot == q
    | none => false) && x.2.ops.any fun o => (match o.kind with
    | .walk w => w.loaded && p.holds (asidOf o.aspace) w
    | _ => false)

/-- The words of a program, checked against the encoding rules (R294, R297). -/
def progWords : List Byte → List (BitVec 32)
  | a :: b :: c :: d :: r => BitVec.ofNat 32 (natOf [a, b, c, d]) :: progWords r
  | _ => []

/-- How a start of a walk ends. -/
inductive StartEnd where
  | ok (s : State) (w : Walk)
  | fail (sub addr : Nat)
  | blocked (s : State)

/-- The program made resident in the quad (R295): a matching slot, else one read into a slot no running walk uses, the one whose
last walk started longest ago. -/
def loadProg (s : State) (o : EngOp) (w : Walk) : StartEnd :=
  let q := quadOf (s.me.place.getD 0)
  let asid := asidOf o.aspace
  let ps := (s.quad q).progs
  let stamp (p : ProgSlot) : ProgSlot := if p.holds asid w then { p with used := s.nextId } else p
  match ps.find? fun p => p.holds asid w with
  | some p =>
    .ok { (s.setQuad q { (s.quad q) with progs := ps.map stamp }) with nextId := s.nextId + 1 } { w with loaded := true, prog := p.words }
  | none =>
    let free := sortBy (fun a b => a.used ≤ b.used) (ps.filter fun p => !slotUsed s q p)
    if 8 ≤ ps.length ∧ free = [] then .blocked s
    else match walkRead s o false w.addr (4 * w.cnt) with
    | .fail c a => .fail c a
    | .blocked t => .blocked t
    | .ok s b =>
      let ws := progWords (plain b)
      if !(ws.all fun x => (decodeWOp x.toNat).isSome) then .fail 1 0
      else
        let p : ProgSlot := { asid := asid, addr := w.addr, count := w.cnt, version := w.version, words := ws, used := s.nextId }
        let keep := if ps.length < 8 then ps else match free.head? with
          | some v => ps.erase v
          | none => ps
        .ok { (s.setQuad q { (s.quad q) with progs := keep ++ [p] }) with nextId := s.nextId + 1 } { w with loaded := true, prog := ws }

/-- The descriptor read once, as a read of the walk, then the program (R294). -/
def loadWalk (s : State) (o : EngOp) (w : Walk) : StartEnd :=
  if w.begun then loadProg s o w
  else match walkRead s o false w.desc 64 with
    | .fail c a => .fail c a
    | .blocked t => .blocked t
    | .ok s b =>
      match w.begin (winSizeOf s s.me) (plain b) with
      | none => .fail 1 0
      | some w => loadProg s o w

/-! ## Walker instructions (R297, R298) -/

/-- A walker instruction of the executing hart's running walk. -/
def withWalk (k : EngOp → Walk → State → Out) (s : State) : Out :=
  match headOp s.me 3 with
  | some o =>
    match o.kind with
    | .walk w => if w.loaded && working s s.cur then k o w s else .refused .noWalk
    | _ => .refused .noWalk
  | none => .refused .noWalk

/-- The walk stops with a sub-cause. (DEDUCED, assumption 39) -/
def walkStop (o : EngOp) (w : Walk) (sub addr : Nat) (s : State) : Out := .next (stopOp s s.cur { o with kind := .walk w } sub addr)

/-- A walker instruction completes and the walk goes on at a word (R296, R298): the count that reaches 2^24 stops it. The engine's
watchdog counts from the instruction on (R310). -/
def walkGoto (o : EngOp) (pc : Nat) (w : Walk) (s : State) : Out :=
  let w := { w with pc := pc, count := w.count + 1, key := 0 }
  if 2 ^ 24 ≤ w.count then walkStop o w 1 0 s else .next (setOp s s.cur { o with kind := .walk w, watch := 0 })

/-- A walker instruction completes. -/
def walkNext (o : EngOp) (w : Walk) (s : State) : Out := walkGoto o (w.pc + 1) w s

/-- The bytes of a size code (R297). -/
def wsize (sz : Fin 4) : Nat :=
  match sz.val with
  | 0 => 4
  | 1 => 8
  | 2 => 2
  | _ => 1

/-- A sign-extended immediate (R297). -/
def wimm (i : BitVec 14) : Word := i.signExtend 64

/-- A walker load. -/
def walkLd (sz : Fin 4) (wd : WReg) (addr : Walk → Word) (mark : Walk → Bool) (s : State) : Out :=
  withWalk (fun o w s =>
    match walkLoad s o w.group.isSome (addr w).toNat (wsize sz) with
    | .fail c a => walkStop o w c a s
    | .blocked t => .next (noted s t)
    | .ok s b => walkNext o (w.wx wd (BitVec.ofNat 64 (natOf (plain b))) (anyBad b || mark w)) s) s

/-- LDW (R297). -/
def execLdw (sz : Fin 4) (wd wa : WReg) (i : BitVec 14) (s : State) : Out :=
  walkLd sz wd (fun w => w.rx wa + wimm i) (fun w => w.tainted wa) s

/-- LDIX (R297). -/
def execLdix (sz : Fin 4) (wd wa wb : WReg) (s : State) : Out :=
  walkLd sz wd (fun w => w.rx wa + w.rx wb * BitVec.ofNat 64 (wsize sz)) (fun w => w.tainted wa || w.tainted wb) s

/-- A walker result of two sources. -/
def walkAlu (wd wa wb : WReg) (f : Word → Word → Word) (s : State) : Out :=
  withWalk (fun o w s => walkNext o (w.wx wd (f (w.rx wa) (w.rx wb)) (w.tainted wa || w.tainted wb)) s) s

/-- ADDW (R297). -/
def execAddw (wd wa wb : WReg) (i : BitVec 14) (s : State) : Out := walkAlu wd wa wb (fun a b => a + b + wimm i) s
/-- SUBW (R297). -/
def execSubw (wd wa wb : WReg) (s : State) : Out := walkAlu wd wa wb (fun a b => a - b) s
/-- ANDW (R297). -/
def execAndw (wd wa wb : WReg) (s : State) : Out := walkAlu wd wa wb (fun a b => a &&& b) s

/-- A shift by a signed amount (R297). -/
def shiftBy (a : Word) (n : Int) : Word :=
  if 64 ≤ n.natAbs then 0 else if 0 ≤ n then a <<< n.natAbs else a >>> n.natAbs

/-- SHLW (R297). -/
def execShlw (wd wa wb : WReg) (i : BitVec 14) (s : State) : Out := walkAlu wd wa wb (fun a b => shiftBy a (b + wimm i).toInt) s

/-- The relations of CMPW (R297). -/
def wrel (c : Fin 6) (a b : Word) : Bool :=
  match c.val with
  | 0 => a == b
  | 1 => a != b
  | 2 => a.slt b
  | 3 => !a.slt b
  | 4 => a.ult b
  | _ => !a.ult b

/-- CMPW (R297). -/
def execCmpw (c : Fin 6) (wd wa wb : WReg) (s : State) : Out := walkAlu wd wa wb (fun a b => if wrel c a b then 1 else 0) s

/-- A walker branch to a word offset from its own address; a target outside the program stops the walk (R297). -/
def walkBranch (o : EngOp) (w : Walk) (i : BitVec 14) (s : State) : Out :=
  let t : Int := w.pc + i.toInt
  if t < 0 ∨ (w.cnt : Int) ≤ t then walkStop o w 1 0 s else walkGoto o t.toNat w s

/-- BRW_Z (R297). -/
def execBrwZ (wa : WReg) (i : BitVec 14) (s : State) : Out :=
  withWalk (fun o w s => if w.rx wa = 0 then walkBranch o w i s else walkNext o w s) s

/-- BRW_NZ (R297). -/
def execBrwNz (wa : WReg) (i : BitVec 14) (s : State) : Out :=
  withWalk (fun o w s => if w.rx wa ≠ 0 then walkBranch o w i s else walkNext o w s) s

/-- LOOPW (R297). -/
def execLoopw (wa : WReg) (i : BitVec 14) (s : State) : Out :=
  withWalk (fun o w s =>
    if 1 < (w.rx wa).toNat then
      let t : Int := w.pc + i.toInt
      if t < 0 ∨ (w.cnt : Int) ≤ t then walkStop o w 1 0 s
      else walkGoto o t.toNat (w.wx wa (w.rx wa - 1) (w.tainted wa)) s
    else walkNext o (w.wx wa 0 false) s) s

/-! ### Emissions -/

/-- The length of the tile (R293, R298). -/
def tileLen (o : EngOp) (w : Walk) : Nat := if w.group.isSome then 32 * o.vl else w.emitLen

/-- One byte of a group tile written (R293). -/
def putTileByte (base : VR) (vl : Nat) (mark : Bool) (h : Hart) (a : Nat) (b : Byte) : Hart :=
  let q := a / 4
  let r := vplus base (q / vl)
  let k := 8 * (a % 4)
  let old := ((h.rv r).slot (q % vl)).toNat
  let new := old - bits old (k + 7) k * 2 ^ k + b.toNat * 2 ^ k
  let h' := { h with v := h.v.set r.val ((h.rv r).putSlots (q % vl) [BitVec.ofNat 32 new]) }
  if mark then { h' with marks := h'.marks ||| BitVec.ofNat 32 (2 ^ r.val) } else h'

/-- A write of a walk to window bytes goes on when no earlier operation of its hart still has to write them (R182), else the walk waits. -/
def winTurn (o : EngOp) (a n : Nat) (k : State → Out) (s : State) : Out := if winBehind s.me o a n then .next s else k s

/-- An emission of a walk goes on: to its group, or to the window in its turn. -/
def emitTurn (o : EngOp) (w : Walk) (a n : Nat) (k : State → Out) (s : State) : Out :=
  if w.group.isSome then k s else winTurn o (w.emitOff + a) n k s

/-- Window bytes written by a walk: those that a later operation or store of its hart has written stay (R182). -/
def walkPut (s : State) (w : Walk) (off : Nat) (b : List Byte) : State :=
  (b.foldl (fun (p : State × Nat) x =>
    (if w.yields.any fun r => r.1 ≤ p.2 && p.2 < r.2 then p.1 else winWrite p.1 p.1.me.crew p.2 [x], p.2 + 1)) (s, off)).1

/-- A write of a walk to window bytes: at once, or around those it must leave alone. -/
def walkWrite (s : State) (w : Walk) (off : Nat) (b : List Byte) : State :=
  if w.yields = [] then winWrite s s.me.crew off b else walkPut s w off b

/-- Bytes emitted at an offset within the tile (R298). -/
def emitBytes (s : State) (o : EngOp) (w : Walk) (mark : Bool) (a : Nat) (b : List Byte) : State :=
  match w.group with
  | none => walkWrite s w (w.emitOff + a) b
  | some g => s.modMe fun h => (b.foldl (fun (p : Hart × Nat) x => (putTileByte g o.vl mark p.1 p.2 x, p.2 + 1)) (h, a)).1

/-- EMIT (R297, R298). -/
def execEmit (sz : Fin 4) (wb wa : WReg) (i : BitVec 14) (s : State) : Out :=
  withWalk (fun o w s =>
    let n := wsize sz
    let a := (w.rx wa + wimm i).toNat
    if a % n ≠ 0 ∨ tileLen o w < a + n then walkStop o w 1 0 s
    else emitTurn o w a n (fun s => walkNext o w (emitBytes s o w (w.tainted wa || w.tainted wb) a (bytesOf n (w.rx wb).toNat))) s) s

/-- EMITZ (R297, R298). -/
def execEmitz (wa wb : WReg) (s : State) : Out :=
  withWalk (fun o w s =>
    let a := (w.rx wa).toNat
    let n := (w.rx wb).toNat
    if a % 4 ≠ 0 ∨ n % 4 ≠ 0 ∨ tileLen o w < a + n then walkStop o w 1 0 s
    else emitTurn o w a n (fun s => walkNext o w (emitBytes s o w (w.tainted wa || w.tainted wb) a (List.replicate n 0))) s) s

/-- A window doubleword of FLUSH and WAITW: an offset that is a multiple of 8 within the allocation (R298). -/
def dwordBad (s : State) (a : Nat) : Bool := a % 8 != 0 || outsideWin s a 8

/-- FLUSH (R297): every earlier emission of the walk is already performed; no data that an error has reached is written to the window
(R216). (DEDUCED, assumption 39) -/
def execFlush (wa wb : WReg) (s : State) : Out :=
  withWalk (fun o w s =>
    let a := (w.rx wa).toNat
    if dwordBad s a then walkStop o w 1 (winAddr a) s
    else if w.tainted wa || w.tainted wb then walkStop o w 4 (winAddr a) s
    else winTurn o a 8 (fun s => walkNext o w (walkWrite s w a (bytesOf 8 (w.rx wb).toNat))) s) s

/-- WAITW (R297): the walk waits while the doubleword is below wb; one with an uncorrectable error stops it (R380). -/
def execWaitw (wa wb : WReg) (s : State) : Out :=
  withWalk (fun o w s =>
    let a := (w.rx wa).toNat
    if dwordBad s a then walkStop o w 1 (winAddr a) s
    else if winBad s s.me.crew a 8 then walkStop o w 4 (winAddr a) s
    else if natOf (winRead s s.me.crew a 8) < (w.rx wb).toNat then .next s
    else walkNext o w s) s

/-- SIGW (R297). -/
def execSigw (s : State) : Out := withWalk (fun o w s => walkNext o w (s.modMe fun h => { h with event := true })) s

/-- ENDW (R297, R298): the walk is complete. -/
def execEndw (s : State) : Out := withWalk (fun o w s => .next (completeOp s s.cur { o with kind := .walk { w with count := w.count + 1 } })) s

/-! ### The hash accumulator (R299) -/

/-- The key of an empty entry. -/
def emptyKey : Nat := 0xFFFFFFFF

/-- An entry of the table: key and value. -/
def htEntry (s : State) (w : Walk) (j : Nat) : Nat × Nat :=
  let b := natOf (winRead s s.me.crew (w.htOff + 8 * j) 8)
  (b % 2 ^ 32, b / 2 ^ 32)

/-- An entry written. -/
def htPut (s : State) (w : Walk) (j k v : Nat) : State := walkWrite s w (w.htOff + 8 * j) (bytesOf 8 (k + v * 2 ^ 32))

/-- An entry holds an uncorrectable error (R380). -/
def htBad (s : State) (w : Walk) (j : Nat) : Bool := winBad s s.me.crew (w.htOff + 8 * j) 8

/-- The first entry from `j` that holds a key, is empty or holds an uncorrectable error; none when every entry holds another key. -/
def htProbe (s : State) (w : Walk) (k : Nat) : Nat → Nat → Option Nat
  | 0, _ => none
  | n + 1, j =>
    let e := (htEntry s w j).1
    if htBad s w j ∨ e = k ∨ e = emptyKey then some j else htProbe s w k n ((j + 1) % 2 ^ w.htLog)

/-- HACC_RST (R299). -/
def execHaccRst (wd : WReg) (s : State) : Out :=
  withWalk (fun o w s =>
    if w.htLog = 0 then walkStop o w 1 0 s
    else winTurn o w.htOff (8 * 2 ^ w.htLog) (fun s => walkNext o { (w.wx wd 0 false) with occ := 0 }
      ((List.range (2 ^ w.htLog)).foldl (fun s j => htPut s w j emptyKey 0) s)) s) s

/-- One key and value of HACC read: the arrays are read in words (R298). -/
def htPair (s : State) (o : EngOp) (a b : Nat) : UnitEnd (Nat × Nat) :=
  match walkLoad s o false a 4 with
  | .fail c x => .fail c x
  | .blocked t => .blocked t
  | .ok s k =>
    match walkLoad s o false b 4 with
    | .fail c x => .fail c x
    | .blocked t => .blocked t
    | .ok s v => .ok s (natOf (plain k), natOf (plain v))

/-- Key `i` of `n` is done: the walk stays at its HACC until the last one. -/
def htDone (o : EngOp) (w : Walk) (wd : WReg) (i n : Nat) (s : State) : Out :=
  if i + 1 < n then .next (setOp s s.cur { o with kind := .walk { w with key := i + 1 }, watch := 0 })
  else walkNext o (w.wx wd (BitVec.ofNat 64 n) false) s

/-- HACC_ACC (R299): one key a step, in ascending order; a table full of other keys is probed without end. Keys, values, addresses or a
count that an error has reached, or an entry of the table with one, stop the walk before the table is written (R216). (DEDUCED, assumption 39) -/
def execHaccAcc (wd wa wb wc : WReg) (s : State) : Out :=
  withWalk (fun o w s =>
    let n := (w.rx wc).toNat
    let i := w.key
    if w.htLog = 0 then walkStop o w 1 0 s
    else if w.tainted wa || w.tainted wb || w.tainted wc then walkStop o w 4 (winAddr w.htOff) s
    else if winBehind s.me o w.htOff (8 * 2 ^ w.htLog) then .next s
    else if n ≤ i then walkNext o (w.wx wd (BitVec.ofNat 64 n) false) s
    else match htPair s o (w.rx wa + BitVec.ofNat 64 (4 * i)).toNat (w.rx wb + BitVec.ofNat 64 (4 * i)).toNat with
    | .fail c a => walkStop o w c a s
    | .blocked t => .next (noted s t)
    | .ok s (k, v) =>
      if k = emptyKey then htDone o w wd i n s
      else
        let j0 := k * 0x9E3779B1 % 2 ^ 32 / 2 ^ (32 - w.htLog)
        match htProbe s w k (2 ^ w.htLog) j0 with
        | none => .next s
        | some j =>
          let e := htEntry s w j
          if htBad s w j then walkStop o w 4 (winAddr (w.htOff + 8 * j)) s
          else if e.1 = k then htDone o w wd i n (htPut s w j k (FF.f32.add 0 e.2 v).1)
          else if w.occ < 3 * 2 ^ w.htLog / 4 then htDone o { w with occ := w.occ + 1 } wd i n (htPut s w j k v)
          else walkNext o (w.wx wd (BitVec.ofNat 64 (i + 2 ^ 63)) false) s) s

/-! ## A step of a walk (R295, R296) -/

/-- The meaning of a walker operation. -/
def execWOp (o : WOp) (s : State) : Out :=
  match o with
  | .ldw sz wd wa i => execLdw sz wd wa i s | .ldix sz wd wa wb => execLdix sz wd wa wb s
  | .addw wd wa wb i => execAddw wd wa wb i s | .subw wd wa wb => execSubw wd wa wb s
  | .shlw wd wa wb i => execShlw wd wa wb i s | .andw wd wa wb => execAndw wd wa wb s
  | .cmpw c wd wa wb => execCmpw c wd wa wb s
  | .brwZ wa i => execBrwZ wa i s | .brwNz wa i => execBrwNz wa i s | .loopw wa i => execLoopw wa i s
  | .emit sz wb wa i => execEmit sz wb wa i s | .emitz wa wb => execEmitz wa wb s | .flush wa wb => execFlush wa wb s
  | .haccAcc wd wa wb wc => execHaccAcc wd wa wb wc s | .haccRst wd => execHaccRst wd s
  | .waitw wa wb => execWaitw wa wb s | .sigw => execSigw s | .endw => execEndw s

/-- The walker's step for the executing hart: the start of its walk, then the instruction at the walk's program counter; a counter
at the program's end stops the walk (R297). -/
def walkStep (s : State) : Out :=
  match headOp s.me 3 with
  | none => .refused .noWalk
  | some o =>
    match o.kind with
    | .walk w =>
      if !working s s.cur then .refused .noWalk
      else if !w.loaded then
        match loadWalk s o w with
        | .ok s w => .next (setOp s s.cur { o with kind := .walk w })
        | .fail c a => walkStop o w c a s
        | .blocked t => .next (noted s t)
      else match w.prog[w.pc]? with
        | none => walkStop o w 1 0 s
        | some x =>
          match decodeWOp x.toNat with
          | some p => execWOp p s
          | none => walkStop o w 1 0 s
    | _ => .refused .noWalk

end Sys2Proof.Machine
end

