-- ==== Sys2Proof/Machine/Launch.lean ====
section
/-! DEFINITION. Launches (spec/11_scheduling.md R235–R248, R251, R261, spec/03_encoding.md R70–R76): reading and checking a record
and its kernel header, the variant chain, acceptance and the status word; hive-queue triggers (R265–R268); the heritage cluster
(spec/16_isolation.md R342–R344); record mode (spec/18_recovery.md R385, R386); the end of a farm. -/

namespace Sys2Proof.Machine

/-! ## The hub's own accesses (R236) -/

/-- How a read of the hub ends. -/
inductive HubRead where
  | ok (s : State) (b : List Byte)
  | fail
  | waits (s : State)

/-- Bytes read by the hub as a privileged reader under an aspace (R236); a line an engine owns (R182), a slice in retention (R381) and a link to
the host (R416) are waited for. -/
def hubRead (s : State) (aspace : Word) (a n : Nat) : HubRead :=
  if touchesWindow a n then .fail
  else if (linesOf a n).any fun l => isOwned s (asidOf aspace) l then .waits s
  else if (linesOf a n).any fun l => retained s (64 * l) then .waits ((linesOf a n).foldl (fun s l => touchSlice s (64 * l)) s)
  else match agentRead s aspace true n a with
  | .ok (s, b) => .ok s b
  | .error (.wait, _) => .waits (noteWait s (asidOf aspace))
  | .error _ => .fail

/-- A line performed at .s: written back to memory (R178), or passed on to the host (R187). -/
def flushLine (s : State) (asid line : Nat) : State :=
  match l2find s asid line with
  | some l => if isHost (l.frame * 64) then hostPass s asid line else writeBack s l
  | none => s

/-- Bytes written by the hub and performed at .s; none when the write fails. -/
def hubWrite (s : State) (aspace : Word) (a : Nat) (b : List Byte) : Option State :=
  if touchesWindow a b.length then none
  else match agentWrite s aspace true a b with
  | .ok s => some ((linesOf a b.length).foldl (fun s l => flushLine s (asidOf aspace) l) s)
  | .error _ => none

/-- The little-endian value of `n` bytes at an offset. -/
def fieldAt (b : List Byte) (off n : Nat) : Nat := natOf ((b.drop off).take n)

/-! ## Status (R243, R244) -/

/-- The status codes of R243. -/
inductive Code where
  | accepted | done | contained | held | badHeader | badRecord | exceeds | unsupported | launchFault
deriving DecidableEq, Repr

/-- The code byte (R243). -/
def Code.byte : Code → Nat
  | .accepted => 0x01 | .done => 0x02 | .contained => 0x03 | .held => 0x04 | .badHeader => 0x10 | .badRecord => 0x11
  | .exceeds => 0x12 | .unsupported => 0x13 | .launchFault => 0x14

/-- The code of a farm's progress. -/
def FarmCode.code : FarmCode → Code
  | .accepted => .accepted | .done => .done | .contained => .contained | .held => .held

/-- A status word (R243). -/
def statusWord (id dropped : Nat) (c : Code) : Word := BitVec.ofNat 64 (id * 2 ^ 32 + min dropped 0xFFFF * 2 ^ 16 + c.byte)

/-- An unwritten status word recorded (R244). -/
def unwritten (s : State) (c : Nat) (code : Code) (step1 : Bool) (rec : Nat) : State :=
  s.modCtx c fun k => { k with
    unwritten := (k.unwritten + 1) % 2 ^ 32, unwCode := code.byte, unwStep1 := step1, unwRecord := BitVec.ofNat 64 rec }

/-- A status word written to its address, or recorded as unwritten (R243). -/
def writeStatus (s : State) (c : Nat) (aspace : Word) (addr rec : Nat) (w : Word) (code : Code) : State :=
  if addr = 0 then s
  else if addr % 8 ≠ 0 then unwritten s c code false rec
  else match hubWrite s aspace addr (bytesOf 8 w.toNat) with
  | some s => s
  | none => unwritten s c code false rec

/-- A farm's status word (R243). -/
def Farm.word (f : Farm) : Word := statusWord f.id f.dropped f.code.code

/-- A farm's status written (R243). -/
def Farm.report (s : State) (f : Farm) : State := writeStatus s f.ctx f.aspace f.status f.recAddr f.word f.code.code

/-! ## Kernel headers (R70, R71, R73, R75) -/

/-- A kernel header as read (R70). -/
structure KHead where
  addr   : Nat
  bytes  : List Byte
  chunks : List (List Byte) := []

/-- ISA major. -/
def KHead.major (k : KHead) : Nat := fieldAt k.bytes 4 1
/-- ISA minor. -/
def KHead.minor (k : KHead) : Nat := fieldAt k.bytes 5 1
/-- Flags. -/
def KHead.flags (k : KHead) : Nat := fieldAt k.bytes 8 4
/-- The entry offset. -/
def KHead.entry (k : KHead) : Nat := fieldAt k.bytes 16 8
/-- The code bytes. -/
def KHead.code (k : KHead) : Nat := fieldAt k.bytes 24 8
/-- The opcode-use mask. -/
def KHead.mask (k : KHead) : BitVec 128 := BitVec.ofNat 128 (fieldAt k.bytes 32 16)
/-- The variant link, from the header start. -/
def KHead.link (k : KHead) : Nat := fieldAt k.bytes 72 8

/-- The bits a mask may hold (R62, R63). -/
def maskBits : BitVec 128 := 0x0003FFFF0000000FFFFFFFFF#128

/-- A header breaks R71; `mender` for a mender spawn. -/
def KHead.bad (k : KHead) (mender : Bool) : Bool :=
  let b := k.bytes
  fieldAt b 0 4 != 0x4B56485A || fieldAt b 6 2 != 1 || fieldAt b 8 4 / 4 != 0 || bit k.flags 1 != mender || fieldAt b 12 2 == 0
    || k.entry % 8 != 0 || k.entry < 96 || (bit k.flags 0 && k.entry % 4096 != 0) || k.code % 4 != 0
    || (k.mask &&& ~~~maskBits) != 0 || fieldAt b 52 4 < fieldAt b 48 4 || 4096 < fieldAt b 60 4 || fieldAt b 88 8 != 0

/-- How a read and check of a header ends. -/
inductive HeadEnd where
  | ok (s : State) (k : KHead)
  | reject (s : State) (c : Code)
  | waits (s : State)

/-- Lists of 32 bytes. -/
def leaves : Nat → List Byte → List (List Byte)
  | 0, _ => []
  | n + 1, b => b.take 32 :: leaves n (b.drop 32)

/-- The chunk table of a chunked object (R73): read at offset 96 and checked against its root. An object without code bytes has no root, and is
rejected; the code digest field is not compared with the root. (DESIGN CHOICE, assumption 80) -/
def readChunks (s : State) (aspace : Word) (k : KHead) : HeadEnd :=
  if !bit k.flags 0 then .ok s k
  else match hubRead s aspace (k.addr + 96) 40 with
  | .fail => .reject s .launchFault
  | .waits t => .waits t
  | .ok s t =>
    let n := fieldAt t 32 4
    if n ≠ (k.code + 4095) / 4096 ∨ fieldAt t 36 4 ≠ 0 then .reject s .badHeader
    else match hubRead s aspace (k.addr + 136) (32 * n) with
    | .fail => .reject s .launchFault
    | .waits t => .waits t
    | .ok s b =>
      let ls := leaves n b
      if merkleRoot n ls == t.take 32 then .ok s { k with chunks := ls } else .reject s .badHeader

/-- A header read and checked under R71 and at once, whatever its ISA and whether it fits, under R73. (DESIGN CHOICE, assumption 80) -/
def readHeader (s : State) (aspace : Word) (a : Nat) (mender : Bool) : HeadEnd :=
  match hubRead s aspace a 96 with
  | .fail => .reject s .launchFault
  | .waits t => .waits t
  | .ok s b =>
    let k : KHead := { addr := a, bytes := b }
    if k.bad mender then .reject s .badHeader else readChunks s aspace k

/-- Whether R75 routes a header to the Zhevdin cores. -/
def KHead.routed (k : KHead) : Bool := k.major == 3 && k.minor ≤ 2

/-- The fields a heritage header must leave zero (R342). -/
def KHead.heritageBad (k : KHead) : Bool :=
  k.mask != 0 || fieldAt k.bytes 48 4 != 0 || fieldAt k.bytes 52 4 != 0 || fieldAt k.bytes 56 4 != 0 || fieldAt k.bytes 14 2 != 0

/-- The highest supported minor of major 2 (R344). -/
def heritageMinor : Nat := 4

/-! ## Loop-nest records (R237–R241) -/

/-- A record's fields (R237, R238). -/
structure Rec where
  addr  : Nat
  bytes : List Byte

/-- A 4-byte field of a record. -/
def Rec.word (r : Rec) (off : Nat) : Nat := fieldAt r.bytes off 4
/-- The kernel address. -/
def Rec.kernel (r : Rec) : Nat := fieldAt r.bytes 0 8
/-- The constant bank. -/
def Rec.bank (r : Rec) : Nat := fieldAt r.bytes 8 8
/-- The status address. -/
def Rec.status (r : Rec) : Nat := fieldAt r.bytes 16 8
/-- The control word. -/
def Rec.control (r : Rec) : Nat := r.word 24
/-- Crew mode. -/
def Rec.crewMode (r : Rec) : Bool := bits r.control 1 0 == 1
/-- The enumeration order. -/
def Rec.order (r : Rec) : Nat := bits r.control 3 2
/-- The declared levels. -/
def Rec.nlevels (r : Rec) : Nat := bits r.control 6 4
/-- The versioned flag. -/
def Rec.versioned (r : Rec) : Bool := bit r.control 7
/-- The crews field. -/
def Rec.crews (r : Rec) : Nat := r.word 36
/-- The table count. -/
def Rec.tcount (r : Rec) : Nat := r.word 52
/-- The strip-table address. -/
def Rec.taddr (r : Rec) : Nat := fieldAt r.bytes 56 8

/-- The levels declared: lo, hi, step (R239). -/
def Rec.levels (r : Rec) : List (Int × Int × Int) :=
  tabulate r.nlevels fun l => (sint 32 (r.word (64 + 16 * l)), sint 32 (r.word (68 + 16 * l)), sint 32 (r.word (72 + 16 * l)))

/-- The trip count of a level (R239). -/
def trips (l : Int × Int × Int) : Nat := if l.2.2 ≤ 0 then 0 else ((l.2.1 - l.1 + l.2.2 - 1) / l.2.2).toNat

/-- The number of strips of some levels (R239). -/
def stripCount (ls : List (Int × Int × Int)) : Nat := ls.foldl (fun a l => a * trips l) 1

/-- A record breaks R237 to R239 or R241 by its own fields (R236 step 2); `ls` are its levels, as a hive trigger may change them. -/
def Rec.bad (r : Rec) (ls : List (Int × Int × Int)) : Bool :=
  let c := r.control
  let lev := (r.bytes.drop 64).take 96
  let table := r.order == 3
  r.addr % 64 != 0 || r.kernel % 64 != 0 || r.status % 8 != 0
    || bits c 31 24 != 0 || bits c 15 12 != 0 || bits c 23 16 == 0 || r.nlevels == 7 || 2 ≤ bits c 1 0
    || (lev.drop (16 * r.nlevels)).any (· != 0)
    || (List.range 6).any (fun l => fieldAt lev (16 * l + 12) 4 != 0)
    || (if r.crewMode then
          r.crews == 0 || 2 ^ 20 < r.crews || r.nlevels != 0 || r.order != 0 || r.tcount != 0 || r.taddr != 0
        else if table then
          r.nlevels != 0 || r.tcount == 0 || 2 ^ 20 < r.tcount || r.taddr % 32 != 0
        else
          r.nlevels == 0 || r.tcount != 0 || r.taddr != 0 || ls.any (fun l => l.2.2 < 1) || 2 ^ 32 ≤ stripCount ls)

/-- A record's value, with 0 replaced by the header's (R237). -/
def orHeader (r h : Nat) : Nat := if r = 0 then h else r

/-- The effective values against a header, with no bank yet; none when they break R240. `extra` counts the words a hive trigger
adds to the bank (R267). -/
def effective (r : Rec) (k : KHead) (extra : Nat) : Option Kern :=
  let b := k.bytes
  let eff (roff rn hoff hn : Nat) : Nat := orHeader (fieldAt r.bytes roff rn) (fieldAt b hoff hn)
  let harts := eff 28 2 12 2
  let bars := eff 30 2 14 2
  let shared := eff 32 4 56 4
  let minVl := eff 40 4 48 4
  let prefVl := eff 44 4 52 4
  let consts := eff 48 4 60 4
  if harts < 1 ∨ 16 < harts ∨ (!r.crewMode ∧ harts ≠ 1) ∨ bars < fieldAt b 14 2 ∨ shared < fieldAt b 56 4 ∨ minVl < fieldAt b 48 4
      ∨ prefVl < fieldAt b 52 4 ∨ consts < fieldAt b 60 4 ∨ minVl % 64 ≠ 0 ∨ prefVl % 64 ≠ 0 ∨ minVl < 64 ∨ prefVl < minVl
      ∨ 4096 < consts + extra ∨ (consts ≠ 0 ∧ r.bank % 4 ≠ 0) then none
  else some {
    mask := k.mask, crewHarts := harts, barriers := bars, shared := shared, minVl := minVl, prefVl := prefVl, nconst := consts
    versioned := r.versioned, crewMode := r.crewMode, entry := (k.addr + k.entry) % 2 ^ 64, cls := bits r.control 10 8
    weight := bits r.control 23 16, chunkBase := (k.addr + k.entry) % 2 ^ 64, chunks := k.chunks, codeLen := k.code }

/-- The effective values of a heritage launch (R342). -/
def heritageEffective (r : Rec) (k : KHead) (extra : Nat) : Option Kern :=
  let consts := orHeader (r.word 48) (fieldAt k.bytes 60 4)
  if 1 < fieldAt r.bytes 28 2 ∨ fieldAt r.bytes 30 2 ≠ 0 ∨ r.word 32 ≠ 0 ∨ r.word 40 ≠ 0 ∨ r.word 44 ≠ 0 ∨ r.crewMode ∨ r.versioned
      ∨ consts < fieldAt k.bytes 60 4 ∨ 4096 < consts + extra ∨ (consts ≠ 0 ∧ r.bank % 4 ≠ 0) then none
  else some {
    mask := 0, crewHarts := 1, minVl := 0, prefVl := 0, nconst := consts, entry := (k.addr + k.entry) % 2 ^ 64
    cls := bits r.control 10 8, weight := bits r.control 23 16 }

/-! ## Capacity (R242, R260) -/

/-- A core's capability mask covers an opcode-use mask (R260). -/
def Core.covers (c : Core) (m : BitVec 128) : Bool := (m &&& ~~~c.mask) == 0

/-- The enabled cores that cover a mask. -/
def covering (s : State) (m : BitVec 128) : List Nat := (List.range 160).filter fun c => (s.core c).enabled && (s.core c).covers m

/-- A hart slot belongs to some context's mender pool (R349). -/
def inPool (s : State) (slot : Nat) : Bool := s.ctxs.any fun p => p.2.pool.contains slot

/-- A hart slot is barred to a context by a placement domain (R334), its own or that of a context with a pool slot or a resident hart
there. `empty` looks at the pools of other contexts only. (DEDUCED, assumption 43) -/
def barred (s : State) (c slot : Nat) (empty : Bool) : Bool :=
  (s.ctxs.any fun p => p.1 != c && p.2.pool.any (excludes s c p.1 slot)) || (!empty && hartBarred s c slot)

/-- The members of a crew an otherwise empty core can take (R242): free hart slots and lane groups, without pools. -/
def coreRoom (s : State) (c : Nat) (k : Kern) (core : Nat) : Nat :=
  let slots := (tabulate 4 fun i => 4 * core + i).countP fun x => !inPool s x && !barred s c x true
  let pools := s.ctxs.foldl (fun a p => a + (p.2.pool.countP fun x => coreOf x == core) * ((p.2.mender.minVl + 63) / 64)) 0
  if (s.core core).enabled && (s.core core).covers k.mask then min slots (((s.core core).count - pools) / max 1 ((k.minVl + 63) / 64)) else 0

/-- A header with its effective values passes the capacity checks (R242). -/
def capacity (s : State) (c : Nat) (k : Kern) : Bool :=
  let cov := covering s k.mask
  cov != [] && k.minVl ≤ cov.foldl (fun a x => max a (s.core x).vlmax) 0 && k.shared ≤ 4 * 2 ^ 20 && k.barriers ≤ 128
    && (List.range 40).any fun q => k.crewHarts ≤ (List.range 4).foldl (fun a i => a + coreRoom s c k (4 * q + i)) 0

/-- How the walk of a variant chain ends (R72). -/
inductive ChainEnd where
  | fits (s : State) (k : Kern) (h : KHead)
  | reject (s : State) (c : Code)
  | waits (s : State)

/-- The variants after a header that does not fit (R72), at most `n` more. -/
def chain (c : Nat) (aspace : Word) (r : Rec) (extra : Nat) : Nat → State → KHead → ChainEnd
  | 0, s, _ => .reject s .exceeds
  | n + 1, s, h =>
    if h.link = 0 then .reject s .exceeds
    else
      let a := (h.addr + h.link) % 2 ^ 64
      if a % 64 ≠ 0 then .reject s .badHeader
      else match readHeader s aspace a false with
      | .waits t => .waits t
      | .reject s e => .reject s e
      | .ok s v =>
        if v.major ≠ h.major then .reject s .exceeds
        else match (if v.routed then effective r v extra else none) with
        | none => chain c aspace r extra n s v
        | some k => if capacity s c k then .fits s k v else chain c aspace r extra n s v

/-! ## Enumeration (R246–R248) -/

/-- The trips of strip `s` in mixed radix, the last level fastest. -/
def radixRow : List Nat → Nat → List Nat
  | [], _ => []
  | _ :: r, s => let m := r.foldl (· * ·) 1
                 s / m :: radixRow r (s % m)

/-- One level's interval of a Morton search: the bits fixed so far, and how many low bits are free. -/
abbrev MortonLevel := Nat × Nat × Nat

/-- The trip vectors within the intervals (count, fixed value, free bits). -/
def mortonCount (ls : List MortonLevel) : Nat := ls.foldl (fun a l => a * (min l.1 (l.2.1 + 2 ^ l.2.2) - l.2.1)) 1

/-- The Morton search over the key's bits from the highest: each entry names the level its bit belongs to (R246). -/
def mortonWalk : List Nat → List MortonLevel → Nat → List Nat
  | [], ls, _ => ls.map (·.2.1)
  | l :: bs, ls, s =>
    let zero := modAt (fun x => (x.1, x.2.1, x.2.2 - 1)) l ls
    let n := mortonCount zero
    if s < n then mortonWalk bs zero s
    else mortonWalk bs (modAt (fun x => (x.1, x.2.1 + 2 ^ (x.2.2 - 1), x.2.2 - 1)) l ls) (s - n)

/-- The trips of strip `s` in Morton order (R246): bit L·b + (L − 1 − l) of the key is bit b of t_l. -/
def mortonTrips (ns : List Nat) (s : Nat) : List Nat :=
  mortonWalk ((List.range 32).flatMap fun _ => List.range ns.length) (ns.map fun n => (n, 0, 32)) s

/-- The trips of a strip of a farm (R246). -/
def Farm.trips (f : Farm) (s : Nat) : List Nat :=
  let ns := f.levels.map Machine.trips
  if f.order = 0 then radixRow ns s
  else if f.order = 1 then (radixRow ns.reverse s).reverse
  else mortonTrips ns s

/-- The index registers of a strip (R248). -/
def Farm.indices (f : Farm) (s : Nat) : List Word :=
  if f.order = 3 then
    (f.table.getD (s % max 1 f.table.length) []).map fun w => w.signExtend 64
  else (f.levels.zip (f.trips s)).map fun p => BitVec.ofInt 64 (p.1.1 + p.2 * p.1.2.2)

/-! ## Record mode (R385, R386) -/

/-- The lines of a context's regions. -/
def regionLines (k : Context) : List Nat := k.recRegions.flatMap fun r => linesOf r.1 r.2.1

/-- A line of a region is owned by an engine, which a digest waits for (R182). -/
def regionsOwned (s : State) (f : Farm) : Bool :=
  let k := s.ctx f.ctx
  f.log && k.recordOn && (regionLines k).any (isOwned s (asidOf k.aspace))

/-- The update-only lines of a context's regions merged before they are hashed at .s (R181, R385). -/
def mergeRegions (s : State) (k : Context) : State := (regionLines k).foldl (fun s l => recallLine s (asidOf k.aspace) l) s

/-- The digests of a context's regions, zero for unused ones. -/
def regionDigests (s : State) (k : Context) : List Byte :=
  (List.range 8).flatMap fun i =>
    match k.recRegions[i]? with
    | some r => sha256 (tabulate r.2.1 fun j => peekByte s k.aspace (r.1 + j))
    | none => List.replicate 32 0

/-- An entry written at the ring's producer index, or counted as lost (R385). (DEDUCED, assumption 65) -/
def writeRecord (s : State) (c : Nat) (b : List Byte) : State :=
  let k := s.ctx c
  let s := s.setCtx c { k with recEntry := k.recEntry + 1 }
  let lost := s.modCtx c fun k => { k with recLost := k.recLost + 1 }
  if 2 ^ k.recLog < k.recProd + b.length then lost
  else match hubWrite s k.aspace (k.recBase.toNat + k.recProd) b with
  | some s => s.modCtx c fun k => { k with recProd := k.recProd + b.length }
  | none => lost

/-- The bytes of the constant bank of a farm. -/
def bankBytes (k : Kern) : List Byte := k.bank.flatMap fun w => bytesOf 4 w.toNat

/-- The launch entry of a recorded farm (R386). -/
def launchEntry (s : State) (f : Farm) : State :=
  let k := s.ctx f.ctx
  if !(f.log && k.recordOn) then s
  else
    let s := mergeRegions s k
    let bank := bankBytes f.kern
    let len := (576 + bank.length + 63) / 64
    let body := bytesOf 8 (1 + len * 2 ^ 16 + f.id * 2 ^ 32) ++ bytesOf 8 k.recEntry ++ f.record ++ f.header ++ sha256 bank
      ++ regionDigests s k ++ bytesOf 4 f.kern.bank.length ++ List.replicate 12 0 ++ bank
    writeRecord s f.ctx (body ++ List.replicate (64 * len - body.length) 0)

/-- The end entry of a recorded farm (R386). -/
def endEntry (s : State) (f : Farm) : State :=
  let k := s.ctx f.ctx
  if !(f.log && k.recordOn) then s
  else
    let s := mergeRegions s k
    let body := bytesOf 8 (2 + 5 * 2 ^ 16 + f.id * 2 ^ 32) ++ bytesOf 8 k.recEntry ++ bytesOf 8 f.word.toNat ++ bytesOf 8 0
      ++ regionDigests s k
    writeRecord s f.ctx (body ++ List.replicate (320 - body.length) 0)

/-! ## Hive queues (R265–R268) -/

/-- The threshold of a queue. -/
def Hive.threshold (h : Hive) : Nat := bits h.control.toNat 12 0
/-- The farms in flight a queue allows. -/
def Hive.allowed (h : Hive) : Nat := bits h.control.toNat 15 13
/-- The timer of a queue in hub cycles. -/
def Hive.limit (h : Hive) : Nat := bits h.control.toNat 47 16

/-- A queue launches when a trigger condition holds, it is bound and its flights allow (R267, R268); `fire` for a condition that holds
now. -/
def hiveLaunch (s : State) (q : Nat) (fire : Bool) : State :=
  match tget s.hives q with
  | none => s
  | some h =>
    let k := s.ctx h.ctx
    let queued := k.launches.countP fun l => l.queue == some q
    if !fire || h.binding = 0 || h.tokens = [] || h.threshold = 0 then s
    else if h.allowed ≤ h.flights.length + queued then s
    else
      let n := min h.tokens.length h.threshold
      let rest := h.tokens.drop n
      let h' := { h with tokens := rest, due := false, timer := if rest = [] then none else some s.hub }
      let l : Launch := { record := h.binding.toNat, aspace := k.aspace, queue := some q, tokens := h.tokens.take n }
      { s with hives := tput s.hives q h', ctxs := tput s.ctxs h.ctx { k with launches := k.launches ++ [l] } }

/-- A farm of a queue is in flight no more (R268). -/
def hiveReturn (s : State) (q id : Nat) : State :=
  match tget s.hives q with
  | none => s
  | some h =>
    let h := { h with flights := h.flights.erase id }
    hiveLaunch { s with hives := tput s.hives q h } q (h.due || h.threshold ≤ h.tokens.length)

/-! ## The heritage cluster (R342–R344) -/

/-- An accepted heritage farm with a strip to hand out, within its limit of strips at work (R249). -/
def heritageFarm (s : State) : Option Farm :=
  (s.farms.find? fun p => p.2.heritage && p.2.code == .accepted && !p.2.empty
    && (p.2.crews == 0 || s.mgmt.heritageRun.countP (fun q => q.2.1 == p.2.ctx && q.2.2.1 == p.2.id) < p.2.crews)).map (·.2)

/-- Every enabled heritage core without a strip takes the next one, by its number (R342). -/
def feedHeritage (s : State) : State :=
  (List.range 8).foldl (fun s c =>
    if s.mgmt.heritage.getLsbD c && (tget s.mgmt.heritageRun c).isNone then
      match heritageFarm s with
      | some f =>
        let s := s.setFarm { f with next := f.next + 1 }
        { s with mgmt := { s.mgmt with heritageRun := tput s.mgmt.heritageRun c (f.ctx, f.id, f.next) } }
      | none => s
    else s) s

/-! ## The end of a farm (R251) -/

/-- Every strip or crew of a farm has ended (R249–R251). -/
def Farm.finished (f : Farm) : Bool :=
  if f.kern.crewMode then f.crews ≤ f.ended else f.strips ≤ f.ended

/-- The harts of a farm. -/
def farmHarts (s : State) (c f : Nat) : List Nat := (s.harts.filter fun p => p.2.ctx == c && p.2.farm == f && p.2.role != .mender).map (·.1)

/-- A farm ends with DONE: the accesses of its harts are performed at .s, its harts leave, and its status is written (R251). -/
def endFarm (s : State) (f : Farm) : State :=
  let us := farmHarts s f.ctx f.id
  let s := us.foldl drainAll s
  let s := flushSystem s (asidOf f.aspace)
  let s := us.foldl vacate s
  let s := { s with harts := us.foldl tdel s.harts, crews := s.crews.filter fun p => !(p.2.ctx == f.ctx && p.2.farm == f.id) }
  let f := { f with code := .done }
  let s := endEntry (s.setFarm f) f
  let s := Farm.report s f
  match f.queue with
  | some q => hiveReturn s q f.id
  | none => s

/-- Some core can run a farm's work (R261, R344). -/
def Farm.covered (s : State) (f : Farm) : Bool := if f.heritage then s.mgmt.heritage != 0 else covering s f.kern.mask != []

/-- The HELD review of R261: a farm with unended work that no enabled core covers is HELD; a covered HELD farm is ACCEPTED again. -/
def reviewHeld (s : State) : State :=
  s.farms.foldl (fun s p =>
    let f := p.2
    let ok := f.covered s
    if f.code == .accepted && !f.finished && !ok then
      let f := { f with code := .held }
      Farm.report (s.setFarm f) f
    else if f.code == .held && ok then
      let f := { f with code := .accepted }
      Farm.report (s.setFarm f) f
    else s) s

/-! ## LAUNCH_PROCESS (R236) -/

/-- The next identifier of a context (R235): ascending, never 0, skipping those of running farms. -/
def nextFarm (s : State) (c : Nat) : Nat → Nat → Nat
  | 0, n => n
  | k + 1, n =>
    let m := if n + 1 < 2 ^ 32 then n + 1 else 1
    match s.farm? c m with
    | some f => if f.code == .done || f.code == .contained then m else nextFarm s c k m
    | none => m

/-- The crews of a crew-mode farm begin to wait (R254). -/
def addCrews (f : Farm) (n : Nat) (s : State) : State :=
  { s with
    nextId := s.nextId + n
    crews := (List.range n).foldl (fun t i => tput t (s.nextId + i)
      { ctx := f.ctx, farm := f.id, number := i, size := f.kern.crewHarts, winSize := roundWin f.kern.shared, waitFrom := s.hub }) s.crews }

/-- The status of a processed launch reaches its FARM (R287); a killed hart's write is discarded. -/
def answer (s : State) (l : Launch) (w : Word) : State :=
  match l.hart with
  | none => s
  | some (u, n) =>
    match (s.hart u).farmPend.find? fun p => p.1 == n with
    | some (_, r) => s.modHart u fun h => { (h.wx r w) with farmPend := h.farmPend.filter fun p => p.1 != n }
    | none => s

/-- A rejected launch (R243): its status word is written when the record could be read. -/
def rejectLaunch (s : State) (c : Nat) (l : Launch) (r : Option Rec) (code : Code) : State :=
  let w := statusWord 0 0 code
  let s := match r with
    | none => unwritten s c code true l.record
    | some r => writeStatus s c l.aspace r.status l.record w code
  let s := answer s l w
  match l.queue with
  | some q => hiveLaunch s q (match tget s.hives q with
    | some h => h.due || h.threshold ≤ h.tokens.length
    | none => false)
  | none => s

/-- The words of a bank. -/
def bankWords (b : List Byte) : List (BitVec 32) := progWords b

/-- The six values of a strip-table entry (R247). -/
def tableEntries : Nat → List Byte → List (List (BitVec 32))
  | 0, _ => []
  | n + 1, b => progWords (b.take 24) :: tableEntries n (b.drop 32)

/-- A strip-table entry breaks R247. -/
def tableBad (n : Nat) (b : List Byte) : Bool := (List.range n).any fun i => fieldAt b (32 * i + 24) 8 != 0

/-- An accepted launch: the farm with the values it read, its identifier and its first status (R236 step 7). -/
def acceptFarm (s : State) (c : Nat) (l : Launch) (r : Rec) (k : Kern) (h : KHead) (heritage : Bool) (ls : List (Int × Int × Int))
    (bank : List (BitVec 32)) (table : List (List (BitVec 32))) : State :=
  let x := s.ctx c
  let id := nextFarm s c (s.farms.length + 1) x.lastFarm
  let t := l.tokens.length
  let bank := if l.queue.isSome then bank ++ BitVec.ofNat 32 t :: l.tokens else bank
  let f : Farm := {
    ctx := c, id := id, kern := { k with bank := bank, nconst := bank.length }, aspace := l.aspace, status := r.status, levels := ls
    order := r.order, crews := r.crews
    strips := if r.crewMode then 0 else if r.order = 3 then (if l.queue.isSome then t else r.tcount) else stripCount ls
    table := table, queue := l.queue, heritage := heritage, log := bit r.control 11, record := r.bytes, header := h.bytes
    startAt := s.hub, recAddr := l.record }
  let s := (s.setCtx c { x with lastFarm := id }).setFarm f
  let s := match l.queue with
    | some q => (match tget s.hives q with
      | some v => { s with hives := tput s.hives q { v with flights := v.flights ++ [id] } }
      | none => s)
    | none => s
  let s := if r.crewMode then addCrews f r.crews s else s
  let s := Farm.report s f
  let s := answer s l f.word
  let s := launchEntry s f
  if f.finished then endFarm s f else feedHeritage (reviewHeld s)

/-- The bank read at a launch (R236 step 6); a bank of no words is ignored (R237). -/
def readBank (s : State) (l : Launch) (r : Rec) (k : Kern) : HubRead := if k.nconst = 0 then .ok s [] else hubRead s l.aspace r.bank (4 * k.nconst)

/-- Steps 5 to 7 of R236 after the effective values; a recorded launch waits while an engine owns a line of a region. -/
def launchRest (s : State) (c : Nat) (l : Launch) (r : Rec) (ls : List (Int × Int × Int)) (k : Kern) (h : KHead) (heritage : Bool) : Except State State :=
  match readBank s l r k with
  | .waits t => .error t
  | .fail => .ok (rejectLaunch s c l (some r) .launchFault)
  | .ok s bank =>
    let log : Bool := bit r.control 11 && (s.ctx c).recordOn
    if log && (regionLines (s.ctx c)).any (isOwned s (asidOf (s.ctx c).aspace)) then .error s
    else if r.crewMode ∨ r.order ≠ 3 then .ok (acceptFarm s c l r k h heritage ls (bankWords bank) [])
    else match hubRead s l.aspace r.taddr (32 * r.tcount) with
    | .waits t => .error t
    | .fail => .ok (rejectLaunch s c l (some r) .launchFault)
    | .ok s t =>
      if tableBad r.tcount t then .ok (rejectLaunch s c l (some r) .badRecord)
      else .ok (acceptFarm s c l r k h heritage ls (bankWords bank) (tableEntries r.tcount t))

/-- Step 5 for a header of the Zhevdin cores (R242, R72). -/
def launchFit (s : State) (c : Nat) (l : Launch) (r : Rec) (ls : List (Int × Int × Int)) (extra : Nat) (k : Kern) (h : KHead) : Except State State :=
  if capacity s c k then launchRest s c l r ls k h false
  else match chain c l.aspace r extra 15 s h with
  | .waits t => .error t
  | .reject s e => .ok (rejectLaunch s c l (some r) e)
  | .fits s k v => launchRest s c l r ls k v false

/-- A launch processed (R236); an error carries the state of one that waits for a line it reads. (DEDUCED, assumption 40) -/
def processLaunch (s : State) (c : Nat) (l : Launch) : Except State State :=
  match hubRead s l.aspace l.record 160 with
  | .waits t => .error t
  | .fail => .ok (rejectLaunch s c l none .launchFault)
  | .ok s b =>
    let r : Rec := { addr := l.record, bytes := b }
    let ls := match l.queue, r.levels with
      | some _, (lo, _, st) :: rest => (lo, lo + l.tokens.length * st, st) :: rest
      | _, ls => ls
    let extra := if l.queue.isSome then 1 + l.tokens.length else 0
    if r.bad ls then .ok (rejectLaunch s c l (some r) .badRecord)
    else match readHeader s l.aspace r.kernel false with
    | .waits t => .error t
    | .reject s e => .ok (rejectLaunch s c l (some r) e)
    | .ok s h =>
      if h.major = 2 then
        if h.heritageBad then .ok (rejectLaunch s c l (some r) .badHeader)
        else if heritageMinor < h.minor then .ok (rejectLaunch s c l (some r) .unsupported)
        else match heritageEffective r h extra with
        | none => .ok (rejectLaunch s c l (some r) .badRecord)
        | some k => launchRest s c l r ls k h true
      else if !h.routed then .ok (rejectLaunch s c l (some r) .unsupported)
      else match effective r h extra with
      | none => .ok (rejectLaunch s c l (some r) .badRecord)
      | some k => launchFit s c l r ls extra k h

/-- LAUNCH_PROCESS (R236): the oldest launch of a context. -/
def execLaunchProcess (c : Nat) (s : State) : Out :=
  match (s.ctx c).launches with
  | [] => .refused .notEnabled
  | l :: rest =>
    if (s.ctx c).contained || (s.ctx c).containing then .refused .notEnabled
    else match processLaunch (s.modCtx c fun k => { k with launches := rest }) c l with
    | .ok s => .next s
    | .error t => if wakes s t then .next (noted s t) else .refused .notEnabled

/-- A reply to the host. (DESIGN CHOICE, assumption 12) -/
def reply (s : State) (ws : List Word) : State := { s with mgmt := { s.mgmt with replies := s.mgmt.replies ++ [ws] } }

/-- The host's requests of CXL.io are dropped (R338): the IDE-required bit is set and they arrive on no established selective stream. -/
def offStream (s : State) : Bool := s.mgmt.ideRequired && !(s.mgmt.hostOn.map fun m => s.mgmt.ideStreams.contains (m.1, m.2, true)).getD false

/-- A host write to a window: it needs a link that is up, and under the IDE-required bit an established IDE stream, without which it
is dropped and answered as an unsupported request (R338, R410, R416). -/
def hostWrite (k : State → Out) (s : State) : Out :=
  if !s.mgmt.linkUp.any id || !s.mgmt.ready then .refused .notEnabled
  else if offStream s then .next (reply s [1])
  else k s

/-- The port's launches that wait (R244). -/
def Context.portWaiting (k : Context) : Nat := k.launches.countP fun l => l.hart.isNone && l.queue.isNone

/-- LAUNCH_PORT_STORE (R244). -/
def execLaunchPortStore (c : Nat) (v : Word) (s : State) : Out :=
  hostWrite (fun s =>
    match tget s.ctxs c with
    | none => .next s
    | some k =>
      if 64 ≤ k.portWaiting || v.toNat % 64 ≠ 0 || v = 0 || k.contained || k.containing then .next (s.setCtx c { k with overflow := true })
      else .next (s.setCtx c { k with
        launches := k.launches ++ [{ record := v.toNat, aspace := k.aspace }], portCount := (k.portCount + 1) % 2 ^ 32 })) s

/-- LAUNCH_QUEUE_CLEAR (R244). -/
def execLaunchQueueClear (c : Nat) (v : Word) (s : State) : Out :=
  hostWrite (fun s =>
    match tget s.ctxs c with
    | none => .next s
    | some k => .next (if v.getLsbD 63 then s.setCtx c { k with overflow := false } else s)) s

/-- No access of a farm is still to be performed (R251): none to host memory is awaited, and no store of its harts waits for an engine. -/
def Farm.quiet (s : State) (f : Farm) : Bool :=
  f.hostLines == [] && !regionsOwned s f && (s.orphans.all fun o => o.1 != f.ctx || o.2.1 != f.id)
    && (farmHarts s f.ctx f.id).all fun u => (s.hart u).hostLines == [] && !drainWaits s u fun _ => true

/-- The host completes the `k`-th access to host memory that the ended harts of a farm have left (R187, R251). -/
def farmAcknowledge (c f k : Nat) (s : State) : Out :=
  match s.farm? c f with
  | none => .refused .notEnabled
  | some x =>
    match x.hostLines[k]? with
    | none => .refused .notEnabled
    | some (asid, line) =>
      if !s.mgmt.linkUp.any id then .refused .notEnabled
      else .next (flushLine (s.setFarm { x with hostLines := x.hostLines.take k ++ x.hostLines.drop (k + 1) }) asid line)

/-- FARM_END (R251): a farm whose strips or crews have all ended, with none of its accesses awaited. -/
def execFarmEnd (c f : Nat) (s : State) : Out :=
  match s.farm? c f with
  | some x =>
    if (x.code == .accepted || x.code == .held) && x.finished && x.quiet s then .next (endFarm s x)
    else .refused .notEnabled
  | none => .refused .notEnabled

/-! ## FARM, FARMWAIT and TQPUSH (R287, R288) -/

/-- FARM (R287): the launch is enqueued once, and xd is reserved until it has been processed. -/
def execFarm (d a : Reg) (s : State) : Out :=
  issue { cls := 6, xr := [a], xw := [d] } noIll anyFmt (fun s =>
    let h := s.me
    let l : Launch := { record := (h.rx a).toNat, aspace := h.aspace, hart := some (s.cur, s.nextId) }
    let n := s.nextId
    let s := ({ s with nextId := n + 1 }).modCtx h.ctx fun k => { k with launches := k.launches ++ [l] }
    finish (fun h => { h with farmPend := h.farmPend ++ [(n, d)] }) s) s

/-- FARMWAIT (R287): waits for DONE, then acquires at .s. (DEDUCED, assumption 41) -/
def execFarmwait (d a : Reg) (s : State) : Out :=
  issue { cls := 6, xr := [a], xw := [d] } noIll anyFmt (fun s =>
    let h := s.me
    let id := bits (h.rx a).toNat 31 0
    let began := h.farmWait == some id
    if (h.rx a).toNat = h.farm ∧ h.role ≠ .mender then stop .illegalOp s
    else
      let ended (w : Word) : Out := finish (fun h => h.wx d w) (acquire 3 s)
      match (if (h.rx a).toNat < 2 ^ 32 then s.farm? h.ctx id else none) with
      | none => ended (statusWord id 0 .done)
      | some f =>
        match f.code with
        | .done | .contained => ended (if began then f.word else statusWord id 0 .done)
        | _ => waitOn 5 true (s.modMe fun h => { h with farmWait := some id })) s

/-- A block of tokens handed to the hub; a queue that is not the context's discards it (R266). -/
def handTokens (s : State) (c q : Nat) (ts : List (BitVec 32)) : State :=
  match tget s.hives q with
  | some h => if h.ctx = c ∧ ts ≠ [] then { s with hives := tput s.hives q { h with pending := h.pending ++ [ts] } } else s
  | none => s

/-- TQPUSH (R288): a release at .d, then the active elements below vl in order. (DEDUCED, assumption 70) -/
def execTqpush (hd : Hdr) (m : Option MR) (vt : VR) (xq _xc : Reg) (s : State) : Out :=
  issue { cls := 33, hdr := some hd, xr := [xq], vr := [vt], mr := m.toList } noIll (fun s => s.me.fmt vt == some .i32)
    (fun s =>
      let h := s.me
      let v := h.srcV false vt
      let em := h.emask m
      let ts := ((List.range h.vl).filter fun e => activeAt em e).map v.slot
      afterDrain 7 s.cur (fun s => finishL hd id (handTokens (performAt s s.cur 2 true true true true) h.ctx (h.rx xq).toNat ts)) s) s

/-- Tokens written to a queue's ring from the count of those ever appended (R266). -/
def ringTokens (s : State) (k : Context) (ring : Nat) : Nat → List (BitVec 32) → State
  | _, [] => s
  | n, t :: r =>
    ringTokens ((hubWrite s k.aspace (ring + 4 * (n % 4096)) (bytesOf 4 t.toNat)).getD s) k ring (n + 1) r

/-- TOKEN_BLOCK_APPEND (R266): the oldest block that waits for a queue, once there is room. A threshold that it reaches makes no second launch in
the hub cycle of the timer's (R267). -/
def execTokenBlockAppend (q : Nat) (s : State) : Out :=
  match tget s.hives q with
  | none => .refused .notEnabled
  | some h =>
    match h.pending with
    | [] => .refused .notEnabled
    | b :: rest =>
      if 4096 < h.tokens.length + b.length then .refused .notEnabled
      else
        let h' := { h with pending := rest, tokens := h.tokens ++ b, pushed := h.pushed + b.length
                           timer := if h.tokens = [] then some s.hub else h.timer }
        let s := ringTokens { s with hives := tput s.hives q h' } (s.ctx h.ctx) h.ring.toNat h.pushed b
        .next (hiveLaunch s q (h.tokens.length < h.threshold && h.threshold ≤ h'.tokens.length && h.timerAt != some s.hub))

/-- HIVE_TIMER_EXPIRY (R267). -/
def execHiveTimerExpiry (q : Nat) (s : State) : Out :=
  match tget s.hives q with
  | none => .refused .notEnabled
  | some h =>
    match h.timer with
    | none => .refused .notEnabled
    | some t =>
      if h.limit = 0 || h.due || s.hub < t + h.limit then .refused .notEnabled
      else .next (hiveLaunch { s with hives := tput s.hives q { h with due := true, timerAt := some s.hub } } q true)

/-- The queue of a context by its number in the window (R265). -/
def hiveOf (s : State) (c q : Nat) : Option Hive := (tget s.hives q).bind fun h => if h.ctx = c then some h else none

/-- HIVE_BINDING_WRITE (R265): a queue that is bound launches when a trigger condition holds already. (DESIGN CHOICE, assumption 83) -/
def execHiveBindingWrite (c q : Nat) (v : Word) (s : State) : Out :=
  hostWrite (fun s =>
    match hiveOf s c q with
    | none => .next s
    | some h =>
      let h' := if v = 0 then { h with binding := 0, tokens := [], timer := none, due := false } else { h with binding := v }
      .next (hiveLaunch { s with hives := tput s.hives q h' } q (h.binding == 0 && (h'.due || h'.threshold ≤ h'.tokens.length)))) s

/-- The bound record's effective constant words (R265); 0 where they cannot be read. -/
def boundConsts (s : State) (h : Hive) : Nat :=
  let asp := (s.ctx h.ctx).aspace
  if h.binding = 0 then 0
  else match hubRead s asp h.binding.toNat 160 with
  | .ok s b =>
    let n := fieldAt b 48 4
    if n ≠ 0 then n
    else match hubRead s asp (fieldAt b 0 8) 96 with
    | .ok _ k => fieldAt k 60 4
    | _ => 0
  | _ => 0

/-- HIVE_CONTROL_WRITE (R265): a threshold that the tokens held reach already triggers at once. (DESIGN CHOICE, assumption 83) -/
def execHiveControlWrite (c q : Nat) (v : Word) (s : State) : Out :=
  hostWrite (fun s =>
    match hiveOf s c q with
    | none => .next s
    | some h =>
      let h' := { h with control := v }
      let t := h'.threshold
      if bits v.toNat 63 48 ≠ 0 ∨ t = 0 ∨ 4096 < t ∨ h'.allowed = 0 ∨ 4096 < boundConsts s h + 1 + t then
        .next { s with hives := tput s.hives q { h with refused := true } }
      else
        let fire : Bool := t ≤ h.tokens.length && (h.due || h.threshold = 0 || h.tokens.length < h.threshold)
        .next (hiveLaunch { s with hives := tput s.hives q { h' with refused := false } } q fire)) s

end Sys2Proof.Machine
end

