-- ==== Sys2Proof/Machine/Perm.lean ====
section
/-! DEFINITION. Permutations and moves, reductions, VQNORM, VDOT4 and streams (spec/05_vector_ops.md R117–R120,
spec/06_matrix_ops.md R146, spec/12_control_ops.md R285, R286). Of these only VID, VSPLAT and VDOT4 take up at vresume (R102,
R146); the others execute whole. -/

namespace Sys2Proof.Machine

/-- The frame of an instruction that ignores vresume (R31). -/
def Hart.frame0 (h : Hart) (lat : Lat) (m : Option MaskBits) (d : VR) (rt : Tag) (pair : Bool) (op : Nat → Nat) : Hart :=
  ({ h with vresume := 0 } : Hart).frame lat m d rt pair 0 fun e => (op e, 0)

/-- A whole element of an operand: a slot, or a pair element (R32). -/
def Opd.el (o : Opd) (pair : Bool) (e : Nat) : Nat :=
  match o with
  | .reg lo hi => elem pair lo hi e
  | .imm p => p

/-! ## VPERM (R117, R118) -/

/-- A permutation of the elements of one register or pair: `src e` is the element of the source that goes to `e`, none for zero
bits; `act` the active elements; `occ` chimes are its occupancy (R122). -/
def permute (hd : Hdr) (m : Option MR) (d a : VR) (more : List VR) (xr : List Reg) (accept : Fmt → Bool) (ok : State → Bool) (lat occ : Nat)
    (act : Hart → Option MaskBits) (src : Hart → Nat → Option Nat) (s : State) : Out :=
  issue { cls := 17, hdr := some hd, mr := m.toList, vr := opRegs (s.me.fmt a) a ++ more, vw := opRegs (s.me.fmt a) d, xr := xr } noIll
    (fun s => ewFmt accept (some d) a none none s && ok s)
    (finishL hd fun h =>
      let f := (h.fmt a).getD .i32
      let x := h.opd false a
      let from_ := src h
      (h.frame0 (.fixed lat lat) (act h) d (h.rv a).tag f.pair fun e =>
        match from_ e with
        | some i => x.el f.pair i
        | none => 0).occupy (occ * h.chime)) s

/-- A slide accepts the formats of R117 and MASKIMG. -/
def slideFmt (f : Fmt) : Bool := bitFmt f || f == .mimg

/-- The active elements of a mask from an index up, below vl. -/
def activeFrom (h : Hart) (m : Option MR) (a : Nat) : Option MaskBits :=
  let em := h.emask m
  some (mbuild h.vl fun e => activeAt em e && a ≤ e)

/-- VSLIDEUP (R117): elements below the amount are treated as masked off. -/
def execVslideup (hd : Hdr) (m : Option MR) (d a : VR) (n : Src) (s : State) : Out :=
  permute hd m d a [] (srcX n) slideFmt anyFmt 4 1 (fun h => activeFrom h m (srcCount h n)) (fun h e => some (e - srcCount h n)) s

/-- VSLIDEDN (R117). -/
def execVslidedn (hd : Hdr) (m : Option MR) (d a : VR) (n : Src) (s : State) : Out :=
  permute hd m d a [] (srcX n) slideFmt anyFmt 4 1 (fun h => h.emask m)
    (fun h e => if e + srcCount h n < h.vl then some (e + srcCount h n) else none) s

/-- VGATHR (R117): INT32 indices, read unsigned; every index is read before the destination is written, also where the second register of a
pair is the index register. (DESIGN CHOICE, assumption 77) -/
def execVgathr (hd : Hdr) (m : Option MR) (d a i : VR) (s : State) : Out :=
  permute hd m d a [i] [] bitFmt (fun s => s.me.fmt i == some .i32) 6 2 (fun h => h.emask m)
    (fun h e =>
      let k := ((h.srcV false i).slot e).toNat
      if k < h.vl then some k else none) s

/-- The active elements of a mask below vl, ascending. -/
def activeList (h : Hart) (m : MR) : List Nat :=
  let b := h.srcM m
  (List.range h.vl).filter fun e => mbit b e

/-- VCOMPR (R117): every position below vl is written. -/
def execVcompr (hd : Hdr) (m : MR) (d a : VR) (s : State) : Out :=
  permute hd (some m) d a [] [] bitFmt anyFmt 5 1 (fun _ => none) (fun h e => (activeList h m)[e]?) s

/-- VEXPND (R117). -/
def execVexpnd (hd : Hdr) (m : MR) (d a : VR) (s : State) : Out :=
  permute hd (some m) d a [] [] bitFmt anyFmt 5 1 (fun h => some (h.srcM m))
    (fun h e =>
      let b := h.srcM m
      some ((List.range e).countP fun i => mbit b i)) s

/-- The integer `i` as a value of a format (R117). -/
def Fmt.index (f : Fmt) (i : Nat) : Nat × Fl := if f.isFloat then f.ff.put 0 false (intVal i 0) else f.sat i

/-- The formats VID and VSPLAT write. (DEDUCED, assumption 34) -/
def splatFmt (t : Tag) (d : VR) : Bool :=
  match fmtOf t with
  | some f => bitFmt f && okDst f d
  | none => false

/-- VID (R117). -/
def execVid (hd : Hdr) (m : Option MR) (d : VR) (t : Tag) (s : State) : Out :=
  let f := (fmtOf t).getD .i32
  issue { cls := 17, fmts := (fmtBit f).toList, hdr := some hd, mr := m.toList, vw := opRegs (some f) d, chain := true } noIll
    (fun _ => splatFmt t d)
    (finishL hd fun h =>
      h.frame (.fixed 1 3) (h.emask m) d t f.pair 0 fun e => pack f.width fun j => f.index (if f.pair then e else e * (32 / f.width) + j)) s

/-- VSPLAT (R117, R88). -/
def execVsplat (hd : Hdr) (m : Option MR) (d : VR) (b : Src) (t : Tag) (s : State) : Out :=
  let f := (fmtOf t).getD .i32
  issue { cls := 17, fmts := (fmtBit f).toList, hdr := some hd, mr := m.toList, xr := srcX b, vw := opRegs (some f) d, chain := true } noIll
    (fun _ => splatFmt t d)
    (finishL hd fun h =>
      let (p, fl) := adopt h f b
      (h.frame (.fixed 1 3) (h.emask m) d t f.pair fl fun _ => pack f.width fun _ => (p, 0)).atWork (adopts b) (h.chime + 3)) s

/-- What VMVXS writes (R118): a pair element, a sign-extended INT32 or FIXED 32-bit slot, else a zero-extended slot. -/
def movedOut (f : Fmt) (v : Nat) : Word :=
  match f with
  | .i32 => BitVec.ofInt 64 (sint 32 v)
  | .fixed 32 _ => BitVec.ofInt 64 (sint 32 v)
  | _ => BitVec.ofNat 64 v

/-- VMVXS (R118). -/
def execVmvxs (hd : Hdr) (d : Reg) (a : VR) (i : Src) (s : State) : Out :=
  issue { cls := 17, hdr := some hd, vr := opRegs (s.me.fmt a) a, xr := srcX i, xw := [d], final := true } noIll (fun s => s.me.okSrc (· != .empty) a)
    (finishL hd fun h =>
      let f := (h.fmt a).getD .i32
      let n := srcCount h i
      h.wx d (if h.vl ≤ n then 0 else movedOut f ((h.opd false a).el f.pair n))) s

/-- VMVSX (R118): the tag and every other slot keep their values. -/
def execVmvsx (hd : Hdr) (d : VR) (a : Reg) (i : Src) (s : State) : Out :=
  issue { cls := 17, hdr := some hd, vw := opRegs (s.me.fmt d) d, xr := a :: srcX i } noIll (fun s => s.me.okSrc (· != .empty) d)
    (finishL hd fun h =>
      let f := (h.fmt d).getD .i32
      let n := srcCount h i
      let x := h.rx a
      if h.vl ≤ n then h
      else
        let g := h.putV (.fixed 3 3) d ((h.rv d).setSlot n (x.setWidth 32))
        let g := if f.pair then g.putV (.fixed 3 3) (vplus d 1) ((h.rv (vplus d 1)).setSlot n ((x >>> 32).setWidth 32)) else g
        (keepMarks h 1 g).occupy 1) s

/-! ## VRED (R119, R95, R96) -/

/-- The formats VRED accepts. -/
def redFmt (f : Fmt) : Bool :=
  match f with
  | .i32 | .f32 | .fixed 32 _ => true
  | _ => false

/-- One addition of a tree: an absent operand passes the other through unchanged (R95). -/
def treeAdd (f : Fmt) (a b : Option Nat) : Option Nat × Fl :=
  match a, b with
  | some x, some y => if f.isFloat then (let r := FF.f32.add 0 x y; (some r.1, r.2)) else (some ((x + y) % 2 ^ 32), 0)
  | none, y => (y, 0)
  | x, none => (x, 0)

/-- One level of a tree. -/
def treeLevel (f : Fmt) : List (Option Nat) → List (Option Nat) × Fl
  | a :: b :: l =>
    let (r, fl) := treeLevel f l
    let (x, gl) := treeAdd f a b
    (x :: r, fl ||| gl)
  | l => (l, 0)

/-- Five levels: the result of a cluster (R95). -/
def treeSum (f : Fmt) : Nat → List (Option Nat) → Fl → Nat × Fl
  | 0, l, fl => ((l.headD none).getD 0, fl)
  | n + 1, l, fl =>
    let (r, gl) := treeLevel f l
    treeSum f n r (fl ||| gl)

/-- The results of the clusters of an instruction (R95): masked-off elements are +0, positions from vl up absent. -/
def clusterSums (f : Fmt) (vl : Nat) (act : Nat → Bool) (x : Nat → Nat) : List (Nat × Fl) :=
  tabulate ((vl + 31) / 32) fun c =>
    treeSum f 5 (tabulate 32 fun j =>
      let e := 32 * c + j
      if vl ≤ e then none else some (if act e then x e else 0)) 0

/-- The sum an instruction produces: a NaN is the canonical one, also where it has passed through its tree alone (R79). (DEDUCED, assumption 75) -/
def sumOut (f : Fmt) (w : Nat) : Nat := if f.isFloat && (FF.f32.read w).isNan then FF.f32.qnan else w

/-- A signalling element that a float sum reads raises NV (R79), whether or not an addition has a partner for it. (DEDUCED, assumption 75) -/
def sumSig (f : Fmt) (vl : Nat) (act : Nat → Bool) (x : Nat → Nat) : Fl :=
  if f.isFloat then (List.range vl).foldl (fun fl e => if act e then fl ||| (FF.f32.read (x e)).sig else fl) 0 else 0

/-- The fold of VREDSUM: ascending, from cluster 0 (R95). -/
def foldSums (f : Fmt) (l : List (Nat × Fl)) : Nat × Fl :=
  match l with
  | [] => (0, 0)
  | a :: r => r.foldl (fun p q =>
    let (x, fl) := treeAdd f (some p.1) (some q.1)
    (x.getD 0, p.2 ||| q.2 ||| fl)) a

/-- The reduction to a minimum or maximum of the active elements (R96, R119). -/
def extremum (f : Fmt) (hi : Bool) (l : List Nat) : Nat × Fl :=
  match l with
  | [] => (if f.isFloat then FF.f32.pat hi FF.f32.infMag else f.wrap (if hi then f.lo else f.hi), 0)
  | a :: r =>
    let op (x y : Nat) : Nat × Fl := if f.isFloat then FF.f32.minmax hi x y
      else (if (f.int x < f.int y) == hi then y else x, 0)
    r.foldl (fun p y =>
      let (v, fl) := op p.1 y
      (v, p.2 ||| fl)) (op a a)

/-- A reduction: slots of the result from 0 up, zero bits elsewhere (R119). -/
def reduction (hd : Hdr) (m : Option MR) (d a : VR) (g : Fmt → Nat → (Nat → Bool) → (Nat → Nat) → List Nat × Fl) (s : State) : Out :=
  issue { cls := 18, hdr := some hd, mr := m.toList, vr := [a], vw := [d] } noIll (ewFmt redFmt none a none none)
    (finishL hd fun h =>
      if h.vl = 0 then h
      else
        let f := (h.fmt a).getD .i32
        let x := h.srcV false a
        let em := h.emask m
        let (r, fl) := g f h.vl (activeAt em) fun e => (x.slot e).toNat
        ((h.putV .board d (VReg.build (h.rv a).tag h.vl fun e => BitVec.ofNat 32 (r.getD e 0))).raise fl).atWork true (10 + (h.vl + 31) / 32)) s

/-- VREDSUM (R119). -/
def execVredsum (hd : Hdr) (m : Option MR) (d a : VR) (s : State) : Out :=
  reduction hd m d a (fun f vl act x =>
    let (v, fl) := foldSums f (clusterSums f vl act x)
    ([sumOut f v], fl ||| sumSig f vl act x)) s

/-- VREDC (R119): one result per cluster. -/
def execVredc (hd : Hdr) (m : Option MR) (d a : VR) (s : State) : Out :=
  reduction hd m d a (fun f vl act x =>
    let l := clusterSums f vl act x
    (l.map fun p => sumOut f p.1, l.foldl (fun fl p => fl ||| p.2) (sumSig f vl act x))) s

/-- A minimum or maximum over the active elements. -/
def redExtremum (hi : Bool) (f : Fmt) (vl : Nat) (act : Nat → Bool) (x : Nat → Nat) : List Nat × Fl :=
  let (v, fl) := extremum f hi (((List.range vl).filter act).map x)
  ([v], fl)

/-- VREDMAX (R119). -/
def execVredmax (hd : Hdr) (m : Option MR) (d a : VR) (s : State) : Out := reduction hd m d a (redExtremum true) s
/-- VREDMIN (R119). -/
def execVredmin (hd : Hdr) (m : Option MR) (d a : VR) (s : State) : Out := reduction hd m d a (redExtremum false) s

/-! ## VQNORM (R120) -/

/-- The formats and registers of VQNORM: FIXED 16-bit or 32-bit with 2s ≤ 31, and an even destination. -/
def qnormOk (d : VR) (f : Fmt) : Bool :=
  match f with
  | .fixed w sc => w != 64 && 2 * sc ≤ 31 && d.val % 2 == 0
  | _ => false

/-- VQNORM (R120): the exact sum of squares of the active elements, clamped once to INT64. -/
def execVqnorm (hd : Hdr) (m : Option MR) (d a : VR) (s : State) : Out :=
  issue { cls := 20, hdr := some hd, mr := m.toList, vr := [a], vw := [d, vplus d 1] } noIll (ewFmt (qnormOk d) none a none none)
    (finishL hd fun h =>
      if h.vl = 0 then h
      else
        let f := (h.fmt a).getD .i32
        let x := h.opd false a
        let em := h.emask m
        let q : Int := (List.range h.vl).foldl (fun acc e =>
          if activeAt em e then (List.range (32 / f.width)).foldl (fun acc j => acc + f.int (x.sub f.width e j) * f.int (x.sub f.width e j)) acc
          else acc) 0
        let rf : Fmt := .fixed 64 (2 * f.frac)
        let (v, fl) := rf.sat q
        let g := h.putV .board d (VReg.build (tagOf rf) 1 fun _ => BitVec.ofNat 32 v)
        let g := g.putV .board (vplus d 1) (VReg.build (tagOf rf) 1 fun _ => BitVec.ofNat 32 (v / 2 ^ 32))
        (g.raise fl).atWork true (8 + (h.vl + 31) / 32)) s

/-! ## VDOT4 (R146) -/

/-- The micro-step a bad source of VDOT4 is found in: 0 for a factor, 4 for the destination. -/
def dotMicro (a b : VR) (h : Hart) : Option (Fin 8) :=
  if [a, b].any fun r => h.marks.getLsbD r.val || h.vBad.getLsbD r.val then some 0 else some 4

/-- VDOT4 (R146): four products and the destination, summed exactly and wrapped. -/
def execVdot4 (hd : Hdr) (m : Option MR) (d a b : VR) (s : State) : Out :=
  issue { cls := 35, hdr := some hd, mr := m.toList, vr := [a, b, d], vw := [d], micro := dotMicro a b } noIll
    (fun s => ewFmt (fun f => f == .i8 || f == .u8) none a (some (.v b)) none s && s.me.fmt d == some .i32)
    (finishL hd fun h =>
      let f := (h.fmt a).getD .i8
      let x := h.opd false a
      let y := h.opd false b
      let z := h.srcV false d
      (h.frame .board (h.emask m) d (tagOf .i32) false 0 fun e =>
        let sum : Int := (List.range 4).foldl (fun acc j => acc + f.int (x.sub 8 e j) * f.int (y.sub 8 e j)) (sint 32 (z.slot e).toNat)
        (wrapNat 32 sum, 0)).atWork false (Lat.board.span h.chime)) s

/-! ## Streams (R285, R286) -/

/-- A stream's descriptor (R285). -/
structure Stream where
  at_  : Nat
  base : Nat
  cap  : Nat
  head : Nat
  tail : Nat
  tag  : Tag
deriving DecidableEq, Repr

/-- A power of two. -/
def isPow2 (n : Nat) : Bool := n != 0 && 2 ^ Nat.log2 n == n

/-- The descriptor of stream `k` of a hart, when it keeps the rules of R285. (DEDUCED, assumption 62) -/
def readStream (s : State) (h : Hart) (k : Nat) : Option Stream :=
  let size := winSizeOf s h
  if size < 2048 then none
  else
    let at_ := size - 2048 + 128 * h.rank + 32 * k
    let w (o : Nat) := natOf (winRead s h.crew (at_ + o) 4)
    let rest := natOf (winRead s h.crew (at_ + 20) 12)
    if w 0 % 128 = 0 ∧ isPow2 (w 4) ∧ 32 ≤ w 4 ∧ w 4 ≤ 2 ^ 20 ∧ w 0 + 4 * w 4 ≤ size - 2048 ∧ w 16 < 1024 ∧ rest = 0 then
      some { at_ := at_, base := w 0, cap := w 4, head := w 8, tail := w 12, tag := BitVec.ofNat 10 (w 16) }
    else none

/-- The address of a hart's stream descriptor, for a fault record (R285). -/
def streamAddr (s : State) (k : Nat) : Word :=
  BitVec.ofInt 64 ((winBase : Int) + winSizeOf s s.me - 2048 + 128 * s.me.rank + 32 * k)

/-- A stream instruction goes on with its descriptor, or freezes: with DATA_ERROR where the descriptor holds an error (R380), with CREW_WINDOW
where it breaks a rule (R285). It waits for a quad store in retention (R381); a push or a pop (`moves`) waits for an earlier engine operation of
the hart on the stream's bytes (R168). -/
def withStream (k : Nat) (moves : Bool) (go : Stream → State → Out) (s : State) : Out :=
  let at_ := winSizeOf s s.me - 2048 + 128 * s.me.rank + 32 * k
  if storeAsleep s s.me.crew then ownedWait s
  else if 2048 ≤ winSizeOf s s.me && winBad s s.me.crew at_ 32 then stopAt .dataError (streamAddr s k) (some 0) s
  else match readStream s s.me k with
  | some d => if moves && (winBefore s.me d.at_ 32 || winBefore s.me d.base (4 * d.cap)) then ownedWait s else go d s
  | none => stopAt .crewWindow (streamAddr s k) (some 0) s

/-! ## Window bank conflicts (R166) -/

/-- The most distinct words one bank serves for a cluster. -/
def worstBank (words : List Nat) : Nat :=
  let ws := words.eraseDups
  ws.foldl (fun m w => max m (ws.countP fun v => v % 64 == w % 64)) 0

/-- The cycles beyond the first of each cluster, over (element, window offset) pairs. -/
def bankExtra (l : List (Nat × Nat)) : Nat :=
  (l.map fun p => p.1 / 32).eraseDups.foldl (fun a c => a + (worstBank ((l.filter fun p => p.1 / 32 == c).map fun p => p.2 / 16) - 1)) 0

/-- The ring slots a stream instruction accesses from a position, each with its element (R285). -/
def Stream.cells (d : Stream) (k : Nat) (els : List Nat) : List (Nat × Nat) :=
  els.mapIdx fun i e => (e, d.base + 4 * ((k + i) % d.cap))

/-- A hart has accessed a stream's descriptor and some cells of its ring with its vector agent (R285, R174). -/
def Stream.accessed (d : Stream) (cells : List (Nat × Nat)) (h : Hart) : Hart :=
  h.accessed true ((winBase + d.at_, 32) :: cells.map fun c => (winBase + c.2, 4))

/-- Slots written into a stream's ring from a position up. -/
def pushSlots (crew base cap : Nat) : Nat → List Slot → State → State
  | _, [], s => s
  | k, v :: l, s => pushSlots crew base cap (k + 1) l (winWrite s crew (base + 4 * (k % cap)) (bytesOf 4 v.toNat))

/-- VSPUSH (R286). -/
def execVspush (hd : Hdr) (m : MR) (a : VR) (k : Fin 4) (s : State) : Out :=
  issue { cls := 19, hdr := some hd, mr := [m], vr := [a], acc := some true } noIll (ewFmt (fun f => f != .empty && !f.pair) none a none none)
    (fun s =>
      if s.me.vl = 0 then finishL hd id s
      else withStream k.val true (fun d s =>
        let h := s.me
        let x := h.srcV false a
        let els := activeList h m
        let l := els.map x.slot
        let used := wrapNat 32 ((d.tail : Int) - d.head)
        if d.head ≠ d.tail ∧ d.tag ≠ x.tag then stop .format s
        else if d.cap < (used + l.length) % 2 ^ 32 then stopAt .crewWindow (streamAddr s k.val) (some 0) s
        else
          let s := ((d.at_, 32) :: (d.cells d.tail els).map fun c => (c.2, 4)).foldl (fun s c => coverWalks s s.cur none c.1 c.2) s
          let s := pushSlots h.crew d.base d.cap d.tail l s
          let s := winWrite s h.crew (d.at_ + 12) (bytesOf 4 ((d.tail + l.length) % 2 ^ 32))
          let s := if d.head = d.tail then winWrite s h.crew (d.at_ + 16) (bytesOf 4 x.tag.toNat) else s
          finishL hd (fun g => d.accessed (d.cells d.tail els) (g.spend 6 (bankExtra (d.cells d.tail els)))) s) s) s

/-- VSPOP (R286): the stream's tag is checked on entry (R64); a reserved one freezes with FORMAT, since no instruction produces a reserved tag
(R35). (DEDUCED, assumption 62) -/
def execVspop (hd : Hdr) (d : VR) (k : Fin 4) (s : State) : Out :=
  issue { cls := 19, hdr := some hd, vw := [d], acc := some true } noIll anyFmt
    (fun s =>
      if s.me.vl = 0 then finishL hd id s
      else withStream k.val true (fun st s =>
        let h := s.me
        if (match tagBit st.tag with
          | some b => !h.kern.mask.getLsbD b
          | none => false) then stop .undeclaredOp s
        else if fmtOf st.tag = none then stop .format s
        else
          let n := min h.vl (wrapNat 32 ((st.tail : Int) - st.head))
          let cells := st.cells st.head (List.range n)
          match cells.find? fun c => winBad s h.crew c.2 4 with
          | some c => stopAt .dataError (BitVec.ofNat 64 (winBase + c.2)) (some 0) s
          | none =>
          let v := VReg.build st.tag n fun e => BitVec.ofNat 32 (natOf (winRead s h.crew (st.base + 4 * ((st.head + e) % st.cap)) 4))
          let s := winWrite (coverWalks s s.cur none st.at_ 32) h.crew (st.at_ + 8) (bytesOf 4 ((st.head + n) % 2 ^ 32))
          finishL hd (fun h => st.accessed cells ((h.putV .board d v).spend 6 (bankExtra cells))) s) s) s

/-- VSCNT (R286). -/
def execVscnt (hd : Hdr) (d : Reg) (k : Fin 4) (s : State) : Out :=
  issue { cls := 19, hdr := some hd, xw := [d], acc := some true } noIll anyFmt
    (withStream k.val false fun st s => finishL hd (fun h => st.accessed [] (h.wx d (BitVec.ofNat 64 (wrapNat 32 ((st.tail : Int) - st.head))))) s) s

end Sys2Proof.Machine
end

