-- ==== Sys2Proof/Machine/LoadStore.lean ====
section
/-! DEFINITION. Scalar memory, atomics, reduction updates, fences and cache operations, vector loads and stores
(spec/09_memory_ops.md R188–R210, spec/08_ordering.md R166, R174–R182). -/

namespace Sys2Proof.Machine

/-! ## Scalar loads and stores (R192) -/

/-- A scalar memory instruction's failed access: the freeze leaves vresume alone. -/
def memFail (c : Cause) (a : Nat) (s : State) : Out := stopAt c (BitVec.ofNat 64 a) none s

/-- The address of a scalar access (R192). -/
def scalarAddr (h : Hart) (a : Reg) (i : BitVec 15) : Nat := (h.rx a + i.signExtend 64).toNat

/-- A load of a hart from a line reaches beyond its core's L1 (R290). -/
def beyondL1 (s : State) (pol : Nat) (a : Nat) : Bool :=
  !inWindow a && (pol != 0 || !s.l1.any fun l => l.core == s.me.core && l.asid == asidOf s.me.aspace && l.line == a / 64)

/-- A scalar result that lands later (R289), awaited unless it goes to x0: one request is outstanding for it (R191). -/
def Hart.awaitX (h : Hart) (d : Reg) (beyond : Bool) (late : Option Late) : Hart :=
  { h with landing := if d = 0 then h.landing else h.landing ++ [{ vregs := [], masks := [], xregs := [d], reqs := 1, beyond := beyond, late := late }] }

/-- A scalar load of `n` bytes; a load into x0 is performed and its value discarded. -/
def scalarLoad (n : Nat) (signed : Bool) (d a : Reg) (i : BitVec 15) (s : State) : Out :=
  issue { cls := 0, xr := [a], xw := [d], acc := some false } noIll anyFmt (fun s =>
    let va := scalarAddr s.me a i
    let far := beyondL1 s 0 va
    match loadAcc s s.cur false 0 va n n with
    | .bad c => memFail c va s
    | .owned s => ownedWait s
    | .ok s b =>
      let w : Word := if signed then BitVec.ofInt 64 (sint (8 * n) (natOf b)) else BitVec.ofNat 64 (natOf b)
      finish (fun h => ((h.accessed false [(va, n)]).wx d w).awaitX d far
        (some { vec := false, asid := asidOf h.aspace, x := some (d, n, signed, va) })) s) s

/-- LB (R192). -/
def execLb (d a : Reg) (i : BitVec 15) (s : State) : Out := scalarLoad 1 true d a i s
/-- LH (R192). -/
def execLh (d a : Reg) (i : BitVec 15) (s : State) : Out := scalarLoad 2 true d a i s
/-- LW (R192). -/
def execLw (d a : Reg) (i : BitVec 15) (s : State) : Out := scalarLoad 4 true d a i s
/-- LD (R192). -/
def execLd (d a : Reg) (i : BitVec 15) (s : State) : Out := scalarLoad 8 true d a i s
/-- LBU (R192). -/
def execLbu (d a : Reg) (i : BitVec 15) (s : State) : Out := scalarLoad 1 false d a i s
/-- LHU (R192). -/
def execLhu (d a : Reg) (i : BitVec 15) (s : State) : Out := scalarLoad 2 false d a i s
/-- LWU (R192). -/
def execLwu (d a : Reg) (i : BitVec 15) (s : State) : Out := scalarLoad 4 false d a i s

/-- A scalar store of `n` bytes. -/
def scalarStore (n : Nat) (src a : Reg) (i : BitVec 15) (s : State) : Out :=
  issue { cls := 0, xr := [src, a], acc := some false } noIll anyFmt (fun s =>
    let va := scalarAddr s.me a i
    match storeAcc s s.cur false 0 va (bytesOf n (s.me.rx src).toNat) n with
    | .bad c => memFail c va s
    | .owned s => ownedWait s
    | .ok s _ => finish (·.accessed false [(va, n)]) s) s

/-- SB (R192). -/
def execSb (src a : Reg) (i : BitVec 15) (s : State) : Out := scalarStore 1 src a i s
/-- SH (R192). -/
def execSh (src a : Reg) (i : BitVec 15) (s : State) : Out := scalarStore 2 src a i s
/-- SW (R192). -/
def execSw (src a : Reg) (i : BitVec 15) (s : State) : Out := scalarStore 4 src a i s
/-- SD (R192). -/
def execSd (src a : Reg) (i : BitVec 15) (s : State) : Out := scalarStore 8 src a i s

/-! ## Atomics (R203, R180) -/

/-- An AMO: `f old xb xd` is the value written; xd takes the old value, sign-extended at 32 bits. -/
def amo (z : Bool) (d a b : Reg) (f : Nat → Nat → Nat → Nat → Nat) (s : State) : Out :=
  issue { cls := 3, xr := [a, b, d], xw := [d], acc := some false } noIll anyFmt (fun s =>
    let n := if z then 8 else 4
    let h := s.me
    let va := (h.rx a).toNat
    let src := (h.rx b).toNat % 2 ^ (8 * n)
    let cmp := (h.rx d).toNat % 2 ^ (8 * n)
    match atomicAcc s s.cur false va n (fun old => f (8 * n) old src cmp) with
    | .bad c => memFail c va s
    | .owned s => ownedWait s
    | .ok s old => finish (fun h => ((h.accessed false [(va, n)]).wx d (BitVec.ofInt 64 (sint (8 * n) old))).awaitX d (!inWindow va) none) s) s

/-- AMO.ADD (R203). -/
def execAmoAdd (z : Bool) (d a b : Reg) (s : State) : Out := amo z d a b (fun n x y _ => (x + y) % 2 ^ n) s
/-- AMO.AND (R203). -/
def execAmoAnd (z : Bool) (d a b : Reg) (s : State) : Out := amo z d a b (fun _ x y _ => x &&& y) s
/-- AMO.OR (R203). -/
def execAmoOr (z : Bool) (d a b : Reg) (s : State) : Out := amo z d a b (fun _ x y _ => x ||| y) s
/-- AMO.XOR (R203). -/
def execAmoXor (z : Bool) (d a b : Reg) (s : State) : Out := amo z d a b (fun _ x y _ => x ^^^ y) s
/-- AMO.MIN (R203): signed. -/
def execAmoMin (z : Bool) (d a b : Reg) (s : State) : Out := amo z d a b (fun n x y _ => if sle n x y then x else y) s
/-- AMO.MAX (R203): signed. -/
def execAmoMax (z : Bool) (d a b : Reg) (s : State) : Out := amo z d a b (fun n x y _ => if sle n x y then y else x) s
/-- AMO.MINU (R203). -/
def execAmoMinu (z : Bool) (d a b : Reg) (s : State) : Out := amo z d a b (fun _ x y _ => min x y) s
/-- AMO.MAXU (R203). -/
def execAmoMaxu (z : Bool) (d a b : Reg) (s : State) : Out := amo z d a b (fun _ x y _ => max x y) s
/-- AMO.SWAP (R203). -/
def execAmoSwap (z : Bool) (d a b : Reg) (s : State) : Out := amo z d a b (fun _ _ y _ => y) s
/-- CAS (R203): compared with xd as read at issue. -/
def execCas (z : Bool) (d a b : Reg) (s : State) : Out := amo z d a b (fun _ x y c => if x = c then y else x) s

/-! ## Reduction updates (R204, R181) -/

/-- A RED. -/
def red (op : RedOp) (z : Bool) (a b : Reg) (s : State) : Out :=
  issue { cls := 3, xr := [a, b], acc := some false } noIll anyFmt (fun s =>
    let va := (s.me.rx a).toNat
    match redAcc s s.cur false op z va (s.me.rx b) with
    | .bad c => memFail c va s
    | .owned s => ownedWait s
    | .ok s _ => finish (·.accessed false [(va, if z then 8 else 4)]) s) s

/-- RED.ADD (R204). -/
def execRedAdd (z : Bool) (a b : Reg) (s : State) : Out := red .add z a b s
/-- RED.MIN (R204). -/
def execRedMin (z : Bool) (a b : Reg) (s : State) : Out := red .min z a b s
/-- RED.MAX (R204). -/
def execRedMax (z : Bool) (a b : Reg) (s : State) : Out := red .max z a b s
/-- RED.AND (R204). -/
def execRedAnd (z : Bool) (a b : Reg) (s : State) : Out := red .and z a b s
/-- RED.OR (R204). -/
def execRedOr (z : Bool) (a b : Reg) (s : State) : Out := red .or z a b s
/-- RED.XOR (R204). -/
def execRedXor (z : Bool) (a b : Reg) (s : State) : Out := red .xor z a b s
/-- RED.FADD (R204): 32 bits only. -/
def execRedFadd (a b : Reg) (s : State) : Out := red .fadd false a b s

/-! ## Fences (R177, R178, R206) -/

/-- The number of a hart's next pending fence. -/
def Hart.fenceId (h : Hart) : Nat := 1 + h.fences.foldl (fun a f => max a f.id) 0

/-- A fence that cannot be satisfied at once is left to hold the later accesses of its kind (R206): the earlier loads of its kind are performed,
the stores it still waits for are marked, and at .s the lines of host memory it waits for are listed. -/
def leaveFence (sc : Nat) (xs xv ys yv : Bool) (h : Hart) : Hart :=
  { (h.loadsDone xs xv) with
    stores := h.stores.map fun p => if agentStores xs xv p then { p with fenced := h.fenceId :: p.fenced } else p
    fences := h.fences ++ [{ id := h.fenceId, scope := sc, scalar := ys, vector := yv, lines := if sc = 3 then h.hostLines else [] }] }

/-- A fence (R177, R178): the earlier accesses of the kind-X agents (`xs` scalar, `xv` vector) are performed at the scope, then the clean L1
lines go; later accesses of the kind-Y agents (`ys`, `yv`) are held until then, other instructions are not. -/
def fence (sc : Fin 4) (xs xv ys yv : Bool) (s : State) : Out :=
  issue { cls := 4 } noIll anyFmt (fun s =>
    if sc = 0 then finish id (performAt s s.cur 0 xs xv ys yv)
    else if drainWaits s s.cur (agentStores xs xv) then finish (leaveFence sc.val xs xv ys yv) s
    else
      let s := performAt s s.cur sc.val xs xv ys yv
      if sc = 3 ∧ s.me.hostLines ≠ [] then finish (leaveFence 3 xs xv ys yv) s
      else finish id (cleanL1 s s.me.core)) s

/-- FNC.SV (R206). -/
def execFncSv (sc : Fin 4) (s : State) : Out := fence sc true false false true s
/-- FNC.VS (R206). -/
def execFncVs (sc : Fin 4) (s : State) : Out := fence sc false true true false s
/-- FNC.VV (R206). -/
def execFncVv (sc : Fin 4) (s : State) : Out := fence sc false true false true s
/-- FNC.AA (R206). -/
def execFncAa (sc : Fin 4) (s : State) : Out := fence sc true true true true s

/-! ## Cache operations (R207) -/

/-- CFLUSH and CINV: the line of an address under the hart's ASID; nothing in the window; a line an engine owns is handled
after the engine has written it. -/
def cacheOp (drop : Bool) (a : Reg) (s : State) : Out :=
  issue { cls := 4, xr := [a], acc := some false } noIll anyFmt (fun s =>
    let h := s.me
    let va := (h.rx a).toNat
    let asid := asidOf h.aspace
    let line := va / 64
    if inWindow va then finish id s
    else if isOwned s asid line || drainWaits s s.cur (fun p => p.asid == asid && p.va / 64 == line && (!p.vec || p.hvis)) then ownedWait s
    else
      let s := settle s s.cur fun p => p.asid == asid && p.va / 64 == line && (!p.vec || p.hvis)
      let s := recallLine s asid line
      let s := match l2find s asid line with
        | some l => writeBack s l
        | none => s
      let s := if drop then { (dropL1 s asid line) with l2 := s.l2.filter fun l => !(l.asid == asid && l.line == line) }
        else dropL1Core s h.core asid line
      finish (·.accessed false [(64 * line, 64)]) s) s

/-- CFLUSH (R207). -/
def execCflush (a : Reg) (s : State) : Out := cacheOp false a s
/-- CINV (R207). -/
def execCinv (a : Reg) (s : State) : Out := cacheOp true a s

/-! ## Window bank conflicts (R166) -/

/-- The window accesses of the active elements from `start` below `stop`. -/
def windowCells (start stop : Nat) (act : Nat → Bool) (addr : Nat → Nat) : List (Nat × Nat) :=
  ((List.range stop).filter fun e => start ≤ e && act e && inWindow (addr e)).map fun e => (e, addr e - winBase)

/-! ## Vector addresses (R188, R194) -/

/-- A 64-bit address from an integer. -/
def addr64 (z : Int) : Nat := wrapNat 64 z

/-- The access unit of a tag (R188). -/
def unitOf (pair : Bool) : Nat := if pair then 8 else 4

/-- Consecutive elements. -/
def addrUnit (h : Hart) (xa : Reg) (u : Nat) (e : Nat) : Nat := ((h.rx xa).toNat + u * e) % 2 ^ 64

/-- Elements at a signed byte stride. -/
def addrStride (h : Hart) (xa ix : Reg) (e : Nat) : Nat := addr64 ((h.rx xa).toNat + e * (h.rx ix).toInt)

/-- Elements at signed 32-bit byte offsets. -/
def addrIndex (h : Hart) (xa : Reg) (vi : VReg) (e : Nat) : Nat := addr64 ((h.rx xa).toNat + (vi.slot e).toInt)

/-- Elements in strided rows of `n` (R194). -/
def addrRows (h : Hart) (xa ix xc : Reg) (u : Nat) (e : Nat) : Nat :=
  let n := (h.rx xc).toNat
  addr64 ((h.rx xa).toNat + (e / n : Nat) * (h.rx ix).toInt + (u * (e % n) : Nat))

/-! ## Vector loads (R196–R201) -/

/-- How the accesses of a vector load end: all done, a failing element with its cause, or a line an engine owns. A value is
none for a non-resident page under a residency mask. -/
inductive LoadEnd where
  | done (s : State) (vals : List (Option Nat))
  | fail (s : State) (vals : List (Option Nat)) (e : Nat) (c : Cause)
  | owned (s : State)

/-- The accesses of `n` elements from `e` up, each of `len` bytes with alignment `u` (R190, R196); a masked-off element has a
value no one reads. -/
def loadElems (uid pol len u : Nat) (rz : Bool) (addr : Nat → Nat) (act : Nat → Bool) : Nat → Nat → State → List (Option Nat) → LoadEnd
  | 0, _, s, acc => .done s acc.reverse
  | n + 1, e, s, acc =>
    if !act e then loadElems uid pol len u rz addr act n (e + 1) s (some 0 :: acc)
    else
      let a := addr e
      match loadAcc s uid true pol a len u with
      | .ok s b => loadElems uid pol len u rz addr act n (e + 1) s (some (natOf b) :: acc)
      | .owned s => .owned s
      | .bad c =>
        if rz && c == .loadPage && canonical a && !inWindow a then loadElems uid pol len u rz addr act n (e + 1) s (none :: acc)
        else .fail s acc.reverse e c

/-- The destination of a load whose elements, of `w` slots each, were accessed from `start` to `stop` of `n`: masked-off
elements follow R31, kept when vd's previous tag is the result tag (`keep`), active ones from `stop` up keep their bits under the new tag, the
tail is zero (R190). -/
def loadReg (old : VReg) (keep : Bool) (t : Tag) (w n start stop hi : Nat) (act : Nat → Bool) (vals : List (Option Nat)) : VReg :=
  VReg.build t (w * n) fun i =>
    let e := i / w
    if e < start then old.slot i
    else if !act e then (if keep then old.slot i else 0)
    else if e < stop then BitVec.ofNat 32 (((vals.getD (e - start) none).getD 0) / 2 ^ (32 * (i % w + hi)))
    else old.slot i

/-- The residency mask of a load (R200): set where an active element's page was not resident. A load that freezes at an element
writes the bits below it only (R190); one that completes clears the bits from vl up (R33). -/
def loadMask (old : MaskBits) (w n start stop : Nat) (act : Nat → Bool) (vals : List (Option Nat)) : MaskBits :=
  mbuild (if stop < n then 1024 else w * n) fun i =>
    let e := i / w
    if e < start ∨ !act e ∨ stop ≤ e then mbit old i else (vals.getD (e - start) none).isNone

/-- What a vector load writes. -/
def putLoad (d : VR) (c : LdCtl) (pair : Bool) (w n start stop : Nat) (act : Nat → Bool) (vals : List (Option Nat)) (h : Hart) : Hart :=
  let keep : Bool := (h.rv d).tag == c.tag
  let lo := loadReg (h.rv d) keep c.tag w n start stop 0 act vals
  let hi := loadReg (h.rv (vplus d 1)) keep c.tag w n start stop 1 act vals
  let kept := (List.range n).any fun e => e < start || stop ≤ e || (!act e && keep)
  let g := h.wvSb d lo
  let g := if pair then g.wvSb (vplus d 1) hi else g
  let g := keepMarks h kept.toNat g
  match c.rmask with
  | some r => g.wmSb r (loadMask (h.rm r) w n start stop act vals)
  | none => g

/-- The active elements from `start` below `stop`. -/
def activeBetween (start stop : Nat) (act : Nat → Bool) : List Nat := (List.range stop).filter fun e => start ≤ e && act e

/-- The lines outside the window that some elements of `len` bytes lie in. -/
def elemLines (addr : Nat → Nat) (len : Nat) (es : List Nat) : List Nat :=
  ((es.filter fun e => !inWindow (addr e)).flatMap fun e => linesOf (addr e) len).eraseDups

/-- The accesses of a vector load that may still be performed (R175): each active element's, a slot at a time; none of a load with a residency
mask. -/
def lateSlots (d : VR) (c : LdCtl) (pair : Bool) (w : Nat) (addr : Nat → Nat) (es : List Nat) : List (VR × Nat × Nat) :=
  if c.rmask.isSome then []
  else if pair then es.flatMap fun e => [(d, e, addr e), (vplus d 1, e, addr e + 4)]
  else es.flatMap fun e => (List.range w).map fun i => (d, w * e + i, addr e + 4 * i)

/-- The result of a vector load's elements to come (R208): the registers a reader waits for, the requests, and the accesses left. -/
def landV (d : VR) (c : LdCtl) (pair : Bool) (w len : Nat) (addr : Nat → Nat) (es : List Nat) (far : Bool) (h : Hart) : Hart :=
  { h with landing := h.landing ++ [{ vregs := if pair then [d, vplus d 1] else [d], masks := c.rmask.toList, xregs := []
                                      reqs := (elemLines addr len es).length, beyond := far
                                      late := some { vec := true, asid := asidOf h.aspace, pol := c.pol.val, slots := lateSlots d c pair w addr es } }] }

/-- Before a contiguous load reads: bytes its agent has read ahead are left for it only where they hold all of its part of their line (R172). -/
def wholeLines (whole : Bool) (addr : Nat → Nat) (len : Nat) (es : List Nat) (h : Hart) : Hart :=
  if whole then
    (elemLines addr len es).foldl (fun h l =>
      let at_ := es.filter fun e => addr e / 64 == l
      let lo := (at_.head?.map addr).getD 0
      let hi := (at_.getLast?.map addr).getD 0 + len
      h.wholeAhead true (asidOf h.aspace) lo (hi - lo)) h
  else h

/-- The requests of a memory instruction of the executing hart find room among the 2048 of its core (R191); an instruction waits for the room of
all of its own. -/
def roomFor (s : State) (n : Nat) : Bool := requests s s.me.core + n ≤ 2048

/-- A vector load of `n` elements of `w` slots from `start` up: the accesses at `addr`, of `len` bytes aligned to `u`; `whole` is a contiguous
load, whose part in a line is read at once (R172), and `ff` is VLDFF (R201), which freezes only at the lowest active element. -/
def vload (hd : Hdr) (d : VR) (c : LdCtl) (pair whole : Bool) (w n start len u : Nat) (addr : Nat → Nat) (em : Option MaskBits) (ff : Bool)
    (s : State) : Out :=
  let act := activeAt em
  let es := activeBetween start n act
  if n ≤ start then finishL hd id s
  else if !roomFor s (elemLines addr len es).length then waitOn 2 false s
  else
    let far := (elemLines addr len es).any fun l => beyondL1 s c.pol.val (64 * l)
    let banks (stop : Nat) : Nat := bankExtra (windowCells (w * start) (w * stop) (fun i => act (i / w)) fun i => addr (i / w) + 4 * (i % w))
    let done (stop : Nat) (vals : List (Option Nat)) (h : Hart) : Hart :=
      let es := activeBetween start stop act
      landV d c pair w len addr es far
        (((putLoad d c pair w stop start stop act vals h).spend 6 (banks stop)).accessed true (es.map fun e => (addr e, len)))
    match loadElems s.cur c.pol.val len u c.rmask.isSome addr act (n - start) start (s.modMe (wholeLines whole addr len es)) [] with
    | .owned s => ownedWait s
    | .done s vals => finishL hd (done n vals) s
    | .fail s vals e cause =>
      if ff && cause != .misalign && (List.range e).any act then finishL hd (fun h => { (done e vals h) with vl := e }) s
      else
        stopAt cause (BitVec.ofNat 64 (addr e)) (some (w * e))
          (s.modMe fun h => (putLoad d c pair w n start e act vals h).spend 6 (banks e))

/-- A tag of a pair format. -/
def tagPair (t : Tag) : Bool := ((fmtOf t).map Fmt.pair).getD false

/-- The profile of a vector load. -/
def loadProf (hd : Hdr) (m : Option MR) (d : VR) (c : LdCtl) (xr : List Reg) (vr : List VR) : Prof :=
  { cls := 21, fmts := (tagBit c.tag).toList, hdr := some hd, xr := xr, vr := vr, mr := m.toList, mw := c.rmask.toList
    acc := some true, rename := true, vw := if tagPair c.tag then [d, vplus d 1] else [d] }

/-- A load other than VLDB; `bad` is a row length that VLD2D refuses before any access. (DEDUCED, assumption 29) -/
def vloadElems (hd : Hdr) (m : Option MR) (d : VR) (c : LdCtl) (xr : List Reg) (vi : Option VR) (whole ff : Bool) (bad : State → Bool)
    (addr : Hart → Nat → Nat → Nat) (s : State) : Out :=
  issue (loadProf hd m d c xr vi.toList) noIll
    (fun s => (!tagPair c.tag || d.val % 2 == 0) && (match vi with
      | some r => s.me.fmt r == some .i32
      | none => true))
    (fun s =>
      let h := s.me
      let u := unitOf (tagPair c.tag)
      if bad s then stop .illegalOp s else vload hd d c (tagPair c.tag) whole 1 h.vl h.vresume u u (addr h u) (h.emask m) ff s) s

/-- VLD (R196). -/
def execVld (hd : Hdr) (m : Option MR) (d : VR) (xa : Reg) (c : LdCtl) (s : State) : Out :=
  vloadElems hd m d c [xa] none true false noIll (fun h u => addrUnit h xa u) s

/-- VLDS (R194). -/
def execVlds (hd : Hdr) (m : Option MR) (d : VR) (xa ix : Reg) (c : LdCtl) (s : State) : Out :=
  vloadElems hd m d c [xa, ix] none false false noIll (fun h _ => addrStride h xa ix) s

/-- VLDX (R194): every index is read before the destination is written. -/
def execVldx (hd : Hdr) (m : Option MR) (d : VR) (xa : Reg) (vi : VR) (c : LdCtl) (s : State) : Out :=
  vloadElems hd m d c [xa] (some vi) false false noIll (fun h _ => addrIndex h xa (h.srcV false vi)) s

/-- VLDFF (R201). -/
def execVldff (hd : Hdr) (m : Option MR) (d : VR) (xa : Reg) (c : LdCtl) (s : State) : Out :=
  vloadElems hd m d c [xa] none true true noIll (fun h u => addrUnit h xa u) s

/-- VLD2D (R199): a row length of 0 or above 1024 freezes with ILLEGAL_OP, whatever vl. (DEDUCED, assumption 33) -/
def execVld2d (hd : Hdr) (m : Option MR) (d : VR) (xa ix xc : Reg) (c : LdCtl) (s : State) : Out :=
  vloadElems hd m d c [xa, ix, xc] none false false (fun s => (s.me.rx xc).toNat == 0 || 1024 < (s.me.rx xc).toNat)
    (fun h u => addrRows h xa ix xc u) s

/-- VLDB (R198): blocks of k planes, aligned to 256 bytes as R198 says. (DEDUCED, assumption 29) -/
def execVldb (hd : Hdr) (d : VR) (xa : Reg) (c : LdCtl) (s : State) : Out :=
  let k := c.tag.toNat % 16
  issue (loadProf hd none d c [xa] []) noIll (fun s => s.me.vl % (8 * k) == 0)
    (fun s =>
      let h := s.me
      vload hd d c false false (8 * k) (h.vl / (8 * k)) (h.vresume / (8 * k)) (32 * k) 256 (fun b => ((h.rx xa).toNat + 256 * b) % 2 ^ 64) none
        false s) s

/-! ## Vector stores and reduction updates (R202, R205) -/

/-- How the accesses of a vector store end. -/
inductive StoreEnd where
  | done (s : State)
  | fail (s : State) (e : Nat) (c : Cause)
  | owned

/-- The active elements of a store or update, ascending (R190). -/
def storeElems (acc : State → Nat → Acc Unit) (act : Nat → Bool) : Nat → Nat → State → StoreEnd
  | 0, _, s => .done s
  | n + 1, e, s =>
    if !act e then storeElems acc act n (e + 1) s
    else match acc s e with
    | .ok s _ => storeElems acc act n (e + 1) s
    | .owned _ => .owned
    | .bad c => .fail s e c

/-- Two pieces of one line joined, the second beginning where the first ends or above (R172). -/
def PStore.join (p q : PStore) : PStore :=
  { p with bytes := p.bytes ++ List.replicate (q.va - p.va - p.bytes.length) none ++ q.bytes }

/-- Ascending stores of one instruction with those of one line joined (R172). -/
def joinLines : List PStore → List PStore
  | p :: q :: l =>
    if p.asid = q.asid ∧ p.va / 64 = q.va / 64 ∧ p.va + p.bytes.length ≤ q.va then
      match joinLines (q :: l) with
      | r :: k => p.join r :: k
      | [] => [p]
    else p :: joinLines (q :: l)
  | l => l

/-- The stores a contiguous VST has added to its hart's, each line's part of them one store (R172). -/
def joinNew (n : Nat) (h : Hart) : Hart := { h with stores := h.stores.take n ++ joinLines (h.stores.drop n) }

/-- The requests that a vector store or update holds until its stores are acknowledged (R191): a line's part of a contiguous store is one. -/
def storeRoom (whole red : Bool) (len : Nat) (addr : Nat → Nat) (es : List Nat) : Nat :=
  if red then 0 else if whole then (elemLines addr len es).length else (es.filter fun e => !inWindow (addr e)).length

/-- A vector store or update from vresume up; one that waits has had no effect. `whole` is a contiguous store, whose part in a line is
performed at once; `red` an update, which buffers no store (R181). -/
def vstoreRun (hd : Hdr) (whole red : Bool) (len : Nat) (addr : Nat → Nat) (em : Option MaskBits) (acc : State → Nat → Acc Unit) (s : State) : Out :=
  let h := s.me
  let act := activeAt em
  let es := activeBetween h.vresume h.vl act
  let extra (stop : Nat) (g : Hart) : Hart :=
    ((if whole then joinNew h.stores.length g else g).spend 6 (bankExtra (windowCells h.vresume stop act addr))).accessed true
      ((activeBetween h.vresume stop act).map fun e => (addr e, len))
  if !roomFor s (storeRoom whole red len addr es) then waitOn 2 false s
  else match storeElems acc act (h.vl - h.vresume) h.vresume s with
  | .owned => ownedWait s
  | .done s => finishL hd (extra h.vl) s
  | .fail s e c => stopAt c (BitVec.ofNat 64 (addr e)) (some e) (s.modMe (extra e))

/-- A vector store (R202). -/
def vstore (hd : Hdr) (m : Option MR) (r : VR) (xr : List Reg) (vi : Option VR) (pol : Nat) (whole : Bool) (addr : Hart → Nat → Nat → Nat) (s : State) : Out :=
  issue { cls := 21, hdr := some hd, xr := xr, vr := opRegs (s.me.fmt r) r ++ vi.toList, mr := m.toList, acc := some true } noIll
    (fun s => s.me.okSrc (· != .empty) r && (match vi with
      | some q => s.me.fmt q == some .i32
      | none => true))
    (fun s =>
      let h := s.me
      let pair := ((h.fmt r).map Fmt.pair).getD false
      let u := unitOf pair
      let x := h.opd false r
      let at_ := addr h u
      vstoreRun hd whole false u at_ (h.emask m) (fun s e => storeAcc s s.cur true pol (at_ e) (bytesOf u (x.el pair e)) u) s) s

/-- VST (R202). -/
def execVst (hd : Hdr) (m : Option MR) (r : VR) (xa : Reg) (pol : Fin 4) (s : State) : Out :=
  vstore hd m r [xa] none pol.val true (fun h u => addrUnit h xa u) s

/-- VSTS (R202). -/
def execVsts (hd : Hdr) (m : Option MR) (r : VR) (xa ix : Reg) (pol : Fin 4) (s : State) : Out :=
  vstore hd m r [xa, ix] none pol.val false (fun h _ => addrStride h xa ix) s

/-- VSTX (R202). -/
def execVstx (hd : Hdr) (m : Option MR) (r : VR) (xa : Reg) (vi : VR) (pol : Fin 4) (s : State) : Out :=
  vstore hd m r [xa] (some vi) pol.val false (fun h _ => addrIndex h xa (h.srcV false vi)) s

/-- A VREDM (R205). -/
def vredm (hd : Hdr) (op : RedOp) (accept : Fmt → Bool) (m : Option MR) (r : VR) (xa : Reg) (vi : VR) (s : State) : Out :=
  issue { cls := 22, hdr := some hd, xr := [xa], vr := [r, vi], mr := m.toList, acc := some true } noIll
    (fun s => ewFmt accept none r none none s && s.me.fmt vi == some .i32)
    (fun s =>
      let h := s.me
      let x := h.srcV false r
      let at_ := addrIndex h xa (h.srcV false vi)
      vstoreRun hd false true 4 at_ (h.emask m) (fun s e => redAcc s s.cur true op false (at_ e) ((x.slot e).setWidth 64)) s) s

/-- INT32 or FIXED 32-bit. -/
def addFmt (f : Fmt) : Bool :=
  match f with
  | .i32 | .fixed 32 _ => true
  | _ => false

/-- VREDM.ADD (R205). -/
def execVredmAdd (hd : Hdr) (m : Option MR) (r : VR) (xa : Reg) (vi : VR) (s : State) : Out := vredm hd .add addFmt m r xa vi s
/-- VREDM.MIN (R205). -/
def execVredmMin (hd : Hdr) (m : Option MR) (r : VR) (xa : Reg) (vi : VR) (s : State) : Out := vredm hd .min (· == .i32) m r xa vi s
/-- VREDM.MAX (R205). -/
def execVredmMax (hd : Hdr) (m : Option MR) (r : VR) (xa : Reg) (vi : VR) (s : State) : Out := vredm hd .max (· == .i32) m r xa vi s
/-- VREDM.AND (R205). -/
def execVredmAnd (hd : Hdr) (m : Option MR) (r : VR) (xa : Reg) (vi : VR) (s : State) : Out := vredm hd .and (· == .i32) m r xa vi s
/-- VREDM.OR (R205). -/
def execVredmOr (hd : Hdr) (m : Option MR) (r : VR) (xa : Reg) (vi : VR) (s : State) : Out := vredm hd .or (· == .i32) m r xa vi s
/-- VREDM.XOR (R205). -/
def execVredmXor (hd : Hdr) (m : Option MR) (r : VR) (xa : Reg) (vi : VR) (s : State) : Out := vredm hd .xor (· == .i32) m r xa vi s
/-- VREDM.FADD (R205). -/
def execVredmFadd (hd : Hdr) (m : Option MR) (r : VR) (xa : Reg) (vi : VR) (s : State) : Out := vredm hd .fadd (· == .f32) m r xa vi s

end Sys2Proof.Machine
end

