-- ==== Sys2Proof/Machine/Sched.lean ====
section
/-! DEFINITION. Residency (spec/11_scheduling.md R248–R255): placement, strips and crews starting, slices, pre-emption
(spec/18_recovery.md R366–R369), the Hamper's saves and restores (R370–R375) and containment (R376–R378). -/

namespace Sys2Proof.Machine

/-! ## Placement (R252) -/

/-- A crew that asks for a place: its class, when it began to wait, its identity, its members and its needs; `crew` none for the
next strip of a strip-mode farm that has no hart yet. -/
structure Cand where
  cls    : Nat
  since  : Nat
  ctx    : Nat
  farm   : Nat
  number : Nat
  size   : Nat
  kern   : Kern
  win    : Nat
  crew   : Option Nat
deriving DecidableEq, Repr

/-- A hart slot that ordinary work may take: unoccupied and in no mender pool. -/
def slotFree (s : State) (slot : Nat) : Bool := slot < 640 && (occupant s slot).isNone && !inPool s slot

/-- The lane groups of a core not promised to a resident hart or a free pool slot (R252). -/
def freeGroups (s : State) (core : Nat) : Nat :=
  (s.core core).count - (residents s core).foldl (fun a p => a + p.2.minGroups) 0 - reserved s core

/-- The lane groups a member of a kernel needs. -/
def Kern.groups (k : Kern) : Nat := (k.minVl + 63) / 64

/-- The crews resident on a quad. -/
def quadCrews (s : State) (q : Nat) : List (Nat × Crew) := s.crews.filter fun p => p.2.quad == some q

/-- The barrier slots a crew holds. -/
def crewBars (s : State) (c : Crew) : Nat := ((c.harts.head?.map fun u => (s.hart u).kern.barriers)).getD 0

/-- A quad has store and barrier slots for a crew (R252): 4 MiB and 512. -/
def quadRoom (s : State) (q : Nat) (c : Cand) : Bool :=
  (quadCrews s q).foldl (fun a p => a + p.2.winSize) c.win ≤ 4 * 2 ^ 20
    && (quadCrews s q).foldl (fun a p => a + crewBars s p.2) c.kern.barriers ≤ 512

/-- The members of a crew a core can take now. -/
def coreTakes (s : State) (c : Cand) (core : Nat) : Nat :=
  let slots := (tabulate 4 fun i => 4 * core + i).countP fun x => slotFree s x && !barred s c.ctx x false
  if (s.core core).enabled && (s.core core).covers c.kern.mask then min slots (freeGroups s core / max 1 c.kern.groups) else 0

/-- A crew can become resident on a quad (R252). -/
def fitsQuad (s : State) (c : Cand) (q : Nat) : Bool :=
  quadRoom s q c && c.size ≤ (List.range 4).foldl (fun a i => a + coreTakes s c (4 * q + i)) 0

/-- A crew can become resident in some hart slots, in rank order (R252). (DEDUCED, assumption 42) -/
def canPlace (s : State) (c : Cand) (slots : List Nat) : Bool :=
  slots.length == c.size && slots == slots.eraseDups && slots.all (fun x => slotFree s x && !barred s c.ctx x false && quadOf x == quadOf (slots.headD 0))
    && quadRoom s (quadOf (slots.headD 0)) c
    && (slots.map coreOf).eraseDups.all fun k =>
      (s.core k).enabled && (s.core k).covers c.kern.mask && (slots.countP fun x => coreOf x == k) * c.kern.groups ≤ freeGroups s k

/-! ## Waiting crews (R253, R254) -/

/-- The next strip of a farm and the farm after it is handed out: re-queued strips first, in ascending number (R248, R264). -/
def Farm.nextStrip (f : Farm) : Option (Nat × Farm) :=
  match f.requeued with
  | n :: r => some (n, { f with requeued := r })
  | [] => if f.next < f.strips then some (f.next, { f with next := f.next + 1 }) else none

/-- The harts of a farm that hold strips. -/
def holders (s : State) (f : Farm) : Nat :=
  s.harts.countP fun p => p.2.ctx == f.ctx && p.2.farm == f.id && p.2.role == .strip && p.2.active

/-- An idle hart of a farm that can take its next strip. -/
def idleHart (s : State) (f : Farm) (h : Hart) : Bool :=
  h.ctx == f.ctx && h.farm == f.id && h.role == .strip && h.status == .idle && h.place.isSome
    && (s.core h.core).enabled && (s.core h.core).covers f.kern.mask

/-- A farm may hand out another strip: it is accepted, has one, and its limit of harts allows it (R249, R261). -/
def mayHand (s : State) (f : Farm) : Bool :=
  f.code == .accepted && !f.heritage && !f.kern.crewMode && f.nextStrip.isSome && (f.crews == 0 || holders s f < f.crews)

/-- The waiting crew of the next strip of a farm, when no idle hart of it can take the strip. -/
def stripCand (s : State) (f : Farm) : Option Cand :=
  match f.nextStrip with
  | some (n, _) =>
    if mayHand s f && !(s.harts.any fun p => idleHart s f p.2) then
      some { cls := f.kern.cls, since := f.startAt, ctx := f.ctx, farm := f.id, number := n, size := 1, kern := f.kern
             win := roundWin f.kern.shared, crew := none }
    else none
  | none => none

/-- The waiting crew of a crew entry: one that has not started, or one that is saved with work left. -/
def crewCand (s : State) (u : Nat) (c : Crew) : Option Cand :=
  match s.farm? c.ctx c.farm with
  | some f =>
    if f.code == .accepted && c.quad.isNone && (!c.started || c.harts.any fun h => (s.hart h).active) then
      some { cls := f.kern.cls, since := c.waitFrom, ctx := c.ctx, farm := c.farm, number := c.number
             size := if c.started then c.harts.length else c.size, kern := f.kern, win := c.winSize, crew := some u }
    else none
  | none => none

/-- Every waiting crew. -/
def waiters (s : State) : List Cand :=
  s.crews.filterMap (fun p => crewCand s p.1 p.2) ++ s.farms.filterMap fun p => stripCand s p.2

/-- A crew's class for the choice of R254: class 7 after a wait of 16 ms. -/
def Cand.rank (s : State) (c : Cand) : Nat := if 16000000 ≤ s.hub - c.since then 7 else c.cls

/-- Crew `a` is served before crew `b` (R254). -/
def before (s : State) (a b : Cand) : Bool :=
  if a.rank s != b.rank s then b.rank s < a.rank s
  else if a.since != b.since then a.since < b.since
  else if a.ctx != b.ctx then a.ctx < b.ctx
  else if a.farm != b.farm then a.farm < b.farm
  else a.number < b.number

/-- A crew is the head of its farm's queue (R254). -/
def farmHead (s : State) (c : Cand) : Bool :=
  (waiters s).all fun d => d.ctx != c.ctx || d.farm != c.farm || d == c || d.since > c.since || (d.since == c.since && d.number > c.number)

/-- A waiting crew's farm and number. -/
def Cand.id (c : Cand) : Nat × Nat × Nat := (c.ctx, c.farm, c.number)

/-- The waiting crews that a quad owes the place of a replaced crew (R254). -/
def owedTo (s : State) (q : Nat) : List Cand := (waiters s).filter fun d => (s.quad q).owed.contains d.id

/-- The crew of a farm's queue to which a replaced crew gives its place (R254): the first that no other has given its place. -/
def heir (s : State) (c f : Nat) : Option Cand :=
  (sortBy (fun a b => a.since < b.since || (a.since == b.since && a.number ≤ b.number))
    ((waiters s).filter fun d => d.ctx == c && d.farm == f && s.quads.all fun p => !p.2.owed.contains d.id)).head?

/-- A place given to a crew is a free one as soon as that crew cannot use it or has a place elsewhere (R254). (DEDUCED, assumption 42) -/
def lapseOwed (s : State) : State :=
  if s.quads.all fun p => p.2.owed == [] then s
  else { s with quads := tmap (fun q k => { k with owed := k.owed.filter fun o => (waiters s).any fun d => d.id == o && fitsQuad s d q }) s.quads }

/-- The state as it would stand with a waiting crew in some hart slots, for what would be left of the quad. -/
def taken (s : State) (c : Cand) (slots : List Nat) : State :=
  let k := s.nextId + slots.length
  { s with
    harts := (slots.zip (List.range slots.length)).foldl (fun t p =>
      tput t (s.nextId + p.2) { ctx := c.ctx, farm := c.farm, crew := k, place := some p.1, kern := c.kern }) s.harts
    crews := tput s.crews k { ctx := c.ctx, farm := c.farm, number := c.number, winSize := c.win, started := true, quad := some (quadOf (slots.headD 0))
                              harts := tabulate slots.length fun i => s.nextId + i } }

/-- A crew may take some free hart slots of a quad (R254): a place there is given to it; or no crew that fits the quad is served before it,
and no place given to another goes. -/
def mayTake (s : State) (c : Cand) (slots : List Nat) : Bool :=
  let q := quadOf (slots.headD 0)
  farmHead s c && ((s.quad q).owed.contains c.id
    || (((waiters s).all fun d => d == c || !fitsQuad s d q || before s c d)
      && (owedTo s q).all fun d => !fitsQuad s d q || fitsQuad (taken s c slots) d q))

/-- Harts seated in hart slots: withheld groups give way to their minimums (R302), idle siblings lend (R258), R257 runs, and a quad store in
retention begins to leave it (R381). -/
def seat (s : State) (us slots : List Nat) : State :=
  let s := (us.zip slots).foldl (fun s p => s.modHart p.1 fun h => { h with place := some p.2 }) s
  let q := quadOf (slots.headD 0)
  let wake (e : ArrayId × Nat × Bool) : ArrayId × Nat × Bool := if e.1 = .store q ∧ !e.2.2 then (e.1, max s.hub (e.2.1 + arrayRamp e.1), true) else e
  let s := { s with mgmt := { s.mgmt with asleep := s.mgmt.asleep.map wake } }
  noteClaim ((slots.map coreOf).eraseDups.foldl (fun s k =>
    relend (s.setCore k { (s.core k) with withheld := min (s.core k).withheld (withholdLimit s k) }) k) s) q

/-! ## Starts (R248, R250) -/

/-- The state of a hart that starts a strip (R37, R248). -/
def stripHart (f : Farm) (n crew slot : Nat) : Hart :=
  let h := freshHart f.ctx f.id crew 0 slot .strip f.kern f.aspace
  ((f.indices n).zip (List.range 6)).foldl (fun h p => h.wx (Fin.ofNat 32 (10 + p.2)) p.1) h

/-- STRIP_START (R248, R249): the next strip goes to the idle hart of the farm in the slot, else to a new hart there. -/
def execStripStart (c f slot : Nat) (s : State) : Out :=
  match s.farm? c f with
  | none => .refused .notEnabled
  | some x =>
    match x.nextStrip with
    | none => .refused .notEnabled
    | some (n, x') =>
      if !mayHand s x then .refused .notEnabled
      else match occupant s slot with
      | some (u, h) =>
        if !idleHart s x h || (s.crew h.crew).stopped then .refused .notEnabled
        else
          let s := s.setFarm x'
          let s := s.setCrew h.crew { (s.crew h.crew) with number := n, win := [], badWin := [], bars := [] }
          let t := { (stripHart x n h.crew slot) with grant := h.grant, lentTo := h.lentTo }
          let s := s.setHart u t
          .next (relendFarm (if h.lentTo.isSome then s else regrant s h.core) c f)
      | none =>
        match stripCand s x with
        | none => .refused .notEnabled
        | some d =>
          if !canPlace s d [slot] || !mayTake s d [slot] then .refused .notEnabled
          else
            let u := s.nextId
            let k := u + 1
            let s := s.setFarm x'
            let s := { s with
              nextId := u + 2, harts := tput s.harts u (stripHart x n k slot)
              crews := tput s.crews k { ctx := c, farm := f, number := n, harts := [u], winSize := roundWin x.kern.shared
                                        quad := some (quadOf slot), since := s.hub, started := true } }
            .next (relendFarm (seat s [u] [slot]) c f)

/-- CREW_MEMBER_START (R250): a crew becomes resident for the first time, its members in rank order in the slots. -/
def execCrewMemberStart (crew : Nat) (slots : List Nat) (s : State) : Out :=
  match tget s.crews crew with
  | none => .refused .notEnabled
  | some k =>
    match crewCand s crew k, s.farm? k.ctx k.farm with
    | some d, some f =>
      if k.started || !canPlace s d slots || !mayTake s d slots then .refused .notEnabled
      else
        let n := s.nextId
        let us := tabulate k.size fun i => n + i
        let s := { s with
          nextId := n + k.size
          harts := (us.zip slots).foldl (fun t p => tput t p.1 (freshHart k.ctx k.farm crew (p.1 - n) p.2 .member f.kern f.aspace)) s.harts
          crews := tput s.crews crew { k with harts := us, quad := some (quadOf (slots.headD 0)), since := s.hub, started := true } }
        .next (seat s us slots)
    | _, _ => .refused .notEnabled

/-- LANE_RECLAIM (R259): an owner that has received a strip takes back its lent groups. -/
def execLaneReclaim (hart : Nat) (s : State) : Out :=
  let h := s.hart hart
  if h.lentTo.isSome && h.active then .next (reclaim s hart) else .refused .notEnabled

/-! ## Slices and pre-emption (R253, R366–R369) -/

/-- A member of a crew is held by a mender's handle (R253). -/
def heldByMender (s : State) (k : Crew) : Bool := (s.ctx k.ctx).handles.any fun x => k.harts.contains x.hart

/-- A hart blocks its crew (R253). -/
def Hart.blocks (h : Hart) : Bool :=
  match h.status with
  | .running => (h.waiting.map (·.blocks)).getD false
  | _ => true

/-- A crew is blocked, and since when (R253). -/
def crewBlocked (s : State) (k : Crew) : Option Nat :=
  if k.harts.all fun u => (s.hart u).blocks then some (k.harts.foldl (fun a u => max a (s.hart u).haltAt) 0) else none

/-- A crew of a farm waits. -/
def farmWaits (s : State) (c f : Nat) : Bool := (waiters s).any fun d => d.ctx == c && d.farm == f

/-- Some member of a crew stands on a core that no longer covers it (R260); a strip completes where it is. -/
def uncovered (s : State) (k : Crew) : Bool :=
  k.harts.any fun u => let h := s.hart u; h.role == .member && (!(s.core h.core).enabled || !(s.core h.core).covers h.kern.mask)

/-- A waiting crew of another farm may take the place of a crew at the end of its slice (R254, R255): one of a higher class, or one that
has waited 16 ms. -/
def outranked (s : State) (k : Crew) : Bool :=
  let cls := (k.harts.head?.map fun u => (s.hart u).kern.cls).getD 0
  (waiters s).any fun d => (d.ctx != k.ctx || d.farm != k.farm) && (cls < d.cls || 16000000 ≤ s.hub - d.since)

/-- A resident crew whose slice has expired may be replaced (R253, R254, R260). -/
def mayReplace (s : State) (k : Crew) : Bool :=
  k.quad.isSome && !k.stopped && k.farm != 0 && !heldByMender s k && 2000000 ≤ s.hub - k.since
    && (farmWaits s k.ctx k.farm || outranked s k || uncovered s k)

/-- SLICE_EXPIRY (R253, R254): among expired crews of one farm, the one resident longest goes first, then the lower number. -/
def execSliceExpiry (crew : Nat) (s : State) : Out :=
  match tget s.crews crew with
  | none => .refused .notEnabled
  | some k =>
    let first := s.crews.all fun p => p.1 == crew || p.2.ctx != k.ctx || p.2.farm != k.farm || p.2.replace || !mayReplace s p.2
      || k.since < p.2.since || (k.since == p.2.since && k.number < p.2.number)
    if mayReplace s k && !k.replace && first then .next (s.setCrew crew { k with replace := true }) else .refused .notEnabled

/-- A crew is replaced before its slice ends (R253): every resident crew of its farm is blocked, a crew of the farm waits, and of those that no
mender holds it has been blocked the longest. (DEDUCED, assumption 42) -/
def blockedOut (s : State) (k : Crew) : Bool :=
  match crewBlocked s k with
  | none => false
  | some t => farmWaits s k.ctx k.farm && s.crews.all fun p => p.2.ctx != k.ctx || p.2.farm != k.farm || p.2.quad.isNone
      || (match crewBlocked s p.2 with
        | some u => heldByMender s p.2 || t ≤ u
        | none => false)

/-- A copy at work driven to a 4 KiB boundary of its destination (R220), or to the unit before one it cannot go on with; a fault on the way is
queued (R369). -/
def stopCopy (uid : Nat) (s : State) (o : EngOp) : State :=
  match (if o.chan && o.stop.isNone then runUnits uid (min ((64 - o.unit % 64) % 64) (o.units - o.unit)) s o else .done s o) with
  | .done s _ => s
  | .blocked s => s
  | .fail s o sub a => setOp s uid { o with stop := some { sub := sub, addr := BitVec.ofNat 64 a, reported := false } }

/-- An engine operation between two units: a copy has no channel, and a gather reads its batch afresh (R224). -/
def EngOp.halt (o : EngOp) : EngOp :=
  { o with chan := false, ahead := match o.kind with
    | .gthr .. => []
    | _ => o.ahead }

/-- The engines of a hart stopped at their units (R367). -/
def stopEngines (s : State) (uid : Nat) : State :=
  let s := ((s.hart uid).ops.filter fun o => o.eng == 0).foldl (stopCopy uid) s
  s.modHart uid fun h => { h with ops := h.ops.map EngOp.halt }

/-- A matrix operation at its stopping point (R144): the row pair is complete; MQTRS restarts whole. -/
def MatOp.halt (o : MatOp) : MatOp :=
  match o.kind with
  | .mqtrs _ => { o with started := false, row := 0, report := {}, badWords := [], badRegs := [], badCells := [] }
  | _ => { o with started := false }

/-- One hart stopped (R367): a waiting instruction has had no effect (R270), its accesses are performed and land but for stores that wait for an
engine, its fixed-latency writes complete (R60), and the Mangle is free. (DEDUCED, assumption 46) -/
def stopHart (s : State) (uid : Nat) : State :=
  let s := stopEngines s uid
  let s := if drainWaits s uid fun _ => true then performAt s uid 0 true true true true else drainAll (orderLoads s uid true true true true) uid
  let s := withdrawArrival (forgetPages s uid) uid
  let s := s.modHart uid fun h => { h with
    landing := [], inflight := [], inflightM := [], xlat := [], busy := [], waiting := none, farmWait := none, yield := none
    mops := h.mops.map MatOp.halt }
  let c := (s.hart uid).core
  if (s.core c).mangle = some uid then s.setCore c { (s.core c) with mangle := none } else s

/-- The harts of a crew that is not stopped yet stopped (R366). -/
def stopCrew (s : State) (crew : Nat) : State :=
  let k := s.crew crew
  if k.quad.isNone || k.stopped then s
  else
    let s := k.harts.foldl stopHart s
    s.setCrew crew { (s.crew crew) with stopped := true, replace := true }

/-- A crew is to be pre-empted (R366): its context is contained, a lane retirement forces it off its core, or the scheduler replaces it. -/
def preempted (s : State) (k : Crew) : Bool :=
  (s.ctx k.ctx).containing || (k.farm != 0 && (k.evict || (!heldByMender s k && (k.replace || blockedOut s k))))

/-- PREEMPTION (R366): the crew's harts and engines stop and acknowledge. -/
def execPreemption (crew : Nat) (s : State) : Out :=
  match tget s.crews crew with
  | none => .refused .notEnabled
  | some k =>
    if k.quad.isNone || k.stopped || !preempted s k then .refused .notEnabled else .next (stopCrew s crew)

/-! ## The Hamper (R370–R375) -/

/-- The size of a crew's save area (R371). (DEDUCED, assumption 47) -/
def areaSize (s : State) (k : Crew) : Nat :=
  let v := (k.harts.head?.map fun u => (s.hart u).kern.versioned).getD false
  16384 + k.harts.length * (if v then 1392640 else 212992) + k.winSize

/-- The areas of a context in use: offset and size. -/
def usedAreas (s : State) (c : Nat) : List (Nat × Nat) :=
  s.crews.filterMap fun p => if p.2.ctx == c then p.2.area.map fun a => (a, areaSize s p.2) else none

/-- A free area of a size in a context's region, the lowest that fits among the region's start and the ends of areas in use. -/
def freeArea (s : State) (c size : Nat) : Option Nat :=
  let used := usedAreas s c
  (sortBy (fun a b => a ≤ b) (0 :: used.map fun x => x.1 + x.2)).find? fun a =>
    a + size ≤ (s.ctx c).saveLen.toNat && used.all fun x => x.1 + x.2 ≤ a || a + size ≤ x.1

/-- The bytes of an area with the valid word clear (R372); what the spec leaves to the stepping is free. -/
def areaByte (seed : Nat) (s : State) (k : Crew) (off : Nat) : Byte :=
  let size := areaSize s k
  let h := s.hart (k.harts.headD 0)
  let head := bytesOf 8 0 ++ bytesOf 8 (k.farm * 2 ^ 32 + k.number) ++ bytesOf 8 (k.harts.length + h.kern.barriers * 2 ^ 8 + h.kern.versioned.toNat * 2 ^ 16)
    ++ bytesOf 8 (k.saves + 1)
  if off < 0x2000 then head.getD off 0
  else if off < size - k.winSize then Config.saveByte (seed + off)
  else memGet k.win (off - (size - k.winSize))

/-- Lines written to an area at .d, up to the first failure. -/
def writeArea (aspace : Word) (f : Nat → Byte) : Nat → Nat → State → Except (State × Nat) State
  | 0, _, s => .ok s
  | n + 1, a, s =>
    match agentWrite s aspace true a (tabulate 64 fun i => f (a + i)) with
    | .ok s => writeArea aspace f n (a + 64) (hostPass s (asidOf aspace) (a / 64))
    | .error (_, va) => .error (s, va)

/-- An abandoned save (R374): the crew runs on, its slice restarts, and the event is recorded. -/
def abandonSave (s : State) (crew : Nat) (space : Bool) (addr : Nat) : State :=
  let k := s.crew crew
  let s := s.setCrew crew { k with stopped := false, replace := false, evict := false, since := s.hub }
  let s := s.modCtx k.ctx fun x => { x with
    saveFaults := (x.saveFaults + 1) % 2 ^ 32, saveSpace := space, saveAddr := BitVec.ofNat 64 addr }
  k.harts.foldl (fun s u => if (s.hart u).status == .running then reportEngine s u else s) s

/-- HAMPER_SAVE (R373): the area is written with its valid word clear, then valid, and the crew's places are released; a place that a slice's
end takes for a crew of a higher class is a free one, any other goes to the crew's farm (R254). A crew whose member a mender holds is not
saved for a replacement (R253). -/
def execHamperSave (crew : Nat) (s : State) : Out :=
  match tget s.crews crew with
  | none => .refused .notEnabled
  | some k =>
    let x := s.ctx k.ctx
    if k.quad.isNone || !k.stopped || x.containing || k.farm == 0 || (heldByMender s k && !k.evict) then .refused .notEnabled
    else
      let size := areaSize s k
      match freeArea s k.ctx size with
      | none => .next (abandonSave s crew true 0)
      | some off =>
        let base := x.saveBase.toNat + off
        let seed := s.fresh
        let f (a : Nat) : Byte := areaByte seed s k (a - base)
        let s := { s with fresh := s.fresh + size }
        match writeArea x.aspace f (size / 64) base s with
        | .error (s, va) => .next (abandonSave s crew false va)
        | .ok s =>
          let code := Config.checkCode k.ctx (tabulate size fun i => f (base + i))
          match agentWrite s x.aspace true base (bytesOf 8 (1 + code.toNat * 2 ^ 8)) with
          | .error (_, va) => .next (abandonSave s crew false va)
          | .ok s =>
            let q := k.quad.getD 0
            let owe := farmWaits s k.ctx k.farm && !k.evict && !(2000000 ≤ s.hub - k.since && outranked s k)
            let s := hostPass s (asidOf x.aspace) (base / 64)
            let s := k.harts.foldl vacate s
            let to_ := if owe then heir s k.ctx k.farm else none
            let s := s.setCrew crew { (s.crew crew) with
              quad := none, stopped := false, replace := false, evict := false, waitFrom := s.hub, area := some off, saves := (k.saves + 1) % 2 ^ 64 }
            .next (match to_ with
              | some d => s.setQuad q { (s.quad q) with owed := (s.quad q).owed ++ [d.id] }
              | none => s)

/-- A saved crew's hart belongs to the oldest event that a free pool slot could take, or to one that a FRZNEXT waits for (R349, R365). -/
def wantedByMender (s : State) (k : Crew) : Bool :=
  let x := s.ctx k.ctx
  k.wanted || (freeSlot s k.ctx).isSome && (match x.events.find? fun e => !e.taken with
    | some e => k.harts.contains e.hart
    | none => false)

/-- HAMPER_RESTORE (R373, R375): the area is read and checked, and the crew is rebuilt in the slots, whose cores' L1s keep no copy that is older
than what its harts have read (R171); one that cannot be read or does not check contains the context. -/
def execHamperRestore (crew : Nat) (slots : List Nat) (s : State) : Out :=
  match tget s.crews crew with
  | none => .refused .notEnabled
  | some k =>
    match crewCand s crew k, k.area with
    | some d, some off =>
      if (s.ctx k.ctx).containing || !canPlace s d slots || !(mayTake s d slots || wantedByMender s k) then .refused .notEnabled
      else
        let x := s.ctx k.ctx
        let base := x.saveBase.toNat + off
        let size := areaSize s k
        let broken (s : State) : Out := .next (s.modCtx k.ctx fun x => { x with containing := true })
        match hubRead s x.aspace base size with
        | .waits t => if wakes s t then .next (noted s t) else .refused .notEnabled
        | .fail => broken s
        | .ok s b =>
          let w := fieldAt b 0 8
          if !bit w 0 ∨ w / 2 ^ 8 ≠ (Config.checkCode k.ctx (List.replicate 8 0 ++ b.drop 8)).toNat then broken s
          else match agentWrite s x.aspace true base (bytesOf 8 0) with
          | .error _ => broken s
          | .ok s =>
            let s := hostPass s (asidOf x.aspace) (base / 64)
            let s := k.harts.foldl (fun s u => s.modHart u fun h => { h with ops := h.ops.map fun o =>
              { o with kind := (match o.kind with
                | .walk w => .walk { w with loaded := false }
                | y => y) } }) s
            let s := s.setCrew crew { (s.crew crew) with quad := some (quadOf (slots.headD 0)), since := s.hub, area := none, wanted := false }
            let s := (slots.map coreOf).foldl cleanL1 (seat s k.harts slots)
            .next (k.harts.foldl (fun s u => if (s.hart u).status == .running then reportEngine s u else s) s)
    | _, _ => .refused .notEnabled

/-! ## Containment (R376–R378) -/

/-- Stores of a contained context that no home has acknowledged: each is visible whole or not at all, as a free choice says (R378). -/
def scatter (s : State) (ps : List PStore) : State :=
  ps.foldl (fun s p =>
    let s' := { s with fresh := s.fresh + 1 }
    if Config.pick s.fresh % 2 = 1 then homeWrite s' 160 p.asid p.va p.pa p.rights p.bytes else s') s

/-- The stores of a contained hart scattered. -/
def scatterStores (s : State) (uid : Nat) : State :=
  (scatter s (s.hart uid).stores).modHart uid fun h => { h with stores := [], hostLines := [] }

/-- The stores that killed harts of a contained context left scattered. -/
def scatterOrphans (s : State) (c : Nat) : State :=
  scatter { s with orphans := s.orphans.filter fun o => o.1 != c } ((s.orphans.filter fun o => o.1 == c).map (·.2.2))

/-- The dirty lines of host memory of an ASID passed on to the host; none stays that no link can take (R378, R416). -/
def flushHost (s : State) (asid : Nat) : State :=
  let mine (l : L2Line) : Bool := l.asid == asid && isHost (l.frame * 64)
  let s := if s.mgmt.linkUp.any id then (s.l2.filter mine).foldl writeBack s else s
  { s with l2 := s.l2.filter fun l => !mine l }

/-- The update-only lines and dirty lines of a context's ASIDs performed at .s (R378). -/
def flushContext (s : State) (k : Context) : State := k.asids.foldl (fun s a => flushHost (flushSystem s a.toNat) a.toNat) s

/-- Containment (R377), all of its steps: no store that no home has acknowledged is performed after it (R378). (DEDUCED, assumption 48) -/
def contain (s : State) (c : Nat) : State :=
  let us := (s.harts.filter fun p => p.2.ctx == c).map (·.1)
  let s := scatterOrphans (us.foldl scatterStores s) c
  let s := ((s.crews.filter fun p => p.2.ctx == c).map (·.1)).foldl stopCrew s
  let s := us.foldl discardOps s
  let s := us.foldl vacate s
  let k := s.ctx c
  let s := flushContext s k
  let run := s.swap.running.filter fun d => d.ctx != c
  let s := { s with
    harts := s.harts.filter fun p => p.2.ctx != c
    crews := s.crews.filter fun p => p.2.ctx != c
    hives := tmap (fun _ h => if h.ctx = c then { h with binding := 0, tokens := [], pending := [], flights := [], timer := none, due := false } else h) s.hives
    swap := { s.swap with running := run, queue := s.swap.queue.filter fun b => bits (fieldAt b 24 4) 7 0 != c }
    mgmt := { s.mgmt with heritageRun := s.mgmt.heritageRun.filter fun p => p.2.1 != c } }
  let s := s.setCtx c { k with
    contained := true, containing := false, launches := [], handles := [], events := [], taken := k.written, rootEvents := []
    reqs := k.reqs.map (fun r => { r with waiters := [] }), reqRefused := [], reqDone := [] }
  let s := s.farms.foldl (fun s p =>
    let f := p.2
    if f.ctx = c ∧ (f.code = .accepted ∨ f.code = .held) then
      let f := { f with code := .contained, hostLines := [] }
      Farm.report (endEntry (s.setFarm f) f) f
    else s) s
  signal (feedHeritage { s with hostWaits := s.hostWaits.filter fun p => !(k.asids.any fun a => a.toNat == p.1) }) 0

/-- CONTAINMENT (R376). -/
def execContainment (c : Nat) (s : State) : Out :=
  if (s.ctx c).containing then .next (contain s c) else .refused .notEnabled

end Sys2Proof.Machine
end

