-- ==== Sys2Proof/Machine/Recovery.lean ====
section
/-! DEFINITION. What the memory system, the engines and recovery do on their own: loads landing and stores acknowledged
(spec/08_ordering.md R170, R173, R187, spec/09_memory_ops.md R208), engine faults (spec/10_engine_ops.md R215), mender spawns and the
root mender (spec/17_menders.md R349, R362), watchdogs (spec/14_power.md R310), heritage strips (spec/16_isolation.md R342, R343), and
uncorrectable errors (spec/18_recovery.md R380). -/

namespace Sys2Proof.Machine

/-! ## Memory progress -/

/-- Element `k` of a list removed. -/
def dropAt {α : Type} (k : Nat) (l : List α) : List α := l.take k ++ l.drop (k + 1)

/-- LOAD_RESULT_LAND (R208): the `k`-th outstanding load of a hart lands. -/
def execLoadResultLand (hart k : Nat) (s : State) : Out :=
  if k < (s.hart hart).landing.length then .next (s.modHart hart fun h => { h with landing := dropAt k h.landing })
  else .refused .notEnabled

/-- A load of a hart runs ahead of earlier instructions of it (R174, R175): it reads bytes of one line now, which the load of its agent returns in
its turn. It needs no walk of the tables, no fence holds its agent back, and it reads no byte that the agent has read ahead already.
(DEDUCED, assumption 10) -/
def runAhead (hart : Nat) (vec : Bool) (va n pol : Nat) (s : State) : Out :=
  let h := s.hart hart
  let asid := asidOf h.aspace
  let known := inWindow va || (l2find s asid (va / 64)).isSome || s.tlb.any fun t => t.asid == asid && t.page == va / 4096
  if !working s hart || h.status != .running || !known || h.fenced (some vec) || n = 0 || 64 < va % 64 + n
      || h.ahead.any (fun a => a.vec == vec && a.asid == asid && rangesMeet a.va a.bytes.length va n) then .refused .notEnabled
  else
    let read := if inWindow va then loadAcc s hart vec pol va n 1 else loadLine s hart vec pol va n
    match read with
    | .ok s b => .next (s.modHart hart fun h => { h with ahead := h.ahead ++ [{ vec := vec, asid := asid, va := va, bytes := b }] })
    | _ => .refused .notEnabled

/-- What a hart has read ahead is dropped: the load reads in its turn. -/
def dropAhead (hart k : Nat) (s : State) : Out :=
  if k < (s.hart hart).ahead.length then .next (s.modHart hart fun h => { h with ahead := dropAt k h.ahead }) else .refused .notEnabled

/-- One access of an outstanding vector load performed: the slot of its register. -/
def lateSlot (uid k : Nat) (l : Late) (p : VR × Nat × Nat) : Option State → Option State
  | none => none
  | some s =>
    match loadAcc s uid l.vec l.pol p.2.2 4 1 with
    | .ok s b => some (s.modHart uid fun h =>
      if ((h.landing[k]?.map (·.vregs)).getD []).contains p.1 then { h with v := h.v.set p.1.val ((h.rv p.1).setSlot p.2.1 (BitVec.ofNat 32 (natOf b))) } else h)
    | _ => none

/-- The access of an outstanding scalar load performed: its register. -/
def lateX (uid k : Nat) (l : Late) (p : Reg × Nat × Bool × Nat) : Option State → Option State
  | none => none
  | some s =>
    match loadAcc s uid l.vec l.pol p.2.2.2 p.2.1 1 with
    | .ok s b =>
      let w : Word := if p.2.2.1 then BitVec.ofInt 64 (sint (8 * p.2.1) (natOf b)) else BitVec.ofNat 64 (natOf b)
      some (s.modHart uid fun h => if ((h.landing[k]?.map (·.xregs)).getD []).contains p.1 then h.wx p.1 w else h)
    | _ => none

/-- The accesses of a hart's `k`-th outstanding load to a line are performed, after later accesses of the hart to other lines (R175): the load
returns what they find. (DEDUCED, assumption 10) -/
def lateLoad (hart k line : Nat) (s : State) : Out :=
  match (s.hart hart).landing[k]?.bind (·.late) with
  | none => .refused .notEnabled
  | some l =>
    let slots := l.slots.filter fun p => p.2.2 / 64 == line
    let x := l.x.filter fun p => p.2.2.2 / 64 == line
    let s := s.modHart hart fun h => { h with landing := modAt (fun e => { e with late := e.late.map fun a => a.settle fun va => va / 64 == line }) k h.landing }
    match x.toList.foldr (lateX hart k l) (slots.foldr (lateSlot hart k l) (some s)) with
    | some s => if slots = [] ∧ x = none then .refused .notEnabled else .next s
    | none => .refused .notEnabled

/-- STORE_ACKNOWLEDGE (R170): a home performs the `k`-th outstanding store of a hart, unless an earlier one of it must come
first or it waits for an engine (R182). -/
def execStoreAcknowledge (hart k : Nat) (s : State) : Out :=
  let h := s.hart hart
  match h.stores[k]? with
  | none => .refused .notEnabled
  | some p =>
    if (h.stores.take k).any (fun q => q.precedes p) || p.waits s hart then .refused .notEnabled
    else .next (performStore (s.modHart hart fun h => { h with stores := dropAt k h.stores }) hart p)

/-- HOST_ACKNOWLEDGE (R187): the host completes the `k`-th of a hart's accesses to host memory: the line is performed at .s. It cannot
while both CXL links are down (R416). -/
def execHostAcknowledge (hart k : Nat) (s : State) : Out :=
  match (s.hart hart).hostLines[k]? with
  | none => .refused .notEnabled
  | some (asid, line) =>
    if !s.mgmt.linkUp.any id then .refused .notEnabled
    else .next (flushLine (s.modHart hart fun h => { h with hostLines := dropAt k h.hostLines }) asid line)

/-- L1_EVICTION (R173, R181): a line leaves a core's L1, an update-only copy merging first. -/
def execL1Eviction (core asid line : Nat) (s : State) : Out :=
  match s.upd.find? fun u => u.core == core && u.asid == asid && u.line == line with
  | some u => .next (mergeCopy s u)
  | none =>
    let here (l : L1Line) : Bool := l.core == core && l.asid == asid && l.line == line
    if s.l1.any here || s.l1i.any here then
      .next { s with l1 := s.l1.filter fun l => !here l, l1i := s.l1i.filter fun l => !here l }
    else .refused .notEnabled

/-- A line leaves the L2, written back first (R315). -/
def evictL2 (asid line : Nat) (s : State) : State :=
  match l2find s asid line with
  | none => s
  | some l =>
    let s := writeBack s l
    { s with l2 := s.l2.filter fun k => !(k.asid == asid && k.line == line) }

/-- The context that owns an ASID (R311). -/
def ownerOf (s : State) (asid : Nat) : Option Nat := (s.ctxs.find? fun p => p.2.asids.any fun a => a.toNat == asid).map (·.1)

/-- An uncorrectable error appears at a physical line (R379, R380) and is logged (R384): a clean L2 copy is dropped and refetched; a dirty one
contains its context. -/
def poison (line : Nat) (s : State) : State :=
  let hit (l : L2Line) : Bool := steer s (l.frame * 64) / 64 == line
  match s.l2.find? fun l => hit l && l.dirty with
  | some l =>
    let s := logError s 2 .l2 (sliceOf (64 * l.line)) false (64 * line)
    (match ownerOf s l.asid with
      | some c => s.modCtx c fun k => { k with containing := true }
      | none => s)
  | none =>
    match s.l2.find? hit with
    | some l => logError { s with l2 := s.l2.filter fun l => !hit l } 2 .l2 (sliceOf (64 * l.line)) false (64 * line)
    | none => logError { s with bad := if s.bad.contains line then s.bad else s.bad ++ [line] } 2 .memory 0 false (64 * line)

/-- An uncorrectable error appears in a register of a hart (R101, R149, R379). -/
def markReg (hart : Nat) (vec : Bool) (r : Fin 32) (s : State) : State :=
  let b := BitVec.ofNat 32 (2 ^ r.val)
  logError (s.modHart hart fun h => if vec then { h with vBad := h.vBad ||| b } else if r = 0 then h else { h with xBad := h.xBad ||| b })
    2 .registers (s.hart hart).core false 0

/-- An uncorrectable error appears in a mask register of a hart (R101, R379). -/
def markMask (hart : Nat) (r : Fin 16) (s : State) : State :=
  logError (s.modHart hart fun h => { h with mBad := h.mBad ||| BitVec.ofNat 16 (2 ^ r.val) }) 2 .registers (s.hart hart).core false 0

/-- An uncorrectable error appears in a line of a core's L1, data or instruction (R379). -/
def poisonL1 (core asid line : Nat) (s : State) : Out :=
  let here (l : L1Line) : Bool := l.core == core && l.asid == asid && l.line == line
  if !(s.l1.any here || s.l1i.any here) then .refused .notEnabled
  else
    let mark (l : L1Line) : L1Line := if here l then { l with bad := true } else l
    .next (logError { s with l1 := s.l1.map mark, l1i := s.l1i.map mark } 2 .l1 core false ((((s.l1 ++ s.l1i).find? here).map fun l => 64 * l.frame).getD 0))

/-- An uncorrectable error appears in a doubleword of a crew's window in its quad store (R379). -/
def poisonWindow (crew dword : Nat) (s : State) : Out :=
  match tget s.crews crew with
  | none => .refused .notEnabled
  | some k =>
    match k.quad with
    | none => .refused .notEnabled
    | some q =>
      if k.winSize ≤ 8 * dword then .refused .notEnabled
      else .next (logError (s.setCrew crew { k with badWin := if k.badWin.contains dword then k.badWin else k.badWin ++ [dword] }) 2 .quadStore q false 0)

/-- A port TLB entry leaves its TLB (R316), and those of its page leave the walk cache; an entry with an uncorrectable error goes the same way
(R379). (DESIGN CHOICE, assumption 73) -/
def dropTlb (asid page : Nat) (s : State) : State :=
  { s with tlb := s.tlb.filter fun t => !(t.asid == asid && t.page == page)
           walks := s.walks.filter fun e => !(e.asid == asid && e.tag == page * 4096 / 2 ^ (12 + 9 * e.level)) }

/-- An uncorrectable error in a queue or a save buffer that holds the work of a context (R379): there is no consumer to report to, so the context
ends (R380). (DESIGN CHOICE, assumption 73) -/
def poisonBuffer (c : Nat) (s : State) : Out :=
  if (tget s.ctxs c).isNone then .refused .notEnabled
  else .next ((logError s 2 .core 0 false 0).modCtx c fun k => { k with containing := true })

/-- A soft error's change of the walk of a hart. -/
def Hart.modWalk (h : Hart) (f : Walk → Walk) : Hart :=
  { h with ops := h.ops.map fun o => match o.kind with
    | .walk w => { o with kind := .walk (f w) }
    | _ => o }

/-- What a soft error in an unchecked part makes of a hart (R383). -/
def Upset.onHart (u : Upset) (h : Hart) : Hart :=
  match u with
  | .x r w => if r = 0 then h else { h with x := h.x.set r.val w }
  | .slot r e w => { h with v := h.v.set r.val { h.rv r with slots := trimSlots (tabulate 1024 fun i => if i = e.val then w else (h.rv r).slot i) } }
  | .mask r w => { h with m := h.m.set r.val w }
  | .pc w => { h with pc := w &&& ~~~3#64 }
  | .flags w => { h with fflags := w }
  | .vl n => { h with vl := n.val }
  | .window .. => h
  | .walkReg r w => h.modWalk fun k => { k with regs := k.regs.set r.val w }
  | .walkCount n => h.modWalk fun k => { k with occ := n }

/-- What a soft error in an unchecked part makes of the module (R383): a wrong result that nothing reports. -/
def Upset.apply (u : Upset) (uid : Nat) (s : State) : State :=
  match u with
  | .window off b =>
    let c := (s.hart uid).crew
    if off < (s.crew c).winSize then s.setCrew c { (s.crew c) with win := memWrite (s.crew c).win off [b] } else s
  | u => s.modHart uid u.onHart

/-! ## Error log and engine faults -/

/-- An operation of a hart fails at a unit, or a SEND by its target (R215): the units before it are done and the operation stops. -/
def failOp (s : State) (hart : Nat) (o : EngOp) : Option State :=
  match o.kind with
  | .send m false => if inTorus s m.module_ then none else some (stopOp s hart o 5 0)
  | _ =>
    match runAll s hart o with
    | .fail s o sub a => some (stopOp s hart o.halt sub a)
    | _ => none

/-- The operations of an engine for a hart that it may work on: one, or several copies (R12). -/
def engRunning (s : State) (hart : Nat) (eng : Fin 8) : List EngOp := (s.hart hart).ops.filter fun o => o.eng == eng && canRun s hart o

/-- ENGINE_FAULT (R215): the first of the engine's operations for a hart that fails. A walk stops by its own step. -/
def execEngineFault (hart : Nat) (eng : Fin 8) (s : State) : Out :=
  match (engRunning s hart eng).findSome? (failOp s hart) with
  | some s => .next s
  | none => .refused .notEnabled

/-- Cycles of an engine's clock pass for the operations it works on for a hart (R310). -/
def engineTick (hart : Nat) (eng : Fin 8) (n : Nat) (s : State) : Out :=
  if eng = 7 then
    (if working s hart && (s.hart hart).mops.any (·.started) then
      .next (s.modHart hart fun h => { h with mops := h.mops.map fun o => if o.started then { o with watch := o.watch + n } else o })
    else .refused .notEnabled)
  else
  let l := (engRunning s hart eng).map (·.ord)
  if l = [] then .refused .notEnabled
  else .next (s.modHart hart fun h => { h with ops := h.ops.map fun o => if o.eng = eng ∧ l.contains o.ord then { o with watch := o.watch + n } else o })

/-- ENGINE_WATCHDOG (R310): an operation has done nothing for the context's limit of cycles of its engine's clock: a hang report in the error
log. (DEDUCED, assumption 64) -/
def execEngineWatchdog (hart : Nat) (eng : Fin 8) (s : State) : Out :=
  let limit := (s.ctx (s.hart hart).ctx).watchLimit
  let late (o : EngOp) : Bool := limit != 0 && limit ≤ o.watch
  let stuck (o : MatOp) : Bool := eng == 7 && limit != 0 && o.started && limit ≤ o.watch
  if (s.hart hart).mops.any stuck then
    let s := s.modHart hart fun h => { h with mops := h.mops.map fun o => if stuck o then { o with watch := 0 } else o }
    .next (logError s 4 .engine (s.hart hart).core false 0)
  else if !(engRunning s hart eng).any late then .refused .notEnabled
  else
    let s := s.modHart hart fun h => { h with ops := h.ops.map fun o => if o.eng = eng ∧ late o then { o with watch := 0 } else o }
    .next (logError s 4 .engine (s.hart hart).core false 0)

/-- The watchdog of a hart has reached its context's limit (R310). -/
def watchExpired (s : State) (h : Hart) : Bool :=
  let l := (s.ctx h.ctx).watchLimit
  l != 0 && l ≤ h.watch && h.status == .running && h.place.isSome

/-- WATCHDOG (R310). -/
def execWatchdog (hart : Nat) (s : State) : Out :=
  if !watchExpired s (s.hart hart) then .refused .notEnabled
  else
    let s := s.modHart hart fun h => { h with insn := peekWord s hart }
    .next (freeze s hart ((s.hart hart).record .watchdog 0))

/-! ## Menders (R349, R350, R362) -/

/-- MENDER_SPAWN (R349, R350): a free pool slot takes the oldest queued event; the frozen hart's crew is resident, and is held from now on. -/
def execMenderSpawn (c slot : Nat) (s : State) : Out :=
  let k := s.ctx c
  if !k.pool.contains slot || !openSlot s c slot || k.contained || k.containing then .refused .notEnabled
  else match findIdx (fun e => !e.taken) k.events with
  | none => .refused .notEnabled
  | some i =>
    match k.events[i]? with
    | none => .refused .notEnabled
    | some e =>
      if e.handle = 0 then .next (spawnMender (dispatchEntry s c i) c slot e none)
      else if (s.hart e.hart).place.isNone then .refused .notEnabled
      else .next (spawnMender (holdCrew (dispatchEntry s c i) e.hart) c slot e (some e.hart))

/-- The root mender ends its work on the oldest depth-2 event of a context (R362): the mender is resumed or killed. -/
def rootGo (c : Nat) (go : Bool) (s : State) : State :=
  match (s.ctx c).rootEvents with
  | [] => s
  | e :: r =>
    let s := s.modCtx c fun k => { k with rootEvents := r }
    if go then resume s e.hart else killHart s e.hart

/-- A freeze of the root mender at depth 3 contains the context (R362). -/
def rootFault (c : Nat) (s : State) : State :=
  if (s.ctx c).rootEvents = [] then s else s.modCtx c fun k => { k with containing := true }

/-! ## Heritage strips (R342, R343) -/

/-- A farm of the heritage cluster that has ended (R251, R343), its strips leaving the other cores. -/
def heritageDone (s : State) (f : Farm) (code : FarmCode) : State :=
  let s := { s with mgmt := { s.mgmt with heritageRun := s.mgmt.heritageRun.filter fun p => (p.2.1, p.2.2.1) != (f.ctx, f.id) } }
  match code with
  | .done => endFarm s f
  | _ =>
    let s := flushSystem s (asidOf f.aspace)
    let f := { f with code := code }
    let s := Farm.report (endEntry (s.setFarm f) f) f
    match f.queue with
    | some q => hiveReturn s q f.id
    | none => s

/-- HERITAGE_STRIP_END (R342): a core's strip ends, and it takes the next one. -/
def execHeritageStripEnd (core : Fin 8) (s : State) : Out :=
  match tget s.mgmt.heritageRun core.val with
  | none => .refused .notEnabled
  | some (c, id, _) =>
    match s.farm? c id with
    | none => .refused .notEnabled
    | some f =>
      let f := { f with ended := f.ended + 1 }
      if f.finished && regionsOwned s f then .refused .notEnabled
      else
      let s := { (s.setFarm f) with mgmt := { s.mgmt with heritageRun := tdel s.mgmt.heritageRun core.val } }
      .next (feedHeritage (if f.finished then heritageDone s f .done else s))

/-- HERITAGE_FAULT (R343, R350): the fault's event has no handle, and the farm ends with CONTAINED. -/
def execHeritageFault (core : Fin 8) (cause : BitVec 8) (a : Word) (s : State) : Out :=
  match tget s.mgmt.heritageRun core.val with
  | none => .refused .notEnabled
  | some (c, id, strip) =>
    match s.farm? c id with
    | none => .refused .notEnabled
    | some f =>
      let e : Event := { handle := 0, hart := 0, addr := a, pc := 0, cause := cause.toNat, depth := 1, farm := id, taken := false, strip := strip }
      if regionsOwned s f then .refused .notEnabled
      else
      let s := heritageDone s f .contained
      let s := match spareSlot s c with
        | some slot => spawnMender s c slot e none
        | none => queueEvent s c e
      .next (feedHeritage s)

end Sys2Proof.Machine
end

