-- ==== Sys2Proof/Machine/Page.lean ====
section
/-! DEFINITION. Translation instructions and maintenance (spec/15_translation.md R318–R330): ASPSET, PGMAP, FENCECAP
(spec/16_isolation.md R336, R337), invalidation, page requests (spec/12_control_ops.md R281) and the swap engine. -/

namespace Sys2Proof.Machine

/-! ## ASPSET (R319) -/

/-- ASPSET (R319, R185): the accesses of both agents, loads that ran ahead among them, are performed under the old ASID; the drain counts in
sc12. -/
def execAspset (d a : Reg) (s : State) : Out :=
  issue { cls := 7, priv := true, xr := [a], xw := [d] } noIll anyFmt (fun s =>
    let h := s.me
    let w := h.rx a
    if bits w.toNat 63 60 ≠ 0 then stop .illegalOp s
    else if !(s.ctx h.ctx).asids.contains (BitVec.ofNat 16 (asidOf w)) then stop .priv s
    else
      afterDrain 12 s.cur (fun s =>
        finish (fun h => { (h.wx d h.aspace) with aspace := w }) (drainAll (orderLoads s s.cur true true true true) s.cur)) s) s

/-! ## Invalidation (R322) -/

/-- A store translated under an entry of some pages. -/
def underPages (asid : Nat) (test : Nat → Bool) (p : PStore) : Bool := p.asid == asid && test (p.va / 4096)

/-- A store that a killed hart left may not be performed yet: it waits as any store does. -/
def orphanWaits (s : State) (p : PStore) : Bool := isOwned s p.asid (p.va / 64) || retained s p.va || hostDown s (p.pa / 64)

/-- A store that a killed hart left performed at its home (R170, R360); the host's acknowledgement is its farm's to wait for (R251). -/
def performOrphan (s : State) (o : Nat × Nat × PStore) : State :=
  let p := o.2.2
  let s := homeWrite (touchSlice s p.va) 160 p.asid p.va p.pa p.rights p.bytes
  if !isHost p.pa then s
  else match s.farm? o.1 o.2.1 with
    | some f => s.setFarm { f with hostLines := (f.hostLines ++ [(p.asid, p.va / 64)]).eraseDups }
    | none => hostPass s p.asid (p.va / 64)

/-- The home of a store that a killed hart left performs it, after earlier ones to a common byte. -/
def leftStore (k : Nat) (s : State) : Out :=
  match s.orphans[k]? with
  | none => .refused .notEnabled
  | some o =>
    if orphanWaits s o.2.2 || (s.orphans.take k).any (fun q => q.2.2.overlaps o.2.2) then .refused .notEnabled
    else .next (performOrphan { s with orphans := dropAt k s.orphans } o)

/-- An invalidation cannot complete yet (R322): a store translated under an old entry waits. -/
def invalWaits (s : State) (asid : Nat) (test : Nat → Bool) : Bool :=
  (s.harts.any fun p => drainWaits s p.1 (underPages asid test)) || s.orphans.any fun o => underPages asid test o.2.2 && orphanWaits s o.2.2

/-- The stores that killed hart left under some pages performed, in their order. -/
def settleOrphans (s : State) (asid : Nat) (test : Nat → Bool) : State :=
  (s.orphans.filter fun o => underPages asid test o.2.2).foldl performOrphan { s with orphans := s.orphans.filter fun o => !underPages asid test o.2.2 }

/-- What a hart holds of pages that an invalidation covers (R322): its loads there are performed, what it has read of them ahead is forgotten, and
the bytes of its version are to be translated again. -/
def Hart.staleAt (h : Hart) (asid : Nat) (test : Nat → Bool) : Hart :=
  let h := (h.performLoads (fun _ => true) fun a va => a == asid && test (va / 4096)).forget fun a =>
    a.asid == asid && (test (a.va / 4096) || test ((a.va + a.bytes.length) / 4096))
  { h with version := h.version.map fun e => if e.asid = asid ∧ test (e.va / 4096) then { e with stale := true } else e }

/-- The rows of the page that a page command has translated done, where an engine works on it, and its translation forgotten (R229, R322). A
command that is stopped, or cannot go on, translates again at its next row. (DEDUCED, assumption 69) -/
def finishPage (asid : Nat) (s : State) (p : Nat × EngOp) : State :=
  if p.2.pages.isNone || asidOf p.2.aspace != asid then s
  else
    let s := match (if canRun s p.1 p.2 then runUnits p.1 (4 - p.2.unit % 4) s p.2 else .blocked s) with
      | .done s _ => s
      | .blocked s => s
      | .fail s _ _ _ => s
    s.modHart p.1 fun h => { h with ops := h.ops.map fun o => if o.eng = p.2.eng ∧ o.ord = p.2.ord then { o with pages := none } else o }

/-- An invalidation of the pages of an ASID that a test accepts: accesses translated under the old entries are performed first. -/
def invalidate (s : State) (asid : Nat) (test : Nat → Bool) : State :=
  let s := (engOps s).foldl (finishPage asid) s
  let s := s.harts.foldl (fun s p => settle s p.1 (underPages asid test)) s
  let s := settleOrphans s asid test
  invalidatePages { s with harts := tmap (fun _ h => h.staleAt asid test) s.harts } asid test

/-- The pages of a naturally aligned page of a level. -/
def levelPages (va level : Nat) (page : Nat) : Bool := page / 512 ^ level == va / 4096 / 512 ^ level

/-! ## PGMAP (R320) -/

/-- The address of the entry a walk to a level reaches, from a table page; none when an entry above is invalid, a leaf or
unusable, or the root lies outside the physical map (R320, R313). -/
def entryAt (s : State) (va level : Nat) : Nat → Nat → Option Nat
  | 0, _ => none
  | n + 1, table =>
    let ea := table * 4096 + bits va (20 + 9 * n) (12 + 9 * n) * 8
    if !inMap s (table * 4096) 4096 then none
    else if n = level then some ea
    else
      let p := natOf (memRead s.mem (steer s ea) 8)
      let ppn := bits p 53 10
      if !bit p 0 || pteBad p || bits p 3 1 != 0 then none else entryAt s va level n ppn

/-- Bytes written to physical memory at .s and to the L2 copy when there is one (R317). -/
def sysWrite (s : State) (a : Nat) (b : List Byte) : State :=
  let t := physWrite s a b
  { t with mem := (b.foldl (fun (p : Mem × Nat) x => (memSet p.1 (steer s p.2) x, p.2 + 1)) (t.mem, a)).1 }

/-- PGMAP (R320): it waits while its invalidation could not complete. -/
def execPgmap (d a b : Reg) (s : State) : Out :=
  issue { cls := 7, priv := true, xr := [a, b], xw := [d] } noIll anyFmt (afterDrain 12 s.cur fun s =>
    let s := drainAll (orderLoads s s.cur true true true true) s.cur
    let h := s.me
    let w := (h.rx a).toNat
    let e := (h.rx b).toNat
    let level := w % 4
    let va := w - level
    let done (n : Nat) (s : State) : Out := finish (fun h => h.wx d (BitVec.ofNat 64 n)) s
    if level = 3 ∨ va % (4096 * 512 ^ level) ≠ 0 ∨ !canonical va ∨ inWindow va ∨ bits e 63 54 ≠ 0 then done 2 s
    else match entryAt s va level 5 (rootOf h.aspace) with
    | none => done 1 s
    | some ea =>
      if invalWaits s (asidOf h.aspace) (levelPages va level) then ownedWait s
      else done 0 (invalidate (sysWrite s ea (bytesOf 8 e)) (asidOf h.aspace) (levelPages va level))) s

/-! ## FENCECAP (R336, R337) -/

/-- A measurement register extended (R340): m := SHA-256(m ‖ d). -/
def extend (s : State) (r : Nat) (d : List Byte) : State :=
  { s with mgmt := { s.mgmt with measures := modAt (fun m => sha256 (m ++ d)) r s.mgmt.measures } }

/-- A measurement register extended with a digest of firmware's own making. -/
def extendOwn (s : State) (r : Nat) : State :=
  let d := tabulate 32 fun i => Config.recordDigest (s.fresh + i)
  extend { s with fresh := s.fresh + 32 } r d

/-- A capability bit cleared on a core, recorded and measured (R336, R345); placement meets it at once (R260, R261), and an earlier command to
restore it no longer holds. (DESIGN CHOICE, assumption 57) -/
def fenceBit (s : State) (core b : Nat) : State :=
  let c := s.core core
  let s := s.setCore core { c with mask := c.mask &&& ~~~(BitVec.ofNat 128 (2 ^ b)) }
  reviewHeld (extendOwn { s with mgmt := { s.mgmt with
    fences := s.mgmt.fences ++ [(core, b)], restores := s.mgmt.restores.filter fun p => p != (core, b) } } 2)

/-- FENCECAP (R337). -/
def execFencecap (d a b : Reg) (s : State) : Out :=
  issue { cls := 7, priv := true, xr := [a, b], xw := [d] } noIll anyFmt (fun s =>
    let h := s.me
    let w := (h.rx b).toNat
    let done (n : Nat) (s : State) : Out := finish (fun h => h.wx d (BitVec.ofNat 64 n)) s
    if 128 ≤ w ∨ !maskBits.getLsbD w then done 2 s
    else
      match handleHart s h.ctx (h.rx a) with
      | none => done 2 s
      | some u =>
        match (s.hart u).status with
        | .frozen r =>
          if !(s.ctx h.ctx).fenceRight then done 2 s
          else
            let core := coreOf r.hartid
            if !(s.core core).mask.getLsbD w then done 1 s else done 0 (fenceBit s core w)
        | _ => done 2 s) s

/-! ## Page requests (R281, R326) -/

/-- A range of PGREQ or PGHINT is refused: longer than 64 MiB, wrapping, or touching a non-canonical address. -/
def rangeBad (a n : Nat) : Bool := 64 * 2 ^ 20 < n || 2 ^ 64 < a + n || !canonical a || !canonical (a + n - 1)

/-- The pages a range touches that are not in the crew window. -/
def rangePages (a n : Nat) : List Nat :=
  (tabulate ((a + n - 1) / 4096 + 1 - a / 4096) fun i => a / 4096 + i).filter fun p => !inWindow (p * 4096)

/-- The request ring is configured (R321). -/
def Context.ringOn (k : Context) : Bool := k.ringBase != 0 && 6 ≤ k.ringLog && k.ringLog ≤ 12

/-- There is room for another request (R326). -/
def Context.ringRoom (k : Context) : Bool := k.reqs.length < 256 && (k.ringProd - k.ringCons).toNat < 2 ^ k.ringLog

/-- The next request id: ascending, skipping outstanding ones (R326). -/
def Context.reqId (k : Context) : Nat → BitVec 16 → BitVec 16
  | 0, n => n
  | f + 1, n => if k.reqs.any fun r => r.id == n.toNat then k.reqId f (n + 1) else n

/-- A new request: its ring entry at .s, the producer index and the signal (R326). -/
def newRequest (s : State) (c asid page : Nat) (hint : Bool) (waiter : List Nat) : State :=
  let k := s.ctx c
  let id := k.reqId 257 k.nextReq
  let entry := bytesOf 8 (page * 4096 % 2 ^ 57) ++ bytesOf 8 (asid + id.toNat * 2 ^ 16 + hint.toNat * 2 ^ 32 + k.hintLost.toNat * 2 ^ 33)
  let s := sysWrite s (k.ringBase.toNat + 16 * (k.ringProd.toNat % 2 ^ k.ringLog)) entry
  signal (s.setCtx c { k with
    reqs := k.reqs ++ [{ id := id.toNat, asid := asid, page := page, waiters := waiter }]
    nextReq := id + 1, ringProd := k.ringProd + 1, hintLost := false }) c

/-- A hart joins an outstanding request. -/
def joinRequest (s : State) (c asid page uid : Nat) : State :=
  s.modCtx c fun k => { k with reqs := k.reqs.map fun r => if r.asid = asid ∧ r.page = page ∧ !r.waiters.contains uid then { r with waiters := r.waiters ++ [uid] } else r }

/-- A PGREQ's page (R326): found resident, joined, requested, refused at once, or left to wait for room. -/
def askPage (uid : Nat) (s : State) (page : Nat) : State :=
  let h := s.hart uid
  let k := s.ctx h.ctx
  let asid := asidOf h.aspace
  if k.reqDone.contains (uid, page) || k.reqRefused.contains (uid, page)
      || k.reqs.any (fun r => r.asid == asid && r.page == page && r.waiters.contains uid) then s
  else if walk s h.aspace (page * 4096) ≠ .absent then s.setCtx h.ctx { k with reqDone := k.reqDone ++ [(uid, page)] }
  else if k.reqs.any fun r => r.asid == asid && r.page == page then joinRequest s h.ctx asid page uid
  else if !k.ringOn then s.setCtx h.ctx { k with reqRefused := k.reqRefused ++ [(uid, page)] }
  else if k.ringRoom then newRequest s h.ctx asid page false [uid]
  else s

/-- A PGHINT's page (R326). -/
def hintPage (uid : Nat) (s : State) (page : Nat) : State :=
  let h := s.hart uid
  let k := s.ctx h.ctx
  let asid := asidOf h.aspace
  if walk s h.aspace (page * 4096) ≠ .absent || (k.reqs.any fun r => r.asid == asid && r.page == page) || !k.ringOn then s
  else if k.ringRoom then newRequest s h.ctx asid page true []
  else s.setCtx h.ctx { k with hintLost := true }

/-- PGREQ (R281, R326). -/
def execPgreq (d a b : Reg) (s : State) : Out :=
  issue { cls := 5, xr := [a, b], xw := [d] } noIll anyFmt (fun s =>
    let h := s.me
    let x := (h.rx a).toNat
    let n := (h.rx b).toNat
    if n = 0 then finish (fun h => h.wx d 0) s
    else if rangeBad x n then finish (fun h => h.wx d 2) s
    else
      let pages := rangePages x n
      let s := pages.foldl (askPage s.cur) s
      let k := s.ctx h.ctx
      if pages.all fun p => k.reqDone.contains (s.cur, p) || k.reqRefused.contains (s.cur, p) then
        let bad := pages.any fun p => k.reqRefused.contains (s.cur, p)
        finish (fun h => h.wx d (if bad then 1 else 0)) (forgetPages s s.cur)
      else waitOn 7 false s) s

/-- PGHINT (R281, R326). -/
def execPghint (d a b : Reg) (s : State) : Out :=
  issue { cls := 5, xr := [a, b], xw := [d] } noIll anyFmt (fun s =>
    let h := s.me
    let x := (h.rx a).toNat
    let n := (h.rx b).toNat
    if n = 0 then finish (fun h => h.wx d 0) s
    else if rangeBad x n then finish (fun h => h.wx d 2) s
    else finish (fun h => h.wx d 0) ((rangePages x n).foldl (hintPage s.cur) s)) s

/-! ## The maintenance registers of a context's window (R321, R326) -/

/-- INVAL_CONTROL_WRITE (R321): an accepted write starts the invalidation of the range that the inval address then gives. -/
def execInvalControlWrite (c : Nat) (v : Word) (s : State) : Out :=
  hostWrite (fun s =>
    match tget s.ctxs c with
    | none => .next s
    | some k =>
      let w := v.toNat
      if k.invBusy || !k.asids.contains (BitVec.ofNat 16 w) || bit w 17 || bits w 61 38 != 0 then .next (s.setCtx c { k with invRefused := true })
      else .next (s.setCtx c { k with invCtl := BitVec.ofNat 64 (w % 2 ^ 38), invFirst := k.invAddr, invBusy := true, invRefused := false })) s

/-- The pages of an accepted inval control (R321): the whole ASID, or a range from the first virtual page; a page past the canonical
top is no page. -/
def invalTest (k : Context) (page : Nat) : Bool :=
  let w := k.invCtl.toNat
  let f := bits k.invFirst.toNat 56 12
  let first := if f < 2 ^ 44 then f else f + (2 ^ 52 - 2 ^ 45)
  bit w 16 || (first ≤ page && page < first + (bits w 37 18 + 1))

/-- INVALIDATION (R322). -/
def execInvalidation (c : Nat) (s : State) : Out :=
  let k := s.ctx c
  if !k.invBusy || invalWaits s (bits k.invCtl.toNat 15 0) (invalTest k) then .refused .notEnabled
  else .next ((invalidate s (bits k.invCtl.toNat 15 0) (invalTest k)).modCtx c fun k => { k with invBusy := false })

/-- REQUEST_RING_CONTROL_WRITE (R321). -/
def execRequestRingControlWrite (c : Nat) (v : Word) (s : State) : Out :=
  hostWrite (fun s =>
    match tget s.ctxs c with
    | none => .next s
    | some k =>
      let w := v.toNat
      let lg := bits w 3 0
      if (lg ≠ 0 ∧ (lg < 6 ∨ 12 < lg)) ∨ bits w 15 4 ≠ 0 ∨ bits w 63 48 ≠ 0 then .next s
      else .next (s.setCtx c { k with ringLog := lg, ringCons := BitVec.ofNat 16 (bits w 47 32) })) s

/-- REQUEST_RESPONSE (R326). (DEDUCED, assumption 56) -/
def execRequestResponse (c : Nat) (v : Word) (s : State) : Out :=
  hostWrite (fun s =>
    match tget s.ctxs c with
    | none => .next s
    | some k =>
      match k.reqs.find? fun r => r.id == bits v.toNat 15 0 with
      | none => .next s
      | some r =>
        let ws := r.waiters.map fun u => (u, r.page)
        let k := { k with reqs := k.reqs.erase r }
        .next (s.setCtx c (if bit v.toNat 16 then { k with reqRefused := k.reqRefused ++ ws } else { k with reqDone := k.reqDone ++ ws }))) s

/-! ## The swap engine (R328–R330, R412) -/

/-- A descriptor read from its 32 bytes; none when it breaks a rule, names a slot in use or a context that does not exist (R328). -/
def swapDesc (s : State) (b : List Byte) : Option SwapDesc :=
  let near := fieldAt b 0 8
  let far := fieldAt b 8 8
  let mode := fieldAt b 16 4
  let slot := fieldAt b 20 4
  let ctx := fieldAt b 24 4
  if near % 65536 ≠ 0 ∨ nearTop < near + 65536 ∨ far % 65536 ≠ 0 ∨ far < farBase ∨ farBase + farSize s < far + 65536 ∨ 4 ≤ mode ∨ 64 ≤ slot
      ∨ (tget s.swap.slots slot).isSome ∨ (ctx ≠ 0 ∧ (tget s.ctxs ctx).isNone) ∨ fieldAt b 28 4 ≠ 0 then none
  else some { near := near, far := far, move := bit mode 0, toNear := bit mode 1, slot := slot, ctx := ctx }

/-- The swap engine is busy (R412): a descriptor runs or has been submitted. -/
def Swap.busy (w : Swap) : Bool := w.running.isSome || w.queue != []

/-- SWAP_DOORBELL (R412): a descriptor is submitted; while the engine is busy, up to 8 wait behind the one that runs or is the first. -/
def execSwapDoorbell (v : Word) (s : State) : Out :=
  hostWrite (fun s =>
    if !v.getLsbD 0 then .next s
    else
      let w := s.swap
      let room := if w.running.isSome then 8 else 9
      .next { s with swap := if w.queue.length < room then { w with queue := w.queue ++ [w.staging] } else { w with rejected := true } }) s

/-- SWAP_PAIR_RUN (R328): the next descriptor starts or is rejected without effect. -/
def execSwapPairRun (s : State) : Out :=
  let w := s.swap
  match w.running, w.queue with
  | none, b :: r =>
    match swapDesc s b with
    | none => .next { s with swap := { w with queue := r, rejected := true } }
    | some d => .next { s with swap := { w with queue := r, running := some d, next := 0, rejected := false, stopped := false
                                                slots := tput w.slots d.slot { desc := d, moved := 0, age := w.begun }, begun := w.begun + 1 } }
  | _, _ => .refused .notEnabled

/-- SWAP_LINE_MOVE (R329): the next line moves, or an uncorrectable error in it stops the pair before it. The pair's units are places of the
memory, as the steering of the pairs before it leaves them, so that no access changes its value. (DEDUCED, assumption 84) -/
def execSwapLineMove (bad : Bool) (s : State) : Out :=
  match s.swap.running with
  | none => .refused .notEnabled
  | some d =>
    let i := s.swap.next
    let a := d.near + 64 * i
    let b := d.far + 64 * i
    let s := dropPlace (dropPlace s a) b
    let reads := if d.move then (if d.toNear then [b] else [a]) else [a, b]
    let stopNow : Bool := bad || reads.any fun x => s.bad.contains (x / 64)
    if stopNow then
      .next (logError { s with swap := { s.swap with running := none, stopped := true, stopLine := i } } 2 .swap 0 false (d.near + 64 * i))
    else
      let x := memRead s.mem a 64
      let y := memRead s.mem b 64
      let mem := if !d.move then memWrite (memWrite s.mem a y) b x else if d.toNear then memWrite s.mem a y else memWrite s.mem b x
      let gone := if !d.move then [] else if d.toNear then [a / 64] else [b / 64]
      let slots := match tget s.swap.slots d.slot with
        | some r => tput s.swap.slots d.slot { r with moved := r.moved ||| BitVec.ofNat 1024 (2 ^ i) }
        | none => s.swap.slots
      let last : Bool := i == 1023
      let s := { s with mem := mem, bad := s.bad.filter fun n => !gone.contains n, swap := { s.swap with slots := slots, next := i + 1, running := if last then none else some d } }
      .next (if last then signal s 0 else s)

/-- REDIRECT_CLEAR (R412, R330); the slot of the running pair is kept. -/
def execRedirectClear (v : Word) (s : State) : Out :=
  hostWrite (fun s =>
    let n := bits v.toNat 5 0
    if (s.swap.running.map fun d => d.slot == n).getD false then .next s
    else .next { s with swap := { s.swap with slots := tdel s.swap.slots n } }) s

end Sys2Proof.Machine
end

