-- ==== Sys2Proof/Machine/Power.lean ====
section
/-! DEFINITION. Power, clocks and lane retirement (spec/14_power.md R302–R309), self-tests (spec/18_recovery.md R383) and
retention (R381). Times are in hub cycles, 1,000 to a microsecond (R10). -/

namespace Sys2Proof.Machine

/-- A power control field changed. -/
def State.setPower (s : State) (p : Power) : State := { s with power := p }

/-- The mean of the newest `n` samples times their number, and that number. -/
def newest (n : Nat) (l : List Nat) : Nat × Nat :=
  let m := l.drop (l.length - n)
  (m.foldl (· + ·) 0, m.length)

/-- A mean of some samples, in milliwatts, exceeds a percentage of a cap in watts (R304, R305). -/
def above (p : Nat × Nat) (cap percent : Nat) : Bool := cap * 1000 * p.2 * percent < p.1 * 100

/-- A mean of some samples lies below a percentage of a cap (R305). -/
def under (p : Nat × Nat) (cap percent : Nat) : Bool := p.1 * 100 < cap * 1000 * p.2 * percent

/-- Every core leaves boost and goes to 1.6 GHz (R305). -/
def leaveBoost (s : State) : State :=
  (List.range 40).foldl (fun s q =>
    let x := s.quad q
    let s := if x.boosting || x.stepping then s.setQuad q { x with boosting := false, stepping := false } else s
    slowQuad s q 1600) s

/-- Withholding grown by `n` groups on every core within R302's limit. -/
def withholdAll (s : State) (n : Nat) : State :=
  (List.range 160).foldl (fun s c =>
    let k := s.core c
    let w := min (k.withheld + n) (max k.withheld (withholdLimit s c))
    if w = k.withheld then s else regrant (s.setCore c { k with withheld := w }) c) s

/-- Every core is at its withholding limit (R305). -/
def atLimit (s : State) : Bool := (List.range 160).all fun c => withholdLimit s c ≤ (s.core c).withheld

/-- Every core's clock lowered by 100 MHz, to 1.0 GHz at least (R305). -/
def slowAll (s : State) : State :=
  (List.range 160).foldl (fun s c =>
    let m := (s.core c).target
    if 1000 < m then setClock s c (max 1000 (m - 100)) else s) s

/-- POWER_SAMPLE (R304, R305): one sample in milliwatts every 1,000 hub cycles; hub time does not pass a sample's time (`deadlines`).
(DEDUCED, assumption 49) -/
def execPowerSample (mw : Nat) (s : State) : Out :=
  let p := s.power
  if s.hub < p.now + 1000 then .refused .notEnabled
  else
    let samples := (p.samples ++ [mw]).drop (p.samples.length + 1 - 1000000)
    let peak := newest 10 samples
    let avg := newest 1000000 samples
    let overPeak := above peak p.peakCap 100
    let overAvg := above avg p.avgCap 100
    let below : Bool := under peak p.peakCap 95 && under avg p.avgCap 95
    let p := { p with samples := samples, now := s.hub, belowFrom := if below then some (p.belowFrom.getD s.hub) else none }
    let s := s.setPower p
    if !overPeak && !overAvg then .next s
    else
      let s := leaveBoost s
      if atLimit s then
        (if (List.range 160).any fun c => 1000 < (s.core c).target then
          .next ((slowAll s).setPower { p with steps := .clock :: p.steps })
        else .next s)
      else
        let (s, p) := if overPeak then (withholdAll s 2, { p with steps := .lanes 2 :: p.steps }) else (s, p)
        if overAvg && (p.lastAvg + 100000 ≤ s.hub || p.lastAvg == 0) then
          .next ((withholdAll s 1).setPower { p with steps := .lanes 1 :: p.steps, lastAvg := s.hub })
        else .next (s.setPower p)

/-- POWER_UNDO (R305): the newest step is undone by one group per core or 100 MHz. -/
def execPowerUndo (s : State) : Out :=
  let p := s.power
  if !(p.belowFrom.map fun t => decide (t + 100000 ≤ s.hub)).getD false ∨ s.hub < p.lastUndo + 100000 then .refused .notEnabled
  else match p.steps with
  | [] => .refused .notEnabled
  | .clock :: r =>
    let s := (List.range 160).foldl (fun s c =>
      if (s.core c).target < 1600 then setClock s c (min 1600 ((s.core c).target + 100)) else s) s
    .next (s.setPower { p with steps := r, lastUndo := s.hub })
  | .lanes n :: r =>
    let s := (List.range 160).foldl (fun s c =>
      let k := s.core c
      if k.withheld = 0 then s else regrant (s.setCore c { k with withheld := k.withheld - 1 }) c) s
    .next (s.setPower { p with steps := if n ≤ 1 then r else .lanes (n - 1) :: r, lastUndo := s.hub })

/-! ## Boost (R306, R307) -/

/-- The permits of a pair: 64 at reset (R306). -/
def permits (s : State) (pair : Nat) : Nat := tgetD s.power.permits pair 64

/-- The age of a quad's claim: when it began to stand; none when it does not claim (R306). -/
def claimAge (s : State) (q : Nat) : Option Nat :=
  let x := s.quad q
  if x.boostOn && quadBusy s q then some (x.claimAt.getD 0) else none

/-- The other quad of a pair. -/
def partner (q : Nat) : Nat := if q % 2 = 0 then q + 1 else q - 1

/-- A core runs above 1.6 GHz. -/
def fast (s : State) (q : Nat) : Bool := (List.range 4).any fun i => 1600 < (s.core (4 * q + i)).mhz

/-- BOOST_CLAIM (R306): the oldest claim of a pair is served at 1.9 GHz. -/
def execBoostClaim (quad : Nat) (s : State) : Out :=
  let other := partner quad
  match claimAge s quad with
  | none => .refused .notEnabled
  | some t =>
    let older : Bool := match claimAge s other with
      | some u => u < t
      | none => false
    let x := s.quad quad
    let y := s.quad other
    let settled := (List.range 160).all fun c => (s.core c).withheld == 0 && 1600 ≤ (s.core c).target && 1600 ≤ (s.core c).mhz
    if 40 ≤ quad || older || x.boosting || x.stepping || y.boosting || y.stepping || permits s (quad / 2) < 4 || !settled then .refused .notEnabled
    else
      let s := s.setQuad quad { x with boosting := true }
      let s := (List.range 4).foldl (fun s i =>
        let c := 4 * quad + i
        if (s.core c).noBoost then s else setClock s c 1900) s
      .next (match tget s.power.runs (quad / 2) with
        | some (_, true) => s
        | _ => s.setPower { s.power with runs := tput s.power.runs (quad / 2) (s.hub, false) })

/-- A core of a pair runs above 1.6 GHz. -/
def fastPair (s : State) (pair : Nat) : Bool := fast s (2 * pair) || fast s (2 * pair + 1)

/-- The hub time at which a pair's interval of boost ends, when a core has run above 1.6 GHz in it (R307). -/
def chargeDue (s : State) (pair : Nat) : Option Nat :=
  match tget s.power.runs pair with
  | some (t, true) => if permits s pair = 0 then none else some (t + 10000)
  | _ => none

/-- PERMIT_CHARGE (R307): one permit for a 10 µs interval in which a core of the pair ran above 1.6 GHz; at 0 the quad falls to 1.75 GHz, and
while it boosts another interval begins. -/
def execPermitCharge (pair : Nat) (s : State) : Out :=
  match chargeDue s pair with
  | none => .refused .notEnabled
  | some t =>
    let n := permits s pair
    let q := if (s.quad (2 * pair)).boosting then 2 * pair else 2 * pair + 1
    let on := (s.quad q).boosting
    if s.hub < t then .refused .notEnabled
    else
      let s := s.setPower { s.power with
        permits := tput s.power.permits pair (n - 1)
        runs := if on && n != 1 then tput s.power.runs pair (t, fastPair s pair) else tdel s.power.runs pair }
      if on && n == 1 then .next (slowQuad (s.setQuad q { (s.quad q) with boosting := false, stepping := true, stepAt := s.hub }) q 1750)
      else .next s

/-- The hub time at which a pair's interval without a core above 1.6 GHz ends (R307). -/
def refillDue (s : State) (pair : Nat) : Option Nat :=
  if 20 ≤ pair || fastPair s pair || 64 ≤ permits s pair then none else some (tgetD s.power.idleFrom pair 0 + 100000)

/-- PERMIT_REFILL (R307). -/
def execPermitRefill (pair : Nat) (s : State) : Out :=
  match refillDue s pair with
  | none => .refused .notEnabled
  | some t =>
    if s.hub < t then .refused .notEnabled
    else .next (s.setPower { s.power with permits := tput s.power.permits pair (permits s pair + 1), idleFrom := tput s.power.idleFrom pair t })

/-- BOOST_STEP_DOWN (R307): 50 µs at 1.75 GHz are over. -/
def execBoostStepDown (quad : Nat) (s : State) : Out :=
  let x := s.quad quad
  if !x.stepping || s.hub < x.stepAt + 50000 then .refused .notEnabled
  else .next (slowQuad (s.setQuad quad { x with stepping := false }) quad 1600)

/-- CLOCK_CHANGE_COMPLETE (R308), within 2 µs of its beginning (`deadlines`); a change that waits for it begins. A rise above 1.6 GHz falls into its pair's running interval of boost;
the fall of a pair's last core to 1.6 GHz begins an interval that may refill it (R307). -/
def execClockChangeComplete (core : Nat) (s : State) : Out :=
  match (s.core core).changing with
  | some m =>
    let pair := core / 8
    let was := fastPair s pair
    let k := s.core core
    let s := s.setCore core { k with mhz := m, changing := k.next, changeAt := if k.next.isSome then s.hub else k.changeAt, next := none }
    let p := s.power
    if 1600 < m then
      .next (s.setPower { p with runs := match tget p.runs pair with
        | some (t, _) => tput p.runs pair (t, true)
        | none => p.runs })
    else .next (if was && !fastPair s pair then s.setPower { p with idleFrom := tput p.idleFrom pair s.hub } else s)
  | none => .refused .notEnabled

/-! ## Lane retirement and self-tests (R309, R336, R383) -/

/-- MARGIN_WARNING (R309): at 1.6 GHz or below the group is marked; above, the core stops boosting until its next reset. -/
def execMarginWarning (core group : Nat) (s : State) : Out :=
  let k := s.core core
  if 160 ≤ core ∨ 16 ≤ group ∨ !k.groups.getLsbD group then .refused .notEnabled
  else if k.mhz ≤ 1600 then .next (s.setCore core { k with retiring := k.retiring ||| BitVec.ofNat 16 (2 ^ group) })
  else .next (setClock (s.setCore core { k with noBoost := true }) core (min 1600 k.target))

/-- The crews that must leave a core whose minimums no longer fit (R309): beside its menders, which stay, those of the highest hart slots, until
the rest fit. (DESIGN CHOICE, assumption 87) -/
def evictees (s : State) (core : Nat) : List Nat :=
  let rs := residents s core
  let kept := (rs.filter fun x => x.2.role == .mender).foldl (fun a x => a + x.2.minGroups) (reserved s core)
  ((rs.filter fun x => x.2.role != .mender).foldl (fun (p : Nat × List Nat) x =>
    let n := p.1 + x.2.minGroups
    if n ≤ (s.core core).count then (n, p.2) else (p.1, p.2 ++ [x.2.crew])) (kept, [])).2

/-- The generation word odd, as it is before and during a change of the core map (R22). -/
def mapOpen (g : Nat) : Nat := if g % 2 = 0 then g + 1 else g

/-- Firmware opens a change of the core map, or closes it (R22): the generation becomes odd, or even again. -/
def mapTurn (s : State) : State := { s with mgmt := { s.mgmt with mapGen := (s.mgmt.mapGen + 1) % 2 ^ 32 } }

/-- LANE_GROUP_RETIRE (R309, R22): the marked group leaves the core map, whose generation is odd until firmware closes the change
(`mapTurn`); measurement register 2 is extended with the record (R340), and R257 runs. -/
def execLaneGroupRetire (core group : Nat) (s : State) : Out :=
  let k := s.core core
  let m := BitVec.ofNat 16 (2 ^ group)
  if 16 ≤ group ∨ !k.retiring.getLsbD group then .refused .notEnabled
  else
    let k := { k with groups := k.groups &&& ~~~m, retiring := k.retiring &&& ~~~m }
    let s := s.setCore core { k with enabled := k.enabled && k.count != 0 }
    let s := s.setCore core { (s.core core) with withheld := min k.withheld (withholdLimit s core) }
    let s := { s with mgmt := { s.mgmt with retired := s.mgmt.retired ++ [(core, group)], mapGen := mapOpen s.mgmt.mapGen } }
    let s := (evictees s core).foldl (fun s u => s.setCrew u { (s.crew u) with replace := true, evict := true }) s
    .next (extendOwn (reviewHeld (regrant s core)) 2)

/-- Firmware disables a core (R22): it takes no further strips; the generation is odd until firmware closes the change. (DESIGN CHOICE,
assumption 57) -/
def disableCore (core : Nat) (s : State) : Out :=
  if 160 ≤ core || !(s.core core).enabled then .refused .notEnabled
  else
    .next (reviewHeld { (s.setCore core { (s.core core) with enabled := false }) with mgmt := { s.mgmt with mapGen := mapOpen s.mgmt.mapGen } })

/-- SELF_TEST (R383, R336): an idle core, at the interval set, in hub cycles; `fails` are the capability bits found bad, which firmware
fences and logs. (DESIGN CHOICE, assumption 50) -/
def execSelfTest (core : Nat) (fails : BitVec 128) (s : State) : Out :=
  if 160 ≤ core ∨ s.mgmt.testEvery = 0 ∨ residents s core ≠ [] ∨ s.hub < (s.core core).testedAt + s.mgmt.testEvery then .refused .notEnabled
  else
    let s := s.setCore core { (s.core core) with testedAt := s.hub }
    let bad := (List.range 128).filter fun b => fails.getLsbD b && (s.core core).mask.getLsbD b
    let s := bad.foldl (fun s b => fenceBit s core b) s
    .next (if bad = [] then s else logError s 5 .core core false 0)

/-! ## Retention (R381): timing only -/

/-- An array has been idle for 1 ms (R381): a slice without an access, none being on its way to it, a quad store with no resident crew. -/
def arrayIdle (s : State) (a : ArrayId) : Bool :=
  match a with
  | .slice n => n < 64 && tgetD s.sliceAt n 0 + 1000000 ≤ s.hub
    && (s.harts.flatMap (·.2.stores) ++ s.orphans.map (·.2.2)).all fun p => sliceOf p.va != n
  | .store q => q < 40 && quadCrews s q == [] && (s.quad q).emptyAt + 1000000 ≤ s.hub

/-- RETENTION_ENTRY (R381): an idle array begins to enter retention. (DESIGN CHOICE, assumption 50) -/
def execRetentionEntry (a : ArrayId) (s : State) : Out :=
  if !s.mgmt.retention || s.mgmt.asleep.any (·.1 == a) || !arrayIdle s a then .refused .notEnabled
  else .next { s with mgmt := { s.mgmt with asleep := s.mgmt.asleep ++ [(a, s.hub, false)] } }

/-- The hub time at which an array's exit from retention is complete (R381). -/
def exitDue (s : State) (a : ArrayId) : Option Nat :=
  match s.mgmt.asleep.find? (·.1 == a) with
  | some e => if e.2.2 then some (e.2.1 + arrayRamp a) else none
  | none => none

/-- RETENTION_EXIT (R381): the exit that an access began is complete, and what waited for it goes on. -/
def execRetentionExit (a : ArrayId) (s : State) : Out :=
  match exitDue s a with
  | some t => if s.hub < t then .refused .notEnabled else .next { s with mgmt := { s.mgmt with asleep := s.mgmt.asleep.filter fun e => e.1 != a } }
  | none => .refused .notEnabled

end Sys2Proof.Machine
end

