-- ==== Sys2Proof/Machine/Manage.lean ====
section
/-! DEFINITION. Attachment, reset and management (spec/24_attach.md R409–R417, spec/16_isolation.md R332–R341,
spec/18_recovery.md R382–R385): links, the host's accesses, the commands of the management port and the module reset. The form of a
reply in `Mgmt.replies` is the model's own (assumption 12). -/

namespace Sys2Proof.Machine

/-- Bytes as little-endian words. -/
def packWords (b : List Byte) : List Word := tabulate ((b.length + 7) / 8) fun i => BitVec.ofNat 64 (natOf ((b.drop (8 * i)).take 8))

/-! ## Links (R382, R416) -/

/-- The retries in a row counted on a link. -/
def retries (s : State) (l : LinkId) : Nat := ((s.mgmt.retries.find? fun p => p.1 == l).map (·.2)).getD 0

/-- A link's retries set. -/
def setRetries (s : State) (l : LinkId) (n : Nat) : State :=
  { s with mgmt := { s.mgmt with retries := (s.mgmt.retries.filter fun p => p.1 != l) ++ (if n = 0 then [] else [(l, n)]) } }

/-- The retries after which a link acts (R382): 16 on a bridge, 64 on a torus port. -/
def retryLimit (l : LinkId) : Option Nat :=
  match l with
  | .bridge _ => some 16
  | .torus _ => some 64
  | .cxl _ => none

/-- The number of a link in the error log. -/
def linkNo : LinkId → Nat
  | .bridge n => n
  | .torus n => 8 + n
  | .cxl n => 16 + n

/-- A link of the module (R8): four bridges, six torus ports, two CXL ports. -/
def linkOk (l : LinkId) : Bool :=
  match l with
  | .bridge n => n < 4
  | .torus n => n < 6
  | .cxl n => n < 2

/-- A flit of a link is good: the retries in a row end (R382). -/
def goodFlit (l : LinkId) (s : State) : Out := if linkOk l then .next (setRetries s l 0) else .refused .notEnabled

/-- FLIT_RETRY (R382, R379): a flit is resent, and logged. -/
def execFlitRetry (l : LinkId) (s : State) : Out :=
  let n := retries s l
  let go := logError (setRetries s l (n + 1)) 6 .link (linkNo l) true 0
  if !linkOk l then .refused .notEnabled
  else match retryLimit l with
  | some m => if m ≤ n then .refused .notEnabled else .next go
  | none => .next go

/-- A torus port. -/
def torusPort (s : State) (p : Nat) : TorusPort := (tget s.torus.ports p).getD {}

/-- A torus port set. -/
def setPort (s : State) (p : Nat) (v : TorusPort) : State := { s with torus := { s.torus with ports := tput s.torus.ports p v } }

/-- A torus port reported down (R382, R411): the messages held for it are discarded and counted. -/
def portDown (s : State) (p : Nat) : State :=
  let s := setPort s p { (torusPort s p) with state := 0 }
  let gone (m : Msg) : Bool := m.module_ != s.torus.own && m.port == p
  let n := s.torus.held.countP gone
  signal { s with torus := { s.torus with held := s.torus.held.filter fun m => !gone m, discards := s.torus.discards + n } } 0

/-- TORUS_RETRAIN (R382): after 64 consecutive retries a port trains again, or is reported down. -/
def execTorusRetrain (port : Nat) (ok : Bool) (s : State) : Out :=
  let v := torusPort s port
  if 6 ≤ port ∨ retries s (.torus port) < 64 ∨ v.state = 0 then .refused .notEnabled
  else
    let s := setRetries s (.torus port) 0
    let s := setPort s port { state := 3, retrains := (v.retrains + 1) % 256 }
    .next (if ok then s else portDown s port)

/-- TORUS_TRAINING_END (R414): up with 8 lanes, degraded with 4, else down. -/
def execTorusTrainingEnd (port lanes : Nat) (s : State) : Out :=
  let v := torusPort s port
  if 6 ≤ port ∨ v.state ≠ 3 then .refused .notEnabled
  else if lanes = 8 then .next (setPort s port { v with state := 1 })
  else if lanes = 4 then .next (setPort s port { v with state := 2 })
  else .next (portDown s port)

/-- BRIDGE_FAILURE (R382): after 16 retries the module stops and every context is contained. -/
def execBridgeFailure (die : Nat) (s : State) : Out :=
  if 4 ≤ die ∨ retries s (.bridge die) < 16 then .refused .notEnabled
  else
    let s := s.ctxs.foldl (fun s p => if (s.ctx p.1).contained then s else contain s p.1) s
    .next { s with mgmt := { s.mgmt with bridgeBad := true } }

/-- The lines of host memory whose accesses harts and farms await (R187). -/
def awaitedLines (s : State) : List (Nat × Nat) := s.harts.flatMap (·.2.hostLines) ++ s.farms.flatMap (·.2.hostLines)

/-- The ASIDs with an access to host memory on its way: one awaited, a store in a store path, a line to be passed on. -/
def hostBusy (s : State) : List Nat :=
  ((awaitedLines s).map (·.1) ++ ((s.harts.flatMap (·.2.stores) ++ s.orphans.map (·.2.2)).filter fun p => isHost p.pa).map (·.asid)
    ++ (s.l2.filter fun l => l.dirty && isHost (l.frame * 64)).map (·.asid)).eraseDups

/-- CXL_LINK_RESET (R416): with the last link the accesses on their way begin to wait. -/
def execCxlLinkReset (port : Fin 2) (s : State) : Out :=
  let up := s.mgmt.linkUp.set port.val false
  let s := { s with mgmt := { s.mgmt with linkUp := up } }
  .next (if up.any id then s else (hostBusy s).foldl noteWait s)

/-- CXL_LINK_UP (R416): the accesses to host memory that waited go on. -/
def execCxlLinkUp (port : Fin 2) (s : State) : Out :=
  if s.mgmt.linkUp.getD port.val false || !s.mgmt.ready then .refused .notEnabled
  else
    let awaited := awaitedLines s
    let s := { s with hostWaits := [], mgmt := { s.mgmt with linkUp := s.mgmt.linkUp.set port.val true } }
    .next ((s.l2.filter fun l => isHost (l.frame * 64) && !awaited.contains (l.asid, l.line)).foldl writeBack s)

/-- HOST_ACCESS_TIMEOUT (R416): an access of the context to host memory has waited 100 ms, with both links down. -/
def execHostAccessTimeout (c : Nat) (s : State) : Out :=
  let mine (a : Nat) : Bool := (s.ctx c).asids.any fun x => x.toNat == a
  if s.mgmt.linkUp.any id || !s.hostWaits.any (fun p => mine p.1 && p.2 + 100000000 ≤ s.hub) then .refused .notEnabled
  else .next (s.modCtx c fun k => { k with containing := true })

/-- CONFIGURATION_REQUEST_RETRY_STATUS (R415): a configuration access before step 5 of a bring-up. -/
def execConfigurationRequestRetryStatus (port : Fin 2) (s : State) : Out :=
  if s.mgmt.boot.isNone then .refused .notEnabled else .next (reply s [BitVec.ofNat 64 port.val, 2])

/-! ## The host's accesses (R187, R317, R409, R410) -/

/-- The physical address of a request (R409): decoder 0 maps near memory, decoder 1 the capacity tier; none outside them. -/
def HostReq.phys (s : State) (r : HostReq) : Option Nat :=
  if r.decoder = 0 then (if r.offset + r.len ≤ nearTop then some r.offset else none)
  else if r.offset + r.len ≤ farSize s then some (farBase + r.offset) else none

/-- An update-only line of a physical line is merged before another agent reaches it (R181). -/
def mergeFrame (s : State) (frame : Nat) : State := (s.upd.filter fun u => steer s (u.frame * 64) == steer s (frame * 64)).foldl (fun s u => recallLine s u.asid u.line) s

/-- The frame of a virtual line: that of its L2 copy, else by the tables; none of an address that is not translated (R314). -/
def lineFrame (s : State) (aspace : Word) (line : Nat) : Option Nat :=
  if !canonical (64 * line) || inWindow (64 * line) then none
  else match l2find s (asidOf aspace) line with
  | some l => some l.frame
  | none =>
    match s.tlb.find? fun t => t.asid == asidOf aspace && t.page == line / 64 with
    | some t => some (t.ppn * 64 + line % 64)
    | none =>
      match walk s aspace (64 * line) with
      | .leaf _ _ _ ppn => some (ppn * 64 + line % 64)
      | _ => none

/-- A physical line is a destination line that an engine owns (R182). -/
def frameOwned (s : State) (frame : Nat) : Bool :=
  (engOps s).any fun p => match p.2.owns with
    | some (lo, hi) => (linesOf lo (hi - lo)).any fun l =>
        (lineFrame s p.2.aspace (l % 2 ^ 58)).any fun f => steer s (f * 64) == steer s (frame * 64)
    | none => false

/-- Bytes written by the host (R317): a line of memory written whole holds no error any more. -/
def hostPut (s : State) (a : Nat) (b : List Byte) : State :=
  let whole := (linesOf a b.length).filter fun l => a ≤ 64 * l && 64 * l + 64 ≤ a + b.length && (l2ByFrame s l).isNone
  let t := physWrite s a b
  { t with bad := t.bad.filter fun n => !whole.any fun l => steer s (64 * l) / 64 == n }

/-- HOST_MEM_ACCESS (R187, R317, R338): performed at its home; without the established link stream of its port that the IDE-required bit asks for, it
is dropped and answered as an unsupported request. -/
def execHostMemAccess (r : HostReq) (s : State) : Out :=
  if !s.mgmt.linkUp.getD r.port.val false || !s.mgmt.ready then .refused .notEnabled
  else if s.mgmt.ideRequired && !(r.stream.map fun n => s.mgmt.ideStreams.contains (r.port.val, n, false)).getD false then .next (reply s [1])
  else
    let len := match r.write with
      | some b => b.length
      | none => r.len
    match HostReq.phys s { r with len := len } with
    | none => .next (reply s [1])
    | some a =>
      let frames := linesOf a len
      if frames.any (frameOwned s) then .refused .notEnabled
      else
        let s := frames.foldl mergeFrame s
        match r.write with
        | some b => .next (reply (hostPut s a b) [0])
        | none => if frames.any (isBad s) then .next (reply s [3]) else .next (reply s (0 :: packWords (physRead s a len)))

/-- HOST_SNOOP (R409): the device holds no host line past its access. -/
def execHostSnoop (port : Fin 2) (a : Word) (s : State) : Out :=
  if s.mgmt.linkUp.getD port.val false && s.mgmt.ready then .next (reply s [Config.snoopReply a]) else .refused .notEnabled

/-- What an offset of a BAR reaches (R410): a register of the module control window, of a context's window, or of the MSI-X structures. -/
inductive Place where
  | module (off : Nat)
  | context (c off : Nat)
  | msix (off : Nat)
  | nothing
deriving DecidableEq, Repr

/-- The layout of the BARs (R410): 64 KiB, 4 MiB with the window of context c at 0x1_0000 × (c − 1), and 16 KiB. -/
def barPlace (b : Bar) (off : Nat) : Place :=
  match b with
  | .bar0 => if off < 0x10000 then .module off else .nothing
  | .bar2 => if off < 0x400000 then .context (off / 0x10000 + 1) (off % 0x10000) else .nothing
  | .bar4 => if off < 0x4000 then .msix off else .nothing

/-- An entry of the MSI-X table (R410): the message address, and the message data with the vector control above it, whose low bit masks the
vector. No entry masks its vector at reset. (PRESUMED, assumption 86) -/
def msixEntry (s : State) (n : Nat) : Word × Word := (tget s.mgmt.msixTab n).getD (0, 0)

/-- REGISTER_WRITE (R410, R412): the stored registers of the windows; every other offset ignores the write. -/
def execRegisterWrite (b : Bar) (off : Nat) (v : Word) (s : State) : Out :=
  hostWrite (fun s =>
    match barPlace b off with
    | .nothing => .next s
    | .msix off =>
      let e := msixEntry s (off / 16)
      if off < 16 * 65 ∧ off % 16 = 0 then .next { s with mgmt := { s.mgmt with msixTab := tput s.mgmt.msixTab (off / 16) (v, e.2) } }
      else if off < 16 * 65 ∧ off % 16 = 8 then .next { s with mgmt := { s.mgmt with msixTab := tput s.mgmt.msixTab (off / 16) (e.1, v &&& 0x1FFFFFFFF#64) } }
      else .next s
    | .module off =>
      if 0x100 ≤ off ∧ off < 0x120 ∧ off % 8 = 0 then
        let old := tabulate 32 fun i => s.swap.staging.getD i 0
        let i := off - 0x100
        .next { s with swap := { s.swap with staging := old.take i ++ bytesOf 8 v.toNat ++ old.drop (i + 8) } }
      else .next s
    | .context c off =>
      match tget s.ctxs c with
      | none => .next s
      | some k =>
        if off = 0x40 then .next (s.setCtx c { k with invAddr := BitVec.ofNat 64 (bits v.toNat 56 12 * 4096) })
        else if off = 0x50 then .next (s.setCtx c { k with ringBase := BitVec.ofNat 64 (v.toNat / 64 * 64) })
        else if 0x1000 ≤ off ∧ off < 0x9000 ∧ off % 32 = 24 then
          match hiveOf s c ((off - 0x1000) / 32) with
          | some h => .next { s with hives := tput s.hives ((off - 0x1000) / 32) { h with ring := BitVec.ofNat 64 (v.toNat / 64 * 64) } }
          | none => .next s
        else .next s) s

/-! ## The management port (R417) -/

/-- A refused command. -/
def refuse (s : State) : Out := .next (reply s [0])

/-- An accepted command's answer. -/
def accept (s : State) : Out := .next (reply s [1])

/-- A management command: one that changes security state needs an authenticated session, any other one needs it while the
IDE-required bit is set (R417). It is answered once firmware runs (R415); in recovery mode only firmware is taken, and every other command is answered with the failure (R339).
(DESIGN CHOICE, assumption 51) (DESIGN CHOICE, assumption 12) -/
def command (secure : Bool) (k : State → Out) (s : State) : Out :=
  if s.mgmt.boot.isSome then .refused .notEnabled
  else if s.mgmt.recovery then .next (reply s [0, 5])
  else if (secure || s.mgmt.ideRequired) && !s.mgmt.session then refuse s
  else k s

/-- A command about an existing context. -/
def ctxCommand (secure : Bool) (c : Nat) (f : Context → State → Out) (s : State) : Out :=
  command secure (fun s =>
    match tget s.ctxs c with
    | some k => f k s
    | none => refuse s) s

/-- SPDM_SESSION_SETUP (R417). -/
def execSpdmSessionSetup (on : Bool) (s : State) : Out :=
  if s.mgmt.boot.isSome then .refused .notEnabled else .next { s with mgmt := { s.mgmt with session := on } }

/-- IDE_KM_MESSAGE (R338): over a secured session, a selective stream (CXL.io) or a link stream (CXL.cache and CXL.mem) of a port is
established or removed. -/
def execIdeKmMessage (port : Fin 2) (streamNo : IdeStream) (on : Bool) (s : State) : Out :=
  command true (fun s =>
    let stream := (port.val, streamNo.number, streamNo.selective)
    let rest := s.mgmt.ideStreams.filter fun p => p != stream
    accept { s with mgmt := { s.mgmt with ideStreams := if on then rest ++ [stream] else rest } }) s

/-- The first 336 bytes of an attestation report (R341). -/
def reportHead (s : State) (nonce : List Byte) : List Byte :=
  [0x5A, 0x48, 0x41, 0x54] ++ bytesOf 2 1 ++ bytesOf 2 0 ++ nonce ++ tabulate 32 Config.identityKey ++ s.mgmt.measures.flatten
    ++ bytesOf 4 s.mgmt.mapGen ++ bytesOf 4 0

/-- ATTESTATION_REQUEST (R341). -/
def execAttestationRequest (nonce : List Byte) (s : State) : Out :=
  command false (fun s =>
    if nonce.length ≠ 32 then refuse s
    else
      let h := reportHead s nonce
      .next (reply s (packWords (h ++ tabulate 7856 (Config.signature h))))) s

/-- CERTIFICATE_READ (R341). -/
def execCertificateRead (s : State) : Out := command false (fun s => .next (reply s Config.certificate)) s

/-- The kernel of a mender header (R349). -/
def menderKern (k : KHead) : Kern :=
  let b := k.bytes
  { mask := k.mask, crewHarts := 1, minVl := fieldAt b 48 4, prefVl := fieldAt b 52 4, entry := (k.addr + k.entry) % 2 ^ 64, cls := 7, weight := 1
    chunkBase := (k.addr + k.entry) % 2 ^ 64, chunks := k.chunks, codeLen := k.code }

/-- A mender header declares other than 1 crew hart, or barriers, shared bytes or constant words (R349). -/
def menderBad (k : KHead) : Bool :=
  fieldAt k.bytes 12 2 != 1 || fieldAt k.bytes 14 2 != 0 || fieldAt k.bytes 56 4 != 0 || fieldAt k.bytes 60 4 != 0

/-- Pool slots can be reserved for a context: free, in no pool, barred by no exclusive domain (R334), on cores with groups for them (R349). -/
def poolOk (s : State) (c : Nat) (k : Kern) (slots : List Nat) : Bool :=
  slots != [] && slots.length ≤ 255 && slots == slots.eraseDups && slots.all (fun x => slotFree s x && !barred s c x false)
    && (slots.map coreOf).eraseDups.all fun c => (s.core c).enabled && (s.core c).covers k.mask
      && (slots.countP fun x => coreOf x == c) * k.groups ≤ freeGroups s c

/-- An ASID belongs to another context, or is firmware's. -/
def asidTaken (s : State) (c : Nat) (a : BitVec 16) : Bool := a == 0 || s.ctxs.any fun p => p.1 != c && p.2.asids.contains a

/-- CONTEXT_CREATE (R332, R349, R350). The mender header is read where it is given, at a multiple of 64 or not. (DEDUCED, assumption 52)
(DESIGN CHOICE, assumption 81) -/
def execContextCreate (r : CtxCreate) (s : State) : Out :=
  command true (fun s =>
    let asids := r.asids.map (·.1)
    if r.ctx = 0 ∨ 64 < r.ctx ∨ (tget s.ctxs r.ctx).isSome ∨ asids = [] ∨ 4 < asids.length ∨ asids != asids.eraseDups
        ∨ asids.any (asidTaken s r.ctx) ∨ r.queueLog < 4 ∨ 12 < r.queueLog then refuse s
    else
      let root := (r.asids.head?.map (·.2)).getD 0
      let asp := mkAspace (asids.headD 0) root
      let no (c : Code) (s : State) : Out := .next (reply s [0, BitVec.ofNat 64 c.byte])
      match readHeader s asp r.header true with
      | .waits t => if wakes s t then .next (noted s t) else .refused .notEnabled
      | .reject s c => no c s
      | .ok s h =>
        if !h.routed then no .unsupported s
        else if menderBad h then no .badHeader s
        else
          let k := menderKern h
          if !capacity s r.ctx k then no .exceeds s
          else if !poolOk s r.ctx k r.slots then refuse s
          else
            let x : Context := {
              asids := asids, root := root, mender := k, pool := r.slots
              fzq := BitVec.ofNat 64 (r.queueBase.toNat / 64 * 64), fzqLog := r.queueLog }
            let s := s.setCtx r.ctx x
            accept ((r.slots.map coreOf).eraseDups.foldl (fun s c =>
              regrant (s.setCore c { (s.core c) with withheld := min (s.core c).withheld (withholdLimit s c) }) c) s)) s

/-- CONTEXT_DESTROY (R332): the context is contained, its ASIDs are invalidated whole, and it is gone. -/
def execContextDestroy (c : Nat) (s : State) : Out :=
  ctxCommand true c (fun k s =>
    let s := if k.contained then s else contain s c
    let s := k.asids.foldl (fun s a => invalidate s a.toNat fun _ => true) s
    let s := { s with ctxs := tdel s.ctxs c, hives := s.hives.filter fun p => p.2.ctx != c, farms := s.farms.filter fun p => p.2.ctx != c }
    accept (feedHeritage ((k.pool.map coreOf).eraseDups.foldl regrant s))) s

/-- CONTAIN_COMMAND (R376). -/
def execContainCommand (c : Nat) (s : State) : Out :=
  ctxCommand true c (fun k s => accept (s.setCtx c { k with containing := !k.contained })) s

/-- CONTEXT_RELEASE (R377). -/
def execContextRelease (c : Nat) (s : State) : Out :=
  ctxCommand true c (fun k s => accept (s.setCtx c { k with contained := false })) s

/-- ASID_ASSIGN (R311): up to four ASIDs, each of one context. -/
def execAsidAssign (c : Nat) (a : List (BitVec 16)) (s : State) : Out :=
  ctxCommand true c (fun k s =>
    if a = [] ∨ 4 < a.length ∨ a != a.eraseDups ∨ a.any (asidTaken s c) then refuse s else accept (s.setCtx c { k with asids := a })) s

/-- ROOT_TABLE_REGISTER (R236). -/
def execRootTableRegister (c : Nat) (ppn : BitVec 44) (s : State) : Out := ctxCommand true c (fun k s => accept (s.setCtx c { k with root := ppn })) s

/-- QUEUE_ASSIGN (R265): the queues of a context; a queue of another context is refused. -/
def execQueueAssign (c : Nat) (qs : List Nat) (s : State) : Out :=
  ctxCommand false c (fun _ s =>
    if qs.any fun q => 1024 ≤ q || (match tget s.hives q with
      | some h => h.ctx != c
      | none => false) then refuse s
    else
      let kept := s.hives.filter fun p => p.2.ctx != c || qs.contains p.1
      accept { s with hives := qs.foldl (fun t q => if (tget t q).isSome then t else tput t q { ctx := c }) kept }) s

/-- PLACEMENT_DOMAIN_SET (R334); measurement register 1 takes the new configuration (R340). -/
def execPlacementDomainSet (c d : Nat) (s : State) : Out :=
  ctxCommand true c (fun k s => if 2 < d then refuse s else accept (extendOwn (s.setCtx c { k with domain := d }) 1)) s

/-- SAVE_REGION_REGISTER (R370): base and length are multiples of 64 KiB. -/
def execSaveRegionRegister (c : Nat) (base len : Word) (s : State) : Out :=
  ctxCommand false c (fun k s =>
    if base.toNat % 65536 ≠ 0 ∨ len.toNat % 65536 ≠ 0 then refuse s else accept (s.setCtx c { k with saveBase := base, saveLen := len })) s

/-- TORUS_ACCEPTANCE_SET (R332): at most 32 pairs, each in the list of one context. -/
def execTorusAcceptanceSet (c : Nat) (l : List (BitVec 15 × Nat)) (s : State) : Out :=
  ctxCommand true c (fun k s =>
    if 32 < l.length ∨ l.any (fun p => s.ctxs.any fun q => q.1 != c && q.2.acceptList.contains p) then refuse s
    else accept (s.setCtx c { k with acceptList := l })) s

/-- POWER_CAP_SET (R304); measurement register 1 takes the new configuration (R340). -/
def execPowerCapSet (peak : Bool) (w : Nat) (s : State) : Out :=
  command false (fun s =>
    if w < 300 ∨ (if peak then 2400 else 1800) < w then refuse s
    else accept (extendOwn (s.setPower (if peak then { s.power with peakCap := w } else { s.power with avgCap := w })) 1)) s

/-- BOOST_ENABLE (R306): disabling releases the quad's claim; the 50 µs of R307 run on. -/
def execBoostEnable (quad : Nat) (on : Bool) (s : State) : Out :=
  command false (fun s =>
    if 40 ≤ quad then refuse s
    else accept (noteClaim (s.setQuad quad { (s.quad quad) with boostOn := on }) quad)) s

/-- WATCHDOG_LIMIT_SET (R310). -/
def execWatchdogLimitSet (c limit : Nat) (s : State) : Out := ctxCommand false c (fun k s => accept (s.setCtx c { k with watchLimit := limit })) s

/-- RECORD_MODE_ENABLE (R385): a ring of 2^k bytes, k from 16 to 30, and up to 8 regions of at most 4 GiB. -/
def execRecordModeEnable (r : RecordCmd) (s : State) : Out :=
  ctxCommand false r.ctx (fun k s =>
    if r.log2 < 16 ∨ 30 < r.log2 ∨ 8 < r.regions.length ∨ r.regions.any (fun x => 2 ^ 32 < x.2.1) then refuse s
    else accept (s.setCtx r.ctx { k with recordOn := true, recBase := r.base, recLog := r.log2, recRegions := r.regions, recProd := 0 })) s

/-- COORDINATES_SET (R414): a torus of 1 to 16 modules per axis that holds the module's own place; measurement register 3 takes the new
configuration (R340). -/
def execCoordinatesSet (own size : BitVec 15) (s : State) : Out :=
  command false (fun s =>
    let ax (w : BitVec 15) (i : Nat) : Nat := bits w.toNat (5 * i + 4) (5 * i)
    if (List.range 3).any fun i => ax size i == 0 || 16 < ax size i || ax size i ≤ ax own i then refuse s
    else
      let s := { s with torus := { s.torus with own := own, size := size } }
      accept (extendOwn (s.harts.foldl (fun s p => portSends p.1 (s.hart p.1).ops s) s) 3)) s

/-- TORUS_PORT_ENABLE (R415): the port begins to train; measurement register 3 takes the new configuration (R340). -/
def execTorusPortEnable (port : Nat) (s : State) : Out :=
  command false (fun s => if 6 ≤ port then refuse s else accept (extendOwn (setPort s port { (torusPort s port) with state := 3 }) 3)) s

/-- RETENTION_ENABLE (R381): a slice's idle time is counted from the enabling on; when it is disabled, the arrays leave retention.
(DESIGN CHOICE, assumption 50) -/
def execRetentionEnable (on : Bool) (s : State) : Out :=
  command false (fun s =>
    let wake (e : ArrayId × Nat × Bool) : ArrayId × Nat × Bool := if on ∨ e.2.2 then e else (e.1, max s.hub (e.2.1 + arrayRamp e.1), true)
    accept { s with
      sliceAt := if on && !s.mgmt.retention then tabulate 64 fun n => (n, s.hub) else s.sliceAt
      mgmt := { s.mgmt with retention := on, asleep := s.mgmt.asleep.map wake } }) s

/-- SELF_TEST_INTERVAL_SET (R383). -/
def execSelfTestIntervalSet (n : Nat) (s : State) : Out := command false (fun s => accept { s with mgmt := { s.mgmt with testEvery := n } }) s

/-- FENCE_RIGHT_GRANT (R337). -/
def execFenceRightGrant (c : Nat) (s : State) : Out := ctxCommand true c (fun k s => accept (s.setCtx c { k with fenceRight := true })) s

/-- FENCE_RESTORE (R336): takes effect at the next reset. -/
def execFenceRestore (core bit : Nat) (s : State) : Out :=
  command true (fun s => accept { s with mgmt := { s.mgmt with restores := s.mgmt.restores ++ [(core, bit)] } }) s

/-- IDE_REQUIRED_SET (R338). -/
def execIdeRequiredSet (on : Bool) (s : State) : Out := command true (fun s => accept { s with mgmt := { s.mgmt with ideRequired := on } }) s

/-- MEASUREMENT_EXTEND (R340): registers 4 to 7, by a 32-byte value. -/
def execMeasurementExtend (r : Fin 8) (d : List Byte) (s : State) : Out :=
  command true (fun s => if r.val < 4 ∨ d.length ≠ 32 then refuse s else accept (extend s r.val d)) s

/-- An error-log entry as words. -/
def LogEntry.words (e : LogEntry) : List Word :=
  [BitVec.ofNat 64 e.kind, BitVec.ofNat 64 e.unit.key, BitVec.ofNat 64 e.place, BitVec.ofNat 64 e.corrected.toNat, BitVec.ofNat 64 e.addr, BitVec.ofNat 64 e.hub]

/-- ERROR_LOG_READ (R384): the entries, then the units' counters of corrected errors. -/
def execErrorLogRead (s : State) : Out :=
  command false (fun s => .next (reply s (s.mgmt.errors.flatMap LogEntry.words
    ++ s.mgmt.corrected.flatMap fun p => [BitVec.ofNat 64 p.1, BitVec.ofNat 64 p.2]))) s

/-- ERROR_LOG_CLEAR (R384). -/
def execErrorLogClear (s : State) : Out := command false (fun s => accept { s with mgmt := { s.mgmt with errors := [] } }) s

/-- EVENT_QUEUE_READ (R350): the counts w and t, then the queued entries. -/
def execEventQueueRead (c : Nat) (s : State) : Out :=
  ctxCommand false c (fun k s =>
    .next (reply s (BitVec.ofNat 64 k.written :: BitVec.ofNat 64 k.taken :: k.events.flatMap fun e => packWords e.bytes))) s

/-- DISCARD_COUNTER_READ (R232). -/
def execDiscardCounterRead (s : State) : Out := command false (fun s => .next (reply s [BitVec.ofNat 64 s.torus.discards])) s

/-- LOST_ENTRY_COUNTER_READ (R385). -/
def execLostEntryCounterRead (c : Nat) (s : State) : Out := ctxCommand false c (fun k s => .next (reply s [BitVec.ofNat 64 k.recLost])) s

/-- FIRMWARE_UPDATE (R339): an image that passes the checks is staged for the next reset. -/
def execFirmwareUpdate (image : List Byte) (s : State) : Out :=
  if s.mgmt.boot.isSome then .refused .notEnabled
  else if !s.mgmt.session then refuse s
  else if Config.imageAuthentic image then accept { s with mgmt := { s.mgmt with staged := some image } }
  else refuse s

/-! ## Module reset (R309, R336, R339, R415, R416) -/

/-- The records of the cores after a reset: retirement and fence records applied with what trim and self-test find. -/
def resetCores (retired fences : List (Nat × Nat)) (r : ResetReport) : Table Core :=
  tabulate 160 fun c =>
    let gone := (retired.filter fun p => p.1 == c).foldl (fun a p => a ||| BitVec.ofNat 16 (2 ^ p.2)) (0 : BitVec 16)
    let bad := (r.badGroups.filter fun p => p.1 == c).foldl (fun a p => a ||| p.2) gone
    let off := (fences.filter fun p => p.1 == c).foldl (fun a p => a ||| BitVec.ofNat 128 (2 ^ p.2)) (0 : BitVec 128)
    let off := (r.badBits.filter fun p => p.1 == c).foldl (fun a p => a ||| p.2) off
    let g := ~~~bad
    (c, { groups := g, enabled := g != 0, mask := maskBits &&& ~~~off })

/-- A pattern of logged errors of a core has firmware fence one of its capability bits (R336). (DESIGN CHOICE, assumption 57) -/
def fencePattern (core b : Nat) (s : State) : Out :=
  if 160 ≤ core then .refused .notEnabled
  else
  let seen (e : LogEntry) : Bool := e.place == core && (e.unit == .registers || e.unit == .engine || e.unit == .core)
  if (s.core core).mask.getLsbD b && s.mgmt.errors.any seen then .next (fenceBit s core b) else .refused .notEnabled

/-- Firmware clears a retirement record (R309): the group works again from the next reset on. -/
def clearRetired (core group : Nat) (s : State) : Out :=
  if s.mgmt.retired.contains (core, group) then .next { s with mgmt := { s.mgmt with retired := s.mgmt.retired.filter fun p => p != (core, group) } }
  else .refused .notEnabled

/-- A channel's entry as training leaves it (R413): a channel without four ranks of 16 or 32 GiB is disabled and has no size; reserved bits are
zero. -/
def channelEntry (w : BitVec 32) : BitVec 32 :=
  let w := w &&& 0xFFFFFF0F#32
  if w.getLsbD 3 && bits w.toNat 2 0 == 4 && (bits w.toNat 15 8 == 16 || bits w.toNat 15 8 == 32) then w else w &&& 0xFFFF0007#32

/-- The image the boot ROM checks: the staged one, else the one installed before, as bytes; none for the image the module came with, whose
check and digest the report gives (R339). -/
def bootImage (s : State) : Option (List Byte) := match s.mgmt.staged with
  | some i => some i
  | none => s.mgmt.image

/-- MODULE_RESET (R415): step 1 of the bring-up, in which the boot ROM authenticates the image, a staged one first, and extends register 0; or
the module stays in recovery mode, where it presents the management port only (R339). The flash records stay, with the bits restored since taken
out (R336); near and far memory keep their bytes (assumption 13). -/
def execModuleReset (r : ResetReport) (s : State) : Out :=
  let image := bootImage s
  let good := (image.map Config.imageAuthentic).getD r.authentic
  let m : Mgmt := {
    ready := false, recovery := !good, boot := if good then some (2, r) else none, image := image, linkUp := [false, false]
    fences := s.mgmt.fences.filter fun p => !s.mgmt.restores.contains p
    retired := s.mgmt.retired, mapGen := s.mgmt.mapGen }
  let t : State := { State.reset with agenda := s.agenda, mem := s.mem, fresh := s.fresh, mgmt := m }
  .next (if good then extend t 0 ((image.map sha256).getD r.imageDigest) else t)

/-- The lane groups and the capability bits that trim and self-test find bad, as records. -/
def foundGroups (r : ResetReport) : List (Nat × Nat) :=
  r.badGroups.flatMap fun p => ((List.range 16).filter fun g => p.2.getLsbD g).map fun g => (p.1, g)
/-- See `foundGroups`. -/
def foundBits (r : ResetReport) : List (Nat × Nat) :=
  r.badBits.flatMap fun p => ((List.range 128).filter fun b => p.2.getLsbD b).map fun b => (p.1, b)

/-- Steps 2 to 5 of a bring-up (R415), one at a time: the lanes trimmed, the cores self-tested and the fence and retirement records applied; the
memory channels and bridges trained (R413); the capability list published and registers 1 to 3 extended; the CXL ports enabled and the module
ready. -/
def bootStep (s : State) : Out :=
  let m := s.mgmt
  match m.boot with
  | none => .refused .notEnabled
  | some (2, r) =>
    let retired := (m.retired ++ foundGroups r).eraseDups
    .next { s with
      cores := resetCores retired m.fences r
      mgmt := { m with boot := some (3, r), retired := retired, fences := (m.fences ++ foundBits r).eraseDups, heritage := r.heritage } }
  | some (3, r) => .next { s with mgmt := { m with boot := some (4, r), channels := tabulate 12 fun i => channelEntry (r.channels.getD i 0) } }
  | some (4, r) =>
    let s := { s with mgmt := { m with boot := some (5, r), mapGen := (m.mapGen + 2) % 2 ^ 32 / 2 * 2 } }
    .next (extendOwn (extendOwn (extendOwn s 1) 2) 3)
  | some _ => .next { s with mgmt := { m with boot := none, linkUp := [true, true], ready := true } }

end Sys2Proof.Machine
end

