-- ==== Sys2Proof/Machine/Mend.lean ====
section
/-! DEFINITION. The mend instructions and the frozen-state selectors (spec/17_menders.md R352, R353, R355–R361). -/

namespace Sys2Proof.Machine

/-- The issue of a mend instruction: privileged, opcode-use bit 7 (R355). -/
def mendIssue (xr xw : List Reg) (vr vw : List VR) (k : State → Out) (s : State) : Out :=
  issue { cls := 7, priv := true, xr := xr, xw := xw, vr := vr, vw := vw } noIll anyFmt k s

/-- The frozen hart of a valid handle of the executing hart's context, with its record (R351). -/
def handled (s : State) (w : Word) : Option (Nat × FrzRecord) :=
  match handleHart s s.me.ctx w with
  | none => none
  | some u =>
    match (s.hart u).status with
    | .frozen r => some (u, r)
    | _ => none

/-- A selector's space and index; none when a bit of [63:16] is set (R352). -/
def selector (w : Word) : Option (Nat × Nat) :=
  if w.toNat / 2 ^ 16 ≠ 0 then none else some (bits w.toNat 15 12, bits w.toNat 11 0)

/-- The record fields of R353. -/
def recordField (s : State) (u : Nat) (r : FrzRecord) (i : Nat) : Option Word :=
  let h := s.hart u
  match i with
  | 0 => some (BitVec.ofNat 64 r.cause.code)
  | 1 => some r.addr
  | 2 => some h.pc
  | 3 => some (match r.micro with
    | some m => BitVec.ofNat 64 (m.val % 8 + 8)
    | none => 0)
  | 4 => some (r.code.setWidth 64)
  | 5 => some r.engw
  | 6 => some r.insn
  | 7 => some (Hart.taskWord s h)
  | 8 => some (BitVec.ofNat 64 ((s.crew h.crew).number * 2 ^ 32 + h.rank))
  | 9 => some (BitVec.ofNat 64 r.hartid)
  | 10 => some (BitVec.ofNat 64 r.depth)
  | 11 => some (h.marks.setWidth 64)
  | 12 => some (BitVec.ofNat 64 (h.kern.versioned.toNat + h.kern.crewMode.toNat * 2 + h.priv.toNat * 4 + h.replaying.toNat * 8))
  | _ => none

/-- What FRZRD reads (R352); none when the selector is refused. -/
def frozenRead (s : State) (u : Nat) (r : FrzRecord) (sel : Nat × Nat) : Option Word :=
  let h := s.hart u
  match sel.1 with
  | 0 => recordField s u r sel.2
  | 1 => if sel.2 < 32 then some (h.rx (Fin.ofNat 32 sel.2)) else none
  | 2 => csrVal s h sel.2
  | 3 => if sel.2 < 32 then some ((h.rv (Fin.ofNat 32 sel.2)).tag.setWidth 64) else none
  | 5 => if sel.2 < 8 then some (BitVec.ofNat 64 (h.issued.getD sel.2 0)) else if sel.2 = 8 then some (if h.queuedFault.isSome then 1 else 0) else none
  | _ => none

/-- A tag the frozen hart's kernel allows (R64, R352): EMPTY or reserved, or of a declared format class. -/
def tagAllowed (h : Hart) (t : Tag) : Bool :=
  match tagBit t with
  | some b => h.kern.mask.getLsbD b
  | none => true

/-- What FRZWR writes (R352); none when refused. (DEDUCED, assumption 63) -/
def frozenWrite (h : Hart) (sel : Nat × Nat) (w : Word) : Option Hart :=
  match sel.1 with
  | 0 => if sel.2 = 2 ∧ w.toNat % 4 = 0 ∧ canonical w.toNat then some { h with pc := w, barGo := false } else none
  | 1 => if sel.2 < 32 then some (h.wx (Fin.ofNat 32 sel.2) w) else none
  | 2 =>
    match sel.2 with
    | 0 => if w.toNat ≤ 1024 then some { h with vl := w.toNat } else none
    | 6 => if w.getLsbD 63 || (w.getLsbD 62 && !h.replaying) then none else some { h with lpstate := w }
    | n => if csrWritable n ∧ csrAccepts h n w then some (csrPut h n w) else none
  | 3 =>
    if sel.2 < 32 ∧ w.toNat < 1024 ∧ tagAllowed h (w.setWidth 10) then some (h.wtag (Fin.ofNat 32 sel.2) (w.setWidth 10)) else none
  | _ => none

/-- The registers a selector names, for the waits of R352. -/
def selProf (sel : Nat × Nat) (write : Bool) : Prof :=
  let r : Reg := Fin.ofNat 32 sel.2
  let m : MR := Fin.ofNat 16 sel.2
  match sel.1 with
  | 1 => if write then { cls := 0, xw := [r] } else { cls := 0, xr := [r] }
  | 3 => if write then { cls := 0, vr := [r], vw := [r] } else { cls := 0, vr := [r] }
  | 4 => if write then { cls := 0, mw := [m], mr := [m] } else { cls := 0, mr := [m] }
  | _ => { cls := 0 }

/-- A frozen-state access waits for the registers of outstanding operations (R352). -/
def frozenWait (s : State) (u : Nat) (sel : Nat × Nat) (write : Bool) (k : State → Out) : Out :=
  match ((s.hart u).hazards (selProf sel write) []).head? with
  | some sc => waitOn sc false s
  | none => k s

/-- FRZNEXT (R356): the event of a hart whose crew is saved is dispatched once the crew is restored (R349, R365). (DEDUCED, assumption 46) -/
def execFrznext (d : Reg) (s : State) : Out :=
  mendIssue [] [d] [] [] (fun s =>
    let c := s.me.ctx
    match findIdx (fun e => !e.taken && e.handle != 0) (s.ctx c).events with
    | none => finish (fun h => h.wx d 0) s
    | some i =>
      match (s.ctx c).events[i]? with
      | none => finish (fun h => h.wx d 0) s
      | some e =>
        let crew := (s.hart e.hart).crew
        if (s.hart e.hart).place.isNone then ownedWait (s.setCrew crew { (s.crew crew) with wanted := true })
        else
          let s := dispatchEntry s c i
          let s := s.modCtx c fun k => { k with handles := k.handles ++ [{ value := e.handle, hart := e.hart, owner := s.cur }] }
          finish (fun h => h.wx d e.handle) (holdCrew s e.hart)) s

/-- FRZRD (R357): an invalid handle or a refused selector freezes the mender with ILLEGAL_OP. -/
def execFrzrd (d a b : Reg) (s : State) : Out :=
  mendIssue [a, b] [d] [] [] (fun s =>
    match handled s (s.me.rx a), selector (s.me.rx b) with
    | some (u, r), some sel =>
      match frozenRead s u r sel with
      | none => stop .illegalOp s
      | some _ => frozenWait s u sel false fun s => finish (fun h => h.wx d ((frozenRead s u r sel).getD 0)) s
    | _, _ => stop .illegalOp s) s

/-- FRZRDV (R358): a register with its tag, or a mask's image. -/
def execFrzrdv (d : VR) (a b : Reg) (s : State) : Out :=
  mendIssue [a, b] [] [] [d] (fun s =>
    match handled s (s.me.rx a), selector (s.me.rx b) with
    | some (u, _), some (3, i) =>
      if 32 ≤ i then stop .illegalOp s
      else frozenWait s u (3, i) false fun s => finish (fun h => h.wvSb d ((s.hart u).rv (Fin.ofNat 32 i))) s
    | some (u, _), some (4, i) =>
      if 16 ≤ i then stop .illegalOp s
      else frozenWait s u (4, i) false fun s => finish (fun h => h.wvSb d (maskImage 1024 ((s.hart u).rm (Fin.ofNat 16 i)))) s
    | _, _ => stop .illegalOp s) s

/-- FRZWR (R357): the value is read from xd at issue; the status goes to xd. -/
def execFrzwr (d a b : Reg) (s : State) : Out :=
  mendIssue [d, a, b] [d] [] [] (fun s =>
    match handled s (s.me.rx a) with
    | none => finish (fun h => h.wx d 1) s
    | some (u, _) =>
      match selector (s.me.rx b) with
      | none => finish (fun h => h.wx d 2) s
      | some sel =>
        match frozenWrite (s.hart u) sel (s.me.rx d) with
        | none => finish (fun h => h.wx d 2) s
        | some t => frozenWait s u sel true fun s => finish (fun h => h.wx d 0) (s.setHart u t)) s

/-- FRZWRV (R358): a whole register with its tag, or a mask from an image; a refused operand freezes with ILLEGAL_OP. -/
def execFrzwrv (d : VR) (a b : Reg) (s : State) : Out :=
  mendIssue [a, b] [] [d] [] (fun s =>
    let v := s.me.srcV false d
    match handled s (s.me.rx a), selector (s.me.rx b) with
    | some (u, _), some (3, i) =>
      if 32 ≤ i ∨ !tagAllowed (s.hart u) v.tag then stop .illegalOp s
      else frozenWait s u (3, i) true fun s => finish id (s.modHart u fun h => h.wvSb (Fin.ofNat 32 i) v)
    | some (u, _), some (4, i) =>
      if 16 ≤ i ∨ v.tag ≠ tagOf .mimg then stop .illegalOp s
      else frozenWait s u (4, i) true fun s => finish id (s.modHart u fun h => h.wmSb (Fin.ofNat 16 i) (imageMask v))
    | _, _ => stop .illegalOp s) s

/-- The length of the instruction at a frozen hart's pc (R359): from the record while pc is where it froze, else through the
fetch path; none when it cannot be read, and on a fetch cause. -/
def skipLength (s : State) (u : Nat) (r : FrzRecord) : Option Nat :=
  let h := s.hart u
  if r.cause = .fetchPage ∨ r.cause = .fetchPerm then none
  else if h.pc = r.pc then some (if r.insn.getLsbD 0 then 8 else 4)
  else match fetchAcc s u h.pc.toNat 4 with
    | .ok (_, b) => some (if natOf b % 2 = 1 then 8 else 4)
    | .error _ => none

/-- The skip of FRZGO (R359): the sequencer's step inside an active replay, else past the instruction. -/
def Hart.skip (h : Hart) (n : Nat) : Hart :=
  let h := if h.replaying && h.atBody then h.seqStep else { h with pc := h.pc + BitVec.ofNat 64 n }
  { h with vresume := 0, barGo := false }

/-- A skip that steps the sequencer waits for the registers it steps (R283, R289). -/
def skipWaits (h : Hart) : Option (Fin 16) :=
  if h.replaying && h.atBody then (h.hazards { cls := 0 } h.loopRegs).head? else none

/-- FRZGO (R359). -/
def execFrzgo (d a b : Reg) (s : State) : Out :=
  mendIssue [a, b] [d] [] [] (fun s =>
    let w := s.me.rx a
    let c := s.me.ctx
    match handled s w with
    | none => finish (fun h => h.wx d 1) s
    | some (u, r) =>
      let fl := (s.me.rx b).toNat
      if 1 < fl then finish (fun h => h.wx d 2) s
      else match (if fl = 1 then skipWaits (s.hart u) else none) with
      | some sc => waitOn sc false s
      | none => afterDrain 7 s.cur (fun s =>
        let s := drainAll s s.cur
        if fl = 1 ∧ skipLength s u r = none then finish (fun h => h.wx d 2) s
        else
          let s := if fl = 1 then s.modHart u fun h => h.skip ((skipLength s u r).getD 4) else s
          let s := releaseHandle s c w
          let s := s.modMe fun h => (h.wx d 0).done
          .next (resume s u)) s) s

/-- FRZEND (R360): the task word for a versioned strip-mode strip, which is queued again, else 0. -/
def execFrzend (d a : Reg) (s : State) : Out :=
  mendIssue [a] [d] [] [] (fun s =>
    let w := s.me.rx a
    let c := s.me.ctx
    match handled s w with
    | none => finish (fun h => h.wx d 1) s
    | some (u, _) => afterDrain 7 s.cur (fun s =>
      let t := s.hart u
      let res := if t.role = .strip ∧ t.kern.versioned then Hart.taskWord s t else 0
      let s := drainAll s s.cur
      let s := releaseHandle s c w
      let s := s.modMe fun h => (h.wx d res).done
      .next (killHart s u)) s) s

/-- FRZBAR (R361): one arrival on behalf of the frozen hart, releasing what it had performed. -/
def execFrzbar (d a b : Reg) (s : State) : Out :=
  mendIssue [a, b] [d] [] [] (fun s =>
    match handled s (s.me.rx a) with
    | none => finish (fun h => h.wx d 1) s
    | some (u, _) =>
      let n := (s.me.rx b).toNat
      let t := s.hart u
      if t.kern.barriers ≤ n then finish (fun h => h.wx d 2) s
      else if ((s.crew t.crew).bar n).scope ≠ 0 ∧ drainWaits s u (fun _ => true) = true then ownedWait s
      else
        let bar := (s.crew t.crew).bar n
        let s := performAt s u bar.scope.val true true true true
        if bar.scope = 3 ∧ (s.hart u).hostLines ≠ [] then waitOn 12 false s
        else
          let s := s.modHart u fun h => h.setToken n (some bar.phase)
          finish (fun h => h.wx d 0) (arriveAt s t.crew n (some t.rank))) s

end Sys2Proof.Machine
end

