-- ==== Sys2Proof/Machine/Dispatch.lean ====
section
/-! DEFINITION. The dispatch: one arm per constructor of `Instr`, each one call of its meaning. -/

namespace Sys2Proof.Machine

def exec (i : Instr) (s : State) : Host.Outcome State Fault Refusal :=
  match i with
  | .add d a b => Sys2Proof.Machine.execAdd d a b s
  | .sub d a b => Sys2Proof.Machine.execSub d a b s
  | .and d a b => Sys2Proof.Machine.execAnd d a b s
  | .or d a b => Sys2Proof.Machine.execOr d a b s
  | .xor d a b => Sys2Proof.Machine.execXor d a b s
  | .sll d a b => Sys2Proof.Machine.execSll d a b s
  | .srl d a b => Sys2Proof.Machine.execSrl d a b s
  | .sra d a b => Sys2Proof.Machine.execSra d a b s
  | .slt d a b => Sys2Proof.Machine.execSlt d a b s
  | .sltu d a b => Sys2Proof.Machine.execSltu d a b s
  | .min d a b => Sys2Proof.Machine.execMin d a b s
  | .max d a b => Sys2Proof.Machine.execMax d a b s
  | .minu d a b => Sys2Proof.Machine.execMinu d a b s
  | .maxu d a b => Sys2Proof.Machine.execMaxu d a b s
  | .mul d a b => Sys2Proof.Machine.execMul d a b s
  | .mulh d a b => Sys2Proof.Machine.execMulh d a b s
  | .mulhu d a b => Sys2Proof.Machine.execMulhu d a b s
  | .div d a b => Sys2Proof.Machine.execDiv d a b s
  | .divu d a b => Sys2Proof.Machine.execDivu d a b s
  | .rem d a b => Sys2Proof.Machine.execRem d a b s
  | .remu d a b => Sys2Proof.Machine.execRemu d a b s
  | .clz d a => Sys2Proof.Machine.execClz d a s
  | .ctz d a => Sys2Proof.Machine.execCtz d a s
  | .popc d a => Sys2Proof.Machine.execPopc d a s
  | .addi d a im => Sys2Proof.Machine.execAddi d a im s
  | .andi d a im => Sys2Proof.Machine.execAndi d a im s
  | .ori d a im => Sys2Proof.Machine.execOri d a im s
  | .xori d a im => Sys2Proof.Machine.execXori d a im s
  | .slti d a im => Sys2Proof.Machine.execSlti d a im s
  | .sltiu d a im => Sys2Proof.Machine.execSltiu d a im s
  | .slli d a n => Sys2Proof.Machine.execSlli d a n s
  | .srli d a n => Sys2Proof.Machine.execSrli d a n s
  | .srai d a n => Sys2Proof.Machine.execSrai d a n s
  | .liu d im => Sys2Proof.Machine.execLiu d im s
  | .addpc d im => Sys2Proof.Machine.execAddpc d im s
  | .fadd z d a b => Sys2Proof.Machine.execFadd z d a b s
  | .fsub z d a b => Sys2Proof.Machine.execFsub z d a b s
  | .fmul z d a b => Sys2Proof.Machine.execFmul z d a b s
  | .fdiv z d a b => Sys2Proof.Machine.execFdiv z d a b s
  | .fsqrt z d a => Sys2Proof.Machine.execFsqrt z d a s
  | .fmin z d a b => Sys2Proof.Machine.execFmin z d a b s
  | .fmax z d a b => Sys2Proof.Machine.execFmax z d a b s
  | .fcvtFloat z d a => Sys2Proof.Machine.execFcvtFloat z d a s
  | .fcvtToInt64 z d a => Sys2Proof.Machine.execFcvtToInt64 z d a s
  | .fcvtToUint64 z d a => Sys2Proof.Machine.execFcvtToUint64 z d a s
  | .fcvtFromInt64 z d a => Sys2Proof.Machine.execFcvtFromInt64 z d a s
  | .fcvtFromUint64 z d a => Sys2Proof.Machine.execFcvtFromUint64 z d a s
  | .fcmpEq z d a b => Sys2Proof.Machine.execFcmpEq z d a b s
  | .fcmpLt z d a b => Sys2Proof.Machine.execFcmpLt z d a b s
  | .fcmpLe z d a b => Sys2Proof.Machine.execFcmpLe z d a b s
  | .fclass z d a => Sys2Proof.Machine.execFclass z d a s
  | .fmvx z d a => Sys2Proof.Machine.execFmvx z d a s
  | .fma z d a b c => Sys2Proof.Machine.execFma z d a b c s
  | .fms z d a b c => Sys2Proof.Machine.execFms z d a b c s
  | .fnma z d a b c => Sys2Proof.Machine.execFnma z d a b c s
  | .fnms z d a b c => Sys2Proof.Machine.execFnms z d a b c s
  | .lb d a im => Sys2Proof.Machine.execLb d a im s
  | .lh d a im => Sys2Proof.Machine.execLh d a im s
  | .lw d a im => Sys2Proof.Machine.execLw d a im s
  | .ld d a im => Sys2Proof.Machine.execLd d a im s
  | .lbu d a im => Sys2Proof.Machine.execLbu d a im s
  | .lhu d a im => Sys2Proof.Machine.execLhu d a im s
  | .lwu d a im => Sys2Proof.Machine.execLwu d a im s
  | .sb src a im => Sys2Proof.Machine.execSb src a im s
  | .sh src a im => Sys2Proof.Machine.execSh src a im s
  | .sw src a im => Sys2Proof.Machine.execSw src a im s
  | .sd src a im => Sys2Proof.Machine.execSd src a im s
  | .amoAdd z d a b => Sys2Proof.Machine.execAmoAdd z d a b s
  | .amoAnd z d a b => Sys2Proof.Machine.execAmoAnd z d a b s
  | .amoOr z d a b => Sys2Proof.Machine.execAmoOr z d a b s
  | .amoXor z d a b => Sys2Proof.Machine.execAmoXor z d a b s
  | .amoMin z d a b => Sys2Proof.Machine.execAmoMin z d a b s
  | .amoMax z d a b => Sys2Proof.Machine.execAmoMax z d a b s
  | .amoMinu z d a b => Sys2Proof.Machine.execAmoMinu z d a b s
  | .amoMaxu z d a b => Sys2Proof.Machine.execAmoMaxu z d a b s
  | .amoSwap z d a b => Sys2Proof.Machine.execAmoSwap z d a b s
  | .cas z d a b => Sys2Proof.Machine.execCas z d a b s
  | .redAdd z a b => Sys2Proof.Machine.execRedAdd z a b s
  | .redMin z a b => Sys2Proof.Machine.execRedMin z a b s
  | .redMax z a b => Sys2Proof.Machine.execRedMax z a b s
  | .redAnd z a b => Sys2Proof.Machine.execRedAnd z a b s
  | .redOr z a b => Sys2Proof.Machine.execRedOr z a b s
  | .redXor z a b => Sys2Proof.Machine.execRedXor z a b s
  | .redFadd a b => Sys2Proof.Machine.execRedFadd a b s
  | .fncSv sc => Sys2Proof.Machine.execFncSv sc s
  | .fncVs sc => Sys2Proof.Machine.execFncVs sc s
  | .fncVv sc => Sys2Proof.Machine.execFncVv sc s
  | .fncAa sc => Sys2Proof.Machine.execFncAa sc s
  | .cflush a => Sys2Proof.Machine.execCflush a s
  | .cinv a => Sys2Proof.Machine.execCinv a s
  | .beq a b off => Sys2Proof.Machine.execBeq a b off s
  | .bne a b off => Sys2Proof.Machine.execBne a b off s
  | .blt a b off => Sys2Proof.Machine.execBlt a b off s
  | .bge a b off => Sys2Proof.Machine.execBge a b off s
  | .bltu a b off => Sys2Proof.Machine.execBltu a b off s
  | .bgeu a b off => Sys2Proof.Machine.execBgeu a b off s
  | .jal d off => Sys2Proof.Machine.execJal d off s
  | .jalr d a im => Sys2Proof.Machine.execJalr d a im s
  | .sysc code => Sys2Proof.Machine.execSysc code s
  | .brk code => Sys2Proof.Machine.execBrk code s
  | .delay n => Sys2Proof.Machine.execDelay n s
  | .csrr d n => Sys2Proof.Machine.execCsrr d n s
  | .csrw d a n => Sys2Proof.Machine.execCsrw d a n s
  | .csrs d a n => Sys2Proof.Machine.execCsrs d a n s
  | .csrc d a n => Sys2Proof.Machine.execCsrc d a n s
  | .mpop d m => Sys2Proof.Machine.execMpop d m s
  | .many d m => Sys2Proof.Machine.execMany d m s
  | .mfirst d m => Sys2Proof.Machine.execMfirst d m s
  | .setvlReg d a => Sys2Proof.Machine.execSetvlReg d a s
  | .setvlImm d n => Sys2Proof.Machine.execSetvlImm d n s
  | .binit a bar sc => Sys2Proof.Machine.execBinit a bar sc s
  | .barv bar => Sys2Proof.Machine.execBarv bar s
  | .bwait bar => Sys2Proof.Machine.execBwait bar s
  | .barw bar => Sys2Proof.Machine.execBarw bar s
  | .btest d bar => Sys2Proof.Machine.execBtest d bar s
  | .seqrd d n => Sys2Proof.Machine.execSeqrd d n s
  | .seqwait a n => Sys2Proof.Machine.execSeqwait a n s
  | .pgreq d a b => Sys2Proof.Machine.execPgreq d a b s
  | .pghint d a b => Sys2Proof.Machine.execPghint d a b s
  | .lpset a len => Sys2Proof.Machine.execLpset a len s
  | .farm d a => Sys2Proof.Machine.execFarm d a s
  | .farmwait d a => Sys2Proof.Machine.execFarmwait d a s
  | .frznext d => Sys2Proof.Machine.execFrznext d s
  | .frzrd d a b => Sys2Proof.Machine.execFrzrd d a b s
  | .frzrdv d a b => Sys2Proof.Machine.execFrzrdv d a b s
  | .frzwr d a b => Sys2Proof.Machine.execFrzwr d a b s
  | .frzwrv d a b => Sys2Proof.Machine.execFrzwrv d a b s
  | .frzgo d a b => Sys2Proof.Machine.execFrzgo d a b s
  | .frzend d a => Sys2Proof.Machine.execFrzend d a s
  | .frzbar d a b => Sys2Proof.Machine.execFrzbar d a b s
  | .aspset d a => Sys2Proof.Machine.execAspset d a s
  | .pgmap d a b => Sys2Proof.Machine.execPgmap d a b s
  | .fencecap d a b => Sys2Proof.Machine.execFencecap d a b s
  | .vadd h m d a b => Sys2Proof.Machine.execVadd h m d a b s
  | .vsub h m d a b => Sys2Proof.Machine.execVsub h m d a b s
  | .vmul h m d a b => Sys2Proof.Machine.execVmul h m d a b s
  | .vmulh h m d a b => Sys2Proof.Machine.execVmulh h m d a b s
  | .vmin h m d a b => Sys2Proof.Machine.execVmin h m d a b s
  | .vmax h m d a b => Sys2Proof.Machine.execVmax h m d a b s
  | .vabs h m d a => Sys2Proof.Machine.execVabs h m d a s
  | .vneg h m d a => Sys2Proof.Machine.execVneg h m d a s
  | .vdiv h m d a b => Sys2Proof.Machine.execVdiv h m d a b s
  | .vsqrt h m d a => Sys2Proof.Machine.execVsqrt h m d a s
  | .vadds h m d a b => Sys2Proof.Machine.execVadds h m d a b s
  | .vsubs h m d a b => Sys2Proof.Machine.execVsubs h m d a b s
  | .vqmul h m d a b => Sys2Proof.Machine.execVqmul h m d a b s
  | .vqshr h m d a b => Sys2Proof.Machine.execVqshr h m d a b s
  | .vfma h m d a b c => Sys2Proof.Machine.execVfma h m d a b c s
  | .vfms h m d a b c => Sys2Proof.Machine.execVfms h m d a b c s
  | .vfnma h m d a b c => Sys2Proof.Machine.execVfnma h m d a b c s
  | .vfnms h m d a b c => Sys2Proof.Machine.execVfnms h m d a b c s
  | .vand h m d a b => Sys2Proof.Machine.execVand h m d a b s
  | .vor h m d a b => Sys2Proof.Machine.execVor h m d a b s
  | .vxor h m d a b => Sys2Proof.Machine.execVxor h m d a b s
  | .vnot h m d a => Sys2Proof.Machine.execVnot h m d a s
  | .vsll h m d a b => Sys2Proof.Machine.execVsll h m d a b s
  | .vsrl h m d a b => Sys2Proof.Machine.execVsrl h m d a b s
  | .vsra h m d a b => Sys2Proof.Machine.execVsra h m d a b s
  | .vrsqe h m d a => Sys2Proof.Machine.execVrsqe h m d a s
  | .vrcpe h m d a => Sys2Proof.Machine.execVrcpe h m d a s
  | .vcmpEq h m d a b => Sys2Proof.Machine.execVcmpEq h m d a b s
  | .vcmpNe h m d a b => Sys2Proof.Machine.execVcmpNe h m d a b s
  | .vcmpLt h m d a b => Sys2Proof.Machine.execVcmpLt h m d a b s
  | .vcmpLe h m d a b => Sys2Proof.Machine.execVcmpLe h m d a b s
  | .vcmpGt h m d a b => Sys2Proof.Machine.execVcmpGt h m d a b s
  | .vcmpGe h m d a b => Sys2Proof.Machine.execVcmpGe h m d a b s
  | .mand h m d a b => Sys2Proof.Machine.execMand h m d a b s
  | .mor h m d a b => Sys2Proof.Machine.execMor h m d a b s
  | .mxor h m d a b => Sys2Proof.Machine.execMxor h m d a b s
  | .mnot h m d a => Sys2Proof.Machine.execMnot h m d a s
  | .mset h m d => Sys2Proof.Machine.execMset h m d s
  | .mmovMaskToMask h m d a => Sys2Proof.Machine.execMmovMaskToMask h m d a s
  | .vmerge h sel d a b => Sys2Proof.Machine.execVmerge h sel d a b s
  | .mmovImageToMask h d a => Sys2Proof.Machine.execMmovImageToMask h d a s
  | .mmovMaskToImage h d a => Sys2Proof.Machine.execMmovMaskToImage h d a s
  | .vcvt h d a c => Sys2Proof.Machine.execVcvt h d a c s
  | .vcvts h d a sv c => Sys2Proof.Machine.execVcvts h d a sv c s
  | .vplane h d a t => Sys2Proof.Machine.execVplane h d a t s
  | .vslideup h m d a n => Sys2Proof.Machine.execVslideup h m d a n s
  | .vslidedn h m d a n => Sys2Proof.Machine.execVslidedn h m d a n s
  | .vgathr h m d a im => Sys2Proof.Machine.execVgathr h m d a im s
  | .vcompr h m d a => Sys2Proof.Machine.execVcompr h m d a s
  | .vexpnd h m d a => Sys2Proof.Machine.execVexpnd h m d a s
  | .vid h m d t => Sys2Proof.Machine.execVid h m d t s
  | .vsplat h m d b t => Sys2Proof.Machine.execVsplat h m d b t s
  | .vmvxs h d a im => Sys2Proof.Machine.execVmvxs h d a im s
  | .vmvsx h d a im => Sys2Proof.Machine.execVmvsx h d a im s
  | .vredsum h m d a => Sys2Proof.Machine.execVredsum h m d a s
  | .vredmax h m d a => Sys2Proof.Machine.execVredmax h m d a s
  | .vredmin h m d a => Sys2Proof.Machine.execVredmin h m d a s
  | .vredc h m d a => Sys2Proof.Machine.execVredc h m d a s
  | .vspush h m a sv => Sys2Proof.Machine.execVspush h m a sv s
  | .vspop h d sv => Sys2Proof.Machine.execVspop h d sv s
  | .vscnt h d sv => Sys2Proof.Machine.execVscnt h d sv s
  | .vqnorm h m d a => Sys2Proof.Machine.execVqnorm h m d a s
  | .vdot4 h m d a b => Sys2Proof.Machine.execVdot4 h m d a b s
  | .vld h m d xa c => Sys2Proof.Machine.execVld h m d xa c s
  | .vlds h m d xa ix c => Sys2Proof.Machine.execVlds h m d xa ix c s
  | .vldx h m d xa vi c => Sys2Proof.Machine.execVldx h m d xa vi c s
  | .vldff h m d xa c => Sys2Proof.Machine.execVldff h m d xa c s
  | .vldb h d xa c => Sys2Proof.Machine.execVldb h d xa c s
  | .vld2d h m d xa ix xc c => Sys2Proof.Machine.execVld2d h m d xa ix xc c s
  | .vst h m sv xa pol => Sys2Proof.Machine.execVst h m sv xa pol s
  | .vsts h m sv xa ix pol => Sys2Proof.Machine.execVsts h m sv xa ix pol s
  | .vstx h m sv xa vi pol => Sys2Proof.Machine.execVstx h m sv xa vi pol s
  | .vredmAdd h m sv xa vi => Sys2Proof.Machine.execVredmAdd h m sv xa vi s
  | .vredmMin h m sv xa vi => Sys2Proof.Machine.execVredmMin h m sv xa vi s
  | .vredmMax h m sv xa vi => Sys2Proof.Machine.execVredmMax h m sv xa vi s
  | .vredmAnd h m sv xa vi => Sys2Proof.Machine.execVredmAnd h m sv xa vi s
  | .vredmOr h m sv xa vi => Sys2Proof.Machine.execVredmOr h m sv xa vi s
  | .vredmXor h m sv xa vi => Sys2Proof.Machine.execVredmXor h m sv xa vi s
  | .vredmFadd h m sv xa vi => Sys2Proof.Machine.execVredmFadd h m sv xa vi s
  | .mma h z vc va vb bar => Sys2Proof.Machine.execMma h z vc va vb bar s
  | .mmas h z big vc va vb vm bar => Sys2Proof.Machine.execMmas h z big vc va vb vm bar s
  | .mmasc h z vc va vb vs bar => Sys2Proof.Machine.execMmasc h z vc va vb vs bar s
  | .mmaq h z vc va vb bar => Sys2Proof.Machine.execMmaq h z vc va vb bar s
  | .mqtrsLo h d b f bar => Sys2Proof.Machine.execMqtrsLo h d b f bar s
  | .mqtrsUp h d b f bar => Sys2Proof.Machine.execMqtrsUp h d b f bar s
  | .cpy h src dst xc => Sys2Proof.Machine.execCpy h src dst xc s
  | .cpym h win vb xa t xc => Sys2Proof.Machine.execCpym h win vb xa t xc s
  | .gthr h m d xa vi t xc => Sys2Proof.Machine.execGthr h m d xa vi t xc s
  | .gthrWindow h m xa vi xc => Sys2Proof.Machine.execGthrWindow h m xa vi xc s
  | .embag h m d xa vi xc => Sys2Proof.Machine.execEmbag h m d xa vi xc s
  | .dzero h xd xc => Sys2Proof.Machine.execDzero h xd xc s
  | .dcopy h xd xs xc => Sys2Proof.Machine.execDcopy h xd xs xc s
  | .send h vs xt xh => Sys2Proof.Machine.execSend h vs xt xh s
  | .recv h d slot xh => Sys2Proof.Machine.execRecv h d slot xh s
  | .tqpush h m vt xq xc => Sys2Proof.Machine.execTqpush h m vt xq xc s
  | .wvrun h d xa xc => Sys2Proof.Machine.execWvrun h d xa xc s
  | .waite => Sys2Proof.Machine.execWaite s
  | .yield => Sys2Proof.Machine.execYield s
  | .exit => Sys2Proof.Machine.execExit s
  | .lprun => Sys2Proof.Machine.execLprun s
  | .ldw sz wd wa im => Sys2Proof.Machine.execLdw sz wd wa im s
  | .ldix sz wd wa wb => Sys2Proof.Machine.execLdix sz wd wa wb s
  | .addw wd wa wb im => Sys2Proof.Machine.execAddw wd wa wb im s
  | .subw wd wa wb => Sys2Proof.Machine.execSubw wd wa wb s
  | .shlw wd wa wb im => Sys2Proof.Machine.execShlw wd wa wb im s
  | .andw wd wa wb => Sys2Proof.Machine.execAndw wd wa wb s
  | .cmpw c wd wa wb => Sys2Proof.Machine.execCmpw c wd wa wb s
  | .brwZ wa im => Sys2Proof.Machine.execBrwZ wa im s
  | .brwNz wa im => Sys2Proof.Machine.execBrwNz wa im s
  | .loopw wa im => Sys2Proof.Machine.execLoopw wa im s
  | .emit sz wb wa im => Sys2Proof.Machine.execEmit sz wb wa im s
  | .emitz wa wb => Sys2Proof.Machine.execEmitz wa wb s
  | .flush wa wb => Sys2Proof.Machine.execFlush wa wb s
  | .haccAcc wd wa wb wc => Sys2Proof.Machine.execHaccAcc wd wa wb wc s
  | .haccRst wd => Sys2Proof.Machine.execHaccRst wd s
  | .waitw wa wb => Sys2Proof.Machine.execWaitw wa wb s
  | .sigw => Sys2Proof.Machine.execSigw s
  | .endw => Sys2Proof.Machine.execEndw s
  | .launchPortStore c v => Sys2Proof.Machine.execLaunchPortStore c v s
  | .launchQueueClear c v => Sys2Proof.Machine.execLaunchQueueClear c v s
  | .launchProcess c => Sys2Proof.Machine.execLaunchProcess c s
  | .stripStart c f slot => Sys2Proof.Machine.execStripStart c f slot s
  | .crewMemberStart crew slots => Sys2Proof.Machine.execCrewMemberStart crew slots s
  | .sliceExpiry crew => Sys2Proof.Machine.execSliceExpiry crew s
  | .preemption crew => Sys2Proof.Machine.execPreemption crew s
  | .hamperSave crew => Sys2Proof.Machine.execHamperSave crew s
  | .hamperRestore crew slots => Sys2Proof.Machine.execHamperRestore crew slots s
  | .laneReclaim hart => Sys2Proof.Machine.execLaneReclaim hart s
  | .farmEnd c f => Sys2Proof.Machine.execFarmEnd c f s
  | .hiveBindingWrite c q v => Sys2Proof.Machine.execHiveBindingWrite c q v s
  | .hiveControlWrite c q v => Sys2Proof.Machine.execHiveControlWrite c q v s
  | .tokenBlockAppend q => Sys2Proof.Machine.execTokenBlockAppend q s
  | .hiveTimerExpiry q => Sys2Proof.Machine.execHiveTimerExpiry q s
  | .loadResultLand hart k => Sys2Proof.Machine.execLoadResultLand hart k s
  | .storeAcknowledge hart k => Sys2Proof.Machine.execStoreAcknowledge hart k s
  | .l1Eviction core asid line => Sys2Proof.Machine.execL1Eviction core asid line s
  | .matrixOperationStart core hart => Sys2Proof.Machine.execMatrixOperationStart core hart s
  | .rowPairWrite hart err bad => Sys2Proof.Machine.execRowPairWrite hart err bad s
  | .matrixComplete hart => Sys2Proof.Machine.execMatrixComplete hart s
  | .cpymMmaIssue hart => Sys2Proof.Machine.execCpymMmaIssue hart s
  | .writePointerPublish hart ord => Sys2Proof.Machine.execWritePointerPublish hart ord s
  | .copyComplete hart => Sys2Proof.Machine.execCopyComplete hart s
  | .gatherComplete hart => Sys2Proof.Machine.execGatherComplete hart s
  | .embagComplete hart => Sys2Proof.Machine.execEmbagComplete hart s
  | .pageCommandComplete hart => Sys2Proof.Machine.execPageCommandComplete hart s
  | .messageArrival k => Sys2Proof.Machine.execMessageArrival k s
  | .engineFault hart eng => Sys2Proof.Machine.execEngineFault hart eng s
  | .menderSpawn c slot => Sys2Proof.Machine.execMenderSpawn c slot s
  | .heritageFault core cause a => Sys2Proof.Machine.execHeritageFault core cause a s
  | .containment c => Sys2Proof.Machine.execContainment c s
  | .watchdog hart => Sys2Proof.Machine.execWatchdog hart s
  | .powerSample mw => Sys2Proof.Machine.execPowerSample mw s
  | .powerUndo => Sys2Proof.Machine.execPowerUndo s
  | .boostClaim quad => Sys2Proof.Machine.execBoostClaim quad s
  | .permitCharge pair => Sys2Proof.Machine.execPermitCharge pair s
  | .permitRefill pair => Sys2Proof.Machine.execPermitRefill pair s
  | .boostStepDown quad => Sys2Proof.Machine.execBoostStepDown quad s
  | .clockChangeComplete core => Sys2Proof.Machine.execClockChangeComplete core s
  | .marginWarning core group => Sys2Proof.Machine.execMarginWarning core group s
  | .laneGroupRetire core group => Sys2Proof.Machine.execLaneGroupRetire core group s
  | .selfTest core bits => Sys2Proof.Machine.execSelfTest core bits s
  | .retentionEntry a => Sys2Proof.Machine.execRetentionEntry a s
  | .retentionExit a => Sys2Proof.Machine.execRetentionExit a s
  | .flitRetry l => Sys2Proof.Machine.execFlitRetry l s
  | .torusRetrain port ok => Sys2Proof.Machine.execTorusRetrain port ok s
  | .bridgeFailure die => Sys2Proof.Machine.execBridgeFailure die s
  | .cxlLinkReset port => Sys2Proof.Machine.execCxlLinkReset port s
  | .hostAccessTimeout c => Sys2Proof.Machine.execHostAccessTimeout c s
  | .moduleReset r => Sys2Proof.Machine.execModuleReset r s
  | .configurationRequestRetryStatus port => Sys2Proof.Machine.execConfigurationRequestRetryStatus port s
  | .hostMemAccess r => Sys2Proof.Machine.execHostMemAccess r s
  | .invalControlWrite c v => Sys2Proof.Machine.execInvalControlWrite c v s
  | .invalidation c => Sys2Proof.Machine.execInvalidation c s
  | .requestRingControlWrite c v => Sys2Proof.Machine.execRequestRingControlWrite c v s
  | .requestResponse c v => Sys2Proof.Machine.execRequestResponse c v s
  | .swapDoorbell v => Sys2Proof.Machine.execSwapDoorbell v s
  | .swapPairRun => Sys2Proof.Machine.execSwapPairRun s
  | .swapLineMove bad => Sys2Proof.Machine.execSwapLineMove bad s
  | .redirectClear v => Sys2Proof.Machine.execRedirectClear v s
  | .attestationRequest nonce => Sys2Proof.Machine.execAttestationRequest nonce s
  | .contextCreate r => Sys2Proof.Machine.execContextCreate r s
  | .contextDestroy c => Sys2Proof.Machine.execContextDestroy c s
  | .containCommand c => Sys2Proof.Machine.execContainCommand c s
  | .contextRelease c => Sys2Proof.Machine.execContextRelease c s
  | .asidAssign c a => Sys2Proof.Machine.execAsidAssign c a s
  | .rootTableRegister c ppn => Sys2Proof.Machine.execRootTableRegister c ppn s
  | .queueAssign c qs => Sys2Proof.Machine.execQueueAssign c qs s
  | .placementDomainSet c d => Sys2Proof.Machine.execPlacementDomainSet c d s
  | .saveRegionRegister c base len => Sys2Proof.Machine.execSaveRegionRegister c base len s
  | .torusAcceptanceSet c l => Sys2Proof.Machine.execTorusAcceptanceSet c l s
  | .powerCapSet peak w => Sys2Proof.Machine.execPowerCapSet peak w s
  | .boostEnable quad on => Sys2Proof.Machine.execBoostEnable quad on s
  | .watchdogLimitSet c limit => Sys2Proof.Machine.execWatchdogLimitSet c limit s
  | .recordModeEnable r => Sys2Proof.Machine.execRecordModeEnable r s
  | .coordinatesSet own size => Sys2Proof.Machine.execCoordinatesSet own size s
  | .torusPortEnable port => Sys2Proof.Machine.execTorusPortEnable port s
  | .retentionEnable on => Sys2Proof.Machine.execRetentionEnable on s
  | .selfTestIntervalSet n => Sys2Proof.Machine.execSelfTestIntervalSet n s
  | .fenceRightGrant c => Sys2Proof.Machine.execFenceRightGrant c s
  | .fenceRestore core bit => Sys2Proof.Machine.execFenceRestore core bit s
  | .ideRequiredSet on => Sys2Proof.Machine.execIdeRequiredSet on s
  | .measurementExtend r d => Sys2Proof.Machine.execMeasurementExtend r d s
  | .certificateRead => Sys2Proof.Machine.execCertificateRead s
  | .errorLogRead => Sys2Proof.Machine.execErrorLogRead s
  | .errorLogClear => Sys2Proof.Machine.execErrorLogClear s
  | .eventQueueRead c => Sys2Proof.Machine.execEventQueueRead c s
  | .discardCounterRead => Sys2Proof.Machine.execDiscardCounterRead s
  | .lostEntryCounterRead c => Sys2Proof.Machine.execLostEntryCounterRead c s
  | .firmwareUpdate image => Sys2Proof.Machine.execFirmwareUpdate image s
  | .registerWrite w off v => Sys2Proof.Machine.execRegisterWrite w off v s
  | .messageAccepted hart => Sys2Proof.Machine.execMessageAccepted hart s
  | .hostAcknowledge hart k => Sys2Proof.Machine.execHostAcknowledge hart k s
  | .hostSnoop port a => Sys2Proof.Machine.execHostSnoop port a s
  | .torusTrainingEnd port lanes => Sys2Proof.Machine.execTorusTrainingEnd port lanes s
  | .cxlLinkUp port => Sys2Proof.Machine.execCxlLinkUp port s
  | .heritageStripEnd core => Sys2Proof.Machine.execHeritageStripEnd core s
  | .engineWatchdog hart eng => Sys2Proof.Machine.execEngineWatchdog hart eng s
  | .ideKmMessage port streamNo on => Sys2Proof.Machine.execIdeKmMessage port streamNo on s
  | .spdmSessionSetup on => Sys2Proof.Machine.execSpdmSessionSetup on s

end Sys2Proof.Machine
end

