-- ==== Sys2Proof/Machine/Fetch.lean ====
section
/-! DEFINITION. The fetch of a hart's next instruction and the checks of R57 that the word alone decides, the cycles of a frozen hart
(R290), the charge of power control (R303), and the placing of one instruction where the next step fetches. -/

namespace Sys2Proof.Machine

/-- How a fetch ends: an instruction to execute, or an outcome without one. -/
inductive FetchEnd where
  | run (i : Instr) (s : State)
  | stop (o : Out)

/-- What a rejected word freezes its hart with (R57 steps 3 to 5). -/
def rejectCause (h : Hart) : Reject → Cause
  | .reservedField true => if h.priv then .illegalOp else .priv
  | _ => .illegalOp

/-- A word read and decoded: a long word at an address that is 4 mod 8 is refused first (R57 step 2), except for the captured
words of a loop replay. -/
def decodeAt (w : Nat) (captured : Bool) (s : State) : FetchEnd :=
  let s := s.modMe fun h => { h with insn := BitVec.ofNat 64 w }
  if w % 2 = 1 ∧ captured = false ∧ s.me.pc.toNat % 8 = 4 then .stop (stop .illegalOp s)
  else match (if w % 2 = 1 then decode64 w else decode32 w) with
  | .ok i => .run i s
  | .error r => .stop (stopAt (rejectCause s.me r) s.me.pc (some 0) s)

/-- The word of a loop replay's next body instruction (R283): the one LPRUN captured. -/
def Hart.captured (h : Hart) : Option Word := if h.replaying then h.lpBody[bits h.lpstate.toNat 27 22]? else none

/-- The core's L1 instruction cache lacks the line at the executing hart's pc. -/
def fetchMiss (s : State) : Bool :=
  let h := s.me
  !s.l1i.any fun l => l.core == h.core && l.asid == asidOf h.aspace && l.line == h.pc.toNat / 64

/-- The cycle a fetch miss costs, in sc13 (R290). (DESIGN CHOICE, assumption 9) -/
def missCycle (miss : Bool) (s : State) : State := if miss then s.modMe fun h => { (h.spend 13 1) with watch := h.watch + 1 } else s

/-- The executing hart's next instruction (R57 steps 1 to 5). -/
def fetchInstr (s : State) : FetchEnd :=
  match s.me.captured with
  | some w => decodeAt w.toNat true s
  | none =>
    let pc := s.me.pc.toNat
    let miss := fetchMiss s
    match fetchAcc s s.cur pc 4 with
    | .error (none, _) => .stop (fetchWait [pc] s)
    | .error (some c, a) => .stop (stopAt c (BitVec.ofNat 64 a) none s)
    | .ok (s, b) =>
      if natOf b % 2 = 0 ∨ pc % 8 = 4 then decodeAt (natOf b) false (missCycle miss s)
      else match fetchAcc s s.cur pc 8 with
        | .error (none, _) => .stop (fetchWait [pc] s)
        | .error (some c, a) => .stop (stopAt c (BitVec.ofNat 64 a) none s)
        | .ok (s, b) => decodeAt (natOf b) false (missCycle miss s)

/-- A cycle of a frozen resident hart: only sc9 advances (R290). -/
def frozenCycle (s : State) : Out := .next (s.modMe fun h => { (h.charge 9 1) with cycle := (h.cycle + 1) % 2 ^ 64 })

/-- Whether a hart holds fewer lane groups than with none withheld (R303). -/
def powerShort (s : State) (uid : Nat) : Bool :=
  let h := s.hart uid
  let c := h.core
  (s.core c).withheld != 0 && h.grant / 64 < withLoans (residents s c) (grantTable s c 0) uid

/-- The cycles the executing hart has spent since `t` charged to sc11 when power control held lane groups back from it, unfrozen as it was
(R303); `short` says so. -/
def chargePower (short : Bool) (t : Nat) : Out → Out
  | .next s =>
    if short && (tget s.harts s.cur).isSome then .next (s.modMe fun h => h.charge 11 ((h.cycle + 2 ^ 64 - t) % 2 ^ 64)) else .next s
  | o => o

/-- Whether the executing hart runs and power control holds lane groups back from it (R303). -/
def shortNow (s : State) : Bool := s.live && powerShort s s.cur

/-- The stall cycles after a retirement end when the watchdog's count reaches its limit (R310): the rest is discarded (R60). `g` is the hart
before the move. -/
def clipStall (g : Hart) : Out → Out
  | .next s =>
    let limit := (s.ctx s.me.ctx).watchLimit
    let h := s.me
    if limit = 0 || h.watch ≤ limit || h.waiting.isSome || h.retired == g.retired || !s.live then .next s
    else
      let n := h.watch - limit
      let k := min n (h.sc.getD 0 0 - g.sc.getD 0 0)
      .next (s.setMe { h with
        cycle := (h.cycle + 2 ^ 64 - n) % 2 ^ 64, watch := limit
        sc := modAt (· - (n - k)) 13 (modAt (· - k) 0 h.sc) })
  | o => o

/-- What follows an instruction of the executing hart: it has lost no arbitration (R256), and one of the vector class turns the arbiter of its core
(R13) and is what a YIELD of another hart of the core waits for (R273). -/
def noteIssue : Out → Out
  | .next s =>
    if !s.live then .next s
    else
      let s := s.modMe fun h => { h with lost := 0 }
      let h := s.me
      if h.insn.getLsbD 0 && h.waiting.isNone then
        let s := s.setCore h.core { (s.core h.core) with arb := (h.place.getD 0 + 1) % 4 }
        .next ((residents s h.core).foldl (fun s p =>
          if p.2.yield.isSome then s.modHart p.1 fun k => { k with yield := k.yield.map fun y => (y.1, y.2.filter fun u => u != s.cur) } else s) s)
      else .next s
  | o => o

/-- A move of a hart up to its instruction: an expired watchdog freezes it (R310), a frozen hart spends a cycle, a running one
fetches. -/
def hartMove (s : State) : FetchEnd :=
  if !working s s.cur then .stop (.refused .notEnabled)
  else if watchExpired s s.me then .stop (execWatchdog s.cur s)
  else match s.me.status with
  | .running => fetchInstr s
  | .frozen _ => .stop (frozenCycle s)
  | _ => .stop (.refused .notEnabled)

/-! ## Placing an instruction -/

/-- The kernel declaration of a placed instruction's hart: every class allowed, every barrier allocated. -/
def placedKern : Kern := { mask := BitVec.allOnes 128, barriers := 128, shared := 4096 }

/-- The state with a running hart to execute a placed instruction: the executing hart when it is live, else a new privileged strip
hart of context 1 in the first free slot, with 64 lanes of grant and vl 64. -/
def withHart (s : State) : State :=
  if s.live then s
  else
    let uid := s.nextId
    let slot := ((List.range 640).find? fun x => (occupant s x).isNone).getD 0
    let h : Hart := { ctx := 1, farm := 1, crew := uid + 1, priv := true, place := some slot, kern := placedKern, pc := 0x10000#64, vl := 64
                      aspace := mkAspace 1 0 }
    { s with
      cur := uid, nextId := uid + 2, harts := tput s.harts uid h
      crews := tput s.crews (uid + 1) { ctx := 1, farm := 1, number := 0, harts := [uid], winSize := 4096, quad := some (quadOf slot), started := true }
      ctxs := if (tget s.ctxs 1).isSome then s.ctxs else tput s.ctxs 1 { asids := [1], root := 0 } }

/-- A hart word placed at the executing hart's pc, in its core's L1 instruction cache. -/
def placeWord (s : State) (n v : Nat) : State :=
  let s := s.modMe fun h => { h with lpstate := 0, lpBody := [], watch := 0 }
  let h := s.me
  let pc := h.pc.toNat
  let line : L1Line := { core := h.core, asid := asidOf h.aspace, line := pc / 64
                         data := List.replicate (pc % 64) 0 ++ bytesOf n v ++ List.replicate (64 - n - pc % 64) 0
                         rights := { r := true, w := false, x := true, u := true, d := false } }
  { s with l1i := line :: s.l1i }

/-- A walker word placed as the program of a running walk at the head of the executing hart's engine 3. -/
def placeWalk (s : State) (v : Nat) : State :=
  let w : Walk := { desc := 0, arg := 0, begun := true, loaded := true, cnt := 1, prog := [BitVec.ofNat 32 v], regs := List.replicate 16 0
                    emitLen := 4096, htLog := 5 }
  s.modMe fun h =>
    let o : EngOp := { eng := 3, ord := h.issued.getD 3 0 + 1, seq := 0, aspace := h.aspace, priv := h.priv, vl := h.vl, bar := none, unit := 0
                       stop := none, kind := .walk w }
    { h with issued := modAt (· + 1) 3 h.issued, ops := o :: h.ops.filter fun q => q.eng != 3 }

/-- Whether a table word is a walker word, by the order of `decodeTableWord`. -/
def isWalkWord (nbits v : Nat) : Bool :=
  decide (nbits ≤ 32) && (decodeWOp v).isSome && (v % 2 == 1 || !(match decode32 v with
    | .ok _ => true
    | .error _ => false))

/-- One instruction placed where the next step executes it: a walker word in a walk, a hart word at a hart's pc. -/
def placeInstr (s : State) (nbits w : Nat) : State :=
  let v := w % 2 ^ nbits
  let s := withHart s
  if isWalkWord nbits v then { (placeWalk s v) with agenda := .walk s.cur :: s.agenda }
  else { (placeWord s (if v % 2 = 1 then 8 else 4) v) with agenda := .hart s.cur :: s.agenda }

end Sys2Proof.Machine
end

