-- ==== Sys2Proof/Machine/Arbiter.lean ====
section
/-! DEFINITION. The cycles a hart loses to others: the vector-class arbiter of a core (spec/01_machine.md R13, spec/11_scheduling.md R256) and the
banks of the quad store (spec/08_ordering.md R167). -/

namespace Sys2Proof.Machine

/-- A hart could issue its next instruction now, and the instruction is of the vector class (R13): it would wait for nothing. -/
def readyVector (s : State) (uid : Nat) : Bool :=
  let s := { s with cur := uid }
  if !(working s uid && s.me.status == .running) || watchExpired s s.me then false
  else match fetchInstr s with
    | .stop _ => false
    | .run i t => t.me.insn.getLsbD 0 && (match exec i t with
      | .next t => ((t.hart uid).waiting).isNone
      | _ => false)

/-- Hart `a` wins an arbitration over hart `b` (R256, R13): one that has lost 256 in a row comes before every class, then the class decides, then
the rotating turn. -/
def beats (s : State) (a b : Nat) : Bool :=
  let h := s.hart a
  let k := s.hart b
  let turn (x : Hart) : Nat := (x.place.getD 0 % 4 + 4 - (s.core x.core).arb) % 4
  let ha : Bool := 256 ≤ h.lost
  let kb : Bool := 256 ≤ k.lost
  if ha != kb then ha
  else if !ha && h.kern.cls != k.kern.cls then k.kern.cls < h.kern.cls
  else turn h < turn k

/-- A hart loses an arbitration: it is ready, and another ready hart of its core wins (R13). It does not issue, and spends its cycle with the
winner's. -/
def losesTo (s : State) (uid : Nat) : Bool :=
  ((residents s (s.hart uid).core).any fun p => p.1 != uid && readyVector s p.1 && beats s p.1 uid) && readyVector s uid

/-- The harts that lose to the executing hart when it issues a vector-class instruction: those of its core that are ready too (R13). -/
def rivals (s : State) : List Nat :=
  ((residents s s.me.core).filter fun p => p.1 != s.cur && readyVector s p.1).map (·.1)

/-- A cycle of a hart that passes without an issue for a reason, in power control's counter too (R290, R303); its watchdog counts it (R310). -/
def idleCycle (s : State) (uid : Nat) (sc : Nat) : State :=
  s.modHart uid fun h => { ((if powerShort s uid then h.charge 11 1 else h).spend sc 1) with watch := h.watch + 1 }

/-- A cycle in which a ready hart has lost arbitration (R13, R256). -/
def passOver (s : State) (uid : Nat) : State := (idleCycle s uid 3).modHart uid fun h => { h with lost := h.lost + 1 }

/-- The harts that were ready are passed over when the executing hart issues an instruction of the vector class (R13). -/
def arbitrate (losers : List Nat) : Out → Out
  | .next s => .next (if s.live && s.me.insn.getLsbD 0 && s.me.waiting.isNone then losers.foldl passOver s else s)
  | o => o

/-- The next instruction of a hart makes an access to the crew window now (R167): with no window it would freeze, and it does not wait. -/
def reachesBank (s : State) (uid : Nat) : Bool :=
  let s := { s with cur := uid }
  if !(working s uid && s.me.status == .running) then false
  else match fetchInstr s with
    | .stop _ => false
    | .run i t =>
      (match exec i t with
        | .next u => (u.hart uid).waiting.isNone && (u.hart uid).status == .running
        | _ => false)
      && (match exec i (t.setCrew t.me.crew { (t.crew t.me.crew) with winSize := 0 }) with
        | .next u => (match (u.hart uid).status with
          | .frozen r => r.cause == .crewWindow
          | _ => false)
        | _ => false)

/-- Another requester of the banks of a quad store (R167): a hart of another core, or an engine of any core, that reaches its window now. -/
def bankRival (s : State) (uid : Nat) : Bool :=
  let h := s.hart uid
  s.harts.any fun p => (p.2.place.map quadOf) == h.place.map quadOf
    && ((p.2.core != h.core && reachesBank s p.1) || (working s p.1 && p.2.ops.any fun o => o.reachesWindow && canRun s p.1 o))

/-- A cycle in which an access of a hart to the crew window loses a bank to another requester of its quad (R167). -/
def loseBank (uid : Nat) (s : State) : Out :=
  if (s.hart uid).place.isSome && bankRival s uid && reachesBank s uid then .next (idleCycle s uid 6) else .refused .notEnabled

end Sys2Proof.Machine
end

