-- ==== Sys2Proof/Machine/Window.lean ====
section
/-! DEFINITION. What the host reads of the module: the control window, the context windows (spec/24_attach.md R410, R412, with
spec/11_scheduling.md R244, R265, spec/15_translation.md R321, spec/18_recovery.md R374), the capability list (spec/01_machine.md
R19–R22, R344, R413, R414), a core's capability mask (R22), and the sending of an MSI-X message (R411). No read changes a register. -/

namespace Sys2Proof.Machine

/-- A register of a context's window, by its offset; every other offset reads zero (R410). -/
def contextRead (s : State) (c off : Nat) : Word :=
  match tget s.ctxs c with
  | none => 0
  | some k =>
    if 0x1000 ≤ off ∧ off < 0x9000 then
      match hiveOf s c ((off - 0x1000) / 32) with
      | none => 0
      | some h =>
        match off % 32 with
        | 0 => h.binding
        | 8 => h.control
        | 16 => BitVec.ofNat 64 (h.tokens.length + h.flights.length * 2 ^ 13 + h.refused.toNat * 2 ^ 63)
        | 24 => h.ring
        | _ => 0
    else
      match off with
      | 0x08 => BitVec.ofNat 64 (k.portCount + k.portWaiting * 2 ^ 32 + k.overflow.toNat * 2 ^ 63)
      | 0x10 => BitVec.ofNat 64 (k.unwritten + k.unwCode * 2 ^ 32 + k.unwStep1.toNat * 2 ^ 63)
      | 0x18 => k.unwRecord
      | 0x40 => k.invAddr
      | 0x48 => BitVec.ofNat 64 (k.invCtl.toNat + k.invRefused.toNat * 2 ^ 62 + k.invBusy.toNat * 2 ^ 63)
      | 0x50 => k.ringBase
      | 0x58 => BitVec.ofNat 64 (k.ringLog + k.ringProd.toNat * 2 ^ 16 + k.ringCons.toNat * 2 ^ 32)
      | 0x70 => BitVec.ofNat 64 (k.saveFaults + k.saveSpace.toNat * 2 ^ 63)
      | 0x78 => k.saveAddr
      | _ => 0

/-- A register of the module control window (R412). -/
def moduleRead (s : State) (off : Nat) : Word :=
  match off with
  | 0x000 => BitVec.ofNat 64 (s.mgmt.ready.toNat + s.mgmt.recovery.toNat * 2 + s.mgmt.bridgeBad.toNat * 4)
  | 0x128 => BitVec.ofNat 64 (s.swap.busy.toNat + s.swap.rejected.toNat * 2 + s.swap.stopped.toNat * 4 + s.swap.stopLine * 8)
  | _ => if 0x100 ≤ off ∧ off < 0x120 ∧ off % 8 = 0 then BitVec.ofNat 64 (fieldAt s.swap.staging (off - 0x100) 8) else 0

/-- The record header of R19. (DESIGN CHOICE, assumption 66) -/
def capHeader (id len next : Nat) : List Byte := bytesOf 8 (id + 2 ^ 16 + len * 2 ^ 24 + next * 2 ^ 36)

/-- The capability list from offset 0x400: the five records of R21 in ascending id, each at the end of the one before it. -/
def capList (s : State) : List Byte :=
  capHeader 1 12 0x40C ++ bytesOf 4 0x0203
    ++ capHeader 2 0x290 0x69C ++ bytesOf 4 s.mgmt.mapGen ++ bytesOf 4 0
      ++ ((List.range 160).flatMap fun c => bytesOf 4 ((s.core c).groups.toNat + (s.core c).enabled.toNat * 2 ^ 16))
    ++ capHeader 3 0x38 0x6D4 ++ s.mgmt.channels.flatMap (fun w => bytesOf 4 w.toNat)
    ++ capHeader 4 0x28 0x6FC ++ bytesOf 4 s.torus.own.toNat ++ bytesOf 4 s.torus.size.toNat
      ++ ((List.range 6).flatMap fun p => bytesOf 4 ((torusPort s p).state + (torusPort s p).retrains * 2 ^ 8))
    ++ capHeader 5 12 0 ++ bytesOf 4 (8 + s.mgmt.heritage.toNat * 2 ^ 8 + heritageMinor * 2 ^ 16)

/-- A host read: it needs a link that is up and a module that is ready; without the IDE stream the IDE-required bit asks for it is
dropped and answered as an unsupported request (R338). -/
def hostRead (v : State → Word) (s : State) : Out :=
  if !s.mgmt.linkUp.any id || !s.mgmt.ready then .refused .notEnabled
  else if offStream s then .next (reply s [1])
  else .next (reply s [0, v s])

/-- A read of BAR4 (R410): the MSI-X table, 16 bytes a vector, and from offset 0x2000 the pending-bit array. (PRESUMED, assumption 86) -/
def msixRead (s : State) (off : Nat) : Word :=
  if off < 0x2000 then
    let e := msixEntry s (off / 16)
    if off % 16 = 0 then e.1 else if off % 16 = 8 then e.2 else 0
  else if off % 8 = 0 then (s.mgmt.msix >>> (8 * (off - 0x2000))).setWidth 64
  else 0

/-- A read of a register of a BAR at an offset that is a multiple of 8 (R410). -/
def readBar (b : Bar) (off : Nat) (s : State) : Out :=
  hostRead (fun s => match barPlace b off with
    | .module o => moduleRead s o
    | .context c o => contextRead s c o
    | .msix o => msixRead s o
    | .nothing => 0) s

/-- A read of a dword of the capability list in configuration space (R19). -/
def readConfig (off : Nat) (s : State) : Out :=
  hostRead (fun s => if off < 0x400 ∨ off % 4 ≠ 0 then 0 else BitVec.ofNat 64 (fieldAt (capList s) (off - 0x400) 4)) s

/-- A host's write to configuration space, whose records are read-only: discarded (R20). -/
def writeConfig (s : State) : Out := hostWrite .next s

/-- A core's capability mask read through the management port (R22). -/
def readMask (core : Nat) (s : State) : Out :=
  command false (fun s => if 160 ≤ core then refuse s else .next (reply s [(s.core core).mask.setWidth 64, ((s.core core).mask >>> 64).setWidth 64])) s

/-- The message of a pending MSI-X vector is sent, to the address of its table entry, and its pending bit clears (R411); a vector that its
entry masks stays pending. (PRESUMED, assumption 86) -/
def sendMsix (n : Nat) (s : State) : Out :=
  let e := msixEntry s n
  if n < 65 && s.mgmt.msix.getLsbD n && s.mgmt.linkUp.any id && !e.2.getLsbD 32 then
    .next (reply { s with mgmt := { s.mgmt with msix := s.mgmt.msix &&& ~~~(BitVec.ofNat 65 (2 ^ n)) } }
      [4, BitVec.ofNat 64 n, e.1, BitVec.ofNat 64 (bits e.2.toNat 31 0)])
  else .refused .notEnabled

end Sys2Proof.Machine
end

