-- ==== Sys2Proof/Machine/Clock.lean ====
section
/-! DEFINITION. What hub time cannot pass by: the events that the spec sets at a time of the hub, and those of the scheduler, which R254 and R255 have
follow at once (spec/11_scheduling.md R253–R255, R267, spec/14_power.md R304–R308, spec/18_recovery.md R381, spec/24_attach.md R416). -/

namespace Sys2Proof.Machine

/-- The hart slots a waiting crew would take on a quad that it fits: on each core as many as it can take there. -/
def pickSlots (s : State) (c : Cand) (q : Nat) : List Nat :=
  ((List.range 4).flatMap fun i =>
    let core := 4 * q + i
    (((List.range 4).map fun k => 4 * core + k).filter fun x => slotFree s x && !barred s c.ctx x false).take (coreTakes s c core)).take c.size

/-- A waiting crew placed in some slots: the start of its strip or of its members, or its restore. -/
def placeCand (s : State) (c : Cand) (slots : List Nat) : State → Out :=
  match c.crew with
  | none => execStripStart c.ctx c.farm (slots.headD 0)
  | some u => if (s.crew u).started then execHamperRestore u slots else execCrewMemberStart u slots

/-- The placements that the rules of R254 let happen now: on free places, and strips for idle harts. -/
def placements (s : State) : List (State → Out) :=
  ((waiters s).flatMap fun c => ((List.range 40).filter fun q => fitsQuad s c q && mayTake s c (pickSlots s c q)).map fun q => placeCand s c (pickSlots s c q))
    ++ s.harts.filterMap fun p => if p.2.status == .idle then p.2.place.map (execStripStart p.2.ctx p.2.farm) else none

/-- The scheduler's acts that follow at once (R253–R255): the ends of slices, replacements, saves and placements. (DEDUCED, assumption 42) -/
def schedulerDue (s : State) : List (State → Out) :=
  (s.crews.flatMap fun p => (if p.2.replace || p.2.evict then [execPreemption p.1] else []) ++ [execHamperSave p.1, execSliceExpiry p.1]) ++ placements s

/-- The acts of power control, of hives, of retention and of the host's time limit whose time has come. -/
def timersDue (s : State) : List (State → Out) :=
  ((s.cores.filter fun p => p.2.changing.isSome && p.2.changeAt + 2000 ≤ s.hub).map fun p => execClockChangeComplete p.1)
    ++ ((List.range 20).map execPermitCharge) ++ ((List.range 20).map execPermitRefill)
    ++ ((List.range 40).flatMap fun q => [execBoostStepDown q, execBoostClaim q]) ++ [execPowerUndo]
    ++ (s.hives.map fun p => execHiveTimerExpiry p.1) ++ (s.mgmt.asleep.map fun e => execRetentionExit e.1)
    ++ s.ctxs.map fun p => if p.2.containing || p.2.contained then fun _ => .refused .notEnabled else execHostAccessTimeout p.1

/-- A power sample is due (R304). -/
def sampleDue (s : State) : Bool := s.power.now + 1000 ≤ s.hub

/-- Whether an outcome is a next state. -/
def goes (o : Out) : Bool :=
  match o with
  | .next _ => true
  | _ => false

/-- The first event that is due. -/
def firstDue (s : State) : Option (State → Out) :=
  if sampleDue s then some (execPowerSample (Config.pick s.hub)) else (timersDue s ++ schedulerDue s).find? fun f => goes (f s)

/-- The hub times ahead at which an event may fall due. -/
def deadlines (s : State) : List Nat :=
  let clocks : List Nat := s.cores.filterMap fun p => p.2.changing.map fun _ => p.2.changeAt + 2000
  let steps : List Nat := (List.range 40).filterMap fun q => if (s.quad q).stepping then some ((s.quad q).stepAt + 50000) else none
  let slices : List Nat := s.crews.filterMap fun p => p.2.quad.map fun _ => p.2.since + 2000000
  let waits : List Nat := (waiters s).map fun c => c.since + 16000000
  let hives : List Nat := s.hives.filterMap fun p => p.2.timer.map (· + p.2.limit)
  let exits : List Nat := s.mgmt.asleep.filterMap fun e => exitDue s e.1
  let links : List Nat := s.hostWaits.map (·.2 + 100000000)
  ((s.power.now + 1000) :: (clocks ++ (List.range 20).filterMap (chargeDue s) ++ (List.range 20).filterMap (refillDue s) ++ steps ++ slices ++ waits
    ++ hives ++ exits ++ links)).filter fun t => s.hub < t

/-- Hub time passes, by no more than to the next time at which an event may fall due, and not while one is due (R10). (DEDUCED, assumption 42) -/
def passTime (n : Nat) (s : State) : Out :=
  if (firstDue s).isSome || (deadlines s).any (fun t => t < s.hub + n) then .refused .notEnabled else .next { s with hub := s.hub + n }

end Sys2Proof.Machine
end

