-- ==== Sys2Proof/Machine/Partial.lean ====
section
/-! DEFINITION. A vector instruction stopped between elements for a pre-emption (spec/05_vector_ops.md R102, spec/09_memory_ops.md R190,
spec/06_matrix_ops.md R146, spec/18_recovery.md R367): the elements below the stopping one are done, `vresume` names it, and the instruction has
not retired. -/

namespace Sys2Proof.Machine

/-- The element count between two points at which the instruction of a long word may stop, 0 where it stops at an instruction boundary only
(R102, R146, R190). -/
def stopGrain (h : Hart) (w : Nat) : Nat :=
  let f := unpackLong w
  match f.major.val with
  | 0x00 | 0x01 | 0x02 | 0x03 | 0x04 | 0x0B | 0x11 | 0x12 => 1
  | 0x05 => if f.fn.val = 6 then 1 else 0
  | 0x06 =>
    let ws := convWidths h (f.v1.getD 0) ((fmtOf (ctlOf f.ctl).tag).getD .i32)
    if f.fn.val = 0 ∧ ratio ws.1 ws.2 = 1 then 1 else 0
  | 0x07 => if f.fn.val = 5 ∨ f.fn.val = 6 then 1 else 0
  | 0x10 => if f.fn.val = 4 then 8 * (f.tag.toNat % 16) else 1
  | _ => 0

/-- A register after the elements below `k`: active elements from there on keep their bits, masked-off ones have what R31 gives them, and the
tail is zero. -/
def mergeReg (old new : VReg) (keep : Bool) (m : Option MaskBits) (k vl : Nat) : VReg :=
  { tag := new.tag, slots := trimSlots (tabulate vl fun e => if e < k then new.slot e else if activeAt m e || keep then old.slot e else 0) }

/-- A mask register after the elements below `k`. -/
def mergeMask (old new : MaskBits) (k : Nat) : MaskBits := mbuild 1024 fun e => if e < k then mbit new e else mbit old e

/-- The register whose tag before decides for a masked-off element (R31): the first of a pair. -/
def pairHead (t : Tag) (r : VR) : VR := if tagPair t && r.val % 2 == 1 then Fin.ofNat 32 (r.val - 1) else r

/-- A hart whose instruction has done its elements below `k`: `h` before it, `g` after an execution at vl `k`. The instruction has not retired. -/
def Hart.partway (h g : Hart) (m : Option MaskBits) (k : Nat) : Hart :=
  { g with
    vl := h.vl, vresume := k, pc := h.pc, x := h.x, xBad := h.xBad, lpstate := h.lpstate, lpBody := h.lpBody, retired := h.retired
    v := Vector.ofFn fun r => if g.rv r = h.rv r then h.rv r
      else mergeReg (h.rv r) (g.rv r) ((h.rv (pairHead (g.rv r).tag r)).tag == (g.rv r).tag) m k h.vl
    m := Vector.ofFn fun r => mergeMask (h.rm r) (g.rm r) k }

/-- An instruction that stops before element `k` can complete when it executes again (R102): a contiguous load or store stops where a 64-byte line
begins, whose accesses are whole (R172); a VLDB that its vl refuses does not begin; a conversion in place to another tag, whose elements would
then stand under two, stops at an instruction boundary only. (DEDUCED, assumption 46) -/
def mayStop (h : Hart) (i : Instr) (k : Nat) : Bool :=
  let line (xa : Reg) (pair : Bool) : Bool := ((h.rx xa).toNat + (if pair then 8 else 4) * k) % 64 == 0
  match i with
  | .vld _ _ _ xa c => line xa (tagPair c.tag)
  | .vldff _ _ _ xa c => line xa (tagPair c.tag)
  | .vst _ _ r xa _ => line xa (((h.fmt r).map Fmt.pair).getD false)
  | .vldb _ _ _ c => h.vl % (8 * (c.tag.toNat % 16)) == 0
  | .vcvt _ d a c => !(d == a && (h.rv d).tag != c.tag)
  | _ => true

/-- A vector instruction of a hart that is to be pre-empted stops before element `k` (R102, R190): at least one element of it is done. -/
def stopVector (uid k : Nat) (s : State) : Out :=
  let s := { s with cur := uid }
  let h := s.me
  if !(working s uid && h.status == .running && preempted s (s.crew h.crew)) then .refused .notEnabled
  else match fetchInstr s with
    | .stop _ => .refused .notEnabled
    | .run i t =>
      let w := t.me.insn.toNat
      let n := stopGrain t.me w
      let f := unpackLong w
      if w % 2 = 0 ∨ n = 0 ∨ k % max 1 n ≠ 0 ∨ k ≤ h.vresume ∨ h.vl ≤ k ∨ !mayStop t.me i k then .refused .notEnabled
      else match exec i (t.modMe fun h => { h with vl := k }) with
        | .next u =>
          let g := u.me
          if g.status == .running && g.waiting.isNone && g.vl == k then
            .next (u.setMe (t.me.partway g (t.me.emask (if f.mkd then some f.mreg else none)) k))
          else .refused .notEnabled
        | _ => .refused .notEnabled

end Sys2Proof.Machine
end

