-- ==== Sys2Proof/Machine/Background.lean ====
section
/-! DEFINITION. What moves when `agenda` names nothing: the order of the machine's agents that the model chooses where the spec
fixes none (assumption 8). Every choice here is one the agenda can also make; no rule of spec/ rests on it. -/

namespace Sys2Proof.Machine

/-- The first of several moves that is enabled; a step in which none is passes time only. -/
def firstOf : List (State → Out) → State → Out
  | [], s => .next s
  | f :: l, s =>
    match f s with
    | .next t => .next t
    | _ => firstOf l s

/-- What a hart's stores, loads, engines and matrix queue may do next, each by the event of the opcode table. -/
def hartProgress (u : Nat) : List (State → Out) :=
  [execStoreAcknowledge u 0, execLoadResultLand u 0, execHostAcknowledge u 0, fun s => execMatrixOperationStart (s.hart u).core u s,
   execRowPairWrite u 0 none, execMatrixComplete u, execCpymMmaIssue u, execCopyComplete u, execGatherComplete u, execEmbagComplete u,
   execMessageAccepted u, execPageCommandComplete u, fun s => walkStep { s with cur := u }, execLaneReclaim u]
   ++ (List.finRange 8).map fun e => execEngineFault u e

/-- What the scheduler and the module's engines may do next, beside what is due. -/
def moduleProgress (s : State) : List (State → Out) :=
  (s.ctxs.flatMap fun p => [execContainment p.1, execLaunchProcess p.1, execInvalidation p.1] ++ p.2.pool.map fun slot => execMenderSpawn p.1 slot)
    ++ (s.farms.flatMap fun p => [execFarmEnd p.2.ctx p.2.id, farmAcknowledge p.2.ctx p.2.id 0])
    ++ (s.crews.map fun p => execPreemption p.1)
    ++ (s.hives.map fun p => execTokenBlockAppend p.1)
    ++ ((List.range s.orphans.length).map leftStore) ++ [bootStep, execMessageArrival 0, execSwapPairRun, execSwapLineMove false]
    ++ s.cores.map fun p => execClockChangeComplete p.1

/-- The resident hart that follows the last one that moved. -/
def nextHart (s : State) : Option Nat :=
  let rs := s.harts.filter fun p => working s p.1 && p.2.active
  match rs.find? fun p => s.cur < p.1 with
  | some p => some p.1
  | none => rs.head?.map (·.1)

/-- The move of a step without an agenda: an event that is due; else one tick of hub time, then in turn the next hart, its work in flight, the
module. `none` is a hart's turn, with that hart made the executing one. (DESIGN CHOICE, assumption 8) -/
def defaultMove (s : State) : State × Option Out :=
  match firstDue s with
  | some f => (s, some (f s))
  | none =>
  let s := { s with hub := s.hub + 1 }
  match s.hub % 3 with
  | 0 =>
    match nextHart s with
    | some u => ({ s with cur := u }, none)
    | none => (s, some (firstOf (moduleProgress s) s))
  | 1 => (s, some (firstOf (hartProgress s.cur) s))
  | _ => (s, some (firstOf (moduleProgress s) s))

/-- The environment's acts that have no row of their own in the opcode table. -/
def envMove (m : Move) (s : State) : Out :=
  match m with
  | .evictL2 asid line => .next (evictL2 asid line s)
  | .poison line => .next (poison line s)
  | .poisonL1 core asid line => poisonL1 core asid line s
  | .poisonWindow crew dword => poisonWindow crew dword s
  | .markReg h vec r => if (tget s.harts h).isSome then .next (markReg h vec r s) else .refused .notEnabled
  | .markMask h r => if (tget s.harts h).isSome then .next (markMask h r s) else .refused .notEnabled
  | .softError h u => if (s.hart h).place.isSome then .next (u.apply h s) else .refused .notEnabled
  | .dropTlb asid page => .next (dropTlb asid page s)
  | .loseBank h => loseBank h s
  | .runAhead h vec va n pol => runAhead h vec va n pol s
  | .dropAhead h k => dropAhead h k s
  | .lateLoad h k line => lateLoad h k line s
  | .leftStore k => leftStore k s
  | .poisonBuffer c => poisonBuffer c s
  | .stopVector h k => stopVector h k s
  | .engineTick h e n => engineTick h e n s
  | .writeConfig _ _ => writeConfig s
  | .mapTurn => .next (mapTurn s)
  | .disableCore core => disableCore core s
  | .bootStep => bootStep s
  | .clearRetired core group => clearRetired core group s
  | .fencePattern core b => fencePattern core b s
  | .goodFlit l => goodFlit l s
  | .farmAcknowledge c f k => farmAcknowledge c f k s
  | .hostOn m => .next { s with mgmt := { s.mgmt with hostOn := m } }
  | .rootGo c go => if (s.ctx c).rootEvents == [] then .refused .notEnabled else .next (rootGo c go s)
  | .rootFault c => if (s.ctx c).rootEvents == [] then .refused .notEnabled else .next (rootFault c s)
  | .inbound m => .next { s with torus := { s.torus with held := s.torus.held ++ [m] } }
  | .correctable unit place a => if unit.placed place then .next (logError s 1 unit place true a) else .refused .notEnabled
  | .readBar b off => readBar b off s
  | .readConfig off => readConfig off s
  | .readMask core => readMask core s
  | .sendMsix n => sendMsix n s
  | .engineUnit h eng k => engineUnit h eng k s
  | .copyDone h k => copyDone h k s
  | .gatherLine h => gatherLine h s
  | .hostStore a b =>
    match hostStore s a b with
    | some s => .next s
    | none => .refused .notEnabled
  | .hubTime n => passTime n s
  | _ => .refused .notEnabled

/-- Whether a module that has stopped makes a move (R382): its reset (R415), and reads of its registers, whose module status tells of the failure
(R412), of its configuration space and of its error log. (DEDUCED, assumption 71) -/
def Move.whenStopped : Move → Bool
  | .event (.moduleReset _) => true
  | .event (.errorLogRead ..) => true
  | .readBar .. => true
  | .readConfig .. => true
  | _ => false

end Sys2Proof.Machine
end

