-- ==== Sys2Proof/Machine/Capacity.lean ====
section
/-! DEFINITION. What follows every move in the caches: what a level holds beyond its capacity leaves it, which line first being free (spec/01_machine.md
R17, spec/15_translation.md R316), lines of host memory go (spec/24_attach.md R409), and errors at the homes end contexts (spec/18_recovery.md R380). -/

namespace Sys2Proof.Machine

/-- Elements taken out of a list until it is no longer than a capacity, each by a free choice. -/
def evictOver {α : Type} (cap seed : Nat) : Nat → List α → List α
  | 0, l => l
  | n + 1, l => if l.length ≤ cap then l else evictOver cap (seed + 1) n (dropAt (Config.pick seed % l.length) l)

/-- A list cut down, for each key below a bound, to a capacity of elements of that key. -/
def capBy {α : Type} (key : α → Nat) (keys cap seed : Nat) (l : List α) : List α :=
  if l.length ≤ cap then l
  else (List.range keys).flatMap fun k => evictOver cap (seed + 4096 * k) l.length (l.filter fun x => key x == k)

/-- The lines of an L1 of 128 KiB, of an L1 instruction cache of 64 KiB and of an L2 slice of 3 MiB (R17). -/
def l1Lines : Nat := 2048
/-- See `l1Lines`. -/
def l1iLines : Nat := 1024
/-- See `l1Lines`. -/
def sliceLines : Nat := 49152

/-- The lines of a core's L1 beyond its capacity leave it, an update-only one merged (R163, R181): clean and update-only lines share it. -/
def capL1 (s : State) (c : Nat) : State :=
  let l : List (L1Line ⊕ UpdLine) := ((s.l1.filter fun l => l.core == c).map .inl) ++ (s.upd.filter fun u => u.core == c).map .inr
  if l.length ≤ l1Lines then s
  else
    let keep := evictOver l1Lines (s.fresh + 4096 * c) l.length l
    let ups := keep.filterMap Sum.getRight?
    (s.upd.filter fun u => u.core == c && !ups.contains u).foldl mergeCopy
      { s with l1 := (s.l1.filter fun l => l.core != c) ++ keep.filterMap Sum.getLeft? }

/-- The lines of an L2 slice beyond its capacity leave it, written back first: those marked for early eviction before the others (R165). -/
def capSlice (s : State) (n : Nat) : State :=
  let ls := s.l2.filter fun l => sliceOf (64 * l.line) == n
  let excess := ls.length - sliceLines
  let early := ls.filter (·.early)
  let rest := ls.filter fun l => !l.early
  let keep := evictOver (early.length - excess) s.fresh early.length early ++ evictOver (rest.length - (excess - early.length)) s.fresh rest.length rest
  (ls.filter fun l => !keep.contains l).foldl (fun s l => evictL2 l.asid l.line s) s

/-- Every level within its capacity. (DESIGN CHOICE, assumption 85) -/
def capCaches (s : State) : State :=
  let s := if s.l1.length + s.upd.length ≤ l1Lines then s else (List.range 160).foldl capL1 s
  let s := { s with
    l1i := capBy (·.core) 160 l1iLines s.fresh s.l1i
    tlb := capBy (fun t => tlbHome (4096 * t.page)) 30 4096 s.fresh s.tlb, walks := capBy (·.home) 30 256 s.fresh s.walks }
  if s.l2.length ≤ sliceLines then s else (List.range 64).foldl capSlice s

/-- The contexts end whose lines met an uncorrectable error that no requester waits for (R380). -/
def endErrs (s : State) : State :=
  if s.errs = [] then s
  else s.errs.foldl (fun s a =>
    match ownerOf s a with
    | some c => s.modCtx c fun k => { k with containing := true }
    | none => s) { s with errs := [] }

/-- What follows every move: lines of host memory whose access is complete go (R409), every level is within its capacity, errors at the homes
are reported, and a place given to a crew that cannot use it is free (R254). -/
def settleMove (s : State) : State := lapseOwed (endErrs (capCaches (dropHost s)))

end Sys2Proof.Machine
end

