-- ==== Sys2Proof/Machine/Step.lean ====
section
/-! DEFINITION. One step of the module. The head of `agenda` says what moves: a hart's next instruction, a walk's next instruction, an
event of the opcode table, or an act of the environment; without one `defaultMove` chooses. -/

namespace Sys2Proof.Machine

/-- The executing hart's move: nothing while its core's arbiter chooses another hart (R13), else the instruction its fetch gives, executed, and what
follows it. -/
def runHart (s : State) : Host.Outcome State Fault Refusal :=
  if losesTo s s.cur then .next s
  else match hartMove s with
  | .run i t => arbitrate (rivals s) (noteIssue (chargePower (shortNow s) s.me.cycle (clipStall s.me (exec i t))))
  | .stop o => chargePower (shortNow s) s.me.cycle o

/-- One move. -/
def runMove (m : Move) (s : State) : Host.Outcome State Fault Refusal :=
  match m with
  | .hart h => runHart { s with cur := h }
  | .walk h => walkStep { s with cur := h }
  | .event i => if i.isEvent then exec i s else .refused .notEnabled
  | m => envMove m s

/-- An outcome with what follows it in the caches. -/
def capped : Out → Out
  | .next s => .next (settleMove s)
  | o => o

/-- One step. A module whose die-to-die bridge has failed has stopped until its reset (R382): it makes no move of its own. -/
def step (s : State) : Host.Outcome State Fault Refusal :=
  match s.agenda with
  | m :: rest => if s.mgmt.bridgeBad && !m.whenStopped then .fault .moduleStopped else capped (runMove m { s with agenda := rest })
  | [] =>
    if s.mgmt.bridgeBad then .fault .moduleStopped
    else match defaultMove s with
      | (_, some o) => capped o
      | (s, none) => capped (runHart s)

/-- The state with one instruction placed where the next step executes it: `agenda` names the hart or walk that moves next. -/
def State.withFetchWord (s : State) (nbits w : Nat) : State := placeInstr s nbits w

end Sys2Proof.Machine
end

