-- ==== Sys2Proof/Safety.lean ====
section
/-! DEFINITION. The terms in which the claims speak: what a completed step and a safe run are, when an instruction passes the checks
of its issue (spec/03_encoding.md R57), and what it leaves of its hart and of the module. -/

namespace Sys2Proof
open Machine

/-- A step answers a next state. -/
def Completes (s : State) : Prop := ∃ t, step s = .next t

/-- A run of `k` steps neither faults nor meets a move that is not enabled. -/
def SafeRun (k : Nat) (s : State) : Prop := ∃ t, core.run k s = .next t

/-! ## Issue -/

/-- An instruction of a profile passes the checks of R57 that do not depend on its own operands' values, and waits for nothing: a
live hart that lends no lanes, no fence pending before a memory access, the mode its major needs, loop flags only in a replay, its class and
formats declared, nothing that holds it (`State.hold`, `Hart.held`), no read too early under chk, no data error in a source. -/
def canIssue (p : Prof) (s : State) : Bool :=
  s.live && s.me.lentTo.isNone && (p.acc.isNone || (s.me.fences == [])) && (!p.priv || s.me.priv)
    && (match p.hdr with
      | some d => !(d.first || d.last) || s.me.replaying
      | none => true)
    && (p.cls :: p.fmts).all (fun b => s.me.kern.mask.getLsbD b)
    && (s.hold p).isNone && !(s.me.chk && s.me.shortRead p) && !s.me.held p && !s.me.badSource p

/-- The profile of a 32-bit instruction of spec/07_scalar_ops.md: its opcode-use class, the registers it reads and the one it writes. -/
def scalarProf (cls : Nat) (xr xw : List Reg) : Prof := { cls := cls, xr := xr, xw := xw, scalar := true }

/-- The profile of a division (R150, R161): class 1, the divider. -/
def divProf (a b d : Reg) : Prof := { cls := 1, xr := [a, b], xw := [d], scalar := true, unit := some 0 }

/-- The profile of another 32-bit instruction. -/
def shortProf (cls : Nat) (xr xw : List Reg) : Prof := { cls := cls, xr := xr, xw := xw }

/-- The profile of a 32-bit instruction that accesses memory through the scalar agent (R168). -/
def memProf (cls : Nat) (xr xw : List Reg) : Prof := { cls := cls, xr := xr, xw := xw, acc := some false }

/-- The profile of an FPU or FMA instruction of a size (R149): class bit 2, format bit 81 with size 1, and the unit it occupies (R161). -/
def floatProf (z : Bool) (unit : Option Nat) (xr : List Reg) (d : Reg) : Prof :=
  { cls := 2, fmts := if z then [81] else [], xr := xr, xw := [d], scalar := true, unit := unit }

/-! ## Effects -/

/-- A 32-bit instruction retires, and all it does is to write a value to a scalar register. -/
def WritesX (s : State) (d : Reg) (w : Word) (o : Out) : Prop := o = .next (s.setMe (s.me.wx d w).done)

/-- The same, its result a latency of R161 away and a unit at work for as long. -/
def WritesLate (s : State) (unit : Option Nat) (n : Nat) (d : Reg) (w : Word) (o : Out) : Prop :=
  o = .next (s.setMe ({ ((s.me.wx d w).late d n) with busy := (unit.map fun u => (u, s.me.cycle, n)).toList ++ s.me.busy } : Hart).done)

/-- A scalar floating-point instruction retires: its result in xd, `n` cycles away (R161), its flags ORed into fflags, its unit at work for an
occupancy. -/
def WritesXF (s : State) (n : Nat) (unit : Option (Nat × Nat)) (d : Reg) (r : Nat × Fl) (o : Out) : Prop :=
  o = .next (s.setMe ({ ((s.me.wx d (BitVec.ofNat 64 r.1)).late d n) with
    fflags := s.me.fflags ||| r.2
    busy := (3, s.me.cycle, n) :: (unit.map fun u => (u.1, s.me.cycle, u.2)).toList ++ s.me.busy } : Hart).done)

/-- A 32-bit instruction retires with a register write and the hart goes on at an address after some bubbles. -/
def JumpsTo (s : State) (d : Reg) (w pc : Word) (bubbles : Nat) (o : Out) : Prop :=
  o = .next (s.setMe ((s.me.wx d w).goto pc bubbles))

/-- A scalar load of `n` bytes at the address of R192, when its access succeeds: the value, extended, in xd, awaited unless xd is x0. -/
def LoadsX (n : Nat) (signed : Bool) (s : State) (d a : Reg) (i : BitVec 15) (o : Out) : Prop :=
  ∀ t b, loadAcc s s.cur false 0 (scalarAddr s.me a i) n n = .ok t b →
    let w : Word := if signed then BitVec.ofInt 64 (sint (8 * n) (natOf b)) else BitVec.ofNat 64 (natOf b)
    let va := scalarAddr s.me a i
    let late : Late := { vec := false, asid := asidOf t.me.aspace, x := some (d, n, signed, va) }
    o = .next (t.setMe (((t.me.accessed false [(va, n)]).wx d w).awaitX d (beyondL1 s 0 va) (some late)).done)

/-- A scalar store of the low `n` bytes of a register, when its access succeeds. -/
def StoresX (n : Nat) (s : State) (r a : Reg) (i : BitVec 15) (o : Out) : Prop :=
  ∀ t, storeAcc s s.cur false 0 (scalarAddr s.me a i) (bytesOf n (s.me.rx r).toNat) n = .ok t () → o = .next (t.setMe (t.me.accessed false [(scalarAddr s.me a i, n)]).done)

/-- An atomic of `n` bytes at xa, when its access succeeds: the old value, sign-extended, in xd. -/
def AtomicX (n : Nat) (s : State) (d a : Reg) (f : Nat → Nat) (o : Out) : Prop :=
  ∀ t old, atomicAcc s s.cur false (s.me.rx a).toNat n f = .ok t old →
    let va := (s.me.rx a).toNat
    o = .next (t.setMe (((t.me.accessed false [(va, n)]).wx d (BitVec.ofInt 64 (sint (8 * n) old))).awaitX d (!inWindow va) none).done)

/-- A hart differs from another in no register but those listed, in the flags only when they may change, and beside these only in
vresume and what tracks results in flight, data errors and cycles. -/
structure HartFrame (xs : List Reg) (vs : List VR) (ms : List MR) (flags : Bool) (h g : Hart) : Prop where
  x : ∀ r, r ∉ xs → g.rx r = h.rx r
  v : ∀ r, r ∉ vs → g.rv r = h.rv r
  m : ∀ r, r ∉ ms → g.rm r = h.rm r
  fflags : flags = false → g.fflags = h.fflags
  rest : { g with x := h.x, v := h.v, m := h.m, fflags := h.fflags, xBad := h.xBad, vBad := h.vBad, mBad := h.mBad, marks := h.marks
                  inflight := h.inflight, inflightM := h.inflightM, landing := h.landing, ahead := h.ahead, xlat := h.xlat, busy := h.busy
                  sc := h.sc, cycle := h.cycle
                  vresume := h.vresume } = h

/-- A long instruction retires, having changed its hart within a frame; outside its hart nothing changes. -/
def RetiresLong (hd : Hdr) (s : State) (o : Out) (P : Hart → Prop) : Prop := ∃ g, P g ∧ o = .next (s.setMe (g.doneL hd))

/-- An elementwise instruction (R100): its class, the formats its first source may have, its latency and its operation on a
sub-element; when its checks and tag checks pass it retires with the frame of R31 over the operation. -/
def ElementwiseX (cls : Nat) (accept : Fmt → Bool) (lat : Fmt → Machine.Lat) (op : SubOp) (hd : Hdr) (m : Option MR) (d a : VR) (b : Option Src)
    (c : Option VR) (s : State) (o : Out) : Prop :=
  canIssue (ewProf cls hd m s.me (opRegs (s.me.fmt a) d) a b c) s = true → ewFmt accept (some d) a b c s = true →
    let h := s.me
    let f := (h.fmt a).getD .i32
    let y := (b.map (h.src true f)).getD (.imm 0, 0)
    o = .next (s.setMe (((h.frame (lat f) (h.emask m) d (h.rv a).tag f.pair y.2 fun e =>
      pack f.width fun j => op f h.frm ((h.opd true a).sub f.width e j) (y.1.sub f.width e j) (subOpt (c.map (h.opd true)) f.width e j)).atWork (cls != 11 || (b.map adopts).getD false) ((lat f).span h.chime)).doneL hd))

/-- A comparison (R109): one mask bit per element, the conjunction of a relation over its sub-elements. -/
def CompareX (rel : Fmt → Nat → Nat → Bool × Fl) (hd : Hdr) (m : Option MR) (d : MR) (a : VR) (b : Src) (s : State) (o : Out) : Prop :=
  canIssue { (ewProf 13 hd m s.me [] a (some b) none) with mw := [d] } s = true →
    ewFmt (fun f => f.isInt || f.isArith || f.isFixed) none a (some b) none s = true →
    let h := s.me
    let f := (h.fmt a).getD .i32
    let y := h.src true f b
    o = .next (s.setMe (((h.frameM (.fixed 2 4) (h.emask m) d h.vresume y.2 fun e =>
      allSubs f.width fun j => rel f ((h.opd true a).sub f.width e j) (y.1.sub f.width e j)).atWork true (h.chime + 4)).doneL hd))

/-- A mask operation (R110): bit e of the result from the source masks. -/
def MaskX (src : List MR) (op : Nat → Bool) (hd : Hdr) (m : Option MR) (d : MR) (s : State) (o : Out) : Prop :=
  canIssue { cls := 13, hdr := some hd, mr := m.toList ++ src, mw := [d] } s = true →
    o = .next (s.setMe (((s.me.frameM (.fixed 1 2) (s.me.emask m) d 0 0 fun e => (op e, 0)).occupy 1).doneL hd))

/-- A long instruction whose checks pass retires, changing no more of its hart than some registers; nothing outside its hart changes. -/
def RegistersOnly (p : Prof) (ok : State → Bool) (hd : Hdr) (xs : List Reg) (vs : List VR) (ms : List MR) (flags : Bool) (s : State) (o : Out) : Prop :=
  canIssue p s = true → ok s = true → RetiresLong hd s o (HartFrame xs vs ms flags s.me)

/-- A vector load whose requests find room (R191) and whose accesses all succeed: the destination's slots are `loadReg`'s, the residency mask `loadMask`'s, and no other
register changes. -/
def LoadsV (hd : Hdr) (m : Option MR) (d : VR) (c : LdCtl) (xr : List Reg) (vi : Option VR) (whole : Bool) (w n start len u : Nat) (addr : Nat → Nat)
    (ok : State → Bool) (s : State) (o : Out) : Prop :=
  canIssue (loadProf hd m d c xr vi.toList) s = true → ok s = true →
    let act := activeAt (s.me.emask m)
    let es := activeBetween start n act
    roomFor s (elemLines addr len es).length = true →
    ∀ t vals, loadElems s.cur c.pol.val len u c.rmask.isSome addr act (n - start) start (s.modMe (wholeLines whole addr len es)) [] = .done t vals →
      RetiresLong hd t o fun g => HartFrame [] (if tagPair c.tag then [d, vplus d 1] else [d]) c.rmask.toList false t.me g
        ∧ (start < n → (tagPair c.tag = false → g.rv d = loadReg (t.me.rv d) ((t.me.rv d).tag == c.tag) c.tag w n start n 0 act vals)
          ∧ ∀ r, c.rmask = some r → g.rm r = loadMask (t.me.rm r) w n start n act vals)

/-- A vector store or update whose requests find room and whose accesses all succeed changes no register; the parts of a contiguous store (`whole`) in one line become one
store (R172). -/
def StoresV (hd : Hdr) (m : Option MR) (p : Prof) (whole red : Bool) (len : Nat) (addr : Nat → Nat) (ok : State → Bool)
    (acc : State → Nat → Acc Unit) (s : State) (o : Out) : Prop :=
  canIssue p s = true → ok s = true →
    roomFor s (storeRoom whole red len addr (activeBetween s.me.vresume s.me.vl (activeAt (s.me.emask m)))) = true →
    ∀ t, storeElems acc (activeAt (s.me.emask m)) (s.me.vl - s.me.vresume) s.me.vresume s = .done t →
      RetiresLong hd t o (HartFrame [] [] [] false (if whole then joinNew s.me.stores.length t.me else t.me))

/-- An instruction retires: a next state in which the hart has retired one more instruction and, outside a loop replay, stands `n` bytes on. -/
def Retires (n : Nat) (s : State) (o : Out) : Prop :=
  ∃ t, o = .next t ∧ t.me.retired = (s.me.retired + 1) % 2 ^ 64 ∧ (s.me.replaying = false → t.me.pc = s.me.pc + BitVec.ofNat 64 n)

/-- The accesses of the active elements of a vector memory instruction from vresume up, `len` bytes aligned to `u` each, lie inside the crew's
window allocation, in doublewords without an uncorrectable error. -/
def InWindow (s : State) (m : Option MR) (n start len u : Nat) (addr : Nat → Nat) : Prop :=
  storeAsleep s s.me.crew = false ∧ ∀ e, start ≤ e → e < n → activeAt (s.me.emask m) e = true →
    inWindow (addr e) = true ∧ addr e % u = 0 ∧ addr e - winBase + len ≤ winSizeOf s s.me ∧ winBad s s.me.crew (addr e - winBase) len = false
      ∧ winBefore s.me (addr e - winBase) len = false

/-- An operation apart from the window bytes its walk yields to later stores of its hart. -/
def bareOp (o : EngOp) : EngOp :=
  match o.kind with
  | .walk w => { o with kind := .walk { w with yields := [] } }
  | _ => o

/-- The running walk of the executing hart: the operation at the head of engine 3 whose program is resident (R295). -/
def runningWalk (s : State) : Option (EngOp × Walk) :=
  match headOp s.me 3 with
  | some o =>
    match o.kind with
    | .walk w => if w.loaded && working s s.cur then some (o, w) else none
    | _ => none
  | none => none

/-- A walker instruction completes: the walk goes on at a word with one more instruction counted. -/
def WalkGoes (s : State) (o : EngOp) (w : Walk) (pc : Nat) (r : Out) : Prop :=
  r = .next (setOp s s.cur { o with kind := .walk { w with pc := pc, count := w.count + 1, key := 0 }, watch := 0 })

/-- A host's write to a window reaches the module: a link is up, the module is ready, and the IDE-required bit is met (R338, R410). -/
def hostReady (s : State) : Bool := s.mgmt.linkUp.any id && s.mgmt.ready && !offStream s

/-- A management command is accepted: firmware runs, the module is not in recovery, and the session is authenticated (R415, R417, R339). -/
def managed (s : State) : Bool := s.mgmt.session && !s.mgmt.recovery && s.mgmt.boot.isNone

/-- A state with the answer 1 put among the module's replies. -/
def accepted (t : State) : State := { t with mgmt := { t.mgmt with replies := t.mgmt.replies ++ [[1]] } }

/-- The operation an engine works on for a hart does its remaining units without failing, and is then complete. -/
def unitsDone (s : State) (u n : Nat) (o q : EngOp) (t : State) : Prop := engHead s u n = some o ∧ runAll s u o = .done t q

/-- The node `i` of level `k` of an addition tree over positions (R95): an absent operand passes the other through. -/
def treeNode (add : Nat → Nat → Nat) (pos : Nat → Option Nat) : Nat → Nat → Option Nat
  | 0, i => pos i
  | k + 1, i => match treeNode add pos k (2 * i), treeNode add pos k (2 * i + 1) with
    | some x, some y => some (add x y)
    | none, y => y
    | x, none => x

/-- Everything outside the executing hart is as before. -/
def OnlyMe (s t : State) : Prop := { t with harts := s.harts } = s ∧ ∀ u, u ≠ s.cur → tget t.harts u = tget s.harts u

/-- Memory below the caches reads the same at every address. -/
def SameMem (s t : State) : Prop := ∀ a, memGet t.mem a = memGet s.mem a

end Sys2Proof
end

