-- ==== Sys2Proof/Certificates/Slice0/Obligations.lean ====
section
/-! DEFINITION. The statements for the provers: `Obligations.<Name> : Prop`, each with the rule of spec/ it formalises. -/

open Sys2Proof Sys2Proof.Machine

/-! ## Scalar instructions (spec/07_scalar_ops.md) -/

/-- R28: x0 reads as zero and discards a write; any other register reads what was last written to it, and no other register changes. -/
def Obligations.ScalarRegisterReadAfterWrite : Prop := ∀ (h : Hart) (d r : Reg) (w : Word),
  h.rx 0 = 0 ∧ h.wx 0 w = h ∧ (d ≠ 0 → (h.wx d w).rx d = w) ∧ (r ≠ d → (h.wx d w).rx r = h.rx r)

/-- R148, R150: the two-source ALU functions outside multiplication and division complete and write xd; a completion
statement for ADD, SUB, AND, OR, XOR, SLL, SRL, SRA, SLT, SLTU, MIN, MAX, MINU, MAXU. -/
def Claim.AluRegisterResults : Prop := ∀ (s : State) (d a b : Reg), canIssue (scalarProf 0 [a, b] [d]) s = true →
  let x := s.me.rx a
  let y := s.me.rx b
  WritesX s d (x + y) (exec (.add d a b) s) ∧ WritesX s d (x - y) (exec (.sub d a b) s) ∧ WritesX s d (x &&& y) (exec (.and d a b) s)
    ∧ WritesX s d (x ||| y) (exec (.or d a b) s) ∧ WritesX s d (x ^^^ y) (exec (.xor d a b) s)
    ∧ WritesX s d (x <<< (y.toNat % 64)) (exec (.sll d a b) s) ∧ WritesX s d (x >>> (y.toNat % 64)) (exec (.srl d a b) s)
    ∧ WritesX s d (x.sshiftRight (y.toNat % 64)) (exec (.sra d a b) s)
    ∧ WritesX s d (if x.toInt < y.toInt then 1 else 0) (exec (.slt d a b) s)
    ∧ WritesX s d (if x.toNat < y.toNat then 1 else 0) (exec (.sltu d a b) s)
    ∧ WritesX s d (BitVec.ofInt 64 (min x.toInt y.toInt)) (exec (.min d a b) s)
    ∧ WritesX s d (BitVec.ofInt 64 (max x.toInt y.toInt)) (exec (.max d a b) s)
    ∧ WritesX s d (BitVec.ofNat 64 (min x.toNat y.toNat)) (exec (.minu d a b) s)
    ∧ WritesX s d (BitVec.ofNat 64 (max x.toNat y.toNat)) (exec (.maxu d a b) s)

/-- R150: CLZ, CTZ and POPC write the number of leading zero bits, of trailing zero bits (64 for zero) and of set bits. -/
def Claim.BitCountResults : Prop := ∀ (s : State) (d a : Reg), canIssue (scalarProf 0 [a] [d]) s = true →
  let x := s.me.rx a
  (∃ n, n ≤ 64 ∧ WritesX s d (BitVec.ofNat 64 n) (exec (.clz d a) s) ∧ x.toNat < 2 ^ (64 - n) ∧ (n < 64 → 2 ^ (63 - n) ≤ x.toNat))
    ∧ (∃ n, n ≤ 64 ∧ WritesX s d (BitVec.ofNat 64 n) (exec (.ctz d a) s) ∧ 2 ^ n ∣ x.toNat ∧ (n < 64 → x.getLsbD n = true) ∧ (n = 64 → x = 0))
    ∧ WritesX s d (BitVec.ofNat 64 ((List.range 64).countP fun i => x.getLsbD i)) (exec (.popc d a) s)

/-- R150, R161: the multiplication functions write the low or the high half of the exact product, 3 and 4 cycles away. -/
def Claim.MultiplyResults : Prop := ∀ (s : State) (d a b : Reg), canIssue (scalarProf 1 [a, b] [d]) s = true →
  let x := s.me.rx a
  let y := s.me.rx b
  WritesLate s none 3 d (BitVec.ofNat 64 (x.toNat * y.toNat)) (exec (.mul d a b) s)
    ∧ WritesLate s none 4 d (BitVec.ofInt 64 ((x.toInt * y.toInt).fdiv (2 ^ 64 : Nat))) (exec (.mulh d a b) s)
    ∧ WritesLate s none 4 d (BitVec.ofNat 64 (x.toNat * y.toNat / 2 ^ 64)) (exec (.mulhu d a b) s)

/-- R151, R161: DIV, DIVU, REM and REMU complete on every pair of operands: q and r with xa = q × xb + r, |r| < |xb| and r of the sign of
the dividend when xb ≠ 0 and the quotient fits; all ones and xa when xb = 0; −2^63 and 0 for −2^63 by −1. The divider is at work for 6 cycles
and one more for each two bits of the quotient's magnitude. -/
def Claim.DivideResults : Prop := ∀ (s : State) (d a b : Reg), canIssue (divProf a b d) s = true →
  let x := s.me.rx a
  let y := s.me.rx b
  ∃ q r qu ru : Word, WritesLate s (some 0) (divTimeS x y) d q (exec (.div d a b) s) ∧ WritesLate s (some 0) (divTimeS x y) d r (exec (.rem d a b) s)
    ∧ WritesLate s (some 0) (divTimeU x y) d qu (exec (.divu d a b) s) ∧ WritesLate s (some 0) (divTimeU x y) d ru (exec (.remu d a b) s)
    ∧ (y = 0 → q = BitVec.allOnes 64 ∧ r = x ∧ qu = BitVec.allOnes 64 ∧ ru = x)
    ∧ (x = BitVec.intMin 64 → y = BitVec.allOnes 64 → q = BitVec.intMin 64 ∧ r = 0)
    ∧ (y ≠ 0 → ¬ (x = BitVec.intMin 64 ∧ y = BitVec.allOnes 64) →
        x.toInt = q.toInt * y.toInt + r.toInt ∧ r.toInt.natAbs < y.toInt.natAbs ∧ (r.toInt < 0 → x.toInt < 0) ∧ (0 < r.toInt → 0 < x.toInt))
    ∧ (y ≠ 0 → x.toNat = qu.toNat * y.toNat + ru.toNat ∧ ru.toNat < y.toNat)

/-- R150: the words of major 0x01 in layout SR: functions 0 to 23 are the 24 ALU instructions, 24 to 1023 are reserved, and CLZ, CTZ and POPC
require a zero xb. -/
def Claim.AluWords : Prop := ∀ (d a b : Reg) (n : Nat),
  decode32 (packR 1 0 b a d) = .ok (.add d a b) ∧ decode32 (packR 1 1 b a d) = .ok (.sub d a b) ∧ decode32 (packR 1 2 b a d) = .ok (.and d a b)
  ∧ decode32 (packR 1 3 b a d) = .ok (.or d a b) ∧ decode32 (packR 1 4 b a d) = .ok (.xor d a b) ∧ decode32 (packR 1 5 b a d) = .ok (.sll d a b)
  ∧ decode32 (packR 1 6 b a d) = .ok (.srl d a b) ∧ decode32 (packR 1 7 b a d) = .ok (.sra d a b) ∧ decode32 (packR 1 8 b a d) = .ok (.slt d a b)
  ∧ decode32 (packR 1 9 b a d) = .ok (.sltu d a b) ∧ decode32 (packR 1 10 b a d) = .ok (.min d a b) ∧ decode32 (packR 1 11 b a d) = .ok (.max d a b)
  ∧ decode32 (packR 1 12 b a d) = .ok (.minu d a b) ∧ decode32 (packR 1 13 b a d) = .ok (.maxu d a b) ∧ decode32 (packR 1 14 b a d) = .ok (.mul d a b)
  ∧ decode32 (packR 1 15 b a d) = .ok (.mulh d a b) ∧ decode32 (packR 1 16 b a d) = .ok (.mulhu d a b) ∧ decode32 (packR 1 17 b a d) = .ok (.div d a b)
  ∧ decode32 (packR 1 18 b a d) = .ok (.divu d a b) ∧ decode32 (packR 1 19 b a d) = .ok (.rem d a b) ∧ decode32 (packR 1 20 b a d) = .ok (.remu d a b)
  ∧ decode32 (packR 1 21 0 a d) = .ok (.clz d a) ∧ decode32 (packR 1 22 0 a d) = .ok (.ctz d a) ∧ decode32 (packR 1 23 0 a d) = .ok (.popc d a)
  ∧ (b ≠ 0 → 21 ≤ n → n < 24 → decode32 (packR 1 n b a d) = .error (.reservedField false))
  ∧ (24 ≤ n → n < 1024 → decode32 (packR 1 n b a d) = .error (.reservedField false))

/-- The ALU instructions complete with their results on every operand (all of the claims named). -/
def Obligations.AluResults : Prop := Claim.AluRegisterResults ∧ Claim.BitCountResults ∧ Claim.MultiplyResults ∧ Claim.DivideResults ∧ Claim.AluWords

/-- R152, R153, R154: the immediate instructions apply the register operation to the sign-extended immediate or to the amount;
LIU and ADDPC write u = 4096 × imm20 alone and added to the instruction's address. Majors 0x02 to 0x07 in layout SI are ADDI, ANDI, ORI,
XORI, SLTI and SLTIU; major 0x08 selects its shift by imm15[7:6], 3 and a non-zero imm15[14:8] being reserved; majors 0x09 and 0x0A in layout SU are
LIU and ADDPC. -/
def Obligations.ImmediateResults : Prop := ∀ (s : State) (d a : Reg) (i : BitVec 15) (n : BitVec 6) (u : BitVec 20),
  (canIssue (scalarProf 0 [a] [d]) s = true →
    let x := s.me.rx a
    let y : Word := BitVec.ofInt 64 i.toInt
    WritesX s d (x + y) (exec (.addi d a i) s) ∧ WritesX s d (x &&& y) (exec (.andi d a i) s) ∧ WritesX s d (x ||| y) (exec (.ori d a i) s)
      ∧ WritesX s d (x ^^^ y) (exec (.xori d a i) s) ∧ WritesX s d (if x.toInt < y.toInt then 1 else 0) (exec (.slti d a i) s)
      ∧ WritesX s d (if x.toNat < y.toNat then 1 else 0) (exec (.sltiu d a i) s)
      ∧ WritesX s d (x <<< n.toNat) (exec (.slli d a n) s) ∧ WritesX s d (x >>> n.toNat) (exec (.srli d a n) s)
      ∧ WritesX s d (x.sshiftRight n.toNat) (exec (.srai d a n) s))
    ∧ (canIssue (scalarProf 0 [] [d]) s = true → WritesX s d (BitVec.ofInt 64 (u.toInt * 4096)) (exec (.liu d u) s)
      ∧ WritesX s d (s.me.pc + BitVec.ofInt 64 (u.toInt * 4096)) (exec (.addpc d u) s))
    ∧ decode32 (packI 2 i a d) = .ok (.addi d a i) ∧ decode32 (packI 3 i a d) = .ok (.andi d a i) ∧ decode32 (packI 4 i a d) = .ok (.ori d a i)
    ∧ decode32 (packI 5 i a d) = .ok (.xori d a i) ∧ decode32 (packI 6 i a d) = .ok (.slti d a i) ∧ decode32 (packI 7 i a d) = .ok (.sltiu d a i)
    ∧ (i.toNat / 64 = 0 → decode32 (packI 8 i a d) = .ok (.slli d a (BitVec.ofNat 6 i.toNat)))
    ∧ (i.toNat / 64 = 1 → decode32 (packI 8 i a d) = .ok (.srli d a (BitVec.ofNat 6 i.toNat)))
    ∧ (i.toNat / 64 = 2 → decode32 (packI 8 i a d) = .ok (.srai d a (BitVec.ofNat 6 i.toNat)))
    ∧ (3 ≤ i.toNat / 64 → decode32 (packI 8 i a d) = .error (.reservedField false))
    ∧ decode32 (packU 9 u d) = .ok (.liu d u) ∧ decode32 (packU 10 u d) = .ok (.addpc d u)

/-- R155, R156, R158, R161: FADD, FSUB, FMUL, FDIV, FSQRT, FMIN, FMAX and the four fused operations of either size complete on every
pair of operands, round by frm, write the result and OR its flags into fflags; an FP32 operand is the low half of its register. The numbers
are the latency, and for FDIV and FSQRT the unit's occupancy. -/
def Claim.ScalarFloatResults : Prop := ∀ (s : State) (z : Bool) (d a b c : Reg),
  let f : FF := if z then .f64 else .f32
  let p (r : Reg) : Nat := if z then (s.me.rx r).toNat else (s.me.rx r).toNat % 2 ^ 32
  let m := s.me.frm
  let k (a b : Nat) : Nat := if z then b else a
  (canIssue (floatProf z none [a, b] d) s = true →
    let run (r : Nat × Fl) (o : Out) : Prop := WritesXF s (k 4 5) none d r o
    run (f.add m (p a) (p b)) (exec (.fadd z d a b) s) ∧ run (f.sub m (p a) (p b)) (exec (.fsub z d a b) s)
      ∧ run (f.mul m (p a) (p b)) (exec (.fmul z d a b) s)
      ∧ run (f.minmax false (p a) (p b)) (exec (.fmin z d a b) s) ∧ run (f.minmax true (p a) (p b)) (exec (.fmax z d a b) s))
    ∧ (canIssue (floatProf z (some 1) [a, b] d) s = true → WritesXF s (k 14 24) (some (1, k 12 22)) d (f.div m (p a) (p b)) (exec (.fdiv z d a b) s))
    ∧ (canIssue (floatProf z (some 2) [a] d) s = true → WritesXF s (k 16 28) (some (2, k 14 26)) d (f.sqrt m (p a)) (exec (.fsqrt z d a) s))
    ∧ (canIssue (floatProf z none [a, b, c] d) s = true →
      let run (np nc : Bool) (o : Out) : Prop := WritesXF s (k 5 6) none d (f.fma m np nc (p a) (p b) (p c)) o
      run false false (exec (.fma z d a b c) s) ∧ run false true (exec (.fms z d a b c) s) ∧ run true true (exec (.fnma z d a b c) s)
        ∧ run true false (exec (.fnms z d a b c) s))

/-- R157, R158, R155, R161: the conversions, comparisons, FCLASS and FMVX complete on every operand. A comparison writes 1 where its relation holds and
0 otherwise, a NaN making it false; EQ raises NV for a signalling NaN alone, LT and LE for any. A conversion to an integer rounds by frm and clamps:
0 and NV for a NaN, NV for an infinite or clamped source, else NX when inexact; the other conversions put the exact value into the target.
FCLASS sets one bit of ten and no flag, FMVX gives the bits. -/
def Claim.ScalarFloatMoves : Prop := ∀ (s : State) (z : Bool) (d a b : Reg),
  let f : FF := if z then .f64 else .f32
  let p (r : Reg) : Nat := if z then (s.me.rx r).toNat else (s.me.rx r).toNat % 2 ^ 32
  let run (n : Nat) (r : Nat × Fl) (o : Out) : Prop := WritesXF s n none d r o
  let toInt (lo hi : Int) (v : FVal) : Nat × Fl := match v with
    | .nan _ => (0, NV)
    | .inf neg => (wrapNat 64 (if neg then lo else hi), NV)
    | .fin c =>
      let q := quantize s.me.frm c.neg c.m c.e 0
      let i : Int := if c.neg then -(q.1 : Int) else q.1
      if i < lo then (wrapNat 64 lo, NV) else if hi < i then (wrapNat 64 hi, NV) else (wrapNat 64 i, if q.2 then NX else 0)
  (canIssue (floatProf z none [a, b] d) s = true →
    let x := f.read (p a)
    let y := f.read (p b)
    let nan := x.isNan || y.isNan
    let nv : Fl := if nan then NV else 0
    run 2 ((!nan && x.eq y).toNat, x.sig ||| y.sig) (exec (.fcmpEq z d a b) s) ∧ run 2 ((!nan && x.lt y).toNat, nv) (exec (.fcmpLt z d a b) s)
      ∧ run 2 ((!nan && (x.lt y || x.eq y)).toNat, nv) (exec (.fcmpLe z d a b) s))
    ∧ (canIssue (floatProf z none [a] d) s = true →
      (∃ k, k < 10 ∧ run 1 (2 ^ k, 0) (exec (.fclass z d a) s)) ∧ run 1 (p a, 0) (exec (.fmvx z d a) s)
        ∧ run 3 (f.put s.me.frm false (if z then FF.f32.read ((s.me.rx a).toNat % 2 ^ 32) else FF.f64.read (s.me.rx a).toNat)) (exec (.fcvtFloat z d a) s)
        ∧ run 3 (toInt (-((2 ^ 63 : Nat) : Int)) (((2 ^ 63 : Nat) : Int) - 1) (f.read (p a))) (exec (.fcvtToInt64 z d a) s)
        ∧ run 3 (toInt 0 (((2 ^ 64 : Nat) : Int) - 1) (f.read (p a))) (exec (.fcvtToUint64 z d a) s)
        ∧ run 3 (f.put s.me.frm false (intVal (s.me.rx a).toInt 0)) (exec (.fcvtFromInt64 z d a) s)
        ∧ run 3 (f.put s.me.frm false (intVal (s.me.rx a).toNat 0)) (exec (.fcvtFromUint64 z d a) s))

/-- Scalar floating-point instructions complete on every operand (all of the claims named). -/
def Obligations.ScalarFloat : Prop := Claim.ScalarFloatResults ∧ Claim.ScalarFloatMoves

/-- R148: what `WritesX`, `WritesLate` and `WritesXF` leave alone. The integer and float instructions of chapter 07 that write xd leave every other
scalar register, every vector and mask register, vl, the flags (of an integer instruction), memory and every other hart as they
were; the pc advances by 4. -/
def Obligations.ScalarFrame : Prop := ∀ (s t : State) (d : Reg) (w : Word) (r : Nat × Fl) (n : Nat) (u : Option Nat) (v : Option (Nat × Nat)),
  (WritesX s d w (.next t) ∨ WritesLate s u n d w (.next t) → t.me.fflags = s.me.fflags) ∧
  (WritesX s d w (.next t) ∨ WritesLate s u n d w (.next t) ∨ WritesXF s n v d r (.next t) →
    OnlyMe s t ∧ SameMem s t ∧ t.me.pc = s.me.pc + 4 ∧ (∀ q, q ≠ d → t.me.rx q = s.me.rx q) ∧ t.me.v = s.me.v ∧ t.me.m = s.me.m
      ∧ t.me.vl = s.me.vl ∧ t.me.frm = s.me.frm ∧ t.me.chk = s.me.chk ∧ t.me.lpstate = s.me.lpstate ∧ t.me.aspace = s.me.aspace
      ∧ t.me.stores = s.me.stores ∧ t.me.ops = s.me.ops ∧ t.me.mops = s.me.mops)

/-! ## Scalar memory, atomics and fences (spec/09_memory_ops.md, spec/08_ordering.md) -/

/-- R192: each scalar load whose access succeeds completes, with the bytes of its size sign- or zero-extended in xd; the access is the
model's `loadAcc` at the address of R192, aligned to its size. -/
def Claim.ScalarLoadResults : Prop := ∀ (s : State) (d a : Reg) (i : BitVec 15), canIssue (memProf 0 [a] [d]) s = true →
  LoadsX 1 true s d a i (exec (.lb d a i) s) ∧ LoadsX 2 true s d a i (exec (.lh d a i) s) ∧ LoadsX 4 true s d a i (exec (.lw d a i) s)
    ∧ LoadsX 8 true s d a i (exec (.ld d a i) s) ∧ LoadsX 1 false s d a i (exec (.lbu d a i) s)
    ∧ LoadsX 2 false s d a i (exec (.lhu d a i) s) ∧ LoadsX 4 false s d a i (exec (.lwu d a i) s)

/-- R192, R189: each scalar store whose access succeeds completes; the access stores the low bytes of xs, little-endian, at the address
of R192. -/
def Claim.ScalarStoreResults : Prop := ∀ (s : State) (r a : Reg) (i : BitVec 15), canIssue (memProf 0 [r, a] []) s = true →
  StoresX 1 s r a i (exec (.sb r a i) s) ∧ StoresX 2 s r a i (exec (.sh r a i) s) ∧ StoresX 4 s r a i (exec (.sw r a i) s)
    ∧ StoresX 8 s r a i (exec (.sd r a i) s)

/-- Scalar loads and stores complete when their access succeeds (all of the claims named). -/
def Obligations.ScalarLoadsAndStores : Prop := Claim.ScalarLoadResults ∧ Claim.ScalarStoreResults

/-- R26, R27, R189: in the crew window a scalar store inside the allocation, aligned to its size, completes while the quad store is not in
retention; afterwards the stored
bytes read as stored, every other byte of the window reads as before, and memory, every register, flag and other crew are as they
were. -/
def Claim.WindowStoreFrame : Prop := ∀ (s : State) (r a : Reg) (i : BitVec 15), canIssue (memProf 0 [r, a] []) s = true →
  let va := scalarAddr s.me a i
  storeAsleep s s.me.crew = false → Memory.wf (s.crew s.me.crew).win = true → inWindow va = true →
  ∀ n ins, (n = 1 ∧ ins = .sb r a i) ∨ (n = 2 ∧ ins = .sh r a i) ∨ (n = 4 ∧ ins = .sw r a i) ∨ (n = 8 ∧ ins = .sd r a i) →
    va % n = 0 → va - winBase + n ≤ winSizeOf s s.me →
    ∃ t, exec ins s = .next t ∧ t.mem = s.mem ∧ t.me.x = s.me.x ∧ t.me.v = s.me.v ∧ t.me.m = s.me.m ∧ t.me.fflags = s.me.fflags
      ∧ t.me.stores = s.me.stores ∧ (∀ k, k ≠ s.me.crew → t.crew k = s.crew k)
      ∧ (∀ j, j < n → memGet (t.crew s.me.crew).win (va - winBase + j) = BitVec.ofNat 8 ((s.me.rx r).toNat / 256 ^ j))
      ∧ (∀ b, b < va - winBase ∨ va - winBase + n ≤ b → memGet (t.crew s.me.crew).win b = memGet (s.crew s.me.crew).win b)

/-- R27, R189, R380: a scalar load inside the crew's window allocation, aligned to its size, from doublewords without an uncorrectable error,
while the quad store is not in retention, completes whatever the window holds and
changes no byte of the window or of memory; the value is the bytes at the offset, or those its agent has read ahead of them (R174;
assumption 10), little-endian, extended. -/
def Claim.WindowLoadValue : Prop := ∀ (s : State) (d a : Reg) (i : BitVec 15), canIssue (memProf 0 [a] [d]) s = true →
  let va := scalarAddr s.me a i
  inWindow va = true → storeAsleep s s.me.crew = false →
  ∀ n sg ins, (n = 1 ∧ ins = .lb d a i ∧ sg = true) ∨ (n = 2 ∧ ins = .lh d a i ∧ sg = true) ∨ (n = 4 ∧ ins = .lw d a i ∧ sg = true)
      ∨ (n = 8 ∧ ins = .ld d a i ∧ sg = true) ∨ (n = 1 ∧ ins = .lbu d a i ∧ sg = false) ∨ (n = 2 ∧ ins = .lhu d a i ∧ sg = false)
      ∨ (n = 4 ∧ ins = .lwu d a i ∧ sg = false) →
    va % n = 0 → va - winBase + n ≤ winSizeOf s s.me → winBad s s.me.crew (va - winBase) n = false →
    let p := natOf (s.me.early false (asidOf s.me.aspace) va (memRead (s.crew s.me.crew).win (va - winBase) n))
    let v : Word := if sg then BitVec.ofInt 64 (sint (8 * n) p) else BitVec.ofNat 64 p
    ∃ t, exec ins s = .next t ∧ OnlyMe s t ∧ SameMem s t ∧ t.me.pc = s.me.pc + 4 ∧ (d ≠ 0 → t.me.rx d = v)
      ∧ (∀ q, q ≠ d → t.me.rx q = s.me.rx q) ∧ t.me.v = s.me.v ∧ t.me.m = s.me.m ∧ t.me.fflags = s.me.fflags

/-- R170, R174, R189, R315: what an access that succeeds leaves alone. A load changes no hart and no crew; a store, an atomic and a reduction update
change of the accessing hart only its pending stores, its version, the host lines it and its fences await and the window bytes its walks yield to
(assumption 74), and no other hart. A store outside the window of an unversioned strip is last among the hart's pending stores, at the frame and
under the rights that `storeRights` gives it, and nowhere else until it is performed: memory, every L2 line's data and every L1 copy are as that
translation leaves them. -/
def Claim.AccessFrame : Prop := ∀ (s t : State) (u pol va n k : Nat) (vec wide : Bool) (b : List Byte) (f : Nat → Nat) (old : Nat) (op : RedOp) (w : Word),
  let h := s.hart u
  let kept : Prop := (∀ v, v ≠ u → t.hart v = s.hart v)
    ∧ { t.hart u with stores := h.stores, version := h.version, hostLines := h.hostLines, fences := h.fences, ops := h.ops } = h
    ∧ (t.hart u).ops.map bareOp = h.ops.map bareOp ∧ (inWindow va = false → t.crews = s.crews)
  (loadAcc s u vec pol va n k = .ok t b → t.harts = s.harts ∧ t.crews = s.crews)
  ∧ (storeAcc s u vec pol va b k = .ok t () → kept ∧ (inWindow va = false → h.kern.versioned = false →
      ∃ q r f, storeRights (touchSlice s va) h pol va = .ok (q, r, f)
        ∧ (t.hart u).stores = h.stores ++ [{ vec := vec, asid := asidOf h.aspace, va := va, pa := f * 64 + va % 64, bytes := b.map some, rights := r }]
        ∧ t.mem = q.mem ∧ t.l2.map (fun l => (l.asid, l.line, l.data, l.dirty)) = q.l2.map (fun l => (l.asid, l.line, l.data, l.dirty)) ∧ ∀ l ∈ t.l1, l ∈ q.l1))
  ∧ (atomicAcc s u vec va n f = .ok t old → kept) ∧ (redAcc s u vec op wide va w = .ok t () → kept)

/-- R170–R172: a store performed at its home changes, with no update-only copy outstanding and no uncorrectable error in a line to be filled, the
stored bytes of its own line and no other byte of any line the L2 holds; memory below the L2 is as before. -/
def Claim.HomeWriteFrame : Prop := ∀ (s : State) (core asid va pa : Nat) (r : Rights) (b : List (Option Byte)), s.upd = [] → va % 64 + b.length ≤ 64 →
  (∀ l ∈ s.l2, l.data.length = 64) → (l2find s asid (va / 64) = none → isBad s (pa / 64) = false) →
  let t := homeWrite s core asid va pa r b
  t.mem = s.mem ∧ t.harts = s.harts
    ∧ (∀ asid' line, ¬ (asid' = asid ∧ line = va / 64) → l2find t asid' line = l2find s asid' line)
    ∧ ∃ l, l2find t asid (va / 64) = some l ∧ (∀ i x, b[i]? = some (some x) → l.data[va % 64 + i]? = some x)
      ∧ ∀ l0, l2find s asid (va / 64) = some l0 → ∀ i, (i < va % 64 ∨ b.getD (i - va % 64) none = none) → l.data.getD i 0 = l0.data.getD i 0

/-- What memory accesses and the performing of a store leave unchanged (all of the claims named). -/
def Obligations.AccessFrames : Prop := Claim.WindowStoreFrame ∧ Claim.WindowLoadValue ∧ Claim.AccessFrame ∧ Claim.HomeWriteFrame

/-- R188, R189: a scalar access whose address is not a multiple of its size freezes its hart with MISALIGN at that address before
any other check of the access, loads and stores alike. -/
def Obligations.MisalignedScalarAccess : Prop := ∀ (s : State) (d r a : Reg) (i : BitVec 15),
  let va := scalarAddr s.me a i
  let f := stopAt .misalign (BitVec.ofNat 64 va) none s
  (canIssue (memProf 0 [a] [d]) s = true →
    (va % 2 ≠ 0 → exec (.lh d a i) s = f ∧ exec (.lhu d a i) s = f) ∧ (va % 4 ≠ 0 → exec (.lw d a i) s = f ∧ exec (.lwu d a i) s = f)
      ∧ (va % 8 ≠ 0 → exec (.ld d a i) s = f))
    ∧ (canIssue (memProf 0 [r, a] []) s = true →
      (va % 2 ≠ 0 → exec (.sh r a i) s = f) ∧ (va % 4 ≠ 0 → exec (.sw r a i) s = f) ∧ (va % 8 ≠ 0 → exec (.sd r a i) s = f))

/-- R174: a store is forwarded to its agent's later loads before it is performed: a byte the newest pending store of the agent covers
reads as that store's byte, and a byte none of the agent's pending stores or its version covers reads as the caches give it. -/
def Obligations.StoreForwarding : Prop := ∀ (h : Hart) (p : PStore) (asid va : Nat) (vec : Bool) (b : Byte),
  h.version.find? (fun e => e.asid == asid && e.va == va) = none →
  (∀ x, p.asid = asid → p.vec = vec → p.va ≤ va → p.bytes.getD (va - p.va) none = some x →
    forward { h with stores := h.stores ++ [p] } asid vec va b = x)
  ∧ ((∀ q ∈ h.stores, ¬ (q.va ≤ va ∧ va < q.va + q.bytes.length)) → forward h asid vec va b = b)

/-- R203: an AMO or CAS whose access succeeds completes: the update is applied to the old value as one step and xd takes the old
value, sign-extended at 32 bits; `z` is the size. -/
def Claim.AtomicResults : Prop := ∀ (s : State) (z : Bool) (d a b : Reg), canIssue (memProf 3 [a, b, d] [d]) s = true →
  let n := if z then 8 else 4
  let y := (s.me.rx b).toNat % 2 ^ (8 * n)
  let c := (s.me.rx d).toNat % 2 ^ (8 * n)
  AtomicX n s d a (fun x => (x + y) % 2 ^ (8 * n)) (exec (.amoAdd z d a b) s) ∧ AtomicX n s d a (fun x => x &&& y) (exec (.amoAnd z d a b) s)
    ∧ AtomicX n s d a (fun x => x ||| y) (exec (.amoOr z d a b) s) ∧ AtomicX n s d a (fun x => x ^^^ y) (exec (.amoXor z d a b) s)
    ∧ AtomicX n s d a (fun x => if sint (8 * n) x ≤ sint (8 * n) y then x else y) (exec (.amoMin z d a b) s)
    ∧ AtomicX n s d a (fun x => if sint (8 * n) x ≤ sint (8 * n) y then y else x) (exec (.amoMax z d a b) s)
    ∧ AtomicX n s d a (fun x => min x y) (exec (.amoMinu z d a b) s) ∧ AtomicX n s d a (fun x => max x y) (exec (.amoMaxu z d a b) s)
    ∧ AtomicX n s d a (fun _ => y) (exec (.amoSwap z d a b) s) ∧ AtomicX n s d a (fun x => if x = c then y else x) (exec (.cas z d a b) s)

/-- R180, R203: an AMO in the window is one indivisible read and write at its bank: the bytes afterwards are those of the new value
formed from the old ones, every other byte of the window is as before, and memory is untouched. -/
def Claim.WindowAtomicIndivisible : Prop := ∀ (s : State) (vec : Bool) (va n : Nat) (f : Nat → Nat),
  Memory.wf (s.crew s.me.crew).win = true → inWindow va = true → (n = 4 ∨ n = 8) → va % n = 0 → va - winBase + n ≤ winSizeOf s s.me →
  storeAsleep s s.me.crew = false → winBad s s.me.crew (va - winBase) n = false →
  ∃ t, atomicAcc s s.cur vec va n f = .ok t (natOf (memRead (s.crew s.me.crew).win (va - winBase) n)) ∧ t.mem = s.mem
    ∧ t.harts = s.harts ∧ memRead (t.crew s.me.crew).win (va - winBase) n = bytesOf n (f (natOf (memRead (s.crew s.me.crew).win (va - winBase) n)))
    ∧ ∀ b, b < va - winBase ∨ va - winBase + n ≤ b → memGet (t.crew s.me.crew).win b = memGet (s.crew s.me.crew).win b

/-- Atomics complete as one read and write with the old value in xd (all of the claims named). -/
def Obligations.Atomics : Prop := Claim.AtomicResults ∧ Claim.WindowAtomicIndivisible

/-- R204: a RED whose update succeeds completes with no register result. -/
def Obligations.ReductionUpdateResults : Prop := ∀ (s : State) (z : Bool) (a b : Reg), canIssue (memProf 3 [a, b] []) s = true →
  let run (op : RedOp) (z : Bool) (o : Out) : Prop := ∀ t, redAcc s s.cur false op z (s.me.rx a).toNat (s.me.rx b) = .ok t () → o = .next (t.setMe t.me.done)
  run .add z (exec (.redAdd z a b) s) ∧ run .min z (exec (.redMin z a b) s) ∧ run .max z (exec (.redMax z a b) s)
    ∧ run .and z (exec (.redAnd z a b) s) ∧ run .or z (exec (.redOr z a b) s) ∧ run .xor z (exec (.redXor z a b) s)
    ∧ run .fadd false (exec (.redFadd a b) s)

/-- R177, R178, R206: a fence completes at once. Where its agents' stores can be performed at its scope (at .s, with no host acknowledgement
awaited), then none of the fenced agents' stores is pending at scope .q or wider, and the clean L1 lines of the core are gone; where they
cannot yet, the hart holds a fence for the later accesses of its kind. -/
def Claim.FenceCompletes : Prop := ∀ (s : State) (sc : Fin 4), canIssue (shortProf 4 [] []) s = true →
  let run (scalar vector ys yv : Bool) (o : Out) : Prop :=
    let waits : Prop := drainWaits s s.cur (agentStores scalar vector) = true ∨ (sc = 3 ∧ (performAt s s.cur 3 scalar vector ys yv).me.hostLines ≠ [])
    ∃ t, o = .next t ∧ t.me.pc = s.me.pc + 4 ∧ t.me.x = s.me.x ∧ t.me.v = s.me.v ∧ t.me.m = s.me.m ∧ t.me.fflags = s.me.fflags
      ∧ (1 ≤ sc.val → ¬ waits → (∀ p ∈ t.me.stores, (p.vec = true → vector = false) ∧ (p.vec = false → scalar = false)) ∧ ∀ l ∈ t.l1, l.core ≠ s.me.core)
      ∧ (1 ≤ sc.val → waits → ∃ f, t.me.fences.getLast? = some f ∧ f.scalar = ys ∧ f.vector = yv ∧ f.scope = sc.val)
      ∧ (sc = 0 → ∀ p ∈ t.me.stores, (p.vec = true → vector = true → ys = true → p.hvis = true) ∧ (p.vec = false → scalar = true → yv = true → p.hvis = true))
  run true false false true (exec (.fncSv sc) s) ∧ run false true true false (exec (.fncVs sc) s) ∧ run false true false true (exec (.fncVv sc) s)
    ∧ run true true true true (exec (.fncAa sc) s)

/-- R207: CFLUSH and CINV complete for an address whose line no engine owns and whose earlier stores of the hart may be performed, change no register and advance the pc; after a CINV
outside the window no cache holds the line under the hart's ASID. -/
def Claim.CacheOperationsComplete : Prop := ∀ (s : State) (a : Reg), canIssue (memProf 4 [a] []) s = true →
  let va := (s.me.rx a).toNat
  let asid := asidOf s.me.aspace
  (inWindow va = true ∨ isOwned s asid (va / 64) = false
    ∧ drainWaits s s.cur (fun p => p.asid == asid && p.va / 64 == va / 64 && (!p.vec || p.hvis)) = false) →
  (∃ t, exec (.cflush a) s = .next t ∧ t.me.pc = s.me.pc + 4 ∧ t.me.x = s.me.x ∧ t.me.v = s.me.v ∧ t.me.m = s.me.m)
    ∧ ∃ t, exec (.cinv a) s = .next t ∧ t.me.pc = s.me.pc + 4 ∧ t.me.x = s.me.x ∧ t.me.v = s.me.v ∧ t.me.m = s.me.m
      ∧ (inWindow va = false → l2find t asid (va / 64) = none ∧ ∀ l ∈ t.l1, ¬ (l.asid = asid ∧ l.line = va / 64))

/-- Fences and cache operations complete (all of the claims named). -/
def Obligations.FencesAndCacheOperations : Prop := Claim.FenceCompletes ∧ Claim.CacheOperationsComplete

/-! ## Control flow, CSRs, barriers and the sequencer (spec/12_control_ops.md) -/

/-- R271: a branch completes at pc + 4·d when its condition holds and at pc + 4 otherwise; JAL and JALR write the link pc + 4 and go to
their targets, JALR reading xa before it writes xd; a JALR to an address that is not a multiple of 4 freezes with MISALIGN before any
effect. Majors 0x20 to 0x25 in layout SB are the branches, 0x26 in layout SJ JAL, 0x27 in layout SI JALR. -/
def Obligations.TransferTargets : Prop := ∀ (s : State) (d a b : Reg) (off : BitVec 15) (far : BitVec 20) (i : BitVec 15),
  let x := s.me.rx a
  let y := s.me.rx b
  let goes (p : Prop) [Decidable p] (o : Out) : Prop :=
    if p then JumpsTo s 0 0 (s.me.pc + BitVec.ofInt 64 (4 * off.toInt)) 2 o else JumpsTo s 0 0 (s.me.pc + 4) 0 o
  (canIssue (shortProf 0 [a, b] []) s = true →
    goes (x = y) (exec (.beq a b off) s) ∧ goes (x ≠ y) (exec (.bne a b off) s) ∧ goes (x.toInt < y.toInt) (exec (.blt a b off) s)
      ∧ goes (y.toInt ≤ x.toInt) (exec (.bge a b off) s) ∧ goes (x.toNat < y.toNat) (exec (.bltu a b off) s)
      ∧ goes (y.toNat ≤ x.toNat) (exec (.bgeu a b off) s))
    ∧ (canIssue (shortProf 0 [] [d]) s = true → JumpsTo s d (s.me.pc + 4) (s.me.pc + BitVec.ofInt 64 (4 * far.toInt)) 1 (exec (.jal d far) s))
    ∧ (canIssue (shortProf 0 [a] [d]) s = true →
      let t := x + BitVec.ofInt 64 i.toInt
      (t.toNat % 4 = 0 → JumpsTo s d (s.me.pc + 4) t 3 (exec (.jalr d a i) s))
        ∧ (t.toNat % 4 ≠ 0 → exec (.jalr d a i) s = stopAt .misalign t none s))
    ∧ decode32 (packB 0x20 off b a) = .ok (.beq a b off) ∧ decode32 (packB 0x21 off b a) = .ok (.bne a b off)
    ∧ decode32 (packB 0x22 off b a) = .ok (.blt a b off) ∧ decode32 (packB 0x23 off b a) = .ok (.bge a b off)
    ∧ decode32 (packB 0x24 off b a) = .ok (.bltu a b off) ∧ decode32 (packB 0x25 off b a) = .ok (.bgeu a b off)
    ∧ decode32 (packU 0x26 far d) = .ok (.jal d far) ∧ decode32 (packI 0x27 i a d) = .ok (.jalr d a i)

/-- R273: SYSC and BRK freeze their hart at their own address with causes SYSC and BRK, fault address 0 and their code in the
record; the event that follows is `raiseEvent`'s. -/
def Claim.CallsFreeze : Prop := ∀ (s : State) (code : BitVec 15), canIssue (shortProf 0 [] []) s = true →
  ∀ ins c, (ins = .sysc code ∧ c = Cause.sysc) ∨ (ins = .brk code ∧ c = Cause.brk) →
    ∃ t r, exec ins s = .next (raiseEvent t s.cur r) ∧ t.me.status = .frozen r ∧ t.cur = s.cur ∧ r.cause = c ∧ r.addr = 0 ∧ r.pc = s.me.pc
      ∧ r.code = code ∧ t.me.pc = s.me.pc ∧ t.me.x = s.me.x ∧ t.me.v = s.me.v ∧ t.me.m = s.me.m ∧ t.mem = s.mem

/-- R346, R353, R354, R290: whatever freezes a hart, the hart holds the record, waits for nothing, keeps its pc and every register, its
fixed-latency writes are complete, and its own agents see one another's stores; memory is untouched until the event is raised. -/
def Claim.FreezeSavesState : Prop := ∀ (s : State) (u : Nat) (r : FrzRecord), ∃ t, freeze s u r = raiseEvent t u r
  ∧ (t.hart u).status = .frozen r ∧ (t.hart u).waiting = none ∧ (t.hart u).pc = (s.hart u).pc ∧ (t.hart u).x = (s.hart u).x
  ∧ (t.hart u).v = (s.hart u).v ∧ (t.hart u).m = (s.hart u).m ∧ (t.hart u).fflags = (s.hart u).fflags ∧ (t.hart u).inflight = []
  ∧ (∀ p ∈ (t.hart u).stores, p.hvis = true) ∧ t.mem = s.mem ∧ ∀ k, k ≠ u → t.hart k = s.hart k

/-- SYSC and BRK freeze their hart, and what a freeze saves (all of the claims named). -/
def Obligations.CallsAndFreezes : Prop := Claim.CallsFreeze ∧ Claim.FreezeSavesState

/-- R349–R351: a strip's or member's freeze with a free pool slot that no queued event waits for spawns a mender there: a privileged hart at the mender entry with the
handle in x16, the cause in x17, the fault address in x18 and the task word in x19, under the aspace of the frozen hart. -/
def Obligations.FreezeSpawnsMender : Prop := ∀ (s : State) (u slot : Nat) (r : FrzRecord),
  (s.hart u).role ≠ .mender → spareSlot s (s.hart u).ctx = some slot → u ≠ s.nextId →
  ∃ e : Event, let t := raiseEvent s u r
    let k := s.ctx (s.hart u).ctx
    let m := t.hart s.nextId
    m.role = .mender ∧ m.priv = true ∧ m.place = some slot ∧ m.ctx = (s.hart u).ctx ∧ m.pc = BitVec.ofNat 64 k.mender.entry
      ∧ m.aspace = (s.hart u).aspace ∧ m.rx 16 = e.handle ∧ m.rx 17 = BitVec.ofNat 64 r.cause.code ∧ m.rx 18 = r.addr
      ∧ m.rx 19 = BitVec.ofNat 64 ((s.hart u).farm * 2 ^ 32 + (s.crew (s.hart u).crew).number % 2 ^ 32) ∧ m.status = .running
      ∧ (∃ x ∈ (t.ctx (s.hart u).ctx).handles, x.value = e.handle ∧ x.hart = u ∧ x.owner = s.nextId)

/-- R273: DELAY n completes and holds its hart for n cycles; WAITE completes when the event bit is set and clears it; YIELD completes when each
of the core's other ready harts has issued a vector-class instruction, or after 16 cycles, and waits before. That the ready harts are those of the
YIELD's first cycle, and that one ready no more counts as done, is the model's reading (assumption 60). -/
def Claim.DelayWaiteYield : Prop := ∀ (s : State) (n : BitVec 10), canIssue (shortProf 0 [] []) s = true →
  exec (.delay n) s = .next (s.setMe { (s.me.account n.toNat 0) with pc := s.me.pc + 4 })
    ∧ (s.me.event = true → exec .waite s = .next (s.setMe ({ s.me with event := false } : Hart).done))
    ∧ (s.me.event = false → ∃ t, exec .waite s = .next t ∧ t.me.pc = s.me.pc ∧ t.me.x = s.me.x ∧ t.me.event = false)
    ∧ (∀ k l, s.me.yield.getD (0, readyOthers s) = (k, l) →
      (k = 16 ∨ (∀ u ∈ l, u ∉ readyOthers s) → exec .yield s = .next (s.setMe ({ s.me with yield := none } : Hart).done))
      ∧ (k ≠ 16 → (∃ u ∈ l, u ∈ readyOthers s) → ∃ t, exec .yield s = .next t ∧ t.me.pc = s.me.pc ∧ t.me.x = s.me.x ∧ t.me.yield = some (k + 1, l)))

/-- R274, R262: EXIT completes for a hart without outstanding engine or matrix operations, whose stores and version may be performed: the bytes of
its version that an invalidation has covered are translated afresh (assumption 58), its stores are performed, its version committed, its
barriers left, its messages discarded, and its strip, member or mender ends. -/
def Claim.ExitEndsWork : Prop := ∀ s : State, canIssue (shortProf 0 [] []) s = true →
  (s.me.ops = [] → s.me.mops = [] → commitWaits s s.cur = false →
    (∀ t, freshVersion s s.cur s.me.version = .ok t →
      exec .exit s = .next (endHart ((discardMail (leaveBars (commitVersion (drainAll t t.cur) t.cur) t.cur) t.cur).modHart t.cur Hart.done) t.cur false))
    ∧ ((∀ e ∈ s.me.version, e.stale = false) → freshVersion s s.cur s.me.version = .ok s)
    ∧ ∀ m va c, freshVersion s s.cur s.me.version = .error (m, va) → missCause .store m = some c → exec .exit s = stopAt c (BitVec.ofNat 64 va) none s)
  ∧ (s.me.ops ≠ [] ∨ s.me.mops ≠ [] → exec .exit s = waitOn 5 false s)

/-- DELAY, WAITE, YIELD and EXIT complete (all of the claims named). -/
def Obligations.WaitsAndExit : Prop := Claim.DelayWaiteYield ∧ Claim.ExitEndsWork

/-- R42, R159, R41: CSRR of every defined CSR completes with its value; CSRW, CSRS and CSRC of a writable CSR with an accepted value
complete with the old value in xd and the new one in the CSR; a CSRS or CSRC of zero reads; an access to vresume or fflags may first wait
for earlier work (`csrWaits`). -/
def Claim.CsrAccess : Prop := ∀ (s : State) (d a : Reg) (n : BitVec 12) (old : Word), csrVal s s.me n.toNat = some old →
  csrWaits s.me n.toNat = false →
  let priv : Bool := decide (0x100 ≤ n.toNat) && decide (n.toNat ≤ 0x104)
  let x := s.me.rx a
  let puts (w : Word) (o : Out) : Prop := csrWritable n.toNat = true → csrAccepts s.me n.toNat w = true →
    o = .next (s.setMe ((csrPut s.me n.toNat w).wx d old).done)
  (canIssue { scalarProf 0 [] [d] with priv := priv } s = true → WritesX s d old (exec (.csrr d n) s))
    ∧ (canIssue { scalarProf 0 [a] [d] with priv := priv } s = true →
      puts x (exec (.csrw d a n) s)
        ∧ (x = 0 → WritesX s d old (exec (.csrs d a n) s) ∧ WritesX s d old (exec (.csrc d a n) s))
        ∧ (x ≠ 0 → x &&& csrReserved n.toNat = 0 → puts (old ||| x) (exec (.csrs d a n) s) ∧ puts (old &&& ~~~x) (exec (.csrc d a n) s)))

/-- R42, R57 steps 4 and 5, R162: an access to a privileged CSR by a hart that is not running privileged freezes it with PRIV; one to an
undefined number (above 0x104 too, whatever the mode: assumption 19), a CSRW to a read-only CSR, a CSRS or CSRC of a non-zero operand to one, a
value with a reserved bit or of a reserved encoding, and a CSRS or CSRC that names a reserved bit freeze it with ILLEGAL_OP; all before any
effect. -/
def Claim.CsrRefusals : Prop := ∀ (s : State) (d a : Reg) (n : BitVec 12), s.live = true → s.me.lentTo = none →
  let all (P : Instr → Prop) : Prop := P (.csrr d n) ∧ P (.csrw d a n) ∧ P (.csrs d a n) ∧ P (.csrc d a n)
  let old := (csrVal s s.me n.toNat).getD 0
  let x := s.me.rx a
  let refused (i : Instr) : Prop := exec i s = stopAt .illegalOp s.me.pc none s
  let allowed : Prop := 0x100 ≤ n.toNat → n.toNat ≤ 0x104 → s.me.priv = true
  (0x100 ≤ n.toNat → n.toNat ≤ 0x104 → s.me.priv = false → all fun i => exec i s = stopAt .priv s.me.pc none s)
    ∧ (csrVal s s.me n.toNat = none → s.hold (scalarProf 0 [] [d]) = none → refused (.csrr d n))
    ∧ (s.hold (scalarProf 0 [a] [d]) = none → allowed →
      (csrVal s s.me n.toNat = none → refused (.csrw d a n) ∧ refused (.csrs d a n) ∧ refused (.csrc d a n))
      ∧ (csrWritable n.toNat = false → refused (.csrw d a n))
      ∧ (s.me.xBad.getLsbD a.val = false →
        (csrAccepts s.me n.toNat x = false → refused (.csrw d a n))
        ∧ (x ≠ 0 → csrWritable n.toNat = false ∨ x &&& csrReserved n.toNat ≠ 0 → refused (.csrs d a n) ∧ refused (.csrc d a n))
        ∧ (x ≠ 0 → csrAccepts s.me n.toNat (old ||| x) = false → refused (.csrs d a n))
        ∧ (x ≠ 0 → csrAccepts s.me n.toNat (old &&& ~~~x) = false → refused (.csrc d a n))))

/-- Reads and writes of every defined CSR, and the refused ones (all of the claims named). -/
def Obligations.ControlRegisters : Prop := Claim.CsrAccess ∧ Claim.CsrRefusals

/-- R121: MPOP, MANY and MFIRST write the count of set bits below vl, whether there is one, and the lowest one or all ones. -/
def Claim.MaskQueries : Prop := ∀ (s : State) (d : Reg) (m : MR), canIssue { shortProf 0 [] [d] with mr := [m], final := true } s = true →
  let b := s.me.rm m
  WritesX s d (BitVec.ofNat 64 ((List.range s.me.vl).countP fun e => mbit b e)) (exec (.mpop d m) s)
    ∧ (∃ w, WritesX s d w (exec (.many d m) s) ∧ ((∃ e, e < s.me.vl ∧ mbit b e = true) → w = 1) ∧ ((∀ e, e < s.me.vl → mbit b e = false) → w = 0))
    ∧ (∃ w, WritesX s d w (exec (.mfirst d m) s) ∧ ((∀ e, e < s.me.vl → mbit b e = false) → w = BitVec.allOnes 64)
      ∧ ∀ e, e < s.me.vl → mbit b e = true → (∀ k, k < e → mbit b k = false) → w = BitVec.ofNat 64 e)

/-- R275: SETVL sets vl to the smaller of the request and the grant and returns it; vresume is unchanged. -/
def Claim.SetvlTakesMinimum : Prop := ∀ (s : State) (d a : Reg) (n : BitVec 14),
  let sets (k : Nat) (o : Out) : Prop := o = .next (s.setMe (({ s.me with vl := min k s.me.grant } : Hart).wx d (BitVec.ofNat 64 (min k s.me.grant))).done)
  (canIssue (shortProf 0 [a] [d]) s = true → sets (s.me.rx a).toNat (exec (.setvlReg d a) s))
    ∧ (canIssue (shortProf 0 [] [d]) s = true → sets n.toNat (exec (.setvlImm d n) s))

/-- R277, R278, R179: the barrier instructions of an allocated barrier complete: BINIT with a legal operand sets E, members and scope;
BARV arrives after its release; BWAIT, and a BARW that has arrived, complete once the phase differs from the token, or a flip has released the
hart; BTEST reads the status word. -/
def Claim.BarriersComplete : Prop := ∀ (s : State) (d a : Reg) (bar : Fin 128) (sc : Fin 4), bar.val < s.me.kern.barriers →
  let b := (s.crew s.me.crew).bar bar.val
  let w := (s.me.rx a).toNat
  (canIssue (shortProf 0 [a] []) s = true → w < 2 ^ 32 → w % 2 ^ 16 ≠ 0 → w / 2 ^ 16 < 2 ^ (s.crew s.me.crew).size →
    ∃ t, exec (.binit a bar sc) s = .next (t.setMe t.me.done) ∧ t = putBar s s.me.crew bar.val { b with
      expect := w % 2 ^ 16, members := BitVec.ofNat 16 (w / 2 ^ 16), scope := sc, acc := 0, shown := 0 })
  ∧ (canIssue (shortProf 0 [] []) s = true →
    let r := performAt s s.cur b.scope.val true true true true
    ((b.scope ≠ 0 → drainWaits s s.cur (agentStores true true) = false) → (b.scope = 3 → r.me.hostLines = []) →
      ∃ t, exec (.barv bar) s = .next (t.setMe t.me.done) ∧ t = arriveMe r bar)
      ∧ (s.me.barGo = true ∨ (∃ p, s.me.token bar.val = some p ∧ p ≠ b.phase) →
        (∃ t, exec (.bwait bar) s = .next t ∧ t.me.pc = s.me.pc + 4 ∧ t.me.x = s.me.x)
        ∧ (s.me.barGo = true ∨ s.me.barWait.isSome = true → ∃ t, exec (.barw bar) s = .next t ∧ t.me.pc = s.me.pc + 4 ∧ t.me.x = s.me.x)))
  ∧ (canIssue (shortProf 0 [] [d]) s = true → WritesX s d b.shown (exec (.btest d bar) s))

/-- R276, R278: a barrier number at or beyond the crew's count freezes its hart with ILLEGAL_OP. -/
def Claim.BarrierNumberRefused : Prop := ∀ (s : State) (d a : Reg) (bar : Fin 128) (sc : Fin 4), s.live = true → s.me.lentTo = none →
  s.me.kern.barriers ≤ bar.val → ∀ ins, ins = .binit a bar sc ∨ ins = .barv bar ∨ ins = .bwait bar ∨ ins = .barw bar ∨ ins = .btest d bar →
    exec ins s = stopAt .illegalOp s.me.pc (some 0) s

/-- R277: at E arrivals the phase advances by one, the count restarts, the status words move on, every member's event bit is
set and the members that wait at the barrier are released; below E the count alone changes. -/
def Claim.BarrierFlips : Prop := ∀ (s : State) (c n : Nat) (b : Barrier),
  (b.count < b.expect → ((putBar s c n b).crew c).bar n = b ∧ (putBar s c n b).harts = s.harts)
    ∧ (b.expect ≤ b.count → ((putBar s c n b).crew c).bar n = { b with phase := b.phase + 1, byRank := [], others := 0, shown := b.acc, acc := 0 }
      ∧ (∀ p ∈ (putBar s c n b).harts, p.2.crew = c → p.2.event = true)
      ∧ ∀ u w, (s.hart u).crew = c → (s.hart u).barWait = some w → w.bar = n → ((putBar s c n b).hart u).barGo = true)

/-- The barrier instructions and the flip of a barrier (all of the claims named). -/
def Obligations.Barriers : Prop := Claim.BarriersComplete ∧ Claim.BarrierNumberRefused ∧ Claim.BarrierFlips

/-- R280, R43: SEQRD returns the completed count; SEQWAIT completes once that count reaches its operand, waits below it, and freezes
with ENGINE for a count beyond the operations issued. -/
def Claim.SequenceNumbers : Prop := ∀ (s : State) (d a : Reg) (n : Fin 8),
  let k := (s.me.rx a).toNat
  (canIssue (shortProf 0 [] [d]) s = true → WritesX s d (BitVec.ofNat 64 (s.me.seqc n.val)) (exec (.seqrd d n) s))
    ∧ (canIssue (shortProf 0 [a] []) s = true →
      (k ≤ s.me.issued.getD n.val 0 → k ≤ s.me.seqc n.val → exec (.seqwait a n) s = .next (s.setMe s.me.done))
        ∧ (k ≤ s.me.issued.getD n.val 0 → s.me.seqc n.val < k → exec (.seqwait a n) s = waitOn 5 true s)
        ∧ (s.me.issued.getD n.val 0 < k → ∃ r, exec (.seqwait a n) s = .next (freeze s s.cur r) ∧ r.cause = .engine))

/-- Mask queries, SETVL and the sequence counts (all of the claims named). -/
def Obligations.MasksLengthsAndCounts : Prop := Claim.MaskQueries ∧ Claim.SetvlTakesMinimum ∧ Claim.SequenceNumbers

/-- R282, R283: LPSET loads the sequencer from its operand and the body length; LPRUN with no trips left skips the body, and with a body
that passes its checks starts the replay at the first body word. -/
def Claim.LoopSequencer : Prop := ∀ (s : State) (a : Reg) (len : BitVec 12),
  let w := (s.me.rx a).toNat
  (canIssue (shortProf 0 [a] []) s = true → w < 2 ^ 62 → bits w 27 16 = 0 →
    exec (.lpset a len) s = .next (s.setMe ({ s.me with lpstate := BitVec.ofNat 64 (w + (len.toNat / 8 - 1) * 2 ^ 16) } : Hart).done))
  ∧ (canIssue (shortProf 0 [] []) s = true →
    let p := s.me.lpstate.toNat
    let n := bits p 21 16
    let base := (s.me.pc.toNat + 4 + 7) / 8 * 8 % 2 ^ 64
    (bits p 15 0 = 0 → ∃ t, exec .lprun s = .next t ∧ OnlyMe s t ∧ t.me.pc = BitVec.ofNat 64 (base + 8 * (n + 1)) ∧ t.me.lpstate = 0 ∧ t.me.x = s.me.x)
      ∧ (bits p 15 0 ≠ 0 → ∀ q ws, bodyWords s.cur base n (n + 1) s [] = .ok q ws →
        ∃ t, exec .lprun s = .next t ∧ t.me.pc = BitVec.ofNat 64 base ∧ t.me.lpBase = BitVec.ofNat 64 base ∧ t.me.lpBody = ws
          ∧ t.me.replaying = true ∧ bits t.me.lpstate.toNat 27 22 = 0))

/-- R283: the step of a loop replay: after a body instruction before the last, the next body instruction; after the last, rega and regb take
their increments, four times the signed 12-bit fields (both of them where rega is regb), then the body again with one trip fewer, or past the body
when none is left. -/
def Claim.LoopReplayStep : Prop := ∀ h : Hart,
  let w := h.lpstate.toNat
  let len := bits w 21 16
  let pos := bits w 27 22
  (pos < len → h.seqStep.pc = h.pc + 8 ∧ h.seqStep.x = h.x ∧ bits h.seqStep.lpstate.toNat 27 22 = pos + 1
    ∧ bits h.seqStep.lpstate.toNat 21 16 = len ∧ bits h.seqStep.lpstate.toNat 15 0 = bits w 15 0)
  ∧ (pos = len → bits w 15 0 = 1 → h.seqStep.pc = h.lpBase + BitVec.ofNat 64 (8 * (len + 1)) ∧ h.seqStep.lpstate = 0)
  ∧ (pos = len → 1 < bits w 15 0 → h.seqStep.pc = h.lpBase ∧ bits h.seqStep.lpstate.toNat 27 22 = 0
    ∧ bits h.seqStep.lpstate.toNat 15 0 = bits w 15 0 - 1 ∧ bits h.seqStep.lpstate.toNat 21 16 = len)
  ∧ (pos = len →
    let ra : Reg := Fin.ofNat 32 (bits w 32 28)
    let rb : Reg := Fin.ofNat 32 (bits w 37 33)
    let ia : Word := BitVec.ofInt 64 (4 * sint 12 (bits w 49 38))
    let ib : Word := BitVec.ofInt 64 (4 * sint 12 (bits w 61 50))
    (∀ r, r ≠ ra → r ≠ rb → h.seqStep.rx r = h.rx r)
      ∧ (ra ≠ rb → (ra ≠ 0 → h.seqStep.rx ra = h.rx ra + ia) ∧ (rb ≠ 0 → h.seqStep.rx rb = h.rx rb + ib))
      ∧ (ra = rb → ra ≠ 0 → h.seqStep.rx ra = h.rx ra + ia + ib))

/-- The loop sequencer's instructions and its replay step (all of the claims named). -/
def Obligations.LoopReplay : Prop := Claim.LoopSequencer ∧ Claim.LoopReplayStep

/-! ## Vector instructions (spec/05_vector_ops.md, spec/09_memory_ops.md) -/

/-- R104, R106: the integer, fixed-point and float arithmetic of VARITH and VFMA: each operation's value on a sub-element, and its
completion when its checks pass. -/
def Obligations.VectorArithmetic : Prop := ∀ (s : State) (hd : Hdr) (m : Option MR) (d a : VR) (b : Src) (c : VR),
  let two (acc : Fmt → Bool) (n : Nat) (op : SubOp) (o : Out) : Prop := ElementwiseX 8 acc (latIF n) op hd m d a (some b) none s o
  let one (cls : Nat) (acc : Fmt → Bool) (lat : Fmt → Machine.Lat) (op : SubOp) (o : Out) : Prop := ElementwiseX cls acc lat op hd m d a none none s o
  let three (op : SubOp) (o : Out) : Prop := ElementwiseX 10 (fun f => cols true true true f && f != .i64) (fun _ => .fixed 4 6) op hd m d a (some b) (some c) s o
  let arith (i : Int → Int → Int) (g : FF → Nat → Nat → Nat → Nat × Fl) : SubOp :=
    fun f r x y _ => if f.isFloat then g f.ff r x y else (wrapNat f.width (i (f.int x) (f.int y)), 0)
  let fused (np nc : Bool) : SubOp := fun f r x y z =>
    if f.isFloat then f.ff.fma r np nc x y z
    else if f.isFixed then f.sat (halfUp f.frac ((if np then -1 else 1) * (f.int x * f.int y) + (if nc then -1 else 1) * f.int z * ((2 ^ f.frac : Nat) : Int)))
    else (wrapNat f.width ((if np then -1 else 1) * (f.int x * f.int y) + (if nc then -1 else 1) * f.int z), 0)
  two (cols true true true) 2 (arith (· + ·) FF.add) (exec (.vadd hd m d a b) s) ∧ two (cols true true true) 2 (arith (· - ·) FF.sub) (exec (.vsub hd m d a b) s)
    ∧ two (cols true true false) 3 (arith (· * ·) FF.mul) (exec (.vmul hd m d a b) s)
    ∧ two (cols true false false) 3 (fun f _ x y _ => (wrapNat f.width (f.int x * f.int y / ((2 ^ f.width : Nat) : Int)), 0)) (exec (.vmulh hd m d a b) s)
    ∧ two (cols true true true) 2 (arith min fun f _ => f.minmax false) (exec (.vmin hd m d a b) s)
    ∧ two (cols true true true) 2 (arith max fun f _ => f.minmax true) (exec (.vmax hd m d a b) s)
    ∧ two (cols true false true) 2 (fun f _ x y _ => f.sat (f.int x + f.int y)) (exec (.vadds hd m d a b) s)
    ∧ two (cols true false true) 2 (fun f _ x y _ => f.sat (f.int x - f.int y)) (exec (.vsubs hd m d a b) s)
    ∧ two (cols false false true) 3 (fun f _ x y _ => f.sat (halfUp f.frac (f.int x * f.int y))) (exec (.vqmul hd m d a b) s)
    ∧ ElementwiseX 9 (fun f => cols true true false f && !f.pair) (fun _ => .board)
        (arith (fun x y => if y = 0 then -1 else x.tdiv y) FF.div) hd m d a (some b) none s (exec (.vdiv hd m d a b) s)
    ∧ one 8 (cols true true true) (latIF 2) (fun f _ x _ _ => if f.isFloat then signOp (fun _ => false) f.ff x else (wrapNat f.width (f.int x).natAbs, 0))
        (exec (.vabs hd m d a) s)
    ∧ one 8 (cols true true true) (latIF 2) (fun f _ x _ _ => if f.isFloat then signOp (fun n => !n) f.ff x else (wrapNat f.width (-f.int x), 0))
        (exec (.vneg hd m d a) s)
    ∧ one 9 (cols false true false) (fun _ => .board) (fun f r x _ _ => f.ff.sqrt r x) (exec (.vsqrt hd m d a) s)
    ∧ one 12 Fmt.isArith (fun _ => .fixed 3 5) (fun f _ x _ _ => f.ff.rsqe x) (exec (.vrsqe hd m d a) s)
    ∧ one 12 Fmt.isArith (fun _ => .fixed 3 5) (fun f _ x _ _ => f.ff.rcpe x) (exec (.vrcpe hd m d a) s)
    ∧ three (fused false false) (exec (.vfma hd m d a b c) s) ∧ three (fused false true) (exec (.vfms hd m d a b c) s)
    ∧ three (fused true true) (exec (.vfnma hd m d a b c) s) ∧ three (fused true false) (exec (.vfnms hd m d a b c) s)

/-- R107, R105, R110, R111: VAND, VOR, VXOR, VNOT, VSLL, VSRL, VSRA (by the low log2(w) bits of the amount), VQSHR (by an unsigned count, above
63 as 63, rounded half up and saturated) and VMERGE (each element from the second source where the selecting mask is set, else from the
first) complete when their checks pass: their values. A scalar, constant or literal source is adopted first, with its flags, on the bitwise
operations too (assumption 76). -/
def Obligations.VectorLogic : Prop := ∀ (s : State) (hd : Hdr) (m : Option MR) (sel : MR) (d a : VR) (b : Src),
  let h := s.me
  let f := (h.fmt a).getD .i32
  let bits2 (op : Nat → Nat → Nat) (o : Out) : Prop :=
    ElementwiseX 11 (fun f => f.isInt || f.isFloat || f.isFixed) (fun _ => .fixed 1 3) (fun _ _ x y _ => (op x y, 0)) hd m d a (some b) none s o
  let shift (op : Fmt → Nat → Nat → Nat) (o : Out) : Prop :=
    ElementwiseX 11 (fun f => f.isInt || f.isFixed) (fun _ => .fixed 1 3) (fun f _ x y _ => (op f x (y % f.width), 0)) hd m d a (some b) none s o
  bits2 (· &&& ·) (exec (.vand hd m d a b) s) ∧ bits2 (· ||| ·) (exec (.vor hd m d a b) s) ∧ bits2 (· ^^^ ·) (exec (.vxor hd m d a b) s)
    ∧ ElementwiseX 11 (fun f => f.isInt || f.isFloat || f.isFixed) (fun _ => .fixed 1 3) (fun f _ x _ _ => (2 ^ f.width - 1 - x, 0)) hd m d a none none s
        (exec (.vnot hd m d a) s)
    ∧ shift (fun f x n => x * 2 ^ n % 2 ^ f.width) (exec (.vsll hd m d a b) s) ∧ shift (fun _ x n => x / 2 ^ n) (exec (.vsrl hd m d a b) s)
    ∧ shift (fun f x n => wrapNat f.width (f.int x / ((2 ^ n : Nat) : Int))) (exec (.vsra hd m d a b) s)
    ∧ (canIssue { (ewProf 8 hd m h (opRegs (h.fmt a) d) a none none) with xr := srcX b } s = true → ewFmt (cols false false true) (some d) a none none s = true →
      let n := min 63 (srcCount h b)
      exec (.vqshr hd m d a b) s = .next (s.setMe (((h.frame (.fixed 3 5) (h.emask m) d (h.rv a).tag f.pair 0 fun e => pack f.width fun j =>
        let x := (h.opd true a).sub f.width e j
        if f.width ≤ n then (0, 0) else f.sat (halfUp n (f.int x))).atWork true (h.chime + 5)).doneL hd)))
    ∧ (canIssue (ewProf 13 hd (some sel) h (opRegs (h.fmt a) d) a (some b) none) s = true → ewFmt bitFmt (some d) a (some b) none s = true →
      let y := h.src true f b
      exec (.vmerge hd sel d a b) s = .next (s.setMe (((h.frame (.fixed 1 3) none d (h.rv a).tag f.pair y.2 fun e => pack f.width fun j =>
        (if mbit (h.srcM sel) e then y.1.sub f.width e j else (h.opd true a).sub f.width e j, 0)).atWork (adopts b) (h.chime + 3)).doneL hd)))

/-- R31, R100: what an elementwise instruction leaves in its destination: at vl ≤ vresume nothing; else the result tag, elements below
vresume kept, active elements the operation's, masked-off ones kept under an equal tag and zero otherwise, the tail zero; every
other register, every mask and every scalar register kept, and the flags of the active elements raised. -/
def Claim.ElementwiseFrame : Prop := ∀ (h : Hart) (lat : Machine.Lat) (m : Option MaskBits) (d : VR) (rt : Tag) (fl : Fl) (op : Nat → Nat × Fl),
  let g := h.frame lat m d rt false fl op
  let old := h.rv d
  (h.vl ≤ h.vresume → g = h) ∧
  (h.vresume < h.vl →
    (g.rv d).tag = rt
    ∧ (∀ e, (g.rv d).slot e = if h.vl ≤ e then 0 else if e < h.vresume then old.slot e
        else if activeAt m e then BitVec.ofNat 32 (op e).1 else if old.tag = rt then old.slot e else 0)
    ∧ (∀ r, r ≠ d → g.rv r = h.rv r) ∧ g.x = h.x ∧ g.m = h.m
    ∧ (∀ i, g.fflags.getLsbD i = (h.fflags.getLsbD i || fl.getLsbD i
        || (List.range h.vl).any fun e => decide (h.vresume ≤ e) && activeAt m e && (op e).2.getLsbD i)))

/-- R109, R110, R112, R33: VCMP in its six relations, MAND, MOR, MXOR, MNOT, MSET and MMOV between masks complete when their checks pass, with the
stated bit per element; MMOV moves an image into a mask and a mask into an image bit for bit, the bits from vl up clear. -/
def Obligations.CompareAndMask : Prop := ∀ (s : State) (hd : Hdr) (m : Option MR) (d a b : MR) (v w : VR) (x : Src),
  let cmp (n : Nat) (rel : Int → Int → Bool) (o : Out) : Prop :=
    CompareX (fun f p q => if f.isFloat then f.ff.cmp n p q else (rel (f.int p) (f.int q), 0)) hd m d v x s o
  let bit (r : MR) (e : Nat) : Bool := (s.me.srcM r).getLsbD e
  cmp 0 (fun p q => p == q) (exec (.vcmpEq hd m d v x) s) ∧ cmp 1 (fun p q => p != q) (exec (.vcmpNe hd m d v x) s)
    ∧ cmp 2 (fun p q => p < q) (exec (.vcmpLt hd m d v x) s) ∧ cmp 3 (fun p q => p ≤ q) (exec (.vcmpLe hd m d v x) s)
    ∧ cmp 4 (fun p q => q < p) (exec (.vcmpGt hd m d v x) s) ∧ cmp 5 (fun p q => q ≤ p) (exec (.vcmpGe hd m d v x) s)
    ∧ MaskX [a, b] (fun e => bit a e && bit b e) hd m d s (exec (.mand hd m d a b) s)
    ∧ MaskX [a, b] (fun e => bit a e || bit b e) hd m d s (exec (.mor hd m d a b) s)
    ∧ MaskX [a, b] (fun e => bit a e != bit b e) hd m d s (exec (.mxor hd m d a b) s)
    ∧ MaskX [a] (fun e => !bit a e) hd m d s (exec (.mnot hd m d a) s) ∧ MaskX [] (fun _ => true) hd m d s (exec (.mset hd m d) s)
    ∧ MaskX [a] (bit a) hd m d s (exec (.mmovMaskToMask hd m d a) s)
    ∧ (canIssue { cls := 13, hdr := some hd, vr := [v], mw := [d] } s = true → s.me.fmt v = some .mimg →
      RetiresLong hd s (exec (.mmovImageToMask hd d v) s) fun g => HartFrame [] [] [d] false s.me g
        ∧ (0 < s.me.vl → ∀ e, (g.rm d).getLsbD e = (decide (e < min s.me.vl 1024) && ((s.me.srcV false v).slot (e / 32)).getLsbD (e % 32))))
    ∧ (canIssue { cls := 13, hdr := some hd, mr := [a], mu := [a], vw := [w] } s = true →
      RetiresLong hd s (exec (.mmovMaskToImage hd w a) s) fun g => HartFrame [] [w] [] false s.me g
        ∧ (0 < s.me.vl → (g.rv w).tag = tagOf .mimg
          ∧ ∀ i j, j < 32 → ((g.rv w).slot i).getLsbD j = (decide (32 * i + j < s.me.vl) && (s.me.srcMU a).getLsbD (32 * i + j))))

/-- R33, R109: the mask a comparison or mask operation leaves: bits from vl up clear, masked-off positions kept, the others the
operation's; every vector, scalar and other mask register kept. -/
def Claim.MaskFrame : Prop := ∀ (h : Hart) (lat : Machine.Lat) (m : Option MaskBits) (d : MR) (start : Nat) (fl : Fl) (op : Nat → Bool × Fl),
  h.vl ≤ 1024 →
  let g := h.frameM lat m d start fl op
  (h.vl ≤ start → g = h) ∧
  (start < h.vl → (∀ e, (g.rm d).getLsbD e = if h.vl ≤ e then false else if e < start then (h.rm d).getLsbD e
      else if activeAt m e then (op e).1 else (h.rm d).getLsbD e)
    ∧ (∀ r, r ≠ d → g.rm r = h.rm r) ∧ g.x = h.x ∧ g.v = h.v)

/-- R114, R115, R116: VCVT, VCVTS and VPLANE complete when their checks pass, writing no register but their destination group. -/
def Claim.ConversionsComplete : Prop := ∀ (s : State) (hd : Hdr) (d a sc : VR) (c : CvtCtl) (t : Tag),
  let g := (fmtOf c.tag).getD .i32
  let w := convWidths s.me a g
  RegistersOnly { cls := 14, fmts := (fmtBit g).toList, hdr := some hd, vr := sideRegs w.1 w.2 a, vw := sideRegs w.2 w.1 d, chain := ratio w.1 w.2 == 1 }
      (fun s => match s.me.fmt a with
        | some f => cvtSource f && convOk s.me f g d a []
        | none => false) hd [] (sideRegs w.2 w.1 d) [] true s (exec (.vcvt hd d a c) s)
    ∧ RegistersOnly { cls := 15, fmts := (fmtBit g).toList, hdr := some hd, vr := sideRegs w.1 w.2 a ++ [sc], vw := sideRegs w.2 w.1 d }
      (fun s => match s.me.fmt a, s.me.fmt sc with
        | some f, some (.scale lg short) => scalePair f g && scaleOk lg short (min w.1 w.2) s.me.vl && convOk s.me f g d a [sc]
        | _, _ => false) hd [] (sideRegs w.2 w.1 d) [] true s (exec (.vcvts hd d a sc c) s)
    ∧ RegistersOnly { cls := 16, fmts := [75], hdr := some hd, vr := sideRegs 8 (t.toNat % 16) a, vw := [d] }
      (fun s => s.me.fmt a == some .i8 && convOk s.me .i8 (.plane (t.toNat % 16)) d a []) hd [] [d] [] false s (exec (.vplane hd d a t) s)

/-- R117, R118: the slides, VGATHR, VCOMPR, VEXPND, VID, VSPLAT, VMVXS and VMVSX complete when their checks pass, writing no register but their
destination. VMVXS gives the pair element, the sign-extended slot of INT32 or FIXED 32-bit or the zero-extended slot of another tag, and 0 for an
index past vl. -/
def Claim.PermutationsComplete : Prop := ∀ (s : State) (hd : Hdr) (m : Option MR) (k : MR) (d a i : VR) (n : Src) (x : Reg) (t : Tag),
  let dst := opRegs (s.me.fmt a) d
  let perm (m : Option MR) (more : List VR) (xr : List Reg) (acc : Fmt → Bool) (ok : State → Bool) (o : Out) : Prop :=
    RegistersOnly { cls := 17, hdr := some hd, mr := m.toList, vr := opRegs (s.me.fmt a) a ++ more, vw := dst, xr := xr }
      (fun s => ewFmt acc (some d) a none none s && ok s) hd [] dst [] true s o
  let f := (fmtOf t).getD .i32
  perm m [] (srcX n) slideFmt (fun _ => true) (exec (.vslideup hd m d a n) s) ∧ perm m [] (srcX n) slideFmt (fun _ => true) (exec (.vslidedn hd m d a n) s)
    ∧ perm m [i] [] bitFmt (fun s => s.me.fmt i == some .i32) (exec (.vgathr hd m d a i) s)
    ∧ perm (some k) [] [] bitFmt (fun _ => true) (exec (.vcompr hd k d a) s) ∧ perm (some k) [] [] bitFmt (fun _ => true) (exec (.vexpnd hd k d a) s)
    ∧ RegistersOnly { cls := 17, fmts := (fmtBit f).toList, hdr := some hd, mr := m.toList, vw := opRegs (some f) d, chain := true } (fun _ => splatFmt t d) hd []
        (opRegs (some f) d) [] true s (exec (.vid hd m d t) s)
    ∧ RegistersOnly { cls := 17, fmts := (fmtBit f).toList, hdr := some hd, mr := m.toList, xr := srcX n, vw := opRegs (some f) d, chain := true }
        (fun _ => splatFmt t d) hd [] (opRegs (some f) d) [] true s (exec (.vsplat hd m d n t) s)
    ∧ (canIssue { cls := 17, hdr := some hd, vr := opRegs (s.me.fmt a) a, xr := srcX n, xw := [x], final := true } s = true → s.me.okSrc (· != .empty) a = true →
        let k := srcCount s.me n
        let sf := (s.me.fmt a).getD .i32
        let lo := (s.me.srcV false a).slot k
        let hi := (s.me.srcV false (vplus a 1)).slot k
        let v : Word := if sf.pair then hi ++ lo else match sf with
          | .i32 | .fixed _ _ => lo.signExtend 64
          | _ => lo.setWidth 64
        let w : Word := match sf with
          | .fixed 16 _ => lo.setWidth 64
          | _ => v
        exec (.vmvxs hd x a n) s = .next (s.setMe ((s.me.wx x (if s.me.vl ≤ k then 0 else w)).doneL hd)))
    ∧ RegistersOnly { cls := 17, hdr := some hd, vw := opRegs (s.me.fmt d) d, xr := x :: srcX n } (fun s => s.me.okSrc (· != .empty) d) hd []
        (opRegs (s.me.fmt d) d) [] false s (exec (.vmvsx hd d x n) s)

/-- R119, R120, R146: the reductions, VQNORM and VDOT4 complete likewise. -/
def Claim.ReductionsComplete : Prop := ∀ (s : State) (hd : Hdr) (m : Option MR) (d a b : VR),
  let red (o : Out) : Prop := RegistersOnly { cls := 18, hdr := some hd, mr := m.toList, vr := [a], vw := [d] } (ewFmt redFmt none a none none) hd [] [d] [] true s o
  red (exec (.vredsum hd m d a) s) ∧ red (exec (.vredmax hd m d a) s) ∧ red (exec (.vredmin hd m d a) s) ∧ red (exec (.vredc hd m d a) s)
    ∧ RegistersOnly { cls := 20, hdr := some hd, mr := m.toList, vr := [a], vw := [d, vplus d 1] } (ewFmt (qnormOk d) none a none none) hd []
        [d, vplus d 1] [] true s (exec (.vqnorm hd m d a) s)
    ∧ RegistersOnly { cls := 35, hdr := some hd, mr := m.toList, vr := [a, b, d], vw := [d], micro := dotMicro a b }
        (fun s => ewFmt (fun f => f == .i8 || f == .u8) none a (some (.v b)) none s && s.me.fmt d == some .i32) hd [] [d] [] true s
        (exec (.vdot4 hd m d a b) s)

/-- R92, R113–R116: the values of the conversions. VCVT converts every value i of the narrower side, from vresume up at ratio 1, and raises the flags
of the values converted; VCVTS applies the scale byte of the value's block, 2^(e − 127) for a scaled source and 2^(127 − e) for a scaled target,
0xFF giving the canonical NaN or 0 with NV; VPLANE keeps the top k bits of each INT8 value. Every destination register takes the target tag. -/
def Claim.ConversionValues : Prop := ∀ (s : State) (hd : Hdr) (d a sc : VR) (c : CvtCtl) (t : Tag) (f g : Fmt) (lg : Nat) (short : Bool),
  let h := s.me
  h.fmt a = some f → fmtOf c.tag = some g → (∀ k, g ≠ .plane k) → g ≠ .mimg → g ≠ .empty → 0 < h.vl → h.vl ≤ 1024 →
  let ws := f.width
  let wd := g.width
  let src := sideRegs ws wd a
  let dst := sideRegs wd ws d
  let one : Bool := ratio ws wd == 1
  let slotOf (i : Nat) : Nat := if wd = 64 then i else i * wd / 32
  let start := if one then h.vresume else 0
  let from_ (i : Nat) : Nat := valueAt f (src.map (h.srcV one)) (perReg ws h.vl) i
  let mode := if c.mode.val = 7 then h.frm else c.mode.val
  let into (val : Nat → Nat × Fl) (t : Hart) : Prop := (∀ r ∈ dst, (t.rv r).tag = c.tag)
    ∧ (∀ i, i < convCount ws wd h.vl → start ≤ slotOf i → valueAt g (dst.map t.rv) (perReg wd h.vl) i = (val i).1 % 2 ^ wd)
    ∧ ∀ b, t.fflags.getLsbD b = (h.fflags.getLsbD b || (List.range (convCount ws wd h.vl)).any fun i => decide (start ≤ slotOf i) && (val i).2.getLsbD b)
  (canIssue { cls := 14, fmts := (fmtBit g).toList, hdr := some hd, vr := src, vw := dst, chain := one } s = true → cvtSource f = true → convOk h f g d a [] = true →
    start < h.vl → RetiresLong hd s (exec (.vcvt hd d a c) s) (into fun i => convert f g mode c.sat (from_ i)))
  ∧ (canIssue { cls := 15, fmts := (fmtBit g).toList, hdr := some hd, vr := src ++ [sc], vw := dst } s = true → h.fmt sc = some (.scale lg short) →
    scalePair f g = true → scaleOk lg short (min ws wd) h.vl = true → convOk h f g d a [sc] = true → one = false →
    let r := (if f.scalable then a.val else d.val) % 2 ^ lg
    let len := if short then 16 else 32
    let e (i : Nat) : Nat :=
      let b := r * (32 * h.vl / (min ws wd * len)) + i / len
      ((h.srcV false sc).slot (b / 4)).toNat / 2 ^ (8 * (b % 4)) % 256
    let n (i : Nat) : Int := if f.scalable then ((e i : Nat) : Int) - 127 else 127 - ((e i : Nat) : Int)
    RetiresLong hd s (exec (.vcvts hd d a sc c) s) (into fun i =>
      if e i = 0xFF then (if g.isFloat then g.ff.qnan else 0, NV)
      else if g.isFloat then g.ff.put mode c.sat ((f.value (from_ i)).scaled (n i)) else g.fromValue mode ((f.value (from_ i)).scaled (n i))))
  ∧ ∀ k, t.toNat % 16 = k → 2 ≤ k → k ≤ 8 → canIssue { cls := 16, fmts := [75], hdr := some hd, vr := sideRegs 8 k a, vw := [d] } s = true → f = .i8 →
    convOk h .i8 (.plane k) d a [] = true → RetiresLong hd s (exec (.vplane hd d a t) s) fun u => (u.rv d).tag = t ∧ u.fflags = h.fflags
      ∧ ∀ i, i < 32 * h.vl / k → planeBits (u.rv d) k i = valueAt .i8 ((sideRegs 8 k a).map (h.srcV false)) (32 * h.vl / 8) i / 2 ^ (8 - k)

/-- R31, R32, R117, R118: the element a permutation writes at e: a slide up that at e − n, treating e < n as masked off; a slide down that at e + n,
zero bits past vl; VGATHR the one its index names, zero bits past vl; VCOMPR the active elements first, zero bits after them; VEXPND the first
elements over the active positions; VID the value index and VSPLAT one adopted value, from vresume up. A masked-off element keeps its bits under
an unchanged tag and is zero otherwise; the tail is zero. VMVSX writes one element and keeps the tag and every other slot. -/
def Claim.PermutationValues : Prop := ∀ (s : State) (hd : Hdr) (m : Option MR) (k : MR) (d a i : VR) (n : Src) (x : Reg) (t : Tag) (f ft : Fmt),
  let h := s.me
  0 < h.vl → h.vl ≤ 1024 →
  let at_ (p : Bool) (g : Hart) (e : Nat) : Nat := ((g.rv d).slot e).toNat + (if p then ((g.rv (vplus d 1)).slot e).toNat * 2 ^ 32 else 0)
  let kept (rt : Tag) (p : Bool) (e : Nat) : Nat := if (h.rv d).tag = rt then at_ p h e else 0
  let act (m : Option MR) (e : Nat) : Bool := match m with
    | some r => (h.srcM r).getLsbD e
    | none => true
  (h.fmt a = some f →
    let amt := srcCount h n
    let el (e : Nat) : Nat := ((h.srcV false a).slot e).toNat + (if f.pair then ((h.srcV false (vplus a 1)).slot e).toNat * 2 ^ 32 else 0)
    let perm (m : Option MR) (more : List VR) (xr : List Reg) (acc : Fmt → Bool) (ok : Bool) (o : Out) (val : Nat → Nat) : Prop :=
      canIssue { cls := 17, hdr := some hd, mr := m.toList, vr := opRegs (s.me.fmt a) a ++ more, vw := opRegs (s.me.fmt a) d, xr := xr } s = true →
      ewFmt acc (some d) a none none s = true → ok = true →
      RetiresLong hd s o fun g => (g.rv d).tag = (h.rv a).tag ∧ g.fflags = h.fflags ∧ ∀ e, at_ f.pair g e = if h.vl ≤ e then 0 else val e
    let old := kept (h.rv a).tag f.pair
    perm m [] (srcX n) slideFmt true (exec (.vslideup hd m d a n) s) (fun e => if amt ≤ e ∧ act m e = true then el (e - amt) else old e)
      ∧ perm m [] (srcX n) slideFmt true (exec (.vslidedn hd m d a n) s) (fun e => if act m e then (if e + amt < h.vl then el (e + amt) else 0) else old e)
      ∧ perm m [i] [] bitFmt (h.fmt i == some .i32) (exec (.vgathr hd m d a i) s) (fun e =>
          let k := ((h.srcV false i).slot e).toNat
          if act m e then (if k < h.vl then el k else 0) else old e)
      ∧ perm (some k) [] [] bitFmt true (exec (.vcompr hd k d a) s) (fun e => match ((List.range h.vl).filter (act (some k)))[e]? with
          | some j => el j
          | none => 0)
      ∧ perm (some k) [] [] bitFmt true (exec (.vexpnd hd k d a) s) (fun e =>
          if act (some k) e then el ((List.range e).countP (act (some k))) else old e))
  ∧ (fmtOf t = some ft → h.vresume < h.vl →
    let per := if ft.pair then 1 else 32 / ft.width
    let fill (xr : List Reg) (o : Out) (val : Nat → Nat) : Prop :=
      canIssue { cls := 17, fmts := (fmtBit ft).toList, hdr := some hd, mr := m.toList, xr := xr, vw := opRegs (some ft) d, chain := true } s = true → splatFmt t d = true →
      RetiresLong hd s o fun g => (g.rv d).tag = t ∧ ∀ e, (h.vl ≤ e → at_ ft.pair g e = 0) ∧ (e < h.vresume → at_ ft.pair g e = at_ ft.pair h e)
        ∧ (h.vresume ≤ e → e < h.vl → (act m e = false → at_ ft.pair g e = kept t ft.pair e)
          ∧ (act m e = true → ∀ j, j < per → at_ ft.pair g e / 2 ^ (ft.width * j) % 2 ^ ft.width = val (per * e + j) % 2 ^ ft.width))
    fill [] (exec (.vid hd m d t) s) (fun i => if ft.isFloat then (ft.ff.put 0 false (.fin ⟨false, i, 0⟩)).1 else wrapNat ft.width (clampTo ft.lo ft.hi i).1)
      ∧ fill (srcX n) (exec (.vsplat hd m d n t) s) (fun _ => (adopt h ft n).1))
  ∧ (h.fmt d = some f → canIssue { cls := 17, hdr := some hd, vw := opRegs (s.me.fmt d) d, xr := x :: srcX n } s = true → h.okSrc (· != .empty) d = true →
    let j := srcCount h n
    RetiresLong hd s (exec (.vmvsx hd d x n) s) fun g => (h.vl ≤ j → ∀ r, g.rv r = h.rv r)
      ∧ (j < h.vl → (g.rv d).tag = (h.rv d).tag ∧ at_ f.pair g j = (h.rx x).toNat % 2 ^ (if f.pair then 64 else 32)
        ∧ ∀ e, e < 1024 → e ≠ j → at_ f.pair g e = at_ f.pair h e))

/-- R95, R96, R119, R120, R146: the values of the reductions. VREDC writes cluster c's tree sum to slot c and VREDSUM their ascending fold to slot 0,
a masked-off element +0 and a position past vl absent, float sums rounded to nearest even, a NaN the canonical one (assumption 75), integer ones
wrapped; VREDMAX and VREDMIN the extreme active element, or the identity; VQNORM the exact sum of squares, clamped once with QS, to element 0;
VDOT4 the four products and the old element, modulo 2^32. Other slots are zero, but VDOT4 keeps its masked-off elements and those below vresume.
-/
def Claim.ReductionValues : Prop := ∀ (s : State) (hd : Hdr) (m : Option MR) (d a b : VR) (f : Fmt),
  let h := s.me
  0 < h.vl → h.vl ≤ 1024 → h.fmt a = some f →
  let act (e : Nat) : Bool := match m with
    | some r => (h.srcM r).getLsbD e
    | none => true
  let x (e : Nat) : Nat := ((h.srcV false a).slot e).toNat
  let red (o : Out) (P : Nat → Nat → Prop) : Prop := canIssue { cls := 18, hdr := some hd, mr := m.toList, vr := [a], vw := [d] } s = true →
    ewFmt redFmt none a none none s = true →
    RetiresLong hd s o fun g => (g.rv d).tag = (h.rv a).tag ∧ ∀ e, P e ((g.rv d).slot e).toNat
  let add (p q : Nat) : Nat := if f = .f32 then (FF.f32.add 0 p q).1 else (p + q) % 2 ^ 32
  let out (w : Nat) : Nat := if f = .f32 ∧ (FF.f32.read w).isNan = true then FF.f32.qnan else w
  let clusters := (h.vl + 31) / 32
  let cluster (c : Nat) : Nat := (treeNode add (fun j => if h.vl ≤ 32 * c + j then none else some (if act (32 * c + j) then x (32 * c + j) else 0)) 5 0).getD 0
  let acts := ((List.range h.vl).filter act).map x
  let extreme (hi : Bool) (o : Out) : Prop := red o fun e v => (e ≠ 0 → v = 0) ∧ (e = 0 →
    (f = .f32 → v = match acts with
      | [] => FF.f32.pat hi FF.f32.infMag
      | y :: l => l.foldl (fun p q => (FF.f32.minmax hi p q).1) (FF.f32.minmax hi y y).1)
    ∧ (f ≠ .f32 → (acts = [] → v = if hi then 2 ^ 31 else 2 ^ 31 - 1)
      ∧ (acts ≠ [] → v ∈ acts ∧ ∀ y ∈ acts, if hi then sint 32 y ≤ sint 32 v else sint 32 v ≤ sint 32 y)))
  red (exec (.vredc hd m d a) s) (fun e v => v = if e < clusters then out (cluster e) else 0)
    ∧ red (exec (.vredsum hd m d a) s) (fun e v => v = if e = 0 then out ((List.range (clusters - 1)).foldl (fun p c => add p (cluster (c + 1))) (cluster 0)) else 0)
    ∧ extreme true (exec (.vredmax hd m d a) s) ∧ extreme false (exec (.vredmin hd m d a) s)
    ∧ (canIssue { cls := 20, hdr := some hd, mr := m.toList, vr := [a], vw := [d, vplus d 1] } s = true → ewFmt (qnormOk d) none a none none s = true →
      let q (e j : Nat) : Int := sint f.width (x e / 2 ^ (f.width * j) % 2 ^ f.width)
      let sum : Int := ((List.range h.vl).map fun e => if act e then ((List.range (32 / f.width)).map fun j => q e j * q e j).sum else 0).sum
      let r := clampTo (-((2 ^ 63 : Nat) : Int)) (((2 ^ 63 : Nat) : Int) - 1) sum
      RetiresLong hd s (exec (.vqnorm hd m d a) s) fun g => (g.rv d).tag = tagOf (.fixed 64 (2 * f.frac)) ∧ (g.rv (vplus d 1)).tag = tagOf (.fixed 64 (2 * f.frac))
        ∧ (((g.rv d).slot 0).toNat + ((g.rv (vplus d 1)).slot 0).toNat * 2 ^ 32 : Nat) = r.1 ∧ g.fflags = h.fflags ||| r.2
        ∧ ∀ e, e ≠ 0 → (g.rv d).slot e = 0 ∧ (g.rv (vplus d 1)).slot e = 0)
    ∧ (canIssue { cls := 35, hdr := some hd, mr := m.toList, vr := [a, b, d], vw := [d], micro := dotMicro a b } s = true →
      ewFmt (fun f => f == .i8 || f == .u8) none a (some (.v b)) none s = true → h.fmt d = some .i32 → h.vresume < h.vl →
      let y (e : Nat) : Nat := ((h.srcV false b).slot e).toNat
      let p (v : Nat → Nat) (e j : Nat) : Int := if f = .i8 then sint 8 (v e / 2 ^ (8 * j) % 256) else ((v e / 2 ^ (8 * j) % 256 : Nat) : Int)
      RetiresLong hd s (exec (.vdot4 hd m d a b) s) fun g => (g.rv d).tag = (h.rv d).tag ∧ g.fflags = h.fflags
        ∧ ∀ e, (g.rv d).slot e = if h.vl ≤ e then 0 else if h.vresume ≤ e ∧ act e = true then
            BitVec.ofInt 32 (p x e 0 * p y e 0 + p x e 1 * p y e 1 + p x e 2 * p y e 2 + p x e 3 * p y e 3 + ((h.srcV false d).slot e).toInt)
          else (h.rv d).slot e)

/-- Conversions, permutations and reductions complete within their destination, and the values they write (all of the claims named). -/
def Obligations.VectorMoves : Prop := Claim.ConversionsComplete ∧ Claim.PermutationsComplete ∧ Claim.ReductionsComplete ∧ Claim.ConversionValues
  ∧ Claim.PermutationValues ∧ Claim.ReductionValues

/-- R285, R286: VSPUSH with room in its stream and VSPOP and VSCNT of a stream with a legal descriptor complete, with no uncorrectable error in the
window bytes they read, no earlier engine operation on the stream's bytes and the quad store not in retention. A push puts the active
elements in ascending order into the slots from the tail up, modulo the capacity, and advances the tail; a stream that was empty takes the
register's tag. A pop takes up to vl slots from the head up into vd, whose other slots are zero, and advances the head. Every other byte of the
window and memory stay. A count is tail − head. -/
def Obligations.StreamsComplete : Prop := ∀ (s : State) (hd : Hdr) (m : MR) (d a : VR) (x : Reg) (k : Fin 4) (st : Stream), readStream s s.me k.val = some st →
  Memory.wf (s.crew s.me.crew).win = true →
  winBad s s.me.crew st.at_ 32 = false →
  storeAsleep s s.me.crew = false →
  let free : Prop := winBefore s.me st.at_ 32 = false ∧ winBefore s.me st.base (4 * st.cap) = false
  let win (t : State) (off : Nat) : Nat := natOf (winRead t s.me.crew off 4)
  let cell (k : Nat) : Nat := st.base + 4 * (k % st.cap)
  let apart (off b : Nat) : Prop := b < off ∨ off + 4 ≤ b
  let ends (o : Out) (vs : List VR) (P : State → Hart → Prop) : Prop := ∃ (t : State) (g : Hart), o = .next (t.setMe (g.doneL hd)) ∧ t.mem = s.mem
    ∧ (∀ u, u ≠ s.cur → t.hart u = s.hart u) ∧ HartFrame [] vs [] false s.me { g with ops := s.me.ops } ∧ g.ops.map bareOp = s.me.ops.map bareOp ∧ P t g
  let same (t : State) (b : Nat) : Prop := memGet (t.crew s.me.crew).win b = memGet (s.crew s.me.crew).win b
  let used := wrapNat 32 ((st.tail : Int) - st.head)
  let l := (activeList s.me m).map (s.me.srcV false a).slot
  (canIssue { cls := 19, hdr := some hd, mr := [m], vr := [a], acc := some true } s = true → free → ewFmt (fun f => f != .empty && !f.pair) none a none none s = true → 0 < s.me.vl →
    (st.head = st.tail ∨ st.tag = (s.me.rv a).tag) → used + l.length ≤ st.cap →
      ends (exec (.vspush hd m a k) s) [] fun t _ => (∀ i v, l[i]? = some v → win t (cell (st.tail + i)) = v.toNat)
        ∧ win t (st.at_ + 12) = (st.tail + l.length) % 2 ^ 32 ∧ (st.head = st.tail → win t (st.at_ + 16) = (s.me.rv a).tag.toNat)
        ∧ ∀ b, (∀ i, i < l.length → apart (cell (st.tail + i)) b) → apart (st.at_ + 12) b → (st.head = st.tail → apart (st.at_ + 16) b) → same t b)
  ∧ (canIssue { cls := 19, hdr := some hd, vw := [d], acc := some true } s = true → free → 0 < s.me.vl →
      (∀ b, tagBit st.tag = some b → s.me.kern.mask.getLsbD b = true) → fmtOf st.tag ≠ none →
      (∀ i, i < st.cap → winBad s s.me.crew (st.base + 4 * i) 4 = false) →
      ends (exec (.vspop hd d k) s) [d] fun t g => (g.rv d).tag = st.tag ∧ (∀ e, min s.me.vl used ≤ e → (g.rv d).slot e = 0)
        ∧ (∀ e, e < min s.me.vl used → (g.rv d).slot e = BitVec.ofNat 32 (win s (cell (st.head + e))))
        ∧ win t (st.at_ + 8) = (st.head + min s.me.vl used) % 2 ^ 32 ∧ ∀ b, apart (st.at_ + 8) b → same t b)
  ∧ (canIssue { cls := 19, hdr := some hd, xw := [x], acc := some true } s = true → exec (.vscnt hd x k) s = .next (s.setMe ((st.accessed [] (s.me.wx x (BitVec.ofNat 64 used))).doneL hd)))

/-- R191, R194, R196–R201: the vector loads whose requests find room and whose accesses all succeed complete, at the addresses R194 gives each of them. -/
def Obligations.VectorLoadsComplete : Prop := ∀ (s : State) (hd : Hdr) (m : Option MR) (d vi : VR) (xa ix xc : Reg) (c : LdCtl),
  let h := s.me
  let u := if tagPair c.tag then 8 else 4
  let base := (h.rx xa).toNat
  let even (_ : State) : Bool := !tagPair c.tag || d.val % 2 == 0
  let run (m : Option MR) (xr : List Reg) (vi : Option VR) (whole : Bool) (addr : Nat → Nat) (ok : State → Bool) (o : Out) : Prop :=
    LoadsV hd m d c xr vi whole 1 h.vl h.vresume u u addr ok s o
  let n := (h.rx xc).toNat
  let k := c.tag.toNat % 16
  run m [xa] none true (fun e => (base + u * e) % 2 ^ 64) even (exec (.vld hd m d xa c) s)
    ∧ run m [xa] none true (fun e => (base + u * e) % 2 ^ 64) even (exec (.vldff hd m d xa c) s)
    ∧ run m [xa, ix] none false (fun e => addr64 (base + e * (h.rx ix).toInt)) even (exec (.vlds hd m d xa ix c) s)
    ∧ run m [xa] (some vi) false (fun e => addr64 (base + ((h.srcV false vi).slot e).toInt)) (fun s => even s && s.me.fmt vi == some .i32) (exec (.vldx hd m d xa vi c) s)
    ∧ (1 ≤ n → n ≤ 1024 → run m [xa, ix, xc] none false (fun e => addr64 (base + (e / n : Nat) * (h.rx ix).toInt + (u * (e % n) : Nat))) even (exec (.vld2d hd m d xa ix xc c) s))
    ∧ (1 ≤ k → tagPair c.tag = false → LoadsV hd none d c [xa] none false (8 * k) (h.vl / (8 * k)) (h.vresume / (8 * k)) (32 * k) 256 (fun b => (base + 256 * b) % 2 ^ 64)
        (fun s => s.me.vl % (8 * k) == 0) s (exec (.vldb hd d xa c) s))

/-- R191, R202, R205, R194: the vector stores and memory reductions whose requests find room and whose accesses all succeed complete and change no register. -/
def Obligations.VectorStoresComplete : Prop := ∀ (s : State) (hd : Hdr) (m : Option MR) (r vi : VR) (xa ix : Reg) (pol : Fin 4),
  let h := s.me
  let pair := ((h.fmt r).map Fmt.pair).getD false
  let u := if pair then 8 else 4
  let base := (h.rx xa).toNat
  let st (xr : List Reg) (vi : Option VR) (whole : Bool) (addr : Nat → Nat) (ok : State → Bool) (o : Out) : Prop :=
    StoresV hd m { cls := 21, hdr := some hd, xr := xr, vr := opRegs (h.fmt r) r ++ vi.toList, mr := m.toList, acc := some true } whole false u addr ok
      (fun s e => storeAcc s s.cur true pol.val (addr e) (bytesOf u ((h.opd false r).el pair e)) u) s o
  let any (s : State) : Bool := s.me.okSrc (· != .empty) r
  let at_ (e : Nat) : Nat := addr64 (base + ((h.srcV false vi).slot e).toInt)
  let rd (op : RedOp) (acc : Fmt → Bool) (o : Out) : Prop :=
    StoresV hd m { cls := 22, hdr := some hd, xr := [xa], vr := [r, vi], mr := m.toList, acc := some true } false true 4 at_ (fun s => ewFmt acc none r none none s && s.me.fmt vi == some .i32)
      (fun s e => redAcc s s.cur true op false (at_ e) (((h.srcV false r).slot e).setWidth 64)) s o
  st [xa] none true (fun e => (base + u * e) % 2 ^ 64) any (exec (.vst hd m r xa pol) s)
    ∧ st [xa, ix] none false (fun e => addr64 (base + e * (h.rx ix).toInt)) any (exec (.vsts hd m r xa ix pol) s)
    ∧ st [xa] (some vi) false at_ (fun s => any s && s.me.fmt vi == some .i32) (exec (.vstx hd m r xa vi pol) s)
    ∧ rd .add addFmt (exec (.vredmAdd hd m r xa vi) s) ∧ rd .min (· == .i32) (exec (.vredmMin hd m r xa vi) s) ∧ rd .max (· == .i32) (exec (.vredmMax hd m r xa vi) s)
    ∧ rd .and (· == .i32) (exec (.vredmAnd hd m r xa vi) s) ∧ rd .or (· == .i32) (exec (.vredmOr hd m r xa vi) s)
    ∧ rd .xor (· == .i32) (exec (.vredmXor hd m r xa vi) s) ∧ rd .fadd (· == .f32) (exec (.vredmFadd hd m r xa vi) s)

/-- R190, R31, R33: the destination of a load: elements below the start kept, active ones the values read, masked-off ones kept under
an equal tag and zero otherwise, the tail zero. -/
def Claim.LoadDestination : Prop := ∀ (old : VReg) (t : Tag) (n start : Nat) (act : Nat → Bool) (vals : List (Option Nat)),
  let r := loadReg old (old.tag == t) t 1 n start n 0 act vals
  r.tag = t ∧ ∀ e, r.slot e = if n ≤ e then 0 else if e < start then old.slot e
    else if act e then BitVec.ofNat 32 (((vals.getD (e - start) none).getD 0)) else if old.tag = t then old.slot e else 0

/-- What an elementwise, mask or load result leaves in and beside its destination (all of the claims named). -/
def Obligations.VectorFrames : Prop := Claim.ElementwiseFrame ∧ Claim.MaskFrame ∧ Claim.LoadDestination

/-! ## Matrix, engine and walker instructions (spec/06_matrix_ops.md, spec/10_engine_ops.md, spec/13_walker.md) -/

/-- R125, R132–R138: a matrix instruction that passes its checks, with room in the hart's queue of 4, enters the queue last with its operands,
its vl and its status barrier, counts as issued to engine 7, and at vl > 0 gives its destination registers the result tag. -/
def Claim.MatrixInstructionsQueue : Prop := ∀ (s : State) (hd : Hdr) (z big : Bool) (vc va vb vs : VR) (bar : Option (Fin 128)) (r : Fmt),
  0 < s.me.vl → s.me.mops.length < 4 → (∀ b, bar = some b → b.val < s.me.kern.barriers) →
  let run (cls : Nat) (k : MatKind) (z : Bool) (vs : VR) (o : Out) : Prop :=
    canIssue { cls := cls, hdr := some hd, mvr := matReads k z vc va vb vs, mvw := matDests k vc } s = true →
    matCheck s.me k z vc va vb vs none = some r →
    ∃ (t : State) (q : MatOp), o = .next t ∧ t.me.mops = s.me.mops ++ [q] ∧ q.kind = k ∧ q.z = z ∧ q.vc = vc ∧ q.va = va ∧ q.vb = vb ∧ q.vs = vs
      ∧ q.vl = s.me.vl ∧ q.bar = bar ∧ q.row = 0 ∧ q.started = false ∧ t.me.issued = modAt (· + 1) 7 s.me.issued
      ∧ (∀ v ∈ matDests k vc, (t.me.rv v).tag = tagOf r) ∧ (∀ v, v ∉ matDests k vc → t.me.rv v = s.me.rv v)
      ∧ (∀ v, (t.me.rv v).slots = (s.me.rv v).slots) ∧ t.me.m = s.me.m ∧ SameMem s t
  run 23 .mma z 0 (exec (.mma hd z vc va vb bar) s) ∧ run 24 (.mmas big) z vs (exec (.mmas hd z big vc va vb vs bar) s)
    ∧ run 25 .mmasc z vs (exec (.mmasc hd z vc va vb vs bar) s) ∧ run 26 .mmaq z 0 (exec (.mmaq hd z vc va vb bar) s)
    ∧ run 27 (.mqtrs false) true 0 (exec (.mqtrsLo hd vc va vb bar) s) ∧ run 27 (.mqtrs true) true 0 (exec (.mqtrsUp hd vc va vb bar) s)

/-- R128: the result format of MMA and MMAS by the formats of A and B; any other pair is refused. -/
def Claim.MatrixPairings : Prop := ∀ a b : Fmt,
  (mmaResult a b = some .f32 ↔ (a = .bf16 ∧ b = .bf16) ∨ (a = .f16 ∧ b = .f16) ∨ ((a = .e4m3 ∨ a = .e5m2) ∧ (b = .e4m3 ∨ b = .e5m2)) ∨ (a = .e2m1 ∧ b = .e2m1))
    ∧ (mmaResult a b = some .i32 ↔ ((a = .i8 ∨ a = .u8) ∧ (b = .i8 ∨ b = .u8)) ∨ (a = .i16 ∧ b = .i16) ∨ (a = .plane 4 ∧ b = .plane 4) ∨ (a = .plane 8 ∧ b = .plane 8))
    ∧ (∀ r, mmaResult a b = some r → r = .f32 ∨ r = .i32)

/-- A matrix instruction enters its hart's queue, and the pairs of formats (all of the claims named). -/
def Obligations.MatrixInstructions : Prop := Claim.MatrixInstructionsQueue ∧ Claim.MatrixPairings

/-- R125, R126, R138, R141: the events of a matrix operation at the head of its hart's queue: it starts when the core's Mangle is free and
the hart is the one served next; the Mangle writes its rows two at a time; when every row is written it leaves the queue and the
Mangle is free. -/
def Claim.MatrixEvents : Prop := ∀ (s : State) (u : Nat) (o : MatOp) (l : List MatOp) (err : BitVec 8), (s.hart u).mops = o :: l →
  let c := (s.hart u).core
  ((s.core c).mangle = none → mangleNext s c = some u → ∃ t, exec (.matrixOperationStart c u) s = .next t ∧ (t.core c).mangle = some u
    ∧ (t.hart u).mops = { o with started := true, watch := 0 } :: l ∧ t.mem = s.mem)
  ∧ (o.started = true → (s.core c).mangle = some u → 16 * o.row < o.vl →
    ∃ (t : State) (q : MatOp), exec (.rowPairWrite u err none) s = .next t ∧ (t.hart u).mops = q :: l ∧ o.row < q.row ∧ q.row ≤ o.row + 2
      ∧ (o.vl % 32 = 0 → o.row % 2 = 0 → q.row = o.row + 2) ∧ q.kind = o.kind ∧ q.vl = o.vl ∧ t.mem = s.mem ∧ (∀ v, v ∉ o.dests → (t.hart u).rv v = (s.hart u).rv v))
  ∧ (o.started = true → (s.core c).mangle = some u → o.vl ≤ 16 * o.row →
    ∃ t, exec (.matrixComplete u) s = .next t ∧ (t.hart u).mops = l ∧ (t.core c).mangle = none ∧ t.mem = s.mem)

/-- R93, R94, R129–R132, R134–R136, R138: the values a row pair writes, when no error is met: element (i, n) of C, in slot 16·i + n mod 16 of register
⌊n / 16⌋ of the group, is the sum of the incoming C (+0 or 0 when Z is set) and of K products A (i, k) × B (k, n). A float sum takes the special values
first, then rounds the exact sum once to FP32; an integer sum is clamped once to INT32, or for MMAQ to INT64 in pair ⌊n / 16⌋. MMAS takes the
products of a clear block as +0; MMASC scales each product by its two bytes, and 0xFF makes it a NaN. -/
def Claim.MatrixValues : Prop := ∀ (s : State) (u i n : Nat) (o : MatOp) (l : List MatOp) (err : BitVec 8) (r : Fmt),
  let h := s.hart u
  h.mops = o :: l → o.started = true → (s.core h.core).mangle = some u → (i = o.row ∨ i = o.row + 1) → 16 * i < o.vl → 16 * o.row < o.vl → n < 64 →
  o.vl % 16 = 0 → o.vl ≤ 1024 → o.badWords = [] → o.badRegs = [] → (∀ v ∈ o.sources, h.vBad.getLsbD v.val = false) →
  (∀ v ∈ MatOp.sources { o with z := true }, v ∉ o.dests) → o.kind.result o.fa o.fb = some r →
  let d := 512 / o.fa.width
  let rows := 512 / o.fb.width / 8
  let pa (k : Nat) : Nat := oneAt o.fa (o.reg h o.va) (i * d + k)
  let pb (k : Nat) : Nat := oneAt o.fb (o.reg h (vplus o.vb (k / rows))) (k % rows * 64 + n)
  let here (big : Bool) (k : Nat) : Bool :=
    let b := if big then 32 else 16
    let t := i / b * (d / b) + k / b
    ((o.reg h o.vs).slot (t / 32)).getLsbD (t % 32)
  let present (k : Nat) : Bool := match o.kind with
    | .mmas big => here big k
    | _ => true
  let scale : Nat × Bool := match fmtOf o.tags.2.2 with
    | some (.scale lg short) => (lg, short)
    | _ => (0, false)
  let block := if scale.2 then 16 else 32
  let byteOf (v : VReg) (b : Nat) : Nat := (v.slot (b / 4)).toNat / 2 ^ (8 * (b % 4)) % 256
  let ea (k : Nat) : Nat := byteOf (o.reg h o.vs) (o.va.val % 2 ^ scale.1 * (32 * o.vl / (o.fa.width * block)) + (i * d + k) / block)
  let eb (k : Nat) : Nat := byteOf (o.reg h (vplus o.vs 1)) (k / block * 64 + n)
  let prod (k : Nat) : FVal :=
    let p := ((o.fa.value (pa k)).mul (o.fb.value (pb k))).1
    if !present k then .fin ⟨false, 0, 0⟩
    else match o.kind with
      | .mmasc => if ea k = 0xFF ∨ eb k = 0xFF then .nan false else p.scaled (((ea k : Nat) : Int) - 127 + (((eb k : Nat) : Int) - 127))
      | _ => p
  let slot (v : VR) : Slot := (o.reg h v).slot (16 * i + n % 16)
  let isum (c : Int) : Int := c + ((List.range d).map fun k => if present k then o.fa.stored (pa k) * o.fb.stored (pb k) else 0).sum
  ∃ t, exec (.rowPairWrite u err none) s = .next t ∧
    let new (v : VR) : Slot := ((t.hart u).rv v).slot (16 * i + n % 16)
    match o.kind with
    | .mqtrs _ => True
    | .mmaq =>
      let lo := vplus o.vc (2 * (n / 16))
      let hi := vplus o.vc (2 * (n / 16) + 1)
      let q := (clampTo (-((2 ^ 63 : Nat) : Int)) (((2 ^ 63 : Nat) : Int) - 1)
        (isum (if o.z then 0 else sint 64 ((slot lo).toNat + (slot hi).toNat * 2 ^ 32)))).1
      new lo = BitVec.ofInt 32 q ∧ new hi = BitVec.ofInt 32 (q / ((2 ^ 32 : Nat) : Int))
    | _ =>
      let v := vplus o.vc (n / 16)
      let ps : List FVal := (if o.z then .fin ⟨false, 0, 0⟩ else FF.f32.read (slot v).toNat) :: (List.range d).map prod
      (r = .i32 → new v = BitVec.ofInt 32 (clampTo (-((2 ^ 31 : Nat) : Int)) (((2 ^ 31 : Nat) : Int) - 1) (isum (if o.z then 0 else (slot v).toInt))).1)
        ∧ (r = .f32 → (ps.any FVal.isNan = true ∨ (.inf false ∈ ps ∧ .inf true ∈ ps) → new v = BitVec.ofNat 32 FF.f32.qnan)
          ∧ (ps.any FVal.isNan = false → ∀ b, .inf b ∈ ps → .inf (!b) ∉ ps → new v = BitVec.ofNat 32 (FF.f32.pat b FF.f32.infMag))
          ∧ ∀ ds : List Dy, ps = ds.map .fin → new v = BitVec.ofNat 32 (FF.f32.sum 0 ds).1)

/-- R137: the values a triangular solve writes at its completion, when no error is met: in each system j the row r of the solution is
b (j, r) × 2^s less the exact sum of t (r, c) × y (j, c) over the rows solved before it, rounded half up by s bits and clamped to 32 bits; the slots from vl
up are zero. -/
def Claim.SolveValues : Prop := ∀ (s : State) (u : Nat) (o : MatOp) (l : List MatOp) (up : Bool) (sb sf : Nat),
  let h := s.hart u
  h.mops = o :: l → o.kind = .mqtrs up → o.started = true → (s.core h.core).mangle = some u → o.vl ≤ 16 * o.row → 0 < o.vl → o.vl % 32 = 0 →
  o.badWords = [] → o.badRegs = [] → o.badCells = [] → (∀ v ∈ o.sources, h.vBad.getLsbD v.val = false) →
  o.fa = .fixed 32 sb → o.fb = .fixed 16 sf →
  ∃ t, exec (.matrixComplete u) s = .next t ∧
    let y (e : Nat) : Int := (((t.hart u).rv o.vc).slot e).toInt
    (∀ e, o.vl ≤ e → y e = 0)
    ∧ ∀ j r, 32 * j < o.vl → r < 32 →
      let before (c : Nat) : Bool := if up then decide (r < c) else decide (c < r)
      let factor (c : Nat) : Int := sint 16 (oneAt o.fb (o.reg h (vplus o.vb (r / 4))) (r % 4 * 64 + c))
      let sum := ((List.range 32).map fun c => if before c then factor c * y (32 * j + c) else 0).sum
      y (32 * j + r) = (clampTo (-((2 ^ 31 : Nat) : Int)) (((2 ^ 31 : Nat) : Int) - 1)
        (halfUp sf (((o.reg h o.va).slot (32 * j + r)).toInt * ((2 ^ sf : Nat) : Int) - sum))).1

/-- The events of a matrix operation and the values they write (all of the claims named). -/
def Obligations.MatrixEvents : Prop := Claim.MatrixEvents ∧ Claim.MatrixValues ∧ Claim.SolveValues

/-- R211, R217–R221: CPY and CPYM whose checks pass start a Shuttle copy: the last of the hart's operations to engine 0, with the next
ordinal, from byte 0, holding the two sides, the length and the completion barrier; a register-group destination takes its tag
at issue; a CPYM also queues its MMA, which waits for the copy. -/
def Claim.CopiesStart : Prop := ∀ (s : State) (hd : Hdr) (src : CpySrc) (dst : CpyDst) (xa xc : Reg) (win : Bool) (vb : VR) (t : Tag),
  let h := s.me
  let w := (h.rx xc).toNat
  let len := bits w 29 0
  let ord := h.issued.getD 0 0 + 1
  h.ops.length < 64 → drainWaits s s.cur (fun p => p.vec || p.hvis) = false → h.issued.length = 8 →
  (let a := srcSide h src
    let b := dstSide h dst
    let per := if bits w 63 62 = 0 then h.vl else 128
    let ptr := if bit w 61 then some (8 * bits w 60 42) else none
    let used := match src with
      | .grp v => groupUsed v per len
      | _ => []
    let vwTag : List VR × Tag := match dst with
      | .grp v t => (vgroup v 8, t)
      | _ => ([], 0)
    let xs := (match src with
      | .mem a => [a]
      | .win a => [a]
      | .grp _ => []) ++ (match dst with
      | .mem a => [a]
      | .win a => [a]
      | .grp _ _ => [])
    canIssue { cls := 28, fmts := (tagBit vwTag.2).toList, hdr := some hd, xr := xc :: xs, vr := used, vw := vwTag.1, late := true, acc := some true } s = true →
    (∀ r ∈ used, tagNamed (h.rv r).tag = true) → bits w 41 40 = 0 → bits w 31 30 = 0 → bits w 63 62 < 2 → len % 4 = 0 →
    ((∃ v, src = .grp v) ∨ (∃ v t, dst = .grp v t) → len ≤ 32 * per) → sideBad a len = false → sideBad b len = false → sidesMeet a b len = false →
    barBad h (bit w 39) (bits w 38 32) = false → sideOdd a = false → sideOdd b = false → sideOut s a len = none → sideOut s b len = none →
    (∀ p, ptr = some p → outsideWin s p 8 = false) →
    ∃ (t : State) (o : EngOp), exec (.cpy hd src dst xc) s = .next t ∧ t.me.ops.getLast? = some o ∧ o.eng = 0 ∧ o.ord = ord ∧ o.unit = 0 ∧ o.stop = none
      ∧ o.bar = barOf (bit w 39) (bits w 38 32) ∧ o.kind = .cpy a b len (bits w 63 62 == 1) ptr 0 ∧ t.me.issued.getD 0 0 = ord
      ∧ t.me.ops.length = h.ops.length + 1 ∧ (∀ v g, dst = .grp v g → ∀ r ∈ vgroup v 8, (t.me.rv r).tag = g))
  ∧ (let (z, vc, va, bar) := cpymOps w
    let a : Side := if win then .win (h.rx xa).toNat else .mem (h.rx xa).toNat
    canIssue { cls := 28, fmts := 23 :: (tagBit t).toList, hdr := some hd, xr := [xa, xc], vw := vgroup vb 8, late := true, acc := some true
               mvr := va :: (if z then [] else vgroup vc 4), mvw := vgroup vc 4 } s = true →
    cpymIll h vc va vb bar = false → (matCheck h .mma z vc va vb 0 (some t)).isSome = true → h.mops.length < 4 → bits w 44 0 = 0 → sideBad a 4096 = false →
    sideOdd a = false → sideOut s a 4096 = none →
    ∃ (q : State) (o : EngOp) (m : MatOp), exec (.cpym hd win vb xa t xc) s = .next q ∧ q.me.ops.getLast? = some o ∧ o.eng = 0 ∧ o.ord = ord
      ∧ o.kind = .cpy a (.grp vb []) 4096 true none 0 ∧ q.me.mops.getLast? = some m ∧ m.kind = .mma ∧ m.copy = some ord ∧ m.vb = vb
      ∧ ∀ r ∈ vgroup vb 8, (q.me.rv r).tag = t)

/-- R222–R226: GTHR and EMBAG whose checks pass start an operation of engine 1 or 2 with the next ordinal, from unit 0, and a
register-group destination takes its tag at issue. -/
def Claim.GathersStart : Prop := ∀ (s : State) (hd : Hdr) (m : Option MR) (d vi : VR) (xa xc : Reg) (t : Tag),
  let h := s.me
  let w := (h.rx xc).toNat
  let base := (h.rx xa).toNat
  let rw := bits w 10 0
  let cnt := bits w 21 11
  h.ops.length < 64 → drainWaits s s.cur (fun p => p.vec || p.hvis) = false → base % 4 = 0 →
  let starts (n : Fin 8) (o : Out) (P : State → EngOp → Prop) : Prop :=
    ∃ (q : State) (e : EngOp), o = .next q ∧ q.me.ops.getLast? = some e ∧ e.eng = n ∧ e.ord = h.issued.getD n.val 0 + 1 ∧ e.unit = 0 ∧ e.stop = none ∧ P q e
  (1 ≤ rw → rw ≤ 1024 → cnt ≤ h.vl → barBad h (bit w 47) (bits w 46 40) = false → h.fmt vi = some .i32 →
    (canIssue { cls := 29, fmts := (tagBit t).toList, hdr := some hd, xr := [xa, xc], vr := [vi], mr := m.toList, acc := some true, vw := vgroup d 8 } s = true →
      bits w 63 48 = 0 → cnt * 4 * rw ≤ 32 * h.vl →
      starts 1 (exec (.gthr hd m d xa vi t xc) s) fun q e => (∀ r ∈ vgroup d 8, (q.me.rv r).tag = t) ∧ e.bar = barOf (bit w 47) (bits w 46 40)
        ∧ ∃ act idx, e.kind = .gthr base (bits w 39 22) rw cnt act idx (.grp d []))
    ∧ (canIssue { cls := 29, hdr := some hd, xr := [xa, xc], vr := [vi], mr := m.toList, acc := some true } s = true → outsideWin s (64 * bits w 63 48) (cnt * 4 * rw) = false →
      starts 1 (exec (.gthrWindow hd m xa vi xc) s) fun _ e => e.bar = barOf (bit w 47) (bits w 46 40)
        ∧ ∃ act idx, e.kind = .gthr base (bits w 39 22) rw cnt act idx (.win (64 * bits w 63 48))))
  ∧ (let regs := [vi, vplus vi 1, vplus vi 2]
    let ni := bits w 31 21
    let nb := bits w 20 10
    let fmt := bits w 9 8
    let len := bits w 7 0
    canIssue { cls := 30, hdr := some hd, xr := [xa, xc], vr := regs, vw := vgroup d 8, mw := m.toList, acc := some true } s = true →
    regs.map h.fmt = [some .i32, some .f32, some .i32] → bits w 63 56 = 0 → fmt ≠ 3 → 1 ≤ len → len ≤ (if fmt = 0 then 64 else 128) → 1 ≤ nb → nb ≤ 1024 →
    ni ≤ h.vl → nb * len ≤ 8 * h.vl → barBad h (bit w 55) (bits w 54 48) = false →
    (∀ j, j < ni → ((h.srcV false (vplus vi 2)).slot j).toNat < nb
      ∧ rowAddr base (bits w 47 32) ((h.srcV false vi).slot j).toNat % 256 + len * (if fmt = 0 then 4 else 2) ≤ 256) →
    starts 2 (exec (.embag hd m d xa vi xc) s) fun q e => (∀ r ∈ vgroup d 8, (q.me.rv r).tag = tagOf .f32) ∧ e.bar = barOf (bit w 55) (bits w 54 48)
      ∧ ∃ idx wts bags, e.kind = .embag base (bits w 47 32) ni nb fmt len idx wts bags d m 0)

/-- CPY, CPYM, GTHR and EMBAG start their engine operations (all of the claims named). -/
def Obligations.CopiesAndGathers : Prop := Claim.CopiesStart ∧ Claim.GathersStart

/-- R228, R229, R230, R231, R293: DZERO, DCOPY, SEND, RECV from an empty slot, and WVRUN, when their checks pass, start an operation of their
engine with the next ordinal. -/
def Claim.CommandsStart : Prop := ∀ (s : State) (hd : Hdr) (d vs : VR) (slot : Fin 8) (xd xs xc xh : Reg),
  let h := s.me
  let w := (h.rx xc).toNat
  let len := bits w 31 0
  let dst := (h.rx xd).toNat
  let src := (h.rx xs).toNat
  h.ops.length < 64 → drainWaits s s.cur (fun p => p.vec || p.hvis) = false →
  let starts (n : Fin 8) (o : Out) (P : OpKind → Prop) : Prop :=
    ∃ (q : State) (e : EngOp), o = .next q ∧ q.me.ops.getLast? = some e ∧ e.eng = n ∧ e.ord = h.issued.getD n.val 0 + 1 ∧ e.unit = 0 ∧ e.stop = none ∧ P e.kind
  (bits w 63 40 = 0 → 0 < len → len % 4096 = 0 → touchesWindow dst len = false → barBad h (bit w 39) (bits w 38 32) = false → dst % 4096 = 0 →
    (canIssue { cls := 31, hdr := some hd, xr := [xd, xc], acc := some true } s = true → starts 6 (exec (.dzero hd xd xc) s) (· = .dzero dst len))
    ∧ (canIssue { cls := 31, hdr := some hd, xr := [xd, xc, xs], acc := some true } s = true → touchesWindow src len = false → overlap src dst len = false → src % 4096 = 0 →
      starts 6 (exec (.dcopy hd xd xs xc) s) (· = .dcopy dst src len)))
  ∧ (canIssue { cls := 32, hdr := some hd, xr := [xd, xh], vr := opRegs (h.fmt vs) vs, acc := some true } s = true → h.okSrc (· != .empty) vs = true → (∀ o ∈ h.ops, o.eng = 4 → o.ord ≤ h.issued.getD 4 0) →
    starts 4 (exec (.send hd vs xd xh) s) fun k => ∃ m p, k = .send m p ∧ m.target = h.rx xd ∧ m.header = h.rx xh ∧ m.tag = (h.rv vs).tag ∧ m.n = h.vl)
  ∧ (canIssue { cls := 32, hdr := some hd, xw := [xh], vw := if d.val % 2 = 0 then [d, vplus d 1] else [d] } s = true → tget h.mail slot.val = none →
    (∀ o ∈ h.ops, ∀ e k y, o.kind = .recv e k y → k ≠ slot) → starts 5 (exec (.recv hd d slot xh) s) (· = .recv d slot xh))
  ∧ (let win := bit w 40
    canIssue { cls := 34, fmts := if win then [] else (tagBit (runTag w)).toList, hdr := some hd, xr := [xs, xc], acc := some true
               vw := if win then [] else vgroup d 8, late := true } s = true →
    bits w 63 51 = 0 → (win = true → d = 0 ∧ runTag w = 0) → (win = false → walkTag (runTag w) = true) →
    barBad h (bit w 39) (bits w 38 32) = false → src % 64 = 0 →
    starts 3 (exec (.wvrun hd d xs xc) s) fun k => ∃ v : Walk, k = .walk v ∧ v.desc = src ∧ v.arg = bits w 31 0 ∧ v.loaded = false)

/-- R213, R231: a RECV whose slot holds a message takes it at once: its register holds the message's tag and slots, xh its header, the slot
is empty and the operation is complete. -/
def Claim.ReceiveTakesMessage : Prop := ∀ (s : State) (hd : Hdr) (d : VR) (slot : Fin 8) (xh : Reg) (m : Msg),
  canIssue { cls := 32, hdr := some hd, xw := [xh], vw := if d.val % 2 = 0 then [d, vplus d 1] else [d] } s = true →
  drainWaits s s.cur (fun p => p.vec || p.hvis) = false → s.me.ops = [] → tget s.me.mail slot.val = some m → recvCause s.me d m = none →
  s.me.replaying = false → m.pair = false → s.me.issued.length = 8 →
  ∃ t, exec (.recv hd d slot xh) s = .next t ∧ (t.me.rv d).tag = m.tag ∧ (∀ e, (t.me.rv d).slot e = m.lo.getD e 0) ∧ (xh ≠ 0 → t.me.rx xh = m.header)
    ∧ tget t.me.mail slot.val = none ∧ t.me.ops = [] ∧ t.me.seqc 5 = t.me.issued.getD 5 0 ∧ (∀ r, r ≠ d → t.me.rv r = s.me.rv r)

/-- DZERO, DCOPY, SEND, RECV and WVRUN start or finish their operations (all of the claims named). -/
def Obligations.EngineCommands : Prop := Claim.CommandsStart ∧ Claim.ReceiveTakesMessage

/-- R296, R297: the register instructions of a running walk complete: the result in wd (w0 ignores it), the program counter one further, one
more instruction counted. An error in a source is noted with the result (assumption 39). -/
def Claim.WalkerRegisterResults : Prop := ∀ (s : State) (wd wa wb : WReg) (i : BitVec 14) (c : Fin 6) (o : EngOp) (w : Walk),
  runningWalk s = some (o, w) → w.count + 1 < 2 ^ 24 →
  let a := w.rx wa
  let b := w.rx wb
  let n : Word := BitVec.ofInt 64 i.toInt
  let gives (v : Word) (r : Out) : Prop := WalkGoes s o (w.wx wd v (w.tainted wa || w.tainted wb)) (w.pc + 1) r
  let sh := (b + n).toInt
  gives (a + b + n) (exec (.addw wd wa wb i) s) ∧ gives (a - b) (exec (.subw wd wa wb) s) ∧ gives (a &&& b) (exec (.andw wd wa wb) s)
    ∧ gives (if sh ≤ -64 ∨ 64 ≤ sh then 0 else if 0 ≤ sh then a <<< sh.toNat else a >>> (-sh).toNat) (exec (.shlw wd wa wb i) s)
    ∧ gives (if (match c.val with
        | 0 => decide (a = b) | 1 => decide (a ≠ b) | 2 => decide (a.toInt < b.toInt) | 3 => decide (b.toInt ≤ a.toInt)
        | 4 => decide (a.toNat < b.toNat) | _ => decide (b.toNat ≤ a.toNat)) then 1 else 0) (exec (.cmpw c wd wa wb) s)

/-- R297: the branches of a running walk complete: taken to pc + offset when the target lies inside the program, else past the branch; LOOPW
counts its register down and branches while it was above one; SIGW sets the event bit; ENDW completes the operation. -/
def Claim.WalkerControl : Prop := ∀ (s : State) (wa : WReg) (i : BitVec 14) (o : EngOp) (w : Walk),
  runningWalk s = some (o, w) → w.count + 1 < 2 ^ 24 →
  let t : Int := w.pc + i.toInt
  let inside : Prop := 0 ≤ t ∧ t < w.cnt
  let z := w.rx wa
  (z = 0 → inside → WalkGoes s o w t.toNat (exec (.brwZ wa i) s)) ∧ (z ≠ 0 → WalkGoes s o w (w.pc + 1) (exec (.brwZ wa i) s))
    ∧ (z ≠ 0 → inside → WalkGoes s o w t.toNat (exec (.brwNz wa i) s)) ∧ (z = 0 → WalkGoes s o w (w.pc + 1) (exec (.brwNz wa i) s))
    ∧ (1 < z.toNat → inside → WalkGoes s o (w.wx wa (z - 1) (w.tainted wa)) t.toNat (exec (.loopw wa i) s))
    ∧ (z.toNat ≤ 1 → WalkGoes s o (w.wx wa 0 false) (w.pc + 1) (exec (.loopw wa i) s))
    ∧ (∃ q, exec .sigw s = .next q ∧ q.me.event = true ∧ q.mem = s.mem)
    ∧ exec .endw s = .next (completeOp s s.cur { o with kind := .walk { w with count := w.count + 1 } })

/-- Without a running walk of the executing hart no walker instruction does anything: a move that is not enabled. -/
def Claim.WalkerIdle : Prop := ∀ (s : State) (wd wa wb wc : WReg) (i : BitVec 14) (c : Fin 6) (sz : Fin 4), runningWalk s = none →
  ∀ x ∈ [Instr.addw wd wa wb i, .subw wd wa wb, .andw wd wa wb, .shlw wd wa wb i, .cmpw c wd wa wb, .brwZ wa i, .brwNz wa i, .loopw wa i, .sigw, .endw,
      .ldw sz wd wa i, .ldix sz wd wa wb, .emit sz wb wa i, .emitz wa wb, .flush wa wb, .waitw wa wb, .haccRst wd, .haccAcc wd wa wb wc],
    exec x s = .refused .noWalk

/-- The register and control instructions of a running walk complete, and without one they refuse (all of the claims named). -/
def Obligations.WalkerRegisterInstructions : Prop := Claim.WalkerRegisterResults ∧ Claim.WalkerControl ∧ Claim.WalkerIdle

/-- R297, R298, R299: the loads, emissions, window doublewords and hash instructions of a running walk complete where their access is
legal and reads no uncorrectable error. How an error in a register spreads is assumption 39; the bytes a walk yields to later stores of its hart
(`walkWrite`) are assumption 74. -/
def Obligations.WalkerMemoryResults : Prop := ∀ (s : State) (sz : Fin 4) (wd wa wb wc : WReg) (i : BitVec 14) (o : EngOp) (w : Walk),
  runningWalk s = some (o, w) → w.count + 1 < 2 ^ 24 →
  let n := wsize sz
  let im : Word := BitVec.ofInt 64 i.toInt
  let load (a : Word) (taint : Bool) (r : Out) : Prop := ∀ t b, walkLoad s o w.group.isSome a.toNat n = .ok t b →
    r = .next (setOp t t.cur { o with
      kind := .walk { (w.wx wd (BitVec.ofNat 64 (natOf (plain b))) (anyBad b || taint)) with pc := w.pc + 1, count := w.count + 1, key := 0 }
      watch := 0 })
  let at_ := (w.rx wa + im).toNat
  let off := (w.rx wa).toNat
  let taint := w.tainted wa || w.tainted wb
  let goes (t : State) (r : Out) : Prop := r = .next (setOp t t.cur { o with kind := .walk { w with pc := w.pc + 1, count := w.count + 1, key := 0 }, watch := 0 })
  let turn (a len : Nat) : Prop := winBehind s.me o a len = false
  load (w.rx wa + im) (w.tainted wa) (exec (.ldw sz wd wa i) s)
    ∧ load (w.rx wa + w.rx wb * BitVec.ofNat 64 n) taint (exec (.ldix sz wd wa wb) s)
    ∧ (at_ % n = 0 → at_ + n ≤ tileLen o w → (w.group = none → turn (w.emitOff + at_) n) → goes (emitBytes s o w taint at_ (bytesOf n (w.rx wb).toNat)) (exec (.emit sz wb wa i) s))
    ∧ (off % 4 = 0 → (w.rx wb).toNat % 4 = 0 → off + (w.rx wb).toNat ≤ tileLen o w →
      (w.group = none → turn (w.emitOff + off) (w.rx wb).toNat) → goes (emitBytes s o w taint off (List.replicate (w.rx wb).toNat 0)) (exec (.emitz wa wb) s))
    ∧ (off % 8 = 0 → outsideWin s off 8 = false →
      (taint = false → turn off 8 → goes (walkWrite s w off (bytesOf 8 (w.rx wb).toNat)) (exec (.flush wa wb) s))
        ∧ (winBad s s.me.crew off 8 = false → (w.rx wb).toNat ≤ natOf (winRead s s.me.crew off 8) → goes s (exec (.waitw wa wb) s)))
    ∧ (w.htLog ≠ 0 → turn w.htOff (8 * 2 ^ w.htLog) → (∃ t, exec (.haccRst wd) s = .next t ∧ t.mem = s.mem)
      ∧ (taint = false → w.tainted wc = false →
       ((w.rx wc).toNat ≤ w.key → WalkGoes s o (w.wx wd (w.rx wc) false) (w.pc + 1) (exec (.haccAcc wd wa wb wc) s))
      ∧ (∀ t k v j, w.key < (w.rx wc).toNat →
        htPair s o (w.rx wa + BitVec.ofNat 64 (4 * w.key)).toNat (w.rx wb + BitVec.ofNat 64 (4 * w.key)).toNat = .ok t (k, v) → k ≠ emptyKey →
        htProbe t w k (2 ^ w.htLog) (k * 0x9E3779B1 % 2 ^ 32 / 2 ^ (32 - w.htLog)) = some j → htBad t w j = false → (htEntry t w j).1 = k →
        exec (.haccAcc wd wa wb wc) s = htDone o w wd w.key (w.rx wc).toNat (htPut t w j k (FF.f32.add 0 (htEntry t w j).2 v).1))))

/-! ## System and mend instructions (spec/12_control_ops.md, spec/15_translation.md, spec/16_isolation.md, spec/17_menders.md) -/

/-- R287, R281, R319, R320, R337, R288: FARM, FARMWAIT of an ended farm, PGREQ of resident pages, PGHINT, ASPSET of an assigned ASID, PGMAP,
FENCECAP and TQPUSH complete. FARM puts its launch last in the context's queue and reserves xd; FARMWAIT writes the status of an ended
farm after an acquire; ASPSET returns the old aspace; PGMAP writes its entry and invalidates; FENCECAP clears the bit of the frozen
hart's core; TQPUSH hands its active elements to the queue. -/
def Obligations.SystemInstructions : Prop := ∀ (s : State) (hd : Hdr) (m : Option MR) (d a b : Reg) (v : VR),
  let h := s.me
  let x := h.rx a
  let y := h.rx b
  let sys : Prof := { cls := 7, priv := true, xr := [a, b], xw := [d] }
  (canIssue (shortProf 6 [a] [d]) s = true →
    (∃ t, exec (.farm d a) s = .next t ∧ t.me.pc = h.pc + 4 ∧ t.me.x = h.x ∧ t.me.farmPend = h.farmPend ++ [(s.nextId, d)] ∧ SameMem s t
      ∧ (t.ctx h.ctx).launches = (s.ctx h.ctx).launches ++ [{ record := x.toNat, aspace := h.aspace, hart := some (s.cur, s.nextId) }])
    ∧ (x.toNat < 2 ^ 32 → x.toNat ≠ h.farm → h.farmWait = none →
      (∀ f, s.farm? h.ctx x.toNat = some f → f.code = .done ∨ f.code = .contained) →
      ∃ t, exec (.farmwait d a) s = .next t ∧ t = (acquire 3 s).setMe ((acquire 3 s).me.wx d (statusWord x.toNat 0 .done)).done))
  ∧ (canIssue (shortProf 5 [a, b] [d]) s = true →
    (y = 0 → WritesX s d 0 (exec (.pgreq d a b) s) ∧ WritesX s d 0 (exec (.pghint d a b) s))
    ∧ (y ≠ 0 → rangeBad x.toNat y.toNat = true → WritesX s d 2 (exec (.pgreq d a b) s) ∧ WritesX s d 2 (exec (.pghint d a b) s))
    ∧ (y ≠ 0 → rangeBad x.toNat y.toNat = false →
      (∃ t, exec (.pghint d a b) s = .next t ∧ t.me.pc = h.pc + 4 ∧ (d ≠ 0 → t.me.rx d = 0))
      ∧ ((∀ p ∈ rangePages x.toNat y.toNat, walk s h.aspace (p * 4096) ≠ .absent) → (∀ q ∈ (s.ctx h.ctx).reqRefused, q.1 ≠ s.cur) →
        (∀ r ∈ (s.ctx h.ctx).reqs, s.cur ∉ r.waiters) →
        ∃ t, exec (.pgreq d a b) s = .next t ∧ t.me.pc = h.pc + 4 ∧ (d ≠ 0 → t.me.rx d = 0) ∧ (∀ r, r ≠ d → t.me.rx r = h.rx r) ∧ SameMem s t)))
  ∧ (canIssue { cls := 7, priv := true, xr := [a], xw := [d] } s = true → bits x.toNat 63 60 = 0 → (s.ctx h.ctx).asids.contains (BitVec.ofNat 16 (asidOf x)) = true →
    drainWaits s s.cur (agentStores true true) = false →
    let t := drainAll (orderLoads s s.cur true true true true) s.cur
    exec (.aspset d a) s = .next (t.setMe ({ (t.me.wx d t.me.aspace) with aspace := x } : Hart).done))
  ∧ (canIssue sys s = true → drainWaits s s.cur (agentStores true true) = false →
    let s1 := drainAll (orderLoads s s.cur true true true true) s.cur
    let w := (s1.me.rx a).toNat
    let e := (s1.me.rx b).toNat
    let va := w - w % 4
    let gives (n : Word) (t : State) : Prop := exec (.pgmap d a b) s = .next (t.setMe (t.me.wx d n).done)
    if w % 4 = 3 ∨ va % (4096 * 512 ^ (w % 4)) ≠ 0 ∨ canonical va = false ∨ inWindow va = true ∨ bits e 63 54 ≠ 0 then gives 2 s1
    else (entryAt s1 va (w % 4) 5 (rootOf s1.me.aspace) = none → gives 1 s1)
      ∧ ∀ ea, entryAt s1 va (w % 4) 5 (rootOf s1.me.aspace) = some ea →
        invalWaits s1 (asidOf s1.me.aspace) (levelPages va (w % 4)) = false →
        gives 0 (invalidate (sysWrite s1 ea (bytesOf 8 e)) (asidOf s1.me.aspace) (levelPages va (w % 4))))
  ∧ (canIssue sys s = true →
    let w := y.toNat
    ∀ u r, handled s x = some (u, r) → (s.ctx h.ctx).fenceRight = true → w < 128 → maskBits.getLsbD w = true →
      let core := coreOf r.hartid
      ((s.core core).mask.getLsbD w = true → exec (.fencecap d a b) s = .next ((fenceBit s core w).setMe ((fenceBit s core w).me.wx d 0).done))
        ∧ ((s.core core).mask.getLsbD w = false → WritesX s d 1 (exec (.fencecap d a b) s)))
  ∧ (canIssue { cls := 33, hdr := some hd, xr := [a], vr := [v], mr := m.toList } s = true → h.fmt v = some .i32 →
    drainWaits s s.cur (agentStores true true) = false →
    let ts := ((List.range h.vl).filter (activeAt (h.emask m))).map (h.srcV false v).slot
    let t := handTokens (performAt s s.cur 2 true true true true) h.ctx x.toNat ts
    exec (.tqpush hd m v a b) s = .next (t.setMe (t.me.doneL hd)))

/-- R355–R361: the mend instructions complete: FRZNEXT takes the oldest event, FRZRD, FRZRDV, FRZWR and FRZWRV read and write the registers
of the frozen hart of a valid handle, FRZGO resumes it, FRZEND ends its work, and FRZBAR arrives for it; an invalid handle gives status 1 of
FRZWR, FRZGO, FRZEND and FRZBAR and freezes FRZRD, FRZRDV and FRZWRV with ILLEGAL_OP. -/
def Obligations.MendInstructions : Prop := ∀ (s : State) (d a b : Reg) (v : VR) (u i : Nat) (r : FrzRecord),
  let h := s.me
  let c := h.ctx
  let mend (xr xw : List Reg) (vr vw : List VR) : Bool := canIssue { cls := 7, priv := true, xr := xr, xw := xw, vr := vr, vw := vw } s
  let t := s.hart u
  let sel := (h.rx b).toNat
  let gives (o : Out) (q : State) (w : Word) : Prop := o = .next (q.setMe (q.me.wx d w).done)
  (mend [] [d] [] [] = true →
    ((∀ e ∈ (s.ctx c).events, e.taken = true ∨ e.handle = 0) → WritesX s d 0 (exec (.frznext d) s))
    ∧ (∀ k e, findIdx (fun e => !e.taken && e.handle != 0) (s.ctx c).events = some k → (s.ctx c).events[k]? = some e →
      let q := dispatchEntry s c k
      ((s.hart e.hart).place.isSome = true →
        gives (exec (.frznext d) s) (holdCrew (q.modCtx c fun x => { x with
          handles := x.handles ++ [{ value := e.handle, hart := e.hart, owner := q.cur }] }) e.hart) e.handle)
      ∧ ((s.hart e.hart).place = none → let w := (s.hart e.hart).crew
        exec (.frznext d) s = ownedWait (s.setCrew w { (s.crew w) with wanted := true }))))
  ∧ (handled s (h.rx a) = some (u, r) →
    (mend [a, b] [d] [] [] = true →
      (∀ w, selector (h.rx b) = some (sel / 4096, sel % 4096) → frozenRead s u r (sel / 4096, sel % 4096) = some w →
        t.hazards (selProf (sel / 4096, sel % 4096) false) [] = [] → WritesX s d w (exec (.frzrd d a b) s))
      ∧ (h.rx b = 0 → drainWaits s s.cur (agentStores true true) = false →
        exec (.frzgo d a b) s = .next (resume ((releaseHandle (drainAll s s.cur) c (h.rx a)).modMe fun h => (h.wx d 0).done) u))
      ∧ (sel < t.kern.barriers → let bar := (s.crew t.crew).bar sel
        let p := performAt s u bar.scope.val true true true true
        (bar.scope ≠ 0 → drainWaits s u (fun _ => true) = false) → (bar.scope = 3 → (p.hart u).hostLines = []) →
        gives (exec (.frzbar d a b) s) (arriveAt (p.modHart u fun h => h.setToken sel (some bar.phase)) t.crew sel (some t.rank)) 0))
    ∧ (mend [d, a, b] [d] [] [] = true → i < 32 → sel = 4096 + i → t.hazards (selProf (1, i) true) [] = [] →
      gives (exec (.frzwr d a b) s) (s.setHart u (t.wx (Fin.ofNat 32 i) (h.rx d))) 0)
    ∧ (mend [a, b] [] [] [v] = true → (i < 32 → sel = 3 * 4096 + i → t.hazards (selProf (3, i) false) [] = [] →
        exec (.frzrdv v a b) s = .next (s.setMe (h.wvSb v (t.rv (Fin.ofNat 32 i))).done))
      ∧ (i < 16 → sel = 4 * 4096 + i → t.hazards (selProf (4, i) false) [] = [] →
        exec (.frzrdv v a b) s = .next (s.setMe (h.wvSb v (maskImage 1024 (t.rm (Fin.ofNat 16 i)))).done)))
    ∧ (mend [a, b] [] [v] [] = true → (i < 32 → sel = 3 * 4096 + i → tagAllowed t (h.srcV false v).tag = true → t.hazards (selProf (3, i) true) [] = [] →
        let q := s.setHart u (t.wvSb (Fin.ofNat 32 i) (h.srcV false v))
        exec (.frzwrv v a b) s = .next (q.setMe q.me.done))
      ∧ (i < 16 → sel = 4 * 4096 + i → (h.srcV false v).tag = tagOf .mimg → t.hazards (selProf (4, i) true) [] = [] →
        let q := s.setHart u (t.wmSb (Fin.ofNat 16 i) (imageMask (h.srcV false v)))
        exec (.frzwrv v a b) s = .next (q.setMe q.me.done)))
    ∧ (mend [a] [d] [] [] = true → drainWaits s s.cur (agentStores true true) = false →
      exec (.frzend d a) s = .next (killHart ((releaseHandle (drainAll s s.cur) c (h.rx a)).modMe fun h =>
        (h.wx d (if t.role = .strip ∧ t.kern.versioned then Hart.taskWord s t else 0)).done) u)))
  ∧ (handled s (h.rx a) = none →
    let ill (o : Out) : Prop := o = stopAt .illegalOp h.pc (some 0) s
    (mend [a] [d] [] [] = true → WritesX s d 1 (exec (.frzend d a) s))
    ∧ (mend [a, b] [d] [] [] = true → WritesX s d 1 (exec (.frzgo d a b) s) ∧ WritesX s d 1 (exec (.frzbar d a b) s) ∧ ill (exec (.frzrd d a b) s))
    ∧ (mend [d, a, b] [d] [] [] = true → WritesX s d 1 (exec (.frzwr d a b) s))
    ∧ (mend [a, b] [] [] [v] = true → ill (exec (.frzrdv v a b) s)) ∧ (mend [a, b] [] [v] [] = true → ill (exec (.frzwrv v a b) s)))

/-! ## Events: launches and residency (spec/11_scheduling.md, spec/18_recovery.md) -/

/-- R244: a store to a launch port of a record address enqueues a launch while fewer than 64 wait; one that finds 64 waiting, or of 0 or of a
value that is not 64-byte aligned, sets the overflow bit and enqueues nothing; bit 63 of the queue register clears that bit. R376, R377: the
port of a context that is contained or about to be enqueues nothing either. -/
def Claim.LaunchPort : Prop := ∀ (s : State) (c : Nat) (v : Word) (k : Context), hostReady s = true → tget s.ctxs c = some k →
  (k.contained = false → k.containing = false →
    (v ≠ 0 → v.toNat % 64 = 0 → k.portWaiting < 64 →
      exec (.launchPortStore c v) s = .next (s.setCtx c { k with
        launches := k.launches ++ [{ record := v.toNat, aspace := k.aspace }], portCount := (k.portCount + 1) % 2 ^ 32 }))
    ∧ (v = 0 ∨ v.toNat % 64 ≠ 0 ∨ 64 ≤ k.portWaiting → exec (.launchPortStore c v) s = .next (s.setCtx c { k with overflow := true })))
  ∧ (k.contained = true ∨ k.containing = true → exec (.launchPortStore c v) s = .next (s.setCtx c { k with overflow := true }))
  ∧ (v.getLsbD 63 = true → exec (.launchQueueClear c v) s = .next (s.setCtx c { k with overflow := false }))
  ∧ (v.getLsbD 63 = false → exec (.launchQueueClear c v) s = .next s)

/-- R236, R243, R251: a context's oldest launch is processed: a record that cannot be read is rejected and counted as an unwritten status; a
port launch whose record, header and values pass every check is accepted. A farm whose strips or crews have all ended, with no store to
host memory awaited, ends. -/
def Obligations.FarmsStartAndEnd : Prop := ∀ (s : State) (c : Nat) (l : Launch) (rest : List Launch),
  (s.ctx c).launches = l :: rest → (s.ctx c).contained = false → (s.ctx c).containing = false →
  let s1 := s.modCtx c fun k => { k with launches := rest }
  (hubRead s1 l.aspace l.record 160 = .fail → l.hart = none → l.queue = none →
    ∃ t, exec (.launchProcess c) s = .next t ∧ (t.ctx c).launches = rest ∧ (t.ctx c).unwritten = ((s.ctx c).unwritten + 1) % 2 ^ 32
      ∧ (t.ctx c).unwCode = 0x14 ∧ (t.ctx c).unwStep1 = true ∧ t.farms = s.farms ∧ SameMem s t)
  ∧ (∀ s2 b s3 k kern s4 bank, hubRead s1 l.aspace l.record 160 = .ok s2 b → l.queue = none →
    let r : Rec := { addr := l.record, bytes := b }
    r.bad r.levels = false → readHeader s2 l.aspace r.kernel false = .ok s3 k → k.major = 3 → k.minor ≤ 2 → effective r k 0 = some kern →
    capacity s3 c kern = true → readBank s3 l r kern = .ok s4 bank →
    (bit r.control 11 = true → (s4.ctx c).recordOn = true → ∀ p ∈ regionLines (s4.ctx c), isOwned s4 (asidOf (s4.ctx c).aspace) p = false) → (r.crewMode = true ∨ r.order ≠ 3) →
    exec (.launchProcess c) s = .next (acceptFarm s4 c l r kern k false r.levels (bankWords bank) []))
  ∧ ∀ f x, s.farm? c f = some x → (x.code = .accepted ∨ x.code = .held) → x.finished = true →
    x.quiet s = true → exec (.farmEnd c f) s = .next (endFarm s x)

/-- R265–R268: the registers of an assigned hive queue: a binding of 0 unbinds and discards the tokens, a control write with a legal value sets
it and clears the refused bit, any other sets that bit; the oldest waiting block is appended once there is room, and fires when it reaches the
threshold, unless the timer has fired in that hub cycle; an expired timer fires. That a binding or a control write fires for tokens that are
there already is the model's choice (assumption 83), and a bound record that cannot be read counts no constant words (assumption 40). -/
def Claim.HiveQueues : Prop := ∀ (s : State) (c q : Nat) (v : Word) (h : Hive), tget s.hives q = some h → h.ctx = c →
  (hostReady s = true →
    (v ≠ 0 → let t := { s with hives := tput s.hives q { h with binding := v } }
      exec (.hiveBindingWrite c q v) s = .next (if h.binding = 0 ∧ (h.due = true ∨ h.threshold ≤ h.tokens.length) then hiveLaunch t q true else t))
    ∧ (v = 0 → ∃ t, exec (.hiveBindingWrite c q v) s = .next t ∧ ∃ g, tget t.hives q = some g ∧ g.binding = 0 ∧ g.tokens = [] ∧ g.control = h.control ∧ t.mem = s.mem)
    ∧ (let n := bits v.toNat 12 0
      let put (g : Hive) : State := { s with hives := tput s.hives q g }
      exec (.hiveControlWrite c q v) s = .next (
        if bits v.toNat 63 48 ≠ 0 ∨ n = 0 ∨ 4096 < n ∨ bits v.toNat 15 13 = 0 ∨ 4096 < boundConsts s h + 1 + n then put { h with refused := true }
        else if n ≤ h.tokens.length ∧ (h.due = true ∨ h.threshold = 0 ∨ h.tokens.length < h.threshold) then
          hiveLaunch (put { h with control := v, refused := false }) q true
        else put { h with control := v, refused := false })))
  ∧ (∀ b rest, h.pending = b :: rest → h.tokens.length + b.length ≤ 4096 →
    let g : Hive := { h with pending := rest, tokens := h.tokens ++ b, pushed := h.pushed + b.length, timer := if h.tokens = [] then some s.hub else h.timer }
    let w := ringTokens { s with hives := tput s.hives q g } (s.ctx h.ctx) h.ring.toNat h.pushed b
    (h.threshold ≤ h.tokens.length ∨ g.tokens.length < h.threshold → exec (.tokenBlockAppend q) s = .next w)
      ∧ (h.tokens.length < h.threshold → h.threshold ≤ g.tokens.length → exec (.tokenBlockAppend q) s = .next (if h.timerAt = some s.hub then w else hiveLaunch w q true)))
  ∧ (∀ n, h.timer = some n → h.limit ≠ 0 → h.due = false → n + h.limit ≤ s.hub →
    exec (.hiveTimerExpiry q) s = .next (hiveLaunch { s with hives := tput s.hives q { h with due := true, timerAt := some s.hub } } q true))

/-- The launch port and the hive-queue registers and events (all of the claims named). -/
def Obligations.LaunchPortsAndHiveQueues : Prop := Claim.LaunchPort ∧ Claim.HiveQueues

/-- R248–R250, R253, R259: a strip starts in a free slot where it may be placed, in a hart with the state of R37, its indices in x10 up; a crew
becomes resident with one hart per slot in rank order; a crew whose slice is over and that may be replaced is marked; an owner of lent
groups with a new strip takes them back. -/
def Obligations.ResidencyStarts : Prop := ∀ (s : State) (c f slot n crew u : Nat) (x x' : Farm) (d : Cand) (k : Crew) (slots : List Nat),
  (s.farm? c f = some x → x.nextStrip = some (n, x') → mayHand s x = true → occupant s slot = none → stripCand s x = some d → canPlace s d [slot] = true →
    mayTake s d [slot] = true →
    ∃ t, exec (.stripStart c f slot) s = .next t ∧ (t.hart s.nextId).place = some slot ∧ (t.hart s.nextId).pc = BitVec.ofNat 64 x.kern.entry
      ∧ (t.hart s.nextId).status = .running ∧ (t.hart s.nextId).priv = false ∧ (t.hart s.nextId).x = (stripHart x n (s.nextId + 1) slot).x
      ∧ t.farms = tput s.farms (fkey x'.ctx x'.id) x' ∧ t.mem = s.mem)
  ∧ (tget s.crews crew = some k → crewCand s crew k = some d → s.farm? k.ctx k.farm = some x → k.started = false → canPlace s d slots = true →
    mayTake s d slots = true → k.size = slots.length →
    ∃ t, exec (.crewMemberStart crew slots) s = .next t ∧ t.mem = s.mem ∧ (t.crew crew).started = true ∧ (t.crew crew).quad = some (quadOf (slots.headD 0))
      ∧ ∀ i, i < slots.length → (t.hart (s.nextId + i)).place = slots[i]? ∧ (t.hart (s.nextId + i)).rank = i
        ∧ (t.hart (s.nextId + i)).pc = BitVec.ofNat 64 x.kern.entry ∧ (t.hart (s.nextId + i)).crew = crew)
  ∧ (tget s.crews crew = some k → mayReplace s k = true → k.replace = false →
    (∀ p ∈ s.crews, p.1 = crew ∨ p.2.ctx ≠ k.ctx ∨ p.2.farm ≠ k.farm ∨ mayReplace s p.2 = false) →
    exec (.sliceExpiry crew) s = .next (s.setCrew crew { k with replace := true }))
  ∧ ((s.hart u).lentTo.isSome = true → (s.hart u).active = true → exec (.laneReclaim u) s = .next (reclaim s u))

/-- R366–R378: a crew that is to leave stops, each of its harts with its engine operations at their stopping points; a stopped crew is saved when
its context has room for its area and the area can be written, and its places are freed; a saved crew whose area checks is rebuilt where it may
be placed, its area free again; a context that is to be contained is contained: no hart and no crew of it is left, none of its farms runs, its
launches, handles and events are gone, and its port enqueues nothing (`LaunchPort`). The layout and the stepping of a save are assumption 47, and
that a containment is one event is assumption 48. -/
def Obligations.CrewsLeaveAndReturn : Prop := ∀ (s : State) (crew c : Nat) (k : Crew), tget s.crews crew = some k →
  (k.quad.isSome = true → k.stopped = false → k.farm ≠ 0 → heldByMender s k = false → k.replace = true →
    let t := k.harts.foldl stopHart s
    exec (.preemption crew) s = .next (t.setCrew crew { (t.crew crew) with stopped := true, replace := true }))
  ∧ (k.quad.isSome = true → k.stopped = true → (s.ctx k.ctx).containing = false → k.farm ≠ 0 → (heldByMender s k = true → k.evict = true) →
    let x := s.ctx k.ctx
    let n := areaSize s k
    (freeArea s k.ctx n = none → exec (.hamperSave crew) s = .next (abandonSave s crew true 0))
    ∧ ∀ off, freeArea s k.ctx n = some off →
      let base := x.saveBase.toNat + off
      let f (a : Nat) : Byte := areaByte s.fresh s k (a - base)
      ∀ s1, writeArea x.aspace f (n / 64) base { s with fresh := s.fresh + n } = .ok s1 →
        ∀ s2, agentWrite s1 x.aspace true base (bytesOf 8 (1 + (Config.checkCode k.ctx (tabulate n fun i => f (base + i))).toNat * 2 ^ 8)) = .ok s2 →
        ∃ t, exec (.hamperSave crew) s = .next t ∧ (t.crew crew).quad = none ∧ (t.crew crew).area = some off ∧ (t.crew crew).stopped = false)
  ∧ (∀ d off slots, crewCand s crew k = some d → k.area = some off → (s.ctx k.ctx).containing = false → canPlace s d slots = true →
    mayTake s d slots = true ∨ wantedByMender s k = true → ∀ s1 b, hubRead s (s.ctx k.ctx).aspace ((s.ctx k.ctx).saveBase.toNat + off) (areaSize s k) = .ok s1 b →
    bit (fieldAt b 0 8) 0 = true → fieldAt b 0 8 / 2 ^ 8 = (Config.checkCode k.ctx (List.replicate 8 0 ++ b.drop 8)).toNat →
    ∀ s2, agentWrite s1 (s.ctx k.ctx).aspace true ((s.ctx k.ctx).saveBase.toNat + off) (bytesOf 8 0) = .ok s2 →
    ∃ t, exec (.hamperRestore crew slots) s = .next t
      ∧ ((∀ u ∈ k.harts, (s.hart u).ops = []) → (t.crew crew).quad = some (quadOf (slots.headD 0)) ∧ (t.crew crew).area = none))
  ∧ ((s.ctx c).containing = true → 0 < c → exec (.containment c) s = .next (contain s c)
    ∧ let t := contain s c
      (t.ctx c).contained = true ∧ (t.ctx c).containing = false ∧ (t.ctx c).launches = [] ∧ (t.ctx c).handles = [] ∧ (t.ctx c).events = []
      ∧ (∀ p ∈ t.harts, p.2.ctx ≠ c) ∧ (∀ p ∈ t.crews, p.2.ctx ≠ c)
      ∧ ((∀ p ∈ s.farms, p.1 = fkey p.2.ctx p.2.id) → s.farms.Pairwise (fun a b => a.1 < b.1) →
        ∀ p ∈ t.farms, p.2.ctx = c → p.2.code ≠ .accepted ∧ p.2.code ≠ .held))

/-! ## Events: memory, engines, messages and recovery (spec/08_ordering.md, spec/10_engine_ops.md, spec/17_menders.md, spec/18_recovery.md) -/

/-- R208, R170, R187, R173, R181: an outstanding load lands and frees its registers; a store that no earlier one must precede is performed at
its home; the host completes an access while a link is up, which performs its line at .s; a clean L1 line leaves its core; an
update-only line leaves by merging. -/
def Obligations.MemoryEvents : Prop := ∀ (s : State) (u k core asid line : Nat),
  let h := s.hart u
  let here (l : L1Line) : Bool := l.core == core && l.asid == asid && l.line == line
  let mine (q : UpdLine) : Bool := q.core == core && q.asid == asid && q.line == line
  (k < h.landing.length → exec (.loadResultLand u k) s = .next (s.setHart u { h with landing := h.landing.take k ++ h.landing.drop (k + 1) }))
  ∧ (∀ p, h.stores[k]? = some p → (∀ q ∈ h.stores.take k, q.precedes p = false) → p.waits s u = false →
    exec (.storeAcknowledge u k) s = .next (performStore (s.setHart u { h with stores := h.stores.take k ++ h.stores.drop (k + 1) }) u p))
  ∧ (∀ a l, h.hostLines[k]? = some (a, l) → s.mgmt.linkUp.any id = true →
    exec (.hostAcknowledge u k) s = .next (flushLine (s.setHart u { h with hostLines := h.hostLines.take k ++ h.hostLines.drop (k + 1) }) a l))
  ∧ (s.upd.find? mine = none → (s.l1.any here || s.l1i.any here) = true →
    ∃ t, exec (.l1Eviction core asid line) s = .next t ∧ (∀ l ∈ t.l1, here l = false) ∧ (∀ l ∈ t.l1i, here l = false) ∧ t.mem = s.mem ∧ t.harts = s.harts ∧ t.l2 = s.l2)
  ∧ (∀ q, s.upd.find? mine = some q → exec (.l1Eviction core asid line) s = .next (mergeCopy s q))

/-- R211, R215, R219, R221, R223, R226, R229: the operation at the head of an engine whose remaining units succeed completes; a copy publishes
its final pointer, a CPYM's copy frees its MMA first, EMBAG writes its residency mask; one unit of a copy with a write pointer is
published alone; an operation a unit of which fails stops there. -/
def Claim.EngineEvents : Prop := ∀ (s t : State) (u n : Nat) (o q : EngOp),
  (unitsDone s u 0 o q t →
    ((s.hart u).tileFor o.ord = false →
      (∀ src dst len tile sh, q.kind = .cpy src dst len tile none sh → exec (.copyComplete u) s = .next (completeOp t u q))
      ∧ (∀ src dst len tile p sh, q.kind = .cpy src dst len tile (some p) sh →
        exec (.copyComplete u) s = .next (completeOp (winWrite t (t.hart u).crew p (bytesOf 8 len)) u q)))
    ∧ ((s.hart u).tileFor o.ord = true → ∃ w, exec (.cpymMmaIssue u) s = .next w ∧ ∀ m ∈ (w.hart u).mops, m.copy ≠ some q.ord))
  ∧ (unitsDone s u 1 o q t → exec (.gatherComplete u) s = .next (completeOp t u q))
  ∧ (unitsDone s u 2 o q t →
    (∀ a b ni nb f d i w g dst miss, q.kind = .embag a b ni nb f d i w g dst none miss → exec (.embagComplete u) s = .next (completeOp t u q))
    ∧ (∀ a b ni nb f d i w g dst r miss, q.kind = .embag a b ni nb f d i w g dst (some r) miss →
      exec (.embagComplete u) s = .next (completeOp (t.modHart u fun h => h.wmSb r miss) u q)))
  ∧ (unitsDone s u 6 o q t → exec (.pageCommandComplete u) s = .next (completeOp t u q))
  ∧ (∀ src dst len tile p sh, engHead s u 0 = some o → o.kind = .cpy src dst len tile (some p) sh → o.unit < o.units → runUnits u 1 s o = .done t q →
    exec (.writePointerPublish u o.ord) s = .next t)
  ∧ (∀ (e : Fin 8) sub a, e.val = n → engHead s u n = some o → (∀ m, o.kind ≠ .send m false) → runAll s u o = .fail t q sub a →
    exec (.engineFault u e) s = .next (stopOp t u q.halt sub a))

/-- R231, R232, R274: a message that has reached its module and overtakes none of its hart's: without a live target it is discarded and
counted; for a resident hart with an empty slot and no RECV on it, it waits in the slot and sets the event bit. A SEND in the port
completes once its message has left the port. -/
def Claim.MessageEvents : Prop := ∀ (s : State) (k u : Nat) (m : Msg) (o : EngOp),
  ((s.torus.held ++ s.torus.waiting)[k]? = some m → m.module_ = s.torus.own → overtakes (s.torus.held ++ s.torus.waiting) m = false →
    (msgTarget s m = .none → ∃ t, exec (.messageArrival k) s = .next t ∧ t.torus.discards = s.torus.discards + 1 ∧ t.harts = s.harts ∧ t.mem = s.mem)
    ∧ (msgTarget s m = .hart u → tget (s.hart u).mail m.slot = none → (∀ o ∈ (s.hart u).ops, ∀ d e x, o.kind = .recv d e x → e.val ≠ m.slot) →
      ∃ t, exec (.messageArrival k) s = .next t ∧ tget (t.hart u).mail m.slot = some m ∧ (t.hart u).event = true ∧ (t.hart u).x = (s.hart u).x
        ∧ (t.hart u).v = (s.hart u).v ∧ t.mem = s.mem))
  ∧ (headOp (s.hart u) 4 = some o → o.bar = none → ∀ q, o.kind = .send q true → q ∉ s.torus.held → q ∉ s.torus.waiting →
    ∃ t, exec (.messageAccepted u) s = .next t ∧ (t.hart u).event = true ∧ (∀ p ∈ (t.hart u).ops, ¬ (p.eng = o.eng ∧ p.ord = o.ord)) ∧ t.mem = s.mem)

/-- Engine operations complete or stop, and messages arrive (all of the claims named). -/
def Obligations.EnginesAndMessages : Prop := Claim.EngineEvents ∧ Claim.MessageEvents

/-- R310, R342, R343, R349, R350: a free pool slot takes the oldest queued event; an expired watchdog freezes its hart with WATCHDOG; a hang of an
engine, the Mangle among them, is logged and changes no hart but the count (assumption 64), as kind 4 (assumption 12); a heritage core's strip
ends and it takes the next; a heritage fault ends its farm with CONTAINED and raises an event without a handle, which a free pool slot or the
queue takes. -/
def Obligations.RecoveryEvents : Prop := ∀ (s : State) (c slot u i : Nat) (e : Event) (core eng : Fin 8) (cause : BitVec 8) (a : Word) (f : Farm),
  let k := s.ctx c
  (k.pool.contains slot = true → openSlot s c slot = true → k.contained = false → k.containing = false → findIdx (fun e => !e.taken) k.events = some i →
    k.events[i]? = some e → (e.handle = 0 ∨ (s.hart e.hart).place.isSome = true) →
    exec (.menderSpawn c slot) s = .next (if e.handle = 0 then spawnMender (dispatchEntry s c i) c slot e none
      else spawnMender (holdCrew (dispatchEntry s c i) e.hart) c slot e (some e.hart)))
  ∧ (watchExpired s (s.hart u) = true → ∃ t r, exec (.watchdog u) s = .next (freeze t u r) ∧ r.cause = .watchdog ∧ (t.hart u).x = (s.hart u).x
    ∧ (t.hart u).v = (s.hart u).v ∧ (t.hart u).pc = (s.hart u).pc ∧ r.pc = (s.hart u).pc)
  ∧ (∀ o, eng ≠ 7 → (s.ctx (s.hart u).ctx).watchLimit ≠ 0 → engHead s u eng.val = some o → (s.ctx (s.hart u).ctx).watchLimit ≤ o.watch →
    ∃ t, exec (.engineWatchdog u eng) s = .next t ∧ t.mem = s.mem ∧ t.mgmt.errors.getLast?.map (·.kind) = some 4
      ∧ (∃ l, (t.hart u).ops = l ∧ { (t.hart u) with ops := (s.hart u).ops } = s.hart u ∧ l.map (·.kind) = (s.hart u).ops.map (·.kind)))
  ∧ (∀ o ∈ (s.hart u).mops, (s.ctx (s.hart u).ctx).watchLimit ≠ 0 → o.started = true → (s.ctx (s.hart u).ctx).watchLimit ≤ o.watch →
    ∃ t, exec (.engineWatchdog u 7) s = .next t ∧ t.mem = s.mem ∧ t.mgmt.errors.getLast?.map (·.kind) = some 4
      ∧ { (t.hart u) with mops := (s.hart u).mops } = s.hart u ∧ (t.hart u).mops.map (fun m => { m with watch := 0 }) = (s.hart u).mops.map (fun m => { m with watch := 0 }))
  ∧ (tget s.mgmt.heritageRun core.val = some (c, f.id, i) → s.farm? c f.id = some f → f.ctx = c → regionsOwned s f = false →
    (let g := { f with ended := f.ended + 1 }
      let t := s.setFarm g
      let t := { t with mgmt := { t.mgmt with heritageRun := tdel t.mgmt.heritageRun core.val } }
      exec (.heritageStripEnd core) s = .next (feedHeritage (if g.finished then heritageDone t g .done else t)))
    ∧ (let e : Event := { handle := 0, hart := 0, addr := a, pc := 0, cause := cause.toNat, depth := 1, farm := f.id, taken := false, strip := i }
      let t := heritageDone s f .contained
      (t.farm? c f.id).map (·.code) = some .contained
      ∧ exec (.heritageFault core cause a) s = .next (feedHeritage (match spareSlot t c with
        | some slot => spawnMender t c slot e none
        | none => queueEvent t c e))))

/-! ## Events: power, clocks, lanes and arrays (spec/14_power.md, spec/18_recovery.md) -/

/-- R304–R309: power control's events complete where they are due: a sample 1,000 hub cycles after the last is kept; with both means at or below
their caps no hart, core or quad changes; the newest step is undone after 100 µs below; a clock change takes effect, and one that waits for it begins; a claim is served, charged and refilled; a lane
group whose margin fails at 1.6 GHz or below is marked and then leaves its core's map, and a core whose margin fails above it boosts no more. The
edges of the charge and refill intervals are the model's reading (assumption 49). -/
def Claim.PowerEvents : Prop := ∀ (s : State) (mw quad pair core group : Nat),
  let p := s.power
  let k := s.core core
  let l := (p.samples ++ [mw]).drop (p.samples.length + 1 - 1000000)
  (p.now + 1000 ≤ s.hub →
    (∃ t, exec (.powerSample mw) s = .next t ∧ t.power.now = s.hub ∧ t.power.samples = l ∧ t.mem = s.mem ∧ t.ctxs = s.ctxs)
    ∧ (above (newest 10 l) p.peakCap 100 = false → above (newest 1000000 l) p.avgCap 100 = false →
      ∃ t, exec (.powerSample mw) s = .next t ∧ t.harts = s.harts ∧ t.cores = s.cores ∧ t.quads = s.quads))
  ∧ (∀ n, p.belowFrom = some n → n + 100000 ≤ s.hub → p.lastUndo + 100000 ≤ s.hub → p.steps ≠ [] →
    ∃ t, exec .powerUndo s = .next t ∧ t.power.lastUndo = s.hub ∧ t.mem = s.mem ∧ (∀ r, p.steps = .clock :: r → t.power.steps = r)
      ∧ ∀ n r, p.steps = .lanes n :: r → t.power.steps = if n ≤ 1 then r else .lanes (n - 1) :: r)
  ∧ (∀ m, k.changing = some m → ∃ t, exec (.clockChangeComplete core) s = .next t ∧ t.core core = { k with
        mhz := m, changing := k.next, changeAt := if k.next.isSome then s.hub else k.changeAt, next := none } ∧ t.mem = s.mem
    ∧ t.quads = s.quads ∧ t.power.permits = s.power.permits ∧ (1600 < m → t.power.idleFrom = p.idleFrom ∧ ∀ n b, tget p.runs (core / 8) = some (n, b) → tget t.power.runs (core / 8) = some (n, true))
    ∧ (m ≤ 1600 → t.power.runs = p.runs ∧ (fastPair s (core / 8) = true → fastPair t (core / 8) = false → tgetD t.power.idleFrom (core / 8) 0 = s.hub)))
  ∧ (∀ n, quad < 40 → claimAge s quad = some n → (∀ o, claimAge s (partner quad) = some o → n ≤ o) →
    (s.quad quad).boosting = false → (s.quad quad).stepping = false → (s.quad (partner quad)).boosting = false → (s.quad (partner quad)).stepping = false →
    4 ≤ permits s (quad / 2) → (∀ c, c < 160 → (s.core c).withheld = 0 ∧ 1600 ≤ (s.core c).target ∧ 1600 ≤ (s.core c).mhz) →
    ∃ t, exec (.boostClaim quad) s = .next t ∧ (t.quad quad).boosting = true ∧ t.mem = s.mem)
  ∧ (∀ n, tget p.runs pair = some (n, true) → 0 < permits s pair → n + 10000 ≤ s.hub →
    ∃ t, exec (.permitCharge pair) s = .next t ∧ permits t pair = permits s pair - 1 ∧ t.mem = s.mem)
  ∧ (pair < 20 → fastPair s pair = false → permits s pair < 64 → tgetD p.idleFrom pair 0 + 100000 ≤ s.hub →
    ∃ t, exec (.permitRefill pair) s = .next t ∧ permits t pair = permits s pair + 1 ∧ t.mem = s.mem)
  ∧ ((s.quad quad).stepping = true → (s.quad quad).stepAt + 50000 ≤ s.hub →
    ∃ t, exec (.boostStepDown quad) s = .next t ∧ (t.quad quad).stepping = false ∧ t.mem = s.mem)
  ∧ (core < 160 → group < 16 → k.groups.getLsbD group = true →
    exec (.marginWarning core group) s = .next (if k.mhz ≤ 1600 then s.setCore core { k with retiring := k.retiring ||| BitVec.ofNat 16 (2 ^ group) }
      else setClock (s.setCore core { k with noBoost := true }) core (min 1600 k.target)))
  ∧ (group < 16 → k.retiring.getLsbD group = true →
    ∃ t, exec (.laneGroupRetire core group) s = .next t ∧ (t.core core).groups.getLsbD group = false
    ∧ t.mgmt.mapGen % 2 = 1 ∧ t.mgmt.retired = s.mgmt.retired ++ [(core, group)])

/-- R381, R383: an idle core is tested once its interval is over, and a test that finds no bit of its capability mask bad changes nothing but the
time of the test; an idle array enters retention and leaves it, and nothing else changes. That the interval is in hub cycles, and the hub cycles of
an entry and an exit, are the model's choice (assumption 50). -/
def Claim.ArrayEvents : Prop := ∀ (s : State) (core : Nat) (fails : BitVec 128) (a : ArrayId),
  (core < 160 → s.mgmt.testEvery ≠ 0 → residents s core = [] → (s.core core).testedAt + s.mgmt.testEvery ≤ s.hub →
    (∃ t, exec (.selfTest core fails) s = .next t)
    ∧ (fails &&& (s.core core).mask = 0 → exec (.selfTest core fails) s = .next (s.setCore core { (s.core core) with testedAt := s.hub })))
  ∧ (s.mgmt.retention = true → (∀ e ∈ s.mgmt.asleep, e.1 ≠ a) → arrayIdle s a = true →
    exec (.retentionEntry a) s = .next { s with mgmt := { s.mgmt with asleep := s.mgmt.asleep ++ [(a, s.hub, false)] } })
  ∧ (∀ n, s.mgmt.asleep.find? (·.1 == a) = some (a, n, true) → n + arrayRamp a ≤ s.hub →
    exec (.retentionExit a) s = .next { s with mgmt := { s.mgmt with asleep := s.mgmt.asleep.filter fun e => e.1 != a } })

/-- Power-control, lane-group and array events (all of the claims named). -/
def Obligations.PowerAndArrays : Prop := Claim.PowerEvents ∧ Claim.ArrayEvents

/-! ## Events: links, reset and the host (spec/24_attach.md, spec/15_translation.md, spec/18_recovery.md) -/

/-- R382, R414–R416: a resent flit is counted; a torus port trains again after 64 retries and comes up with 8 lanes or degraded with 4,
else down; 16 retries on a bridge are its failure, which contains every context and stops the module: none of its later moves but a reset's and the
environment's is made (assumption 71); a link reset takes one port down and leaves the rest; a host access waiting 100 ms with both links down has its context
contained; a configuration access during a bring-up is answered with its retry status. -/
def Obligations.LinkEvents : Prop := ∀ (s : State) (l : LinkId) (port lanes die c : Nat) (p : Fin 2) (ok : Bool) (mv : Move) (rest : List Move),
  let v := torusPort s port
  (linkOk l = true → (∀ m, retryLimit l = some m → retries s l < m) → ∃ t, exec (.flitRetry l) s = .next t ∧ retries t l = retries s l + 1 ∧ t.harts = s.harts ∧ t.mem = s.mem)
  ∧ (port < 6 → retries s (.torus port) = 64 → v.state ≠ 0 →
    ∃ t, exec (.torusRetrain port ok) s = .next t ∧ retries t (.torus port) = 0 ∧ torusPort t port = { state := if ok then 3 else 0, retrains := (v.retrains + 1) % 256 })
  ∧ (port < 6 → v.state = 3 → ∃ t, exec (.torusTrainingEnd port lanes) s = .next t ∧ t.harts = s.harts ∧ t.mem = s.mem
    ∧ (torusPort t port).state = if lanes = 8 then 1 else if lanes = 4 then 2 else 0)
  ∧ (die < 4 → 16 ≤ retries s (.bridge die) → ∃ t, exec (.bridgeFailure die) s = .next t ∧ t.mgmt.bridgeBad = true
    ∧ ∀ q ∈ s.ctxs, (t.ctx q.1).contained = true)
  ∧ (s.mgmt.bridgeBad = true → (mv.whenStopped = false → step { s with agenda := mv :: rest } = .fault .moduleStopped)
    ∧ step { s with agenda := [] } = .fault .moduleStopped)
  ∧ (∃ t, exec (.cxlLinkReset p) s = .next t ∧ t.mgmt.linkUp = s.mgmt.linkUp.set p.val false ∧ t.harts = s.harts ∧ t.mem = s.mem ∧ t.ctxs = s.ctxs)
  ∧ (s.mgmt.linkUp.getD p.val false = false → s.mgmt.ready = true →
    ∃ t, exec (.cxlLinkUp p) s = .next t ∧ t.mgmt.linkUp = s.mgmt.linkUp.set p.val true ∧ t.hostWaits = [] ∧ t.harts = s.harts
      ∧ ((∀ x ∈ s.l2, x.dirty = false) → t.mem = s.mem))
  ∧ (s.mgmt.linkUp.any id = false → (∃ q ∈ s.hostWaits, (∃ x ∈ (s.ctx c).asids, x.toNat = q.1) ∧ q.2 + 100000000 ≤ s.hub) →
    exec (.hostAccessTimeout c) s = .next (s.setCtx c { (s.ctx c) with containing := true }))
  ∧ (s.mgmt.boot.isSome = true → exec (.configurationRequestRetryStatus p) s = .next (reply s [BitVec.ofNat 64 p.val, 2]))

/-- R339, R340, R415, R416: a module reset checks the staged image, else the installed one, else the one the module came with, whose check the report gives.
It leaves no context, hart, crew, farm, hive queue, cached line or TLB entry, an empty error log and no redirect, default caps, and
every port down. With an authentic image four more steps of the bring-up follow, the last of which enables the CXL ports and makes the module
ready; without one the module stays in recovery mode. Near and far memory keep their bytes (the model's choice: assumption 13). -/
def Obligations.ModuleReset : Prop := ∀ (s : State) (r : ResetReport), ∃ t, exec (.moduleReset r) s = .next t ∧
  let good := ((bootImage s).map Config.imageAuthentic).getD r.authentic
  t.mem = s.mem ∧ t.mgmt.ready = false ∧ t.mgmt.linkUp = [false, false] ∧ t.mgmt.recovery = !good ∧ t.mgmt.image = bootImage s ∧ t.mgmt.staged = none ∧ t.ctxs = [] ∧ t.harts = [] ∧ t.crews = [] ∧ t.farms = [] ∧ t.hives = [] ∧ t.l2 = []
  ∧ t.l1 = [] ∧ t.l1i = [] ∧ t.upd = [] ∧ t.tlb = [] ∧ t.mgmt.errors = [] ∧ t.swap.slots = [] ∧ t.swap.running = none ∧ t.torus.ports = []
  ∧ t.power.peakCap = 2400 ∧ t.power.avgCap = 1800 ∧ (∀ p, permits t p = 64)
  ∧ (good = false → bootStep t = .refused .notEnabled)
  ∧ (good = true → ∃ t2 t3 t4 t5, bootStep t = .next t2 ∧ bootStep t2 = .next t3 ∧ bootStep t3 = .next t4 ∧ bootStep t4 = .next t5
    ∧ t2.mgmt.ready = false ∧ t3.mgmt.ready = false ∧ t4.mgmt.ready = false ∧ t5.mgmt.ready = true
    ∧ t5.mgmt.boot = none ∧ t5.mgmt.linkUp = [true, true] ∧ t5.mgmt.mapGen % 2 = 0 ∧ t5.mem = s.mem ∧ t5.ctxs = [] ∧ t5.harts = []
    ∧ t5.mgmt.heritage = r.heritage ∧ bootStep t5 = .refused .notEnabled)
  ∧ (good = true → t.mgmt.measures.head? = some (sha256 (List.replicate 32 0 ++ ((bootImage s).map sha256).getD r.imageDigest)))

/-- R187, R317, R338, R409, R416: a host access through a port that is up, inside its decoder and touching no line an engine owns, completes: a
write stores its bytes at its physical address and in the L2 copies, a read answers the bytes and changes none; one without the IDE stream
that is required, of a link for CXL.mem and a selective one for CXL.io, and one outside its decoder are answered as unsupported and change
nothing; a snoop is answered and changes nothing. How the answers are numbered is the model's choice (assumption 12). -/
def Obligations.HostAccesses : Prop := ∀ (s : State) (r : HostReq) (a : Nat) (x : Word) (w : Bar),
  let stream : Bool := (r.stream.map fun n => s.mgmt.ideStreams.contains (r.port.val, n, false)).getD false
  s.mgmt.linkUp.getD r.port.val false = true → s.mgmt.ready = true →
  exec (.hostSnoop r.port x) s = .next (reply s [Config.snoopReply x])
  ∧ (s.mgmt.ideRequired = true → stream = false → exec (.hostMemAccess r) s = .next (reply s [1]))
  ∧ (s.mgmt.linkUp.any id = true → offStream s = true → exec (.registerWrite w a x) s = .next (reply s [1]))
  ∧ (s.mgmt.ideRequired = false ∨ stream = true →
    (∀ b, r.write = some b → HostReq.phys s { r with len := b.length } = some a → (∀ f ∈ linesOf a b.length, frameOwned s f = false) → s.upd = [] →
      exec (.hostMemAccess r) s = .next (reply (hostPut s a b) [0])
        ∧ (hostPut s a b).mem = (physWrite s a b).mem ∧ (hostPut s a b).l2 = (physWrite s a b).l2 ∧ (hostPut s a b).harts = s.harts)
    ∧ (r.write = none → HostReq.phys s r = some a → (∀ f ∈ linesOf a r.len, frameOwned s f = false) → s.upd = [] →
      exec (.hostMemAccess r) s = .next (reply s (if (linesOf a r.len).any (isBad s) then [3] else 0 :: packWords (physRead s a r.len))))
    ∧ (r.write = none → HostReq.phys s r = none → exec (.hostMemAccess r) s = .next (reply s [1])))

/-- R265, R321, R322, R326, R374, R410, R412: the registers of the windows: an accepted inval control starts an invalidation of the pages it names,
one that is refused sets bit 62, and the invalidation clears busy; a request ring control with a legal value is written; a response
ends its request; a stored register takes its value. A response whose reserved bits are ignored, and the range an accepted control latches
(`invFirst`), are read from the spec (assumption 56). -/
def Obligations.WindowRegisters : Prop := ∀ (s : State) (c : Nat) (v : Word) (k : Context), tget s.ctxs c = some k →
  let w := v.toNat
  (hostReady s = true →
    (if k.invBusy = false ∧ k.asids.contains (BitVec.ofNat 16 w) = true ∧ bit w 17 = false ∧ bits w 61 38 = 0 then
      exec (.invalControlWrite c v) s = .next (s.setCtx c { k with invCtl := BitVec.ofNat 64 (w % 2 ^ 38), invFirst := k.invAddr, invBusy := true, invRefused := false })
    else exec (.invalControlWrite c v) s = .next (s.setCtx c { k with invRefused := true }))
    ∧ (if (bits w 3 0 = 0 ∨ 6 ≤ bits w 3 0 ∧ bits w 3 0 ≤ 12) ∧ bits w 15 4 = 0 ∧ bits w 63 48 = 0 then
      exec (.requestRingControlWrite c v) s = .next (s.setCtx c { k with ringLog := bits w 3 0, ringCons := BitVec.ofNat 16 (bits w 47 32) })
    else exec (.requestRingControlWrite c v) s = .next s)
    ∧ (∀ r, k.reqs.find? (fun r => r.id == bits w 15 0) = some r →
      ∃ t, exec (.requestResponse c v) s = .next t ∧ (t.ctx c).reqs = k.reqs.erase r ∧ t.harts = s.harts ∧ t.mem = s.mem
        ∧ (∀ u ∈ r.waiters, if bit w 16 then (u, r.page) ∈ (t.ctx c).reqRefused else (u, r.page) ∈ (t.ctx c).reqDone))
    ∧ (1 ≤ c → c ≤ 64 →
      exec (.registerWrite .bar2 (0x10000 * (c - 1) + 0x40) v) s = .next (s.setCtx c { k with invAddr := BitVec.ofNat 64 (bits w 56 12 * 4096) })
      ∧ exec (.registerWrite .bar2 (0x10000 * (c - 1) + 0x50) v) s = .next (s.setCtx c { k with ringBase := BitVec.ofNat 64 (w / 64 * 64) })))
  ∧ (k.invBusy = true → invalWaits s (bits k.invCtl.toNat 15 0) (invalTest k) = false → exec (.invalidation c) s =
      .next ((invalidate s (bits k.invCtl.toNat 15 0) (invalTest k)).modCtx c fun k => { k with invBusy := false }))

/-- R328–R330, R412: a doorbell queues the staged descriptor while fewer than 8 wait behind a running pair; the next descriptor starts, or is
rejected without effect; a line of a pair without an uncorrectable error moves or is exchanged, and the last one ends the pair; the slot
of no running pair is cleared. -/
def Obligations.SwapEngine : Prop := ∀ (s : State) (v : Word) (b : List Byte) (r : List (List Byte)) (d : SwapDesc),
  let w := s.swap
  let n := bits v.toNat 5 0
  (hostReady s = true →
    (v.getLsbD 0 = true → exec (.swapDoorbell v) s = .next { s with swap :=
      if w.queue.length < (if w.running.isSome then 8 else 9) then { w with queue := w.queue ++ [w.staging] } else { w with rejected := true } })
    ∧ ((∀ e, w.running = some e → e.slot ≠ n) → exec (.redirectClear v) s = .next { s with swap := { w with slots := tdel w.slots n } }))
  ∧ (w.running = none → w.queue = b :: r →
    (swapDesc s b = none → exec .swapPairRun s = .next { s with swap := { w with queue := r, rejected := true } })
    ∧ (swapDesc s b = some d → ∃ t, exec .swapPairRun s = .next t ∧ t.swap.running = some d ∧ t.swap.next = 0 ∧ t.swap.queue = r ∧ t.mem = s.mem
      ∧ t.harts = s.harts))
  ∧ (w.running = some d → s.bad = [] → s.l2 = [] → s.upd = [] → Memory.wf s.mem = true →
    let i := w.next
    let x := d.near + 64 * i
    let y := d.far + 64 * i
    ∃ t, exec (.swapLineMove false) s = .next t ∧ t.harts = s.harts ∧ t.swap.next = i + 1 ∧ t.swap.running = (if i = 1023 then none else some d)
      ∧ (d.move = false → x + 64 ≤ y → memRead t.mem x 64 = memRead s.mem y 64 ∧ memRead t.mem y 64 = memRead s.mem x 64)
      ∧ (d.move = true → x + 64 ≤ y → memRead t.mem (if d.toNear then x else y) 64 = memRead s.mem (if d.toNear then y else x) 64)
      ∧ (∀ a, (a < x ∨ x + 64 ≤ a) → (a < y ∨ y + 64 ≤ a) → memGet t.mem a = memGet s.mem a))

/-! ## Events: the management port (spec/24_attach.md R417, spec/16_isolation.md, spec/18_recovery.md) -/

/-- R332, R311, R236, R265, R334, R370, R376, R377, R337, R310: the commands about an existing context with an accepted operand change their own
field of it and answer 1; the event queue's read answers its counts and entries, the lost-entry counter's read its value, and a destroyed
context is gone with its farms and hive queues. -/
def Claim.ContextCommands : Prop := ∀ (s : State) (c d limit : Nat) (k : Context) (a : List (BitVec 16)) (ppn : BitVec 44) (base len : Word)
    (l : List (BitVec 15 × Nat)), managed s = true → tget s.ctxs c = some k →
  exec (.containCommand c) s = .next (accepted (s.setCtx c { k with containing := !k.contained }))
  ∧ exec (.contextRelease c) s = .next (accepted (s.setCtx c { k with contained := false }))
  ∧ (a ≠ [] → a.length ≤ 4 → a = a.eraseDups → (∀ x ∈ a, asidTaken s c x = false) →
    exec (.asidAssign c a) s = .next (accepted (s.setCtx c { k with asids := a })))
  ∧ exec (.rootTableRegister c ppn) s = .next (accepted (s.setCtx c { k with root := ppn }))
  ∧ (d ≤ 2 → exec (.placementDomainSet c d) s = .next (accepted (extendOwn (s.setCtx c { k with domain := d }) 1)))
  ∧ (base.toNat % 65536 = 0 → len.toNat % 65536 = 0 →
    exec (.saveRegionRegister c base len) s = .next (accepted (s.setCtx c { k with saveBase := base, saveLen := len })))
  ∧ (l.length ≤ 32 → (∀ p ∈ l, ∀ q ∈ s.ctxs, q.1 ≠ c → q.2.acceptList.contains p = false) →
    exec (.torusAcceptanceSet c l) s = .next (accepted (s.setCtx c { k with acceptList := l })))
  ∧ exec (.watchdogLimitSet c limit) s = .next (accepted (s.setCtx c { k with watchLimit := limit }))
  ∧ exec (.fenceRightGrant c) s = .next (accepted (s.setCtx c { k with fenceRight := true }))
  ∧ (∀ r : RecordCmd, r.ctx = c → 16 ≤ r.log2 → r.log2 ≤ 30 → r.regions.length ≤ 8 → (∀ x ∈ r.regions, x.2.1 ≤ 2 ^ 32) →
    exec (.recordModeEnable r) s = .next (accepted (s.setCtx c { k with
      recordOn := true, recBase := r.base, recLog := r.log2, recRegions := r.regions, recProd := 0 })))
  ∧ (∀ qs : List Nat, (∀ q ∈ qs, q < 1024 ∧ tget s.hives q = none) → (∀ p ∈ s.hives, p.2.ctx ≠ c) →
    ∃ t, exec (.queueAssign c qs) s = .next t ∧ (∀ q ∈ qs, tget t.hives q = some { ctx := c }) ∧ (∀ q, q ∉ qs → tget t.hives q = tget s.hives q)
      ∧ t = accepted { s with hives := t.hives })
  ∧ exec (.eventQueueRead c) s = .next (reply s (BitVec.ofNat 64 k.written :: BitVec.ofNat 64 k.taken :: k.events.flatMap fun e => packWords e.bytes))
  ∧ exec (.lostEntryCounterRead c) s = .next (reply s [BitVec.ofNat 64 k.recLost])
  ∧ (k.contained = true → ∃ t, exec (.contextDestroy c) s = .next (accepted t) ∧ tget t.ctxs c = none ∧ (∀ p ∈ t.hives, p.2.ctx ≠ c)
    ∧ (∀ p ∈ t.farms, p.2.ctx ≠ c))
  ∧ ∃ t, exec (.contextDestroy c) s = .next (accepted t)

/-- R332, R349: a context is created from a legal request whose mender header passes: it holds its ASIDs, its pool and its event queue. A header
that is not 64-byte aligned is taken like another (the model's choice: assumption 81). -/
def Claim.ContextCreated : Prop := ∀ (s : State) (r : CtxCreate), managed s = true → 0 < r.ctx → r.ctx ≤ 64 → tget s.ctxs r.ctx = none →
  let asids := r.asids.map (·.1)
  asids ≠ [] → asids.length ≤ 4 → asids = asids.eraseDups → (∀ a ∈ asids, asidTaken s r.ctx a = false) → 4 ≤ r.queueLog → r.queueLog ≤ 12 →
  ∀ t h, readHeader s (mkAspace (asids.headD 0) ((r.asids.head?.map (·.2)).getD 0)) r.header true = .ok t h → h.routed = true → menderBad h = false →
    capacity t r.ctx (menderKern h) = true → poolOk t r.ctx (menderKern h) r.slots = true →
    ∃ q k, exec (.contextCreate r) s = .next q ∧ tget q.ctxs r.ctx = some k ∧ k.asids = asids ∧ k.pool = r.slots ∧ k.fzqLog = r.queueLog
      ∧ k.mender = menderKern h ∧ k.contained = false ∧ k.events = [] ∧ k.handles = [] ∧ k.written = 0 ∧ k.taken = 0

/-- Management commands about contexts (their answers: assumption 12) (all of the claims named). -/
def Obligations.Contexts : Prop := Claim.ContextCommands ∧ Claim.ContextCreated

/-- R304, R306, R336, R338–R341, R381, R383, R384, R414, R415, R417, R232: the commands about the module complete with an accepted operand, change
their own register and answer 1; a read answers what it reads, an attestation request its report; an authentic image is staged, another one
refused; a session and an IDE stream are set up and taken down. How the answers are written as words is the model's choice (assumption 12). -/
def Obligations.ModuleCommands : Prop := ∀ (s : State) (n quad core b port : Nat) (on sel peak : Bool) (r : Fin 8) (dig nonce image : List Byte) (p : Fin 2)
    (own size : BitVec 15), managed s = true →
  let m := s.mgmt
  (300 ≤ n → n ≤ (if peak then 2400 else 1800) →
    exec (.powerCapSet peak n) s = .next (accepted (extendOwn { s with power := if peak then { s.power with peakCap := n } else { s.power with avgCap := n } } 1)))
  ∧ (quad < 40 → ∃ t, exec (.boostEnable quad on) s = .next (accepted t) ∧ (t.quad quad).boostOn = on
    ∧ (on = false → (t.quad quad).claimAt = none) ∧ t.harts = s.harts ∧ t.mem = s.mem ∧ t.ctxs = s.ctxs)
  ∧ (∃ t, exec (.retentionEnable on) s = .next t ∧ t.mgmt.retention = on ∧ t.harts = s.harts ∧ t.mem = s.mem ∧ t.ctxs = s.ctxs
    ∧ (on = true → t.mgmt.asleep = m.asleep) ∧ (on = false → ∀ e ∈ t.mgmt.asleep, e.2.2 = true))
  ∧ exec (.selfTestIntervalSet n) s = .next (accepted { s with mgmt := { m with testEvery := n } })
  ∧ exec (.fenceRestore core b) s = .next (accepted { s with mgmt := { m with restores := m.restores ++ [(core, b)] } })
  ∧ exec (.ideRequiredSet on) s = .next (accepted { s with mgmt := { m with ideRequired := on } })
  ∧ (4 ≤ r.val → dig.length = 32 → exec (.measurementExtend r dig) s =
      .next (accepted { s with mgmt := { m with measures := modAt (fun v => sha256 (v ++ dig)) r.val m.measures } }))
  ∧ exec .errorLogClear s = .next (accepted { s with mgmt := { m with errors := [] } })
  ∧ exec .errorLogRead s = .next (reply s (m.errors.flatMap LogEntry.words ++ m.corrected.flatMap fun p => [BitVec.ofNat 64 p.1, BitVec.ofNat 64 p.2]))
  ∧ exec .certificateRead s = .next (reply s Config.certificate)
  ∧ (nonce.length = 32 → let h := reportHead s nonce
    exec (.attestationRequest nonce) s = .next (reply s (packWords (h ++ tabulate 7856 (Config.signature h)))))
  ∧ exec .discardCounterRead s = .next { s with mgmt := { m with replies := m.replies ++ [[BitVec.ofNat 64 s.torus.discards]] } }
  ∧ exec (.firmwareUpdate image) s = .next (if Config.imageAuthentic image then accepted { s with mgmt := { m with staged := some image } } else reply s [0])
  ∧ (port < 6 → exec (.torusPortEnable port) s = .next (accepted (extendOwn (setPort s port { (torusPort s port) with state := 3 }) 3)))
  ∧ ((∀ i, i < 3 → let ax (w : BitVec 15) : Nat := bits w.toNat (5 * i + 4) (5 * i)
      ax size ≠ 0 ∧ ax size ≤ 16 ∧ ax own < ax size) → ∃ t, exec (.coordinatesSet own size) s = .next t ∧ t.torus.own = own ∧ t.torus.size = size ∧ t.mem = s.mem)
  ∧ (∃ t, exec (.ideKmMessage p ⟨n, sel⟩ on) s = .next t ∧ t.mgmt.ideStreams.contains (p.val, n, sel) = on
    ∧ (∀ x, x ≠ (p.val, n, sel) → t.mgmt.ideStreams.contains x = m.ideStreams.contains x)
    ∧ t = accepted { s with mgmt := { m with ideStreams := t.mgmt.ideStreams } })
  ∧ exec (.spdmSessionSetup on) s = .next { s with mgmt := { m with session := on } }

/-! ## Completion (spec/03_encoding.md R57, R58) -/

/-- R57, R58: every vector instruction that stays in its hart completes where its checks pass: the hart has retired one more instruction and
stands at the next word. VQSHR, VAND, VOR, VXOR, VNOT, VSLL, VSRL, VSRA, VMERGE; VCMP in its six relations; MAND, MOR, MXOR, MNOT, MSET and
the three MMOV; VCVT, VCVTS, VPLANE; the slides, VGATHR, VCOMPR, VEXPND, VID, VSPLAT, VMVXS, VMVSX; the reductions, VQNORM, VDOT4; and
VSPUSH, VSPOP and VSCNT of a legal stream. -/
def Obligations.VectorInstructionsRetire : Prop := ∀ (s : State) (hd : Hdr) (m : Option MR) (sel a' b' : MR) (d a i : VR) (b : Src) (x : Reg) (c : CvtCtl)
    (t : Tag) (k : Fin 4) (st : Stream),
  let h := s.me
  let dst := opRegs (h.fmt a) d
  let does (p : Prof) (ok : Bool) (o : Out) : Prop := canIssue p s = true → ok = true → Retires 8 s o
  let ew (acc : Fmt → Bool) (b : Option Src) (o : Out) : Prop := does (ewProf 11 hd m h dst a b none) (ewFmt acc (some d) a b none s) o
  let bits2 : Fmt → Bool := fun f => f.isInt || f.isFloat || f.isFixed
  let shift : Fmt → Bool := fun f => f.isInt || f.isFixed
  let cmp (o : Out) : Prop := does { (ewProf 13 hd m h [] a (some b) none) with mw := [sel] }
    (ewFmt (fun f => f.isInt || f.isArith || f.isFixed) none a (some b) none s) o
  let mask (src : List MR) (o : Out) : Prop := does { cls := 13, hdr := some hd, mr := m.toList ++ src, mw := [sel] } true o
  let g := (fmtOf c.tag).getD .i32
  let w := convWidths h a g
  let perm (m : Option MR) (more : List VR) (xr : List Reg) (ok : Bool) (o : Out) : Prop :=
    does { cls := 17, hdr := some hd, mr := m.toList, vr := opRegs (h.fmt a) a ++ more, vw := dst, xr := xr } ok o
  let f := (fmtOf t).getD .i32
  let red (o : Out) : Prop := does { cls := 18, hdr := some hd, mr := m.toList, vr := [a], vw := [d] } (ewFmt redFmt none a none none s) o
  (ew bits2 (some b) (exec (.vand hd m d a b) s) ∧ ew bits2 (some b) (exec (.vor hd m d a b) s) ∧ ew bits2 (some b) (exec (.vxor hd m d a b) s)
    ∧ ew bits2 none (exec (.vnot hd m d a) s) ∧ ew shift (some b) (exec (.vsll hd m d a b) s) ∧ ew shift (some b) (exec (.vsrl hd m d a b) s)
    ∧ ew shift (some b) (exec (.vsra hd m d a b) s)
    ∧ does { (ewProf 8 hd m h dst a none none) with xr := srcX b } (ewFmt (cols false false true) (some d) a none none s) (exec (.vqshr hd m d a b) s)
    ∧ does (ewProf 13 hd (some sel) h dst a (some b) none) (ewFmt bitFmt (some d) a (some b) none s) (exec (.vmerge hd sel d a b) s))
  ∧ (cmp (exec (.vcmpEq hd m sel a b) s) ∧ cmp (exec (.vcmpNe hd m sel a b) s) ∧ cmp (exec (.vcmpLt hd m sel a b) s) ∧ cmp (exec (.vcmpLe hd m sel a b) s)
    ∧ cmp (exec (.vcmpGt hd m sel a b) s) ∧ cmp (exec (.vcmpGe hd m sel a b) s) ∧ mask [a', b'] (exec (.mand hd m sel a' b') s)
    ∧ mask [a', b'] (exec (.mor hd m sel a' b') s) ∧ mask [a', b'] (exec (.mxor hd m sel a' b') s) ∧ mask [a'] (exec (.mnot hd m sel a') s)
    ∧ mask [] (exec (.mset hd m sel) s) ∧ mask [a'] (exec (.mmovMaskToMask hd m sel a') s)
    ∧ does { cls := 13, hdr := some hd, vr := [a], mw := [sel] } (h.fmt a == some .mimg) (exec (.mmovImageToMask hd sel a) s)
    ∧ does { cls := 13, hdr := some hd, mr := [a'], mu := [a'], vw := [d] } true (exec (.mmovMaskToImage hd d a') s))
  ∧ ((∀ e, h.fmt a = some e → cvtSource e = true → convOk h e g d a [] = true →
      does { cls := 14, fmts := (fmtBit g).toList, hdr := some hd, vr := sideRegs w.1 w.2 a, vw := sideRegs w.2 w.1 d, chain := ratio w.1 w.2 == 1 } true
        (exec (.vcvt hd d a c) s))
    ∧ (∀ e lg short, h.fmt a = some e → h.fmt i = some (.scale lg short) → scalePair e g = true → scaleOk lg short (min w.1 w.2) h.vl = true →
      convOk h e g d a [i] = true →
      does { cls := 15, fmts := (fmtBit g).toList, hdr := some hd, vr := sideRegs w.1 w.2 a ++ [i], vw := sideRegs w.2 w.1 d } true
        (exec (.vcvts hd d a i c) s))
    ∧ (h.fmt a = some .i8 → does { cls := 16, fmts := [75], hdr := some hd, vr := sideRegs 8 (t.toNat % 16) a, vw := [d] }
      (convOk h .i8 (.plane (t.toNat % 16)) d a []) (exec (.vplane hd d a t) s)))
  ∧ (let fits (acc : Fmt → Bool) : Bool := ewFmt acc (some d) a none none s
    perm m [] (srcX b) (fits slideFmt) (exec (.vslideup hd m d a b) s) ∧ perm m [] (srcX b) (fits slideFmt) (exec (.vslidedn hd m d a b) s)
    ∧ perm m [i] [] (fits bitFmt && h.fmt i == some .i32) (exec (.vgathr hd m d a i) s) ∧ perm (some sel) [] [] (fits bitFmt) (exec (.vcompr hd sel d a) s)
    ∧ perm (some sel) [] [] (fits bitFmt) (exec (.vexpnd hd sel d a) s)
    ∧ does { cls := 17, fmts := (fmtBit f).toList, hdr := some hd, mr := m.toList, vw := opRegs (some f) d, chain := true } (splatFmt t d) (exec (.vid hd m d t) s)
    ∧ does { cls := 17, fmts := (fmtBit f).toList, hdr := some hd, mr := m.toList, xr := srcX b, vw := opRegs (some f) d, chain := true } (splatFmt t d)
        (exec (.vsplat hd m d b t) s)
    ∧ does { cls := 17, hdr := some hd, vr := opRegs (h.fmt a) a, xr := srcX b, xw := [x], final := true } (h.okSrc (· != .empty) a) (exec (.vmvxs hd x a b) s)
    ∧ does { cls := 17, hdr := some hd, vw := opRegs (h.fmt d) d, xr := x :: srcX b } (h.okSrc (· != .empty) d) (exec (.vmvsx hd d x b) s))
  ∧ (red (exec (.vredsum hd m d a) s) ∧ red (exec (.vredmax hd m d a) s) ∧ red (exec (.vredmin hd m d a) s) ∧ red (exec (.vredc hd m d a) s)
    ∧ does { cls := 20, hdr := some hd, mr := m.toList, vr := [a], vw := [d, vplus d 1] } (ewFmt (qnormOk d) none a none none s) (exec (.vqnorm hd m d a) s)
    ∧ does { cls := 35, hdr := some hd, mr := m.toList, vr := [a, i, d], vw := [d], micro := dotMicro a i }
        (ewFmt (fun f => f == .i8 || f == .u8) none a (some (.v i)) none s && h.fmt d == some .i32) (exec (.vdot4 hd m d a i) s))
  ∧ (readStream s h k.val = some st → winBad s h.crew st.at_ 32 = false → storeAsleep s h.crew = false →
    (does { cls := 19, hdr := some hd, xw := [x], acc := some true } true (exec (.vscnt hd x k) s))
    ∧ (winBefore h st.at_ 32 = false → winBefore h st.base (4 * st.cap) = false → 0 < h.vl →
      does { cls := 19, hdr := some hd, mr := [sel], vr := [a], acc := some true }
        (ewFmt (fun f => f != .empty && !f.pair) none a none none s && (st.head == st.tail || st.tag == (h.rv a).tag)
          && decide (wrapNat 32 ((st.tail : Int) - st.head) + (activeList h sel).length ≤ st.cap)) (exec (.vspush hd sel a k) s)
      ∧ ((∀ n, tagBit st.tag = some n → h.kern.mask.getLsbD n = true) → fmtOf st.tag ≠ none → (∀ n, n < st.cap → winBad s h.crew (st.base + 4 * n) 4 = false) →
        does { cls := 19, hdr := some hd, vw := [d], acc := some true } true (exec (.vspop hd d k) s))))

/-- LPSET and LPRUN complete. -/
def Claim.LoopsRetire : Prop := ∀ (s : State) (a : Reg) (len : BitVec 12),
  let w := (s.me.rx a).toNat
  (canIssue (shortProf 0 [a] []) s = true → w < 2 ^ 62 → bits w 27 16 = 0 → Retires 4 s (exec (.lpset a len) s))
  ∧ (canIssue (shortProf 0 [] []) s = true →
    let p := s.me.lpstate.toNat
    let base := (s.me.pc.toNat + 4 + 7) / 8 * 8 % 2 ^ 64
    (bits p 15 0 = 0 ∨ ∃ q ws, bodyWords s.cur base (bits p 21 16) (bits p 21 16 + 1) s [] = .ok q ws) →
      ∃ t, exec .lprun s = .next t ∧ t.me.retired = (s.me.retired + 1) % 2 ^ 64)

/-- The vector loads, stores and memory reductions complete. -/
def Claim.VectorMemoryRetires : Prop := ∀ (s : State) (hd : Hdr) (m : Option MR) (d vi : VR) (xa ix xc : Reg) (c : LdCtl) (pol : Fin 4),
  let h := s.me
  let base := (h.rx xa).toNat
  let n := (h.rx xc).toNat
  let k := c.tag.toNat % 16
  let even : Bool := !tagPair c.tag || d.val % 2 == 0
  let index (v : VR) : Bool := h.fmt v == some .i32
  let gone (m : Option MR) (whole : Bool) (n start len u : Nat) (addr : Nat → Nat) : Prop :=
    let act := activeAt (h.emask m)
    let es := activeBetween start n act
    InWindow s m n start len u addr ∨ roomFor s (elemLines addr len es).length = true
      ∧ ∃ t vals, loadElems s.cur c.pol.val len u c.rmask.isSome addr act (n - start) start (s.modMe (wholeLines whole addr len es)) [] = .done t vals
  let load (vi : List VR) (xr : List Reg) (whole ok : Bool) (addr : Nat → Nat → Nat) (o : Out) : Prop :=
    let u := if tagPair c.tag then 8 else 4
    canIssue (loadProf hd m d c xr vi) s = true → ok = true → gone m whole h.vl h.vresume u u (addr u) → Retires 8 s o
  let u := if ((h.fmt d).map Fmt.pair).getD false then 8 else 4
  let run (p : Prof) (ok whole red : Bool) (u : Nat) (addr : Nat → Nat) (acc : State → Nat → Acc Unit) (o : Out) : Prop :=
    canIssue p s = true → ok = true →
      (InWindow s m h.vl h.vresume u u addr ∨ roomFor s (storeRoom whole red u addr (activeBetween h.vresume h.vl (activeAt (h.emask m)))) = true
        ∧ ∃ t, storeElems acc (activeAt (h.emask m)) (h.vl - h.vresume) h.vresume s = .done t) → Retires 8 s o
  let store (vi : List VR) (xr : List Reg) (whole ok : Bool) (addr : Nat → Nat) (o : Out) : Prop :=
    run { cls := 21, hdr := some hd, xr := xr, vr := opRegs (h.fmt d) d ++ vi, mr := m.toList, acc := some true } (h.okSrc (· != .empty) d && ok) whole false u addr
      (fun s e => storeAcc s s.cur true pol.val (addr e) (bytesOf u ((h.opd false d).el (((h.fmt d).map Fmt.pair).getD false) e)) u) o
  let red (op : RedOp) (acc : Fmt → Bool) (o : Out) : Prop :=
    let at_ (e : Nat) : Nat := addr64 (base + ((h.srcV false vi).slot e).toInt)
    run { cls := 22, hdr := some hd, xr := [xa], vr := [d, vi], mr := m.toList, acc := some true } (ewFmt acc none d none none s && index vi) false true 4 at_
      (fun s e => redAcc s s.cur true op false (at_ e) (((h.srcV false d).slot e).setWidth 64)) o
  let unit (u e : Nat) : Nat := (base + u * e) % 2 ^ 64
  let stride (_ e : Nat) : Nat := addr64 (base + e * (h.rx ix).toInt)
  let indexed (_ e : Nat) : Nat := addr64 (base + ((h.srcV false vi).slot e).toInt)
  let row (u e : Nat) : Nat := addr64 (base + (e / n : Nat) * (h.rx ix).toInt + (u * (e % n) : Nat))
  load [] [xa] true even unit (exec (.vld hd m d xa c) s) ∧ load [] [xa] true even unit (exec (.vldff hd m d xa c) s)
    ∧ load [] [xa, ix] false even stride (exec (.vlds hd m d xa ix c) s) ∧ load [vi] [xa] false (even && index vi) indexed (exec (.vldx hd m d xa vi c) s)
    ∧ load [] [xa, ix, xc] false (even && decide (1 ≤ n ∧ n ≤ 1024)) row (exec (.vld2d hd m d xa ix xc c) s)
    ∧ (canIssue (loadProf hd none d c [xa] []) s = true → 1 ≤ k → h.vl % (8 * k) = 0 →
      gone none false (h.vl / (8 * k)) (h.vresume / (8 * k)) (32 * k) 256 (fun b => (base + 256 * b) % 2 ^ 64) → Retires 8 s (exec (.vldb hd d xa c) s))
    ∧ store [] [xa] true true (unit u) (exec (.vst hd m d xa pol) s) ∧ store [] [xa, ix] false true (stride u) (exec (.vsts hd m d xa ix pol) s)
    ∧ store [vi] [xa] false (index vi) (indexed u) (exec (.vstx hd m d xa vi pol) s)
    ∧ red .add addFmt (exec (.vredmAdd hd m d xa vi) s) ∧ red .min (· == .i32) (exec (.vredmMin hd m d xa vi) s)
    ∧ red .max (· == .i32) (exec (.vredmMax hd m d xa vi) s) ∧ red .and (· == .i32) (exec (.vredmAnd hd m d xa vi) s)
    ∧ red .or (· == .i32) (exec (.vredmOr hd m d xa vi) s) ∧ red .xor (· == .i32) (exec (.vredmXor hd m d xa vi) s)
    ∧ red .fadd (· == .f32) (exec (.vredmFadd hd m d xa vi) s)

/-- The matrix instructions complete: they enter their hart's queue where it has room. -/
def Claim.MatrixRetires : Prop := ∀ (s : State) (hd : Hdr) (z big : Bool) (vc va vb vs : VR) (bar : Option (Fin 128)),
  s.me.mops.length < 4 → (∀ b, bar = some b → b.val < s.me.kern.barriers) →
  let run (cls : Nat) (k : MatKind) (z : Bool) (vs : VR) (o : Out) : Prop :=
    canIssue { cls := cls, hdr := some hd, mvr := matReads k z vc va vb vs, mvw := matDests k vc } s = true →
    (matCheck s.me k z vc va vb vs none).isSome = true → Retires 8 s o
  run 23 .mma z 0 (exec (.mma hd z vc va vb bar) s) ∧ run 24 (.mmas big) z vs (exec (.mmas hd z big vc va vb vs bar) s)
    ∧ run 25 .mmasc z vs (exec (.mmasc hd z vc va vb vs bar) s) ∧ run 26 .mmaq z 0 (exec (.mmaq hd z vc va vb bar) s)
    ∧ run 27 (.mqtrs false) true 0 (exec (.mqtrsLo hd vc va vb bar) s) ∧ run 27 (.mqtrs true) true 0 (exec (.mqtrsUp hd vc va vb bar) s)

/-- CPY and CPYM complete: they start their copies. -/
def Claim.CopiesRetire : Prop := ∀ (s : State) (hd : Hdr) (src : CpySrc) (dst : CpyDst) (xa xc : Reg) (win : Bool) (vb : VR) (t : Tag),
  let h := s.me
  let w := (h.rx xc).toNat
  let len := bits w 29 0
  h.ops.length < 64 → drainWaits s s.cur (fun p => p.vec || p.hvis) = false →
  (let a := srcSide h src
    let b := dstSide h dst
    let per := if bits w 63 62 = 0 then h.vl else 128
    let used := match src with
      | .grp v => groupUsed v per len
      | _ => []
    let (vw, tag) : List VR × Tag := match dst with
      | .grp v t => (vgroup v 8, t)
      | _ => ([], 0)
    let xs := (match src with
      | .mem a => [a]
      | .win a => [a]
      | .grp _ => []) ++ (match dst with
      | .mem a => [a]
      | .win a => [a]
      | .grp _ _ => [])
    canIssue { cls := 28, fmts := (tagBit tag).toList, hdr := some hd, xr := xc :: xs, vr := used, vw := vw, late := true, acc := some true } s = true →
    (∀ r ∈ used, tagNamed (h.rv r).tag = true) → bits w 41 40 = 0 → bits w 31 30 = 0 → bits w 63 62 < 2 → len % 4 = 0 →
    ((∃ v, src = .grp v) ∨ (∃ v t, dst = .grp v t) → len ≤ 32 * per) → sideBad a len = false → sideBad b len = false → sidesMeet a b len = false →
    barBad h (bit w 39) (bits w 38 32) = false → sideOdd a = false → sideOdd b = false → sideOut s a len = none → sideOut s b len = none →
    (bit w 61 = true → outsideWin s (8 * bits w 60 42) 8 = false) → Retires 8 s (exec (.cpy hd src dst xc) s))
  ∧ (let (z, vc, va, bar) := cpymOps w
    let a : Side := if win then .win (h.rx xa).toNat else .mem (h.rx xa).toNat
    canIssue { cls := 28, fmts := 23 :: (tagBit t).toList, hdr := some hd, xr := [xa, xc], vw := vgroup vb 8, late := true, acc := some true
               mvr := va :: (if z then [] else vgroup vc 4), mvw := vgroup vc 4 } s = true →
    cpymIll h vc va vb bar = false → (matCheck h .mma z vc va vb 0 (some t)).isSome = true → h.mops.length < 4 → bits w 44 0 = 0 → sideBad a 4096 = false →
    sideOdd a = false → sideOut s a 4096 = none → Retires 8 s (exec (.cpym hd win vb xa t xc) s))

/-- GTHR and EMBAG complete: they start their operations. -/
def Claim.GathersRetire : Prop := ∀ (s : State) (hd : Hdr) (m : Option MR) (d vi : VR) (xa xc : Reg) (t : Tag),
  let h := s.me
  let w := (h.rx xc).toNat
  let base := (h.rx xa).toNat
  let rw := bits w 10 0
  let cnt := bits w 21 11
  h.ops.length < 64 → drainWaits s s.cur (fun p => p.vec || p.hvis) = false → base % 4 = 0 →
  (1 ≤ rw → rw ≤ 1024 → cnt ≤ h.vl → barBad h (bit w 47) (bits w 46 40) = false → h.fmt vi = some .i32 →
    (canIssue { cls := 29, fmts := (tagBit t).toList, hdr := some hd, xr := [xa, xc], vr := [vi], mr := m.toList, acc := some true, vw := vgroup d 8 } s = true →
      bits w 63 48 = 0 → cnt * 4 * rw ≤ 32 * h.vl → Retires 8 s (exec (.gthr hd m d xa vi t xc) s))
    ∧ (canIssue { cls := 29, hdr := some hd, xr := [xa, xc], vr := [vi], mr := m.toList, acc := some true } s = true →
      outsideWin s (64 * bits w 63 48) (cnt * 4 * rw) = false → Retires 8 s (exec (.gthrWindow hd m xa vi xc) s)))
  ∧ (let regs := [vi, vplus vi 1, vplus vi 2]
    let ni := bits w 31 21
    let nb := bits w 20 10
    let fmt := bits w 9 8
    let len := bits w 7 0
    canIssue { cls := 30, hdr := some hd, xr := [xa, xc], vr := regs, vw := vgroup d 8, mw := m.toList, acc := some true } s = true →
    regs.map h.fmt = [some .i32, some .f32, some .i32] → bits w 63 56 = 0 → fmt ≠ 3 → 1 ≤ len → len ≤ (if fmt = 0 then 64 else 128) → 1 ≤ nb → nb ≤ 1024 →
    ni ≤ h.vl → nb * len ≤ 8 * h.vl → barBad h (bit w 55) (bits w 54 48) = false →
    (∀ j, j < ni → ((h.srcV false (vplus vi 2)).slot j).toNat < nb
      ∧ rowAddr base (bits w 47 32) ((h.srcV false vi).slot j).toNat % 256 + len * (if fmt = 0 then 4 else 2) ≤ 256) →
    Retires 8 s (exec (.embag hd m d xa vi xc) s))

/-- DZERO, DCOPY, SEND, RECV on an empty slot and WVRUN complete: they start their operations. -/
def Claim.CommandsRetire : Prop := ∀ (s : State) (hd : Hdr) (d vs : VR) (slot : Fin 8) (xd xs xc xh : Reg),
  let h := s.me
  let w := (h.rx xc).toNat
  let len := bits w 31 0
  let dst := (h.rx xd).toNat
  let src := (h.rx xs).toNat
  h.ops.length < 64 → drainWaits s s.cur (fun p => p.vec || p.hvis) = false →
  (bits w 63 40 = 0 → 0 < len → len % 4096 = 0 → touchesWindow dst len = false → barBad h (bit w 39) (bits w 38 32) = false → dst % 4096 = 0 →
    (canIssue { cls := 31, hdr := some hd, xr := [xd, xc], acc := some true } s = true → Retires 8 s (exec (.dzero hd xd xc) s))
    ∧ (canIssue { cls := 31, hdr := some hd, xr := [xd, xc, xs], acc := some true } s = true → touchesWindow src len = false → overlap src dst len = false →
      src % 4096 = 0 → Retires 8 s (exec (.dcopy hd xd xs xc) s)))
  ∧ (canIssue { cls := 32, hdr := some hd, xr := [xd, xh], vr := opRegs (h.fmt vs) vs, acc := some true } s = true → h.okSrc (· != .empty) vs = true →
    Retires 8 s (exec (.send hd vs xd xh) s))
  ∧ (canIssue { cls := 32, hdr := some hd, xw := [xh], vw := if d.val % 2 = 0 then [d, vplus d 1] else [d] } s = true → tget h.mail slot.val = none →
    (∀ o ∈ h.ops, ∀ e k y, o.kind = .recv e k y → k ≠ slot) → Retires 8 s (exec (.recv hd d slot xh) s))
  ∧ (let win := bit w 40
    canIssue { cls := 34, fmts := if win then [] else (tagBit (runTag w)).toList, hdr := some hd, xr := [xs, xc], acc := some true
               vw := if win then [] else vgroup d 8, late := true } s = true →
    bits w 63 51 = 0 → (win = true → d = 0 ∧ runTag w = 0) → (win = false → walkTag (runTag w) = true) →
    barBad h (bit w 39) (bits w 38 32) = false → src % 64 = 0 → Retires 8 s (exec (.wvrun hd d xs xc) s))

/-- R57, R58, R190, R283: the loop sequencer, the vector memory instructions, the matrix instructions and the engine instructions complete where
their checks pass: the hart has retired one more instruction and stands at the next word (where LPRUN goes on: `LoopReplay`). A vector memory
instruction does so where its accesses succeed, as they do where all of them lie in the crew window. LPSET, LPRUN; VLD, VLDFF, VLDS, VLDX,
VLD2D, VLDB; VST, VSTS, VSTX and the seven VREDM; MMA, MMAS, MMASC, MMAQ, MQTRS.LO and MQTRS.UP; CPY, CPYM, GTHR to a group and to the
window, EMBAG, DZERO, DCOPY, SEND, RECV, WVRUN. -/
def Obligations.MemoryAndEngineInstructionsRetire : Prop := Claim.LoopsRetire ∧ Claim.VectorMemoryRetires ∧ Claim.MatrixRetires ∧ Claim.CopiesRetire
  ∧ Claim.GathersRetire ∧ Claim.CommandsRetire

/-! ## Encoding (spec/03_encoding.md, spec/13_walker.md R297) -/

/-- R46–R56, R297: decoding the encoding of a well-formed instruction gives it back, with every operand at every value the encoding admits:
all 251 hart and walker rows of the opcode table (`encode` answers none for an event). -/
def Obligations.EncodeDecodeRoundTrip : Prop := ∀ (i : Instr) (e : Enc), i.wf = true → encode i = some e → decodeEnc e = some i

/-- R57 steps 3 and 5: a hart word has one reading. A word that decodes gives a well-formed instruction whose encoding is that word, so no bit
of an accepted word is ignored and no two words stand for one instruction. -/
def Obligations.DecodedWordsReencode : Prop :=
  (∀ (w : Nat) (i : Instr), w < 2 ^ 32 → w % 2 = 0 → decode32 w = .ok i → i.wf = true ∧ encode i = some (.w32 w))
  ∧ (∀ (w : Nat) (i : Instr), w < 2 ^ 64 → w % 2 = 1 → decode64 w = .ok i → i.wf = true ∧ encode i = some (.w64 w))
  ∧ (∀ (w : Nat) (o : WOp), w < 2 ^ 32 → decodeWOp w = some o → o.instr.wf = true ∧ encode o.instr = some (.walk w))

/-- R47–R56, R297: words written out from the spec's encodings: DIV, LW, SD, FMA.F64, BNE, VADD without a mask, the VLD.BF16.CG of R67's example, and
the walker's LDW and ENDW; the all-zero word and a long word of a reserved major are refused. -/
def Obligations.DecodeWords : Prop :=
  (decode32 0x04528382).toOption = some (.div 7 8 9) ∧ (decode32 0x00115324).toOption = some (.lw 6 21 8)
  ∧ (decode32 0xFFE022B6).toOption = some (.sd 5 2 (BitVec.ofInt 15 (-16))) ∧ (decode32 0x25ED5A18).toOption = some (.fma true 20 21 22 23)
  ∧ (decode32 0xFE809FC2).toOption = some (.bne 9 0 (BitVec.ofInt 15 (-6)))
  ∧ (decode64 0x000002000400C001).toOption = some (.vadd { stall := 0, last := false, first := false } none 3 1 (.v 2))
  ∧ (decode64 0x040254041401C021).toOption = some (.vld { stall := 2, last := false, first := false } none 7 20 { tag := 0x101, pol := 1, rmask := some 4 })
  ∧ decodeWOp 0x00220130 = some (.ldw 2 3 1 8) ∧ decodeWOp 15 = some .endw
  ∧ decode32 0 = .error .reservedMajor ∧ decode64 0x19 = .error .reservedMajor

/-! ## One step -/

/-- R57 steps 1 to 5, R58: a step of a resident running hart that no other ready hart of its core beats (R13) executes the instruction that the
bytes at its pc decode to, in the state the fetch leaves with the word noted in INSN (a fetch that misses has cost its cycle), and what
follows notes the issue, passes the other ready harts over and charges power control's cycles; every step keeps the caches within their
capacities (`capped`); in a loop replay the word is the captured one; a rejected word freezes the hart at the pc with vresume 0, a refused
fetch with its cause and the fetch address; a hart that is beaten does not move. A step of a running walk executes the operation its word
decodes to, and a step of an event executes that event. That a step is one move of the agenda is the model's choice (assumption 6), and what
costs a cycle is assumption 9. -/
def Obligations.StepRunsInstruction : Prop := ∀ (s : State) (u : Nat) (rest : List Move), s.mgmt.bridgeBad = false →
  let s0 : State := { s with agenda := rest, cur := u }
  let note (w : Nat) (t : State) : State := t.modMe fun h => { h with insn := BitVec.ofNat 64 w }
  let runs (i : Instr) (t : State) : Prop :=
    step s = capped (arbitrate (rivals s0) (noteIssue (chargePower (shortNow s0) s0.me.cycle (clipStall s0.me (exec i t)))))
  let stops (o : Out) : Prop := step s = capped (chargePower (shortNow s0) s0.me.cycle o)
  let won : Prop := losesTo s0 u = false
  (s.agenda = .hart u :: rest → working s0 u = true → watchExpired s0 s0.me = false → s0.me.status = .running →
    (losesTo s0 u = true → step s = capped (.next s0))
    ∧ (won → s0.me.captured = none → ∀ c a, fetchAcc s0 u s0.me.pc.toNat 4 = .error (some c, a) → stops (stopAt c (BitVec.ofNat 64 a) none s0))
    ∧ (won → s0.me.captured = none → ∀ (t : State) (b : List Byte), fetchAcc s0 u s0.me.pc.toNat 4 = .ok (t, b) →
      let miss := fetchMiss s0
      let t1 := note (natOf b) (missCycle miss t)
      (natOf b % 2 = 0 → (∀ i, decode32 (natOf b) = .ok i → runs i t1)
        ∧ (∀ r, decode32 (natOf b) = .error r →
          stops (stopAt (rejectCause t1.me r) t1.me.pc (some 0) t1)))
      ∧ (natOf b % 2 = 1 → s0.me.pc.toNat % 8 ≠ 4 → ∀ (t2 : State) (b2 : List Byte), fetchAcc t u s0.me.pc.toNat 8 = .ok (t2, b2) →
        natOf b2 % 2 = 1 → let t3 := note (natOf b2) (missCycle miss t2)
        t3.me.pc = s0.me.pc → (∀ i, decode64 (natOf b2) = .ok i → runs i t3)
          ∧ ∀ r, decode64 (natOf b2) = .error r → stops (stopAt (rejectCause t3.me r) t3.me.pc (some 0) t3))
      ∧ (natOf b % 2 = 1 → s0.me.pc.toNat % 8 = 4 → t1.me.pc = s0.me.pc → stops (stop .illegalOp t1)))
    ∧ (won → ∀ w, s0.me.captured = some w → let t := note w.toNat s0
      (∀ i, (if w.toNat % 2 = 1 then decode64 w.toNat else decode32 w.toNat) = .ok i → runs i t)))
  ∧ (s.agenda = .walk u :: rest → ∀ o w x p, runningWalk s0 = some (o, w) → w.prog[w.pc]? = some x → decodeWOp x.toNat = some p →
      step s = capped (exec p.instr s0))
  ∧ (∀ i, s.agenda = .event i :: rest → i.isEvent = true → step s = capped (exec i { s with agenda := rest }))

/-! ## Memory -/

/-- The memory below the caches is data in canonical form: a write keeps it, a byte written is the byte read, every other address reads as before,
and two canonical memories that read the same everywhere are the same. The model's own representation (notes/assumptions/3.md). -/
def Obligations.MemoryReadAfterWrite : Prop := ∀ (m n : Mem) (a : Nat) (b : Byte) (l : List Byte), Memory.wf m = true →
  Memory.wf (memWrite m a l) = true ∧ memGet (memSet m a b) a = b ∧ (∀ k, k ≠ a → memGet (memSet m a b) k = memGet m k)
  ∧ memRead (memWrite m a l) a l.length = l ∧ (∀ k, (k < a ∨ a + l.length ≤ k) → memGet (memWrite m a l) k = memGet m k)
  ∧ (Memory.wf n = true → (∀ k, memGet m k = memGet n k) → m = n)

/-- Every step of the module, whatever moves, keeps the memory in canonical form. That form is the model's representation of memory, one list for each
contents (assumption 3), not a rule of the spec. -/
def Obligations.MemoryCanonicalKept : Prop := ∀ (s t : State), Memory.wf s.mem = true → step s = .next t → Memory.wf t.mem = true

/-- R416, R304, R306: the module when its status first reads ready has no context, farm, crew, hart or hive-queue binding, invalid caches and
TLBs, the default power caps and 64 steam permits in every pair, an empty error log, no swap slot, redirect or torus port up; its memory is
canonical. -/
def Obligations.ResetState : Prop :=
  let s := State.reset
  s.mgmt.ready = true ∧ s.ctxs = [] ∧ s.farms = [] ∧ s.crews = [] ∧ s.harts = [] ∧ s.hives = []
  ∧ s.l2 = [] ∧ s.l1 = [] ∧ s.l1i = [] ∧ s.upd = [] ∧ s.tlb = [] ∧ s.power.peakCap = 2400 ∧ s.power.avgCap = 1800
  ∧ (∀ p, permits s p = 64) ∧ s.mgmt.errors = [] ∧ s.swap.slots = [] ∧ s.swap.queue = [] ∧ s.swap.running = none
  ∧ s.mgmt.mapGen % 2 = 0 ∧ (∀ p ∈ s.torus.ports, p.2.state = 0) ∧ Memory.wf s.mem = true
end

