-- ==== Sys2Proof/Laws/Table.lean ====
section
/-! SUPPORT. The laws of tables and of memories in canonical form: what a read gives after a write, and that a write keeps the
form. -/

namespace Sys2Proof.Machine

/-! ## Tables -/

theorem tget_tput_self {α : Type} (t : Table α) (k : Nat) (a : α) : tget (tput t k a) k = some a := by
  induction t with
  | nil => simp [tput, tget]
  | cons p r ih =>
    obtain ⟨j, b⟩ := p
    unfold tput
    split
    · simp [tget]
    · split
      · simp [tget]
      · rename_i h1 h2; simp only [tget]; rw [if_neg (by omega)]; exact ih

theorem tget_tput_ne {α : Type} (t : Table α) (k u : Nat) (a : α) (h : u ≠ k) : tget (tput t k a) u = tget t u := by
  induction t with
  | nil => simp [tput, tget]; omega
  | cons p r ih =>
    obtain ⟨j, b⟩ := p
    unfold tput
    split
    · simp only [tget]; rw [if_neg (by omega)]
    · split
      · rename_i h1 h2; simp only [tget]; rw [if_neg (by omega), if_neg (by omega)]
      · simp only [tget]; rw [ih]

theorem tput_tput {α : Type} (t : Table α) (k : Nat) (a b : α) : tput (tput t k a) k b = tput t k b := by
  induction t with
  | nil => simp [tput]
  | cons p r ih =>
    obtain ⟨j, c⟩ := p
    simp only [tput]
    split
    · simp [tput]
    · split
      · simp [tput]
      · rename_i h1 h2; simp [tput, h1, h2, ih]

/-! ## Memories -/

/-- The head of a canonical memory lies below a bound. -/
def below (m : Mem) (a : Nat) : Prop :=
  match m with
  | [] => True
  | (k, _) :: _ => a < k

theorem wf_cons {a : Nat} {b : Byte} {r : Mem} : Memory.wf ((a, b) :: r) = true ↔ b ≠ 0 ∧ below r a ∧ Memory.wf r = true := by
  cases r with
  | nil => simp [Memory.wf, below]
  | cons p r => obtain ⟨k, c⟩ := p; simp [Memory.wf, below, and_assoc]

theorem below_trans {m : Mem} {a k : Nat} (h : below m k) (hk : a ≤ k) : below m a := by
  cases m with
  | nil => trivial
  | cons p r => simp only [below] at *; omega

theorem below_memSet {m : Mem} {a k : Nat} (b : Byte) (h : below m k) (hk : k < a) (hm : Memory.wf m = true) : below (memSet m a b) k := by
  cases m with
  | nil => unfold memSet; split <;> simp [below, hk]
  | cons p r =>
    obtain ⟨j, c⟩ := p
    simp only [below] at h
    obtain ⟨-, hb, -⟩ := wf_cons.1 hm
    unfold memSet
    split
    · split <;> simp [below] <;> omega
    · split
      · split
        · exact below_trans hb (by omega)
        · simp [below]; omega
      · simp [below]; omega

/-- A write of a byte keeps the canonical form. -/
theorem wf_memSet {m : Mem} (a : Nat) (b : Byte) (h : Memory.wf m = true) : Memory.wf (memSet m a b) = true := by
  induction m with
  | nil => unfold memSet; split <;> simp_all [Memory.wf]
  | cons p r ih =>
    obtain ⟨k, c⟩ := p
    obtain ⟨hc, hb, hr⟩ := wf_cons.1 h
    unfold memSet
    split
    · split
      · exact h
      · exact wf_cons.2 ⟨by assumption, by simp [below]; omega, h⟩
    · split
      · split
        · exact hr
        · subst a; exact wf_cons.2 ⟨by assumption, hb, hr⟩
      · exact wf_cons.2 ⟨hc, below_memSet b hb (by omega) hr, ih hr⟩

/-- A write of bytes keeps the canonical form. -/
theorem wf_memWrite {m : Mem} (a : Nat) (l : List Byte) (h : Memory.wf m = true) : Memory.wf (memWrite m a l) = true := by
  induction l generalizing m a with
  | nil => exact h
  | cons b l ih => exact ih _ (wf_memSet a b h)

theorem memGet_below {m : Mem} {a k : Nat} (h : below m k) (ha : a ≤ k) : memGet m a = 0 := by
  cases m with
  | nil => rfl
  | cons p r => obtain ⟨j, c⟩ := p; simp only [below] at h; simp only [memGet]; rw [if_neg (by omega), if_pos (by omega)]

end Sys2Proof.Machine
end

