-- ==== Sys2Proof/Laws/State.lean ====
section
/-! SUPPORT. One lemma per field of a state or a hart and per update of it, so that no proof unfolds a record update. -/

namespace Sys2Proof.Machine

/-! ## The executing hart's entry -/

@[simp] theorem setHart_hart (s : State) (u : Nat) (h : Hart) : (s.setHart u h).hart u = h := by simp [State.hart, State.setHart, tget_tput_self]
theorem setHart_hart_ne (s : State) (u k : Nat) (h : Hart) (n : k ≠ u) : (s.setHart u h).hart k = s.hart k := by
  simp [State.hart, State.setHart, tget_tput_ne _ _ _ _ n]
@[simp] theorem setHart_setHart (s : State) (u : Nat) (h g : Hart) : (s.setHart u h).setHart u g = s.setHart u g := by
  simp [State.setHart, tput_tput]
@[simp] theorem setHart_cur (s : State) (u : Nat) (h : Hart) : (s.setHart u h).cur = s.cur := rfl
@[simp] theorem setHart_mem (s : State) (u : Nat) (h : Hart) : (s.setHart u h).mem = s.mem := rfl
@[simp] theorem setHart_l2 (s : State) (u : Nat) (h : Hart) : (s.setHart u h).l2 = s.l2 := rfl
@[simp] theorem setHart_crews (s : State) (u : Nat) (h : Hart) : (s.setHart u h).crews = s.crews := rfl
@[simp] theorem setHart_ctxs (s : State) (u : Nat) (h : Hart) : (s.setHart u h).ctxs = s.ctxs := rfl
@[simp] theorem setMe_me (s : State) (h : Hart) : (s.setMe h).me = h := by simp [State.setMe, State.me]
@[simp] theorem setMe_cur (s : State) (h : Hart) : (s.setMe h).cur = s.cur := rfl
@[simp] theorem setMe_mem (s : State) (h : Hart) : (s.setMe h).mem = s.mem := rfl
@[simp] theorem setMe_setMe (s : State) (h g : Hart) : (s.setMe h).setMe g = s.setMe g := by simp [State.setMe]
@[simp] theorem modMe_me (s : State) (f : Hart → Hart) : (s.modMe f).me = f s.me := by simp [State.modMe]
@[simp] theorem modMe_cur (s : State) (f : Hart → Hart) : (s.modMe f).cur = s.cur := rfl
@[simp] theorem modMe_mem (s : State) (f : Hart → Hart) : (s.modMe f).mem = s.mem := rfl

/-! ## Scalar registers (R28) -/

@[simp] theorem late_x (h : Hart) (r : Reg) (n : Nat) : (h.late r n).x = h.x := by unfold Hart.late; split <;> rfl
@[simp] theorem late_rx (h : Hart) (r q : Reg) (n : Nat) : (h.late r n).rx q = h.rx q := by simp [Hart.rx]
@[simp] theorem late_v (h : Hart) (r : Reg) (n : Nat) : (h.late r n).v = h.v := by unfold Hart.late; split <;> rfl
@[simp] theorem late_m (h : Hart) (r : Reg) (n : Nat) : (h.late r n).m = h.m := by unfold Hart.late; split <;> rfl
@[simp] theorem late_pc (h : Hart) (r : Reg) (n : Nat) : (h.late r n).pc = h.pc := by unfold Hart.late; split <;> rfl
@[simp] theorem late_vl (h : Hart) (r : Reg) (n : Nat) : (h.late r n).vl = h.vl := by unfold Hart.late; split <;> rfl
@[simp] theorem late_frm (h : Hart) (r : Reg) (n : Nat) : (h.late r n).frm = h.frm := by unfold Hart.late; split <;> rfl
@[simp] theorem late_fflags (h : Hart) (r : Reg) (n : Nat) : (h.late r n).fflags = h.fflags := by unfold Hart.late; split <;> rfl
@[simp] theorem late_retired (h : Hart) (r : Reg) (n : Nat) : (h.late r n).retired = h.retired := by unfold Hart.late; split <;> rfl
@[simp] theorem late_cycle (h : Hart) (r : Reg) (n : Nat) : (h.late r n).cycle = h.cycle := by unfold Hart.late; split <;> rfl
@[simp] theorem rx_zero (h : Hart) : h.rx 0 = 0 := by simp [Hart.rx]
@[simp] theorem wx_zero (h : Hart) (w : Word) : h.wx 0 w = h := by simp [Hart.wx]
theorem rx_wx_self (h : Hart) (r : Reg) (w : Word) (n : r ≠ 0) : (h.wx r w).rx r = w := by simp [Hart.wx, n]; simp [Hart.rx, n]
theorem rx_wx_ne (h : Hart) (r d : Reg) (w : Word) (n : r ≠ d) : (h.wx d w).rx r = h.rx r := by
  unfold Hart.rx Hart.wx
  by_cases hd : d = 0
  · simp [hd]
  · have : d.val ≠ r.val := fun e => n (Fin.ext e.symm)
    simp [hd, this]
@[simp] theorem wx_pc (h : Hart) (r : Reg) (w : Word) : (h.wx r w).pc = h.pc := by unfold Hart.wx; split <;> simp
@[simp] theorem wx_v (h : Hart) (r : Reg) (w : Word) : (h.wx r w).v = h.v := by unfold Hart.wx; split <;> simp
@[simp] theorem wx_m (h : Hart) (r : Reg) (w : Word) : (h.wx r w).m = h.m := by unfold Hart.wx; split <;> simp
@[simp] theorem wx_vl (h : Hart) (r : Reg) (w : Word) : (h.wx r w).vl = h.vl := by unfold Hart.wx; split <;> simp
@[simp] theorem wx_fflags (h : Hart) (r : Reg) (w : Word) : (h.wx r w).fflags = h.fflags := by unfold Hart.wx; split <;> simp
@[simp] theorem wx_frm (h : Hart) (r : Reg) (w : Word) : (h.wx r w).frm = h.frm := by unfold Hart.wx; split <;> simp

/-! ## Vector and mask registers (R30, R33) -/

@[simp] theorem rv_wv_self (h : Hart) (r : VR) (a : VReg) : (h.wv r a).rv r = a := by simp [Hart.rv, Hart.wv]
theorem rv_wv_ne (h : Hart) (r d : VR) (a : VReg) (n : r ≠ d) : (h.wv d a).rv r = h.rv r := by
  have : d.val ≠ r.val := fun e => n (Fin.ext e.symm)
  simp [Hart.rv, Hart.wv, Vector.getElem_set, this]
@[simp] theorem wv_x (h : Hart) (r : VR) (a : VReg) : (h.wv r a).x = h.x := rfl
@[simp] theorem wv_m (h : Hart) (r : VR) (a : VReg) : (h.wv r a).m = h.m := rfl
@[simp] theorem rm_wm_self (h : Hart) (r : MR) (a : MaskBits) : (h.wm r a).rm r = a := by simp [Hart.rm, Hart.wm]
theorem rm_wm_ne (h : Hart) (r d : MR) (a : MaskBits) (n : r ≠ d) : (h.wm d a).rm r = h.rm r := by
  have : d.val ≠ r.val := fun e => n (Fin.ext e.symm)
  simp [Hart.rm, Hart.wm, Vector.getElem_set, this]
@[simp] theorem wm_x (h : Hart) (r : MR) (a : MaskBits) : (h.wm r a).x = h.x := rfl
@[simp] theorem wm_v (h : Hart) (r : MR) (a : MaskBits) : (h.wm r a).v = h.v := rfl

/-! ## Retirement (R58) -/

theorem done_pc (h : Hart) : h.done.pc = h.pc + 4 := rfl
theorem goto_pc (h : Hart) (p : Word) (n : Nat) : (h.goto p n).pc = p := rfl
@[simp] theorem charge_x (h : Hart) (n k : Nat) : (h.charge n k).x = h.x := by unfold Hart.charge; split <;> rfl
@[simp] theorem charge_v (h : Hart) (n k : Nat) : (h.charge n k).v = h.v := by unfold Hart.charge; split <;> rfl
@[simp] theorem charge_m (h : Hart) (n k : Nat) : (h.charge n k).m = h.m := by unfold Hart.charge; split <;> rfl
@[simp] theorem charge_pc (h : Hart) (n k : Nat) : (h.charge n k).pc = h.pc := by unfold Hart.charge; split <;> rfl
@[simp] theorem account_retired (h : Hart) (a b : Nat) : (h.account a b).retired = (h.retired + 1) % 2 ^ 64 := by
  simp only [Hart.account, Hart.charge]; split <;> split <;> rfl
@[simp] theorem account_pc (h : Hart) (a b : Nat) : (h.account a b).pc = h.pc := by simp [Hart.account]
@[simp] theorem account_x (h : Hart) (a b : Nat) : (h.account a b).x = h.x := by simp [Hart.account]
@[simp] theorem account_v (h : Hart) (a b : Nat) : (h.account a b).v = h.v := by simp [Hart.account]
@[simp] theorem account_m (h : Hart) (a b : Nat) : (h.account a b).m = h.m := by simp [Hart.account]
@[simp] theorem goto_retired (h : Hart) (p : Word) (n : Nat) : (h.goto p n).retired = (h.retired + 1) % 2 ^ 64 := by simp [Hart.goto]
@[simp] theorem done_retired (h : Hart) : h.done.retired = (h.retired + 1) % 2 ^ 64 := by simp [Hart.done]
@[simp] theorem goto_x (h : Hart) (p : Word) (n : Nat) : (h.goto p n).x = h.x := by simp [Hart.goto]
@[simp] theorem goto_v (h : Hart) (p : Word) (n : Nat) : (h.goto p n).v = h.v := by simp [Hart.goto]
@[simp] theorem goto_m (h : Hart) (p : Word) (n : Nat) : (h.goto p n).m = h.m := by simp [Hart.goto]
@[simp] theorem done_x (h : Hart) : h.done.x = h.x := by simp [Hart.done]
@[simp] theorem done_v (h : Hart) : h.done.v = h.v := by simp [Hart.done]
@[simp] theorem done_m (h : Hart) : h.done.m = h.m := by simp [Hart.done]
@[simp] theorem wx_retired (h : Hart) (r : Reg) (w : Word) : (h.wx r w).retired = h.retired := by unfold Hart.wx; split <;> simp
@[simp] theorem seqStep_retired (h : Hart) : h.seqStep.retired = h.retired := by
  simp only [Hart.seqStep]; split <;> (try split) <;> simp
@[simp] theorem doneL_retired (h : Hart) (d : Hdr) : (h.doneL d).retired = (h.retired + 1) % 2 ^ 64 := by
  simp only [Hart.doneL]; split <;> simp
theorem doneL_pc (h : Hart) (d : Hdr) (n : h.replaying = false) : (h.doneL d).pc = h.pc + 8 := by simp [Hart.doneL, n]

end Sys2Proof.Machine
end

