-- ==== Sys2Proof/Laws/Memory.lean ====
section
/-! SUPPORT. What the shared memory operations of Memory.lean and Access.lean leave alone: harts, crews and contexts, and the canonical form of
memory. -/

namespace Sys2Proof.Machine

/-- Two states that differ at most in memory, the caches, the port TLBs and the count of free values taken, whose memory stays in
canonical form. -/
structure CachesOnly (s t : State) : Prop where
  cur : t.cur = s.cur
  harts : t.harts = s.harts
  crews : t.crews = s.crews
  ctxs : t.ctxs = s.ctxs
  wf : Memory.wf s.mem = true → Memory.wf t.mem = true

theorem CachesOnly.refl (s : State) : CachesOnly s s := ⟨rfl, rfl, rfl, rfl, id⟩
theorem CachesOnly.trans {s t u : State} (h : CachesOnly s t) (g : CachesOnly t u) : CachesOnly s u :=
  ⟨g.cur.trans h.cur, g.harts.trans h.harts, g.crews.trans h.crews, g.ctxs.trans h.ctxs, fun w => g.wf (h.wf w)⟩

theorem cachesOnly_l2put (s : State) (l : L2Line) : CachesOnly s (l2put s l) := ⟨rfl, rfl, rfl, rfl, id⟩
theorem cachesOnly_dropL1 (s : State) (a l : Nat) : CachesOnly s (dropL1 s a l) := ⟨rfl, rfl, rfl, rfl, id⟩
theorem cachesOnly_dropL1Core (s : State) (c a l : Nat) : CachesOnly s (dropL1Core s c a l) := ⟨rfl, rfl, rfl, rfl, id⟩
theorem cachesOnly_cleanL1 (s : State) (c : Nat) : CachesOnly s (cleanL1 s c) := ⟨rfl, rfl, rfl, rfl, id⟩
theorem cachesOnly_fill (s : State) (a l f : Nat) (r : Rights) : CachesOnly s (fill s a l f r).1 := ⟨rfl, rfl, rfl, rfl, id⟩
theorem cachesOnly_writeBack (s : State) (l : L2Line) : CachesOnly s (writeBack s l) := by
  unfold writeBack
  split
  · exact ⟨rfl, rfl, rfl, rfl, fun h => wf_memWrite _ _ h⟩
  · exact .refl s

theorem cachesOnly_foldl {α : Type} (f : State → α → State) (hf : ∀ s a, CachesOnly s (f s a)) (l : List α) (s : State) : CachesOnly s (l.foldl f s) := by
  induction l generalizing s with
  | nil => exact .refl s
  | cons a l ih => exact (hf s a).trans (ih _)

theorem cachesOnly_noteWait (s : State) (a : Nat) : CachesOnly s (noteWait s a) := by
  unfold noteWait; split <;> exact ⟨rfl, rfl, rfl, rfl, id⟩

theorem cachesOnly_touchSlice (s : State) (va : Nat) : CachesOnly s (touchSlice s va) := by
  unfold touchSlice; split <;> exact ⟨rfl, rfl, rfl, rfl, id⟩

theorem cachesOnly_hostPass (s : State) (a l : Nat) : CachesOnly s (hostPass s a l) := by
  unfold hostPass
  split
  · split
    · exact .refl s
    · split
      · exact cachesOnly_noteWait _ _
      · exact cachesOnly_writeBack _ _
  · exact .refl s

theorem cachesOnly_homeLine (s : State) (a l f : Nat) (r : Rights) : CachesOnly s (homeLine s a l f r).1 := by
  unfold homeLine
  split
  · exact .refl s
  · split <;> exact ⟨rfl, rfl, rfl, rfl, id⟩

theorem cachesOnly_mergeCopy (s : State) (u : UpdLine) : CachesOnly s (mergeCopy s u) := by
  unfold mergeCopy
  refine (cachesOnly_homeLine s u.asid u.line u.frame u.rights).trans ?_
  generalize homeLine s u.asid u.line u.frame u.rights = p
  obtain ⟨t, l⟩ := p
  cases l with
  | some l =>
    refine CachesOnly.trans ?_ (cachesOnly_hostPass (dropL1 (l2put _ { l with data := mergeData (t.fresh + 256 + 2 * u.items.length) u l.data, dirty := true })
      u.asid u.line) u.asid u.line)
    exact ⟨rfl, rfl, rfl, rfl, id⟩
  | none => exact ⟨rfl, rfl, rfl, rfl, id⟩

theorem cachesOnly_recallLoop (a l n : Nat) (s : State) : CachesOnly s (recallLoop a l n s) := by
  induction n generalizing s with
  | zero => exact .refl s
  | succ n ih =>
    unfold recallLoop
    simp only
    split
    · exact .refl s
    · split
      · refine CachesOnly.trans ?_ (ih _)
        exact CachesOnly.trans (t := { s with fresh := s.fresh + 1 }) ⟨rfl, rfl, rfl, rfl, id⟩ (cachesOnly_mergeCopy _ _)
      · exact .refl s

theorem cachesOnly_recallLine (s : State) (a l : Nat) : CachesOnly s (recallLine s a l) := cachesOnly_recallLoop a l _ s

theorem cachesOnly_setAccessed (s : State) (ea p p' : Nat) : CachesOnly s (setAccessed s ea p p') := by
  exact ⟨rfl, rfl, rfl, rfl, fun w => wf_memWrite _ _ w⟩

theorem cachesOnly_translate {s t : State} {w : Word} {p : Bool} {k : Access} {va n : Nat} {r : Rights} (h : translate s w p k va = .ok (t, n, r)) :
    CachesOnly s t := by
  unfold translate at h
  simp only at h
  split at h
  · cases h; exact .refl s
  · split at h
    · cases h
    · split at h
      · cases h
      · cases h
      · cases h
      · cases h
      · rename_i ea p0 _ _ _
        split at h
        · cases h
          refine CachesOnly.trans (t := cacheWalk s w va) ⟨rfl, rfl, rfl, rfl, id⟩ ?_
          exact CachesOnly.trans (t := setAccessed (cacheWalk s w va) ea p0 _) (cachesOnly_setAccessed _ _ _ _) ⟨rfl, rfl, rfl, rfl, id⟩
        · cases h

/-- A line that is given is given as it stands. -/
theorem lineGiven_eq {s t : State} {k : Access} {l m : L2Line} (h : lineGiven s k l = .ok (t, m)) : t = s ∧ m = l := by
  unfold lineGiven at h
  split at h
  · cases h
  · split at h <;> cases h
    exact ⟨rfl, rfl⟩

theorem cachesOnly_lineFresh {s t : State} {w : Word} {p : Bool} {k : Access} {va : Nat} {l : L2Line} (h : lineFresh s w p k va = .ok (t, l)) :
    CachesOnly s t := by
  unfold lineFresh at h
  split at h
  · cases h
  · rename_i e
    have ht := cachesOnly_translate e
    split at h
    · rw [(lineGiven_eq h).1]; exact ht.trans (cachesOnly_l2put _ _)
    · rw [(lineGiven_eq h).1]; exact ht.trans (cachesOnly_fill _ _ _ _ _)

theorem cachesOnly_lineFor {s t : State} {w : Word} {p : Bool} {k : Access} {va : Nat} {l : L2Line} (h : lineFor s w p k va = .ok (t, l)) :
    CachesOnly s t := by
  have hr := cachesOnly_recallLine s (asidOf w) (va / 64)
  unfold lineFor at h
  simp only at h
  split at h
  · exact hr.trans (cachesOnly_lineFresh h)
  · split at h
    · exact hr.trans (cachesOnly_lineFresh h)
    · split at h
      · rw [(lineGiven_eq h).1]; exact hr
      · cases h

theorem cachesOnly_homeWrite (s : State) (c a va pa : Nat) (r : Rights) (b : List (Option Byte)) : CachesOnly s (homeWrite s c a va pa r b) := by
  unfold homeWrite
  refine (cachesOnly_recallLine s a (va / 64)).trans ?_
  have h := cachesOnly_homeLine (recallLine s a (va / 64)) a (va / 64) (pa / 64) r
  simp only
  generalize homeLine (recallLine s a (va / 64)) a (va / 64) (pa / 64) r = p at h ⊢
  obtain ⟨t, l⟩ := p
  cases l with
  | none => exact h
  | some l => exact h.trans ⟨rfl, rfl, rfl, rfl, id⟩

theorem cachesOnly_agentRead {w : Word} {p : Bool} {n va : Nat} {s t : State} {b : List Byte} (h : agentRead s w p n va = .ok (t, b)) : CachesOnly s t := by
  induction n generalizing s va b t with
  | zero => cases h; exact .refl s
  | succ n ih =>
    simp only [agentRead] at h
    split at h
    · cases h
    · rename_i q l e
      split at h
      · cases h
      · rename_i q' r e'
        cases h
        exact (cachesOnly_touchSlice s va).trans ((cachesOnly_lineFor e).trans (ih e'))

theorem cachesOnly_agentWrite {w : Word} {p : Bool} {va : Nat} {b : List Byte} {s t : State} (h : agentWrite s w p va b = .ok t) : CachesOnly s t := by
  induction b generalizing s va t with
  | nil => cases h; exact .refl s
  | cons x b ih =>
    simp only [agentWrite] at h
    split at h
    · cases h
    · rename_i q l e
      exact (cachesOnly_touchSlice s va).trans ((cachesOnly_lineFor e).trans (((cachesOnly_l2put _ _).trans (cachesOnly_dropL1 _ _ _)).trans (ih h)))

theorem cachesOnly_invalidatePages (s : State) (a : Nat) (f : Nat → Bool) : CachesOnly s (invalidatePages s a f) := by
  let p : State := { s with tlb := s.tlb.filter fun t => !(t.asid == a && f t.page), walks := [] }
  let q := (p.upd.filter fun u => u.asid == a && f (u.line / 64)).foldl (fun s (u : UpdLine) => recallLine s u.asid u.line) p
  let r := (q.l2.filter fun l => l.asid == a && f (l.line / 64)).foldl writeBack q
  have hp : CachesOnly s p := ⟨rfl, rfl, rfl, rfl, id⟩
  have hq : CachesOnly p q := cachesOnly_foldl _ (fun s _ => cachesOnly_recallLine s _ _) _ _
  have hr : CachesOnly q r := cachesOnly_foldl _ cachesOnly_writeBack _ _
  exact hp.trans (hq.trans (hr.trans ⟨rfl, rfl, rfl, rfl, id⟩))

theorem cachesOnly_flushSystem (s : State) (a : Nat) : CachesOnly s (flushSystem s a) := by
  unfold flushSystem
  exact (cachesOnly_foldl (fun s (u : UpdLine) => recallLine s u.asid u.line) (fun s _ => cachesOnly_recallLine s _ _) _ _).trans
    (cachesOnly_foldl writeBack cachesOnly_writeBack _ _)

/-! ## Accesses -/

theorem missAcc_ne {α : Type} {s t : State} {a : Nat} {k : Access} {m : Miss} {x : α} (h : missAcc s a k m = .ok t x) : False := by
  unfold missAcc at h; split at h <;> cases h

theorem cachesOnly_loadLine {s t : State} {u pol va n : Nat} {v : Bool} {b : List Byte} (h : loadLine s u v pol va n = .ok t b) : CachesOnly s t := by
  unfold loadLine at h
  simp only at h
  split at h
  · cases h
  · split at h
    · split at h
      · cases h
      · split at h
        · cases h
        · cases h; exact .refl s
    · split at h
      · cases h
      · split at h
        · exact (missAcc_ne h).elim
        · rename_i q l e
          cases h
          refine (cachesOnly_touchSlice s va).trans ((cachesOnly_lineFor e).trans ?_)
          split <;> split <;> exact ⟨rfl, rfl, rfl, rfl, id⟩

theorem cachesOnly_loadPieces {u pol k va : Nat} {v : Bool} {s t : State} {a b : List Byte} (h : loadPieces u v pol k s va a = .ok t b) :
    CachesOnly s t := by
  induction k generalizing s va a with
  | zero => cases h; exact .refl t
  | succ k ih =>
    simp only [loadPieces] at h
    split at h
    · rename_i q c e; exact (cachesOnly_loadLine e).trans (ih h)
    · cases h
    · cases h

/-- A load that succeeds changes the caches and page-table bits only. -/
theorem cachesOnly_loadAcc {s t : State} {u pol va n k : Nat} {v : Bool} {b : List Byte} (h : loadAcc s u v pol va n k = .ok t b) : CachesOnly s t := by
  unfold loadAcc at h
  simp only at h
  split at h
  · cases h
  · split at h
    · split at h
      · cases h
      · split at h
        · cases h
        · cases h; exact .refl s
    · split at h
      · exact cachesOnly_loadLine h
      · exact cachesOnly_loadPieces h

theorem cachesOnly_fetchAcc {s t : State} {u va n : Nat} {b : List Byte} (h : fetchAcc s u va n = .ok (t, b)) : CachesOnly s t := by
  unfold fetchAcc at h
  simp only at h
  split at h
  · cases h
  · split at h
    · split at h
      · cases h
      · split at h
        · cases h
        · cases h; exact .refl s
    · split at h
      · cases h
      · split at h
        · cases h
        · rename_i q l e
          split at h
          · cases h
          · cases h
            refine (cachesOnly_touchSlice s va).trans ((cachesOnly_lineFor e).trans ?_)
            split
            · exact .refl q
            · exact ⟨rfl, rfl, rfl, rfl, id⟩

theorem wf_performStore (s : State) (u : Nat) (p : PStore) (h : Memory.wf s.mem = true) : Memory.wf (performStore s u p).mem = true := by
  have := (cachesOnly_homeWrite (touchSlice s p.va) (((s.hart u).place.map coreOf).getD 160) p.asid p.va p.pa p.rights p.bytes).wf ((cachesOnly_touchSlice s p.va).wf h)
  unfold performStore
  simp only
  split <;> exact this

theorem wf_settle (s : State) (u : Nat) (f : PStore → Bool) (h : Memory.wf s.mem = true) : Memory.wf (settle s u f).mem = true := by
  have : ∀ (l : List PStore) (t : State), Memory.wf t.mem = true → Memory.wf (l.foldl (fun s p => performStore s u p) t).mem = true := by
    intro l
    induction l with
    | nil => intro t h; exact h
    | cons p l ih => intro t h; exact ih _ (wf_performStore t u p h)
  exact this _ _ h

theorem wf_performAt (s : State) (u n : Nat) (a b c d : Bool) (h : Memory.wf s.mem = true) : Memory.wf (performAt s u n a b c d).mem = true := by
  unfold performAt
  simp only
  split
  · exact h
  · split
    · exact (cachesOnly_flushSystem _ _).wf (wf_settle _ _ _ h)
    · exact wf_settle _ _ _ h

/-- A store's rights come from the caches alone. -/
theorem cachesOnly_storeRights {s t : State} {h : Hart} {pol va f : Nat} {r : Rights} (e : storeRights s h pol va = .ok (t, r, f)) : CachesOnly s t := by
  unfold storeRights at e
  split at e
  · split at e <;> cases e
    exact .refl s
  · split at e
    · cases e
    · rename_i q l eq
      cases e
      exact (cachesOnly_lineFor eq).trans ⟨rfl, rfl, rfl, rfl, id⟩

theorem coverWalks_mem (s : State) (u o n : Nat) (q : Option Nat) : (coverWalks s u q o n).mem = s.mem := by
  unfold coverWalks; split <;> rfl

theorem wf_storeAcc {s t : State} {u pol va k : Nat} {v : Bool} {b : List Byte} (h : storeAcc s u v pol va b k = .ok t ()) (w : Memory.wf s.mem = true) :
    Memory.wf t.mem = true := by
  unfold storeAcc at h
  simp only at h
  split at h
  · cases h
  · split at h
    · split at h
      · cases h
      · cases h
        split
        · exact (coverWalks_mem s u (va - winBase) b.length none ▸ w : Memory.wf (coverWalks s u none (va - winBase) b.length).mem = true)
        · exact w
    · split at h
      · cases h
      · split at h
        · cases h
        · split at h
          · exact (missAcc_ne h).elim
          · rename_i q r f e
            have hq : Memory.wf q.mem = true := (cachesOnly_storeRights e).wf ((cachesOnly_touchSlice s va).wf w)
            have h2 : Memory.wf (policyCopies q (s.hart u).core (asidOf (s.hart u).aspace) (va / 64) pol).mem = true := by
              unfold policyCopies; simp only; split <;> split <;> exact hq
            split at h
            · split at h
              · cases h
              · cases h; exact h2
            · cases h
              split
              · exact (cachesOnly_noteWait _ _).wf h2
              · exact h2

theorem wf_atomicAcc {s t : State} {u va n o : Nat} {v : Bool} {f : Nat → Nat} (h : atomicAcc s u v va n f = .ok t o) (w : Memory.wf s.mem = true) :
    Memory.wf t.mem = true := by
  unfold atomicAcc at h
  simp only at h
  split at h
  · cases h
  · split at h
    · split at h
      · cases h
      · split at h
        · cases h
        · cases h; exact w
    · split at h
      · cases h
      · split at h
        · cases h
        · split at h
          · exact (missAcc_ne h).elim
          · rename_i q l e
            have hq := (cachesOnly_lineFor e).wf (wf_settle _ _ _ ((cachesOnly_touchSlice s va).wf w))
            split at h
            · cases h
            · cases h; split <;> exact hq

theorem bufferUpdate_mem (s : State) (c a l : Nat) (op : RedOp) (wd : Bool) (o : Nat) (w : Word) (r : Rights) (f : Nat) :
    (bufferUpdate s c a l op wd o w r f).mem = s.mem := by unfold bufferUpdate; split <;> rfl

theorem wf_redAcc {s t : State} {u va : Nat} {v wd : Bool} {op : RedOp} {x : Word} (h : redAcc s u v op wd va x = .ok t ()) (w : Memory.wf s.mem = true) :
    Memory.wf t.mem = true := by
  have wt := (cachesOnly_touchSlice s va).wf w
  unfold redAcc at h
  simp only at h
  generalize (if wd = true then 8 else 4) = n at h
  split at h
  · cases h
  · split at h
    · split at h
      · cases h
      · split at h
        · cases h
        · split at h
          · cases h
          · cases h
            split
            · exact (coverWalks_mem s u (va - winBase) n none ▸ w : Memory.wf (coverWalks s u none (va - winBase) n).mem = true)
            · exact w
    · split at h
      · cases h
      · split at h
        · cases h
        · split at h
          · cases h; rw [bufferUpdate_mem]; exact wf_settle _ _ _ wt
          · split at h
            · exact (missAcc_ne h).elim
            · rename_i q l e
              cases h; rw [bufferUpdate_mem]; exact (cachesOnly_lineFor e).wf (wf_settle _ _ _ wt)

end Sys2Proof.Machine
end

