-- ==== Sys2Proof/Laws/Agent.lean ====
section
/-! SUPPORT. The hub's and the engines' accesses to pages that the port TLBs map to themselves with every right: they succeed, a read gives the
bytes the L2 or memory holds, and the same holds after them. -/

namespace Sys2Proof.Machine

/-- Every right. -/
def fullRights : Rights := { r := true, w := true, x := true, u := true, d := true }

/-- Pages below a bound are mapped to themselves with every right for an ASID, nothing stands between an access and its line, and the bytes
of those pages are `f`'s. -/
structure Mapped (w : Word) (top : Nat) (f : Nat → Byte) (s : State) : Prop where
  low : top * 4096 ≤ 2 ^ 55
  upd : s.upd = []
  bad : s.bad = []
  slots : s.swap.slots = []
  awake : s.mgmt.asleep = []
  tlb : ∀ p, p < top → ∀ store : Bool, s.tlb.find? (fun t => t.asid == asidOf w && t.page == p && t.rights.grants true (if store then .store else .load) && (!store || t.rights.d))
    = some { asid := asidOf w, page := p, ppn := p, rights := fullRights }
  rights : ∀ l ∈ s.l2, l.asid = asidOf w → l.rights = fullRights
  frames : ∀ l ∈ s.l2, l.asid = asidOf w → isHost (l.frame * 64) = false
  cached : ∀ l ∈ s.l2, l.asid = asidOf w → ∀ i, i < 64 → l.data.getD i 0 = f (l.line * 64 + i)
  memory : ∀ n, n < top * 64 → l2find s (asidOf w) n = none → ∀ i, i < 64 → memGet s.mem (n * 64 + i) = f (n * 64 + i)

theorem recallLine_none {s : State} (h : s.upd = []) (a l : Nat) : recallLine s a l = s := by simp [recallLine, h, recallLoop]

theorem low_ok {va : Nat} (h : va < 2 ^ 55) : canonical va = true ∧ inWindow va = false := by
  unfold canonical inWindow winBase
  constructor
  · have : va / 2 ^ 56 = 0 := by omega
    rw [this]; rfl
  · simp; omega

theorem l2find_mem {s : State} {a n : Nat} {l : L2Line} (h : l2find s a n = some l) : l ∈ s.l2 ∧ l.asid = a ∧ l.line = n := by
  unfold l2find at h
  have := List.find?_some h
  simp at this
  exact ⟨List.mem_of_find?_eq_some h, this.1, this.2⟩

theorem l2find_l2put (s : State) (l : L2Line) (a n : Nat) : l2find (l2put s l) a n = if l.asid = a ∧ l.line = n then some l else l2find s a n := by
  unfold l2find l2put
  simp only [List.find?_cons]
  by_cases h : l.asid = a ∧ l.line = n
  · simp [h]
  · have : (l.asid == a && l.line == n) = false := by simpa using h
    rw [this, if_neg h]
    simp only
    induction s.l2 with
    | nil => rfl
    | cons k r ih =>
      by_cases hk : (k.asid == l.asid && k.line == l.line) = true
      · have hk' : k.asid = l.asid ∧ k.line = l.line := by simpa using hk
        have e : (k.asid == a && k.line == n) = false := by rw [hk'.1, hk'.2]; exact this
        simp only [List.filter_cons, hk, Bool.not_true, Bool.false_eq_true, if_false, List.find?_cons, e, ih]
      · have hk' : (k.asid == l.asid && k.line == l.line) = false := by simpa using hk
        simp only [List.filter_cons, hk', Bool.not_false, if_true, List.find?_cons, ih]

theorem tabulate_eq {α : Type} (n : Nat) (f : Nat → α) : tabulate n f = (List.range n).map f := rfl

theorem memRead_getD (m : Mem) (a n i : Nat) (h : i < n) : (memRead m a n).getD i 0 = memGet m (a + i) := by
  simp [memRead, tabulate_eq, List.getD_eq_getElem?_getD, h]

/-- An access to a slice of a module with no array in retention keeps the pages mapped. -/
theorem Mapped.touch {w : Word} {top : Nat} {f : Nat → Byte} {s : State} (m : Mapped w top f s) (va : Nat) :
    Mapped w top f (touchSlice s va) ∧ (touchSlice s va).harts = s.harts ∧ (touchSlice s va).ctxs = s.ctxs := by
  unfold touchSlice
  split
  · exact ⟨m, rfl, rfl⟩
  · exact ⟨⟨m.low, m.upd, m.bad, m.slots, by simp [m.awake], m.tlb, m.rights, m.frames, m.cached, m.memory⟩, rfl, rfl⟩

/-- A line that is not the host's is given, no line of memory holding an error. -/
theorem lineGiven_ok {s : State} {l : L2Line} (k : Access) (hb : s.bad = []) (hf : isHost (l.frame * 64) = false) : lineGiven s k l = .ok (s, l) := by
  simp [lineGiven, isBad, hostDown, hb, hf]

/-- The line an access to a mapped page reaches. -/
theorem Mapped.lineFor {w : Word} {top : Nat} {f : Nat → Byte} {s : State} (m : Mapped w top f s) (store : Bool) {va : Nat} (h : va < top * 4096) :
    ∃ t l, lineFor s w true (if store then .store else .load) va = .ok (t, l) ∧ Mapped w top f t ∧ l2find t (asidOf w) (va / 64) = some l
      ∧ t.harts = s.harts ∧ t.ctxs = s.ctxs := by
  have hlow : va < 2 ^ 55 := Nat.lt_of_lt_of_le h m.low
  have hp : va / 4096 < top := by omega
  have ht := m.tlb (va / 4096) hp store
  unfold Machine.lineFor
  simp only [recallLine_none m.upd]
  cases hl : l2find s (asidOf w) (va / 64) with
  | none =>
    simp only
    have e : translate s w true (if store then .store else .load) va = .ok (s, va / 4096, fullRights) := by
      unfold translate
      have : (((if store then Access.store else Access.load) == Access.store) : Bool) = store := by cases store <;> rfl
      simp only [this]
      rw [ht]
    have hf : va / 4096 * 64 + va / 64 % 64 = va / 64 := by omega
    have hhost : isHost (va / 64 * 64) = false := by
      have hx : ¬ 0x80000000000000 ≤ va / 64 * 64 := by omega
      exact decide_eq_false hx
    simp only [lineFresh, e, hl, hf]
    rw [lineGiven_ok (s := (fill s (asidOf w) (va / 64) (va / 64) fullRights).1) (l := (fill s (asidOf w) (va / 64) (va / 64) fullRights).2) _ m.bad hhost]
    have hst : steer s (va / 64 * 64) = va / 64 * 64 := by simp [steer, m.slots, sortBy]
    refine ⟨_, _, rfl, ?_, ?_, rfl, rfl⟩
    · refine ⟨m.low, m.upd, m.bad, m.slots, m.awake, m.tlb, ?_, ?_, ?_, ?_⟩
      · intro l hl' ha
        simp only [fill, l2put, List.mem_cons] at hl'
        rcases hl' with rfl | hl'
        · rfl
        · exact m.rights l (List.mem_filter.1 hl').1 ha
      · intro l hl' ha
        simp only [fill, l2put, List.mem_cons] at hl'
        rcases hl' with rfl | hl'
        · exact hhost
        · exact m.frames l (List.mem_filter.1 hl').1 ha
      · intro l hl' ha i hi
        simp only [fill, l2put, List.mem_cons] at hl'
        rcases hl' with rfl | hl'
        · simp only [hst]
          rw [memRead_getD _ _ _ _ hi]
          exact m.memory _ (by omega) hl i hi
        · exact m.cached l (List.mem_filter.1 hl').1 ha i hi
      · intro n hn hnone i hi
        have hnone : l2find (l2put s _) (asidOf w) n = none := hnone
        rw [l2find_l2put] at hnone
        split at hnone
        · cases hnone
        · exact m.memory n hn hnone i hi
    · show l2find (l2put s _) _ _ = _
      rw [l2find_l2put]; simp [fill]
  | some l =>
    have hm := l2find_mem hl
    have hr := m.rights l hm.1 hm.2.1
    simp only
    refine ⟨s, l, ?_, m, hl, rfl, rfl⟩
    cases store <;> simp [hr, fullRights, Rights.grants, lineGiven_ok _ m.bad (m.frames l hm.1 hm.2.1)]

/-- A read of mapped pages gives their bytes. -/
theorem Mapped.agentRead {w : Word} {top : Nat} {f : Nat → Byte} (n : Nat) {s : State} {va : Nat} (m : Mapped w top f s) (h : va + n ≤ top * 4096) :
    ∃ t, agentRead s w true n va = .ok (t, tabulate n fun i => f (va + i)) ∧ Mapped w top f t ∧ t.harts = s.harts ∧ t.ctxs = s.ctxs := by
  induction n generalizing s va with
  | zero => exact ⟨s, by simp [Machine.agentRead, tabulate_eq], m, rfl, rfl⟩
  | succ n ih =>
    have hlow : va + (n + 1) ≤ 2 ^ 55 := Nat.le_trans h m.low
    obtain ⟨mo, ho, hq⟩ := m.touch va
    obtain ⟨t, l, e, mt, hl, hh, hc⟩ := mo.lineFor false (va := va) (by omega)
    simp only [Bool.false_eq_true, if_false] at e
    have hva : (va + 1) % 2 ^ 64 = va + 1 := by omega
    obtain ⟨u, eu, mu, hh', hc'⟩ := ih (s := t) (va := va + 1) mt (by omega)
    refine ⟨u, ?_, mu, hh'.trans (hh.trans ho), hc'.trans (hc.trans hq)⟩
    have hm := l2find_mem hl
    have hb : l.data.getD (va % 64) 0 = f va := by
      rw [mt.cached l hm.1 hm.2.1 _ (Nat.mod_lt _ (by decide)), hm.2.2]
      congr 1; omega
    simp only [Machine.agentRead, e, hva, eu, hb]
    simp only [tabulate_eq, List.range_succ_eq_map, List.map_cons, List.map_map, Nat.add_zero, Except.ok.injEq, Prod.mk.injEq, true_and, List.cons.injEq]
    apply List.map_congr_left
    intro i _
    simp only [Function.comp]
    congr 1; omega

/-- A line put into the L2 leaves the pages mapped, with the line's bytes in place of those it had. -/
theorem Mapped.put {w : Word} {top : Nat} {f : Nat → Byte} {s : State} (m : Mapped w top f s) (l : L2Line) (ha : l.asid = asidOf w) (hr : l.rights = fullRights)
    (hf : isHost (l.frame * 64) = false) :
    Mapped w top (fun a => if a / 64 = l.line then l.data.getD (a % 64) 0 else f a) (l2put s l) := by
  refine ⟨m.low, m.upd, m.bad, m.slots, m.awake, m.tlb, ?_, ?_, ?_, ?_⟩
  · intro k hk hka
    simp only [l2put, List.mem_cons] at hk
    rcases hk with rfl | hk
    · exact hr
    · exact m.rights k (List.mem_filter.1 hk).1 hka
  · intro k hk hka
    simp only [l2put, List.mem_cons] at hk
    rcases hk with rfl | hk
    · exact hf
    · exact m.frames k (List.mem_filter.1 hk).1 hka
  · intro k hk hka i hi
    simp only [l2put, List.mem_cons] at hk
    have h1 : (k.line * 64 + i) / 64 = k.line := by omega
    have h2 : (k.line * 64 + i) % 64 = i := by omega
    rcases hk with rfl | hk
    · simp only [h1, h2, if_true]
    · have hf := List.mem_filter.1 hk
      have : k.line ≠ l.line := by
        intro e
        have := hf.2
        simp [hka, ha, e] at this
      simp only [h1, this, if_false]
      exact m.cached k hf.1 hka i hi
  · intro n hn hnone i hi
    rw [l2find_l2put] at hnone
    have h1 : (n * 64 + i) / 64 = n := by omega
    split at hnone
    · cases hnone
    · rename_i hne
      have : n ≠ l.line := fun e => hne ⟨ha, e.symm⟩
      simp only [h1, this, if_false]
      exact m.memory n hn hnone i hi

/-- A write to mapped pages succeeds. -/
theorem Mapped.agentWrite {w : Word} {top : Nat} (b : List Byte) {f : Nat → Byte} {s : State} {va : Nat} (m : Mapped w top f s) (h : va + b.length ≤ top * 4096) :
    ∃ t g, agentWrite s w true va b = .ok t ∧ Mapped w top g t ∧ t.harts = s.harts ∧ t.ctxs = s.ctxs := by
  induction b generalizing s va f with
  | nil => exact ⟨s, f, rfl, m, rfl, rfl⟩
  | cons x b ih =>
    simp only [List.length_cons] at h
    have hlow : va + (b.length + 1) ≤ 2 ^ 55 := Nat.le_trans h m.low
    obtain ⟨mo, ho, hq⟩ := m.touch va
    obtain ⟨t, l, e, mt, hl, hh, hc⟩ := mo.lineFor true (va := va) (by omega)
    simp only [if_true] at e
    have hva : (va + 1) % 2 ^ 64 = va + 1 := by omega
    have hm := l2find_mem hl
    have mp := mt.put (lineWrite l (va % 64) [x]) hm.2.1 (mt.rights l hm.1 hm.2.1) (mt.frames l hm.1 hm.2.1)
    have md : Mapped w top (fun a => if a / 64 = l.line then (lineWrite l (va % 64) [x]).data.getD (a % 64) 0 else f a) (dropL1 (l2put t (lineWrite l (va % 64) [x])) (asidOf w) (va / 64)) :=
      ⟨mp.low, mp.upd, mp.bad, mp.slots, mp.awake, mp.tlb, mp.rights, mp.frames, mp.cached, mp.memory⟩
    obtain ⟨u, g, eu, mu, hh', hc'⟩ := ih (va := va + 1) md (by omega)
    refine ⟨u, g, ?_, mu, hh'.trans (hh.trans ho), hc'.trans (hc.trans hq)⟩
    simp only [Machine.agentWrite, e, hva, eu]

/-- No line of a mapped page is the host's. -/
theorem Mapped.hostPass {w : Word} {top : Nat} {f : Nat → Byte} {s : State} (m : Mapped w top f s) (n : Nat) : hostPass s (asidOf w) n = s := by
  unfold Machine.hostPass
  split
  · rename_i l h
    have hm := l2find_mem h
    rw [m.frames l hm.1 hm.2.1]; rfl
  · rfl

/-- A read by the hub of mapped pages that no engine owns gives their bytes. -/
theorem Mapped.hubRead {w : Word} {top : Nat} {f : Nat → Byte} {s : State} (m : Mapped w top f s) (n va : Nat) (h : va + n ≤ top * 4096)
    (ho : ∀ p ∈ s.harts, p.2.ops = []) :
    ∃ t, hubRead s w va n = .ok t (tabulate n fun i => f (va + i)) ∧ Mapped w top f t ∧ t.harts = s.harts ∧ t.ctxs = s.ctxs := by
  obtain ⟨t, e, mt, hh, hc⟩ := m.agentRead n (va := va) h
  refine ⟨t, ?_, mt, hh, hc⟩
  have hlow : va + n ≤ 2 ^ 55 := Nat.le_trans h m.low
  have ht : touchesWindow va n = false := by
    unfold touchesWindow inWindow winBase
    simp; omega
  have hw : ∀ l, isOwned s (asidOf w) l = false := by
    intro l
    simp only [isOwned, List.any_eq_false, List.any_eq_true, not_exists]
    intro p hp q hq
    rw [ho p hp] at hq
    cases hq.1
  have hl : (linesOf va n).any (fun l => isOwned s (asidOf w) l) = false := by simp [hw]
  have hr : (linesOf va n).any (fun l => retained s (64 * l)) = false := by simp [retained, m.awake]
  unfold Machine.hubRead
  simp only [ht, hl, hr, e, Bool.false_eq_true, if_false]

end Sys2Proof.Machine
end

