-- ==== Sys2Proof/Laws/Decode.lean ====
section
/-! SUPPORT. The fields of a packed word read back (spec/03_encoding.md R47, R49, R50, R53): what a proof about the decoder cites in place
of the arithmetic of bit positions. -/

namespace Sys2Proof
open Machine

/-! ## The 32-bit layouts -/

theorem fin_ofNat_val {n : Nat} [NeZero n] (r : Fin n) : Fin.ofNat n r.val = r := by simp [Fin.ofNat_eq_cast]

theorem packR_maj (maj fn : Nat) (b a d : Reg) (h : maj < 64) : fMaj (packR maj fn b a d) = maj := by unfold fMaj packR; omega
theorem packR_fn (maj fn : Nat) (b a d : Reg) (h : maj < 64) (g : fn < 1024) : fFn (packR maj fn b a d) = fn := by unfold fFn packR; omega
theorem packR_xd (maj fn : Nat) (b a d : Reg) (h : maj < 64) : fXd (packR maj fn b a d) = d := by
  apply Fin.ext; simp only [fXd, packR, Fin.ofNat]; omega
theorem packR_xa (maj fn : Nat) (b a d : Reg) (h : maj < 64) : fXa (packR maj fn b a d) = a := by
  apply Fin.ext; simp only [fXa, packR, Fin.ofNat]; omega
theorem packR_xb (maj fn : Nat) (b a d : Reg) (h : maj < 64) : fXb (packR maj fn b a d) = b := by
  apply Fin.ext; simp only [fXb, packR, Fin.ofNat]; omega

theorem packI_maj (maj : Nat) (i : BitVec 15) (a d : Reg) (h : maj < 64) : fMaj (packI maj i a d) = maj := by unfold fMaj packI; omega
theorem packI_xd (maj : Nat) (i : BitVec 15) (a d : Reg) (h : maj < 64) : fXd (packI maj i a d) = d := by
  apply Fin.ext; simp only [fXd, packI, Fin.ofNat]; omega
theorem packI_xa (maj : Nat) (i : BitVec 15) (a d : Reg) (h : maj < 64) : fXa (packI maj i a d) = a := by
  apply Fin.ext; simp only [fXa, packI, Fin.ofNat]; omega
theorem packI_imm (maj : Nat) (i : BitVec 15) (a d : Reg) (h : maj < 64) : fImm (packI maj i a d) = i := by
  apply BitVec.eq_of_toNat_eq; simp only [fImm, packI, BitVec.toNat_ofNat]; omega

theorem packB_split (o : BitVec 15) : o.toNat / 1024 < 32 ∧ o.toNat % 1024 < 1024 ∧ o.toNat / 1024 * 1024 + o.toNat % 1024 = o.toNat := by
  have := o.isLt
  omega
theorem packB_maj (maj : Nat) (o : BitVec 15) (b a : Reg) (h : maj < 64) : fMaj (packB maj o b a) = maj := by unfold fMaj packB; omega
theorem packB_xa (maj : Nat) (o : BitVec 15) (b a : Reg) (h : maj < 64) : fXa (packB maj o b a) = a := by
  obtain ⟨h1, h2, -⟩ := packB_split o
  apply Fin.ext; simp only [fXa, packB, Fin.ofNat]; generalize o.toNat / 1024 = x at *; generalize o.toNat % 1024 = y at *; omega
theorem packB_xb (maj : Nat) (o : BitVec 15) (b a : Reg) (h : maj < 64) : fXb (packB maj o b a) = b := by
  obtain ⟨h1, h2, -⟩ := packB_split o
  apply Fin.ext; simp only [fXb, packB, Fin.ofNat]; generalize o.toNat / 1024 = x at *; generalize o.toNat % 1024 = y at *; omega
theorem sb_low (m x a b y : Nat) (hm : m < 64) (hx : x < 32) (ha : a < 32) (hb : b < 32) (hy : y < 1024) :
    (m * 2 + x * 2 ^ 7 + a * 2 ^ 12 + b * 2 ^ 17 + y * 2 ^ 22) / 2 ^ 7 % 32 = x := by omega
theorem sb_high (m x a b y : Nat) (hm : m < 64) (hx : x < 32) (ha : a < 32) (hb : b < 32) (hy : y < 1024) :
    (m * 2 + x * 2 ^ 7 + a * 2 ^ 12 + b * 2 ^ 17 + y * 2 ^ 22) / 2 ^ 22 % 1024 = y := by omega
theorem packB_off (maj : Nat) (o : BitVec 15) (b a : Reg) (h : maj < 64) : fOff (packB maj o b a) = o := by
  obtain ⟨h1, h2, h3⟩ := packB_split o
  apply BitVec.eq_of_toNat_eq
  simp only [fOff, packB, BitVec.toNat_ofNat]
  rw [sb_low _ _ _ _ _ h h1 a.isLt b.isLt h2, sb_high _ _ _ _ _ h h1 a.isLt b.isLt h2, h3]
  exact Nat.mod_eq_of_lt o.isLt

theorem packU_maj (maj : Nat) (i : BitVec 20) (d : Reg) (h : maj < 64) : fMaj (packU maj i d) = maj := by unfold fMaj packU; omega
theorem packU_xd (maj : Nat) (i : BitVec 20) (d : Reg) (h : maj < 64) : fXd (packU maj i d) = d := by
  apply Fin.ext; simp only [fXd, packU, Fin.ofNat]; omega
theorem packU_imm (maj : Nat) (i : BitVec 20) (d : Reg) (h : maj < 64) : fImm20 (packU maj i d) = i := by
  apply BitVec.eq_of_toNat_eq; simp only [fImm20, packU, BitVec.toNat_ofNat]; omega

/-! ## The long layouts -/

theorem bool_of_bit (n : Nat) (b : Bool) (h : n % 2 = b.toNat) : (n % 2 == 1) = b := by cases b <;> simp_all

/-- The fields of a packed long word are the fields it was packed from. -/
theorem unpack_pack (f : LongF) : unpackLong (packLong f) = f := by
  obtain ⟨top, last, first, stall, s3, mid, mreg, mkd, vd, fn, major⟩ := f
  have ht := Bool.toNat_lt top
  have hl := Bool.toNat_lt last
  have hf := Bool.toNat_lt first
  have hk := Bool.toNat_lt mkd
  have hm := mid.isLt
  simp only [unpackLong, packLong, LongF.mk.injEq]
  refine ⟨bool_of_bit _ _ ?_, bool_of_bit _ _ ?_, bool_of_bit _ _ ?_, Fin.ext ?_, Fin.ext ?_, BitVec.eq_of_toNat_eq ?_, Fin.ext ?_,
    bool_of_bit _ _ ?_, Fin.ext ?_, Fin.ext ?_, Fin.ext ?_⟩
  all_goals (try simp only [Fin.ofNat, BitVec.toNat_ofNat]); omega

theorem mid12_toNat (a b : Nat × Nat) (h1 : a.1 < 4) (h2 : a.2 < 4096) (h3 : b.1 < 4) (h4 : b.2 < 4096) :
    (mid12 a b).toNat = a.1 + a.2 * 4 + b.1 * 2 ^ 14 + b.2 * 2 ^ 16 := by
  simp only [mid12, BitVec.toNat_ofNat]; omega

theorem enc_kind (s : Src) : s.enc.1 < 4 := by cases s <;> simp [Src.enc]
theorem enc_payload (s : Src) : s.enc.2 < 4096 := by
  cases s <;> simp only [Src.enc] <;> omega

/-- A source's kind and payload name it again. -/
theorem srcOf_enc (s : Src) : srcOf s.enc.1 s.enc.2 = some s := by
  cases s with
  | v r => simp [Src.enc, srcOf, regPay, Fin.ofNat_eq_cast]
  | x r => simp [Src.enc, srcOf, regPay, Fin.ofNat_eq_cast]
  | c i => simp [Src.enc, srcOf, Fin.ofNat_eq_cast]
  | lit p => simp [Src.enc, srcOf]

/-! ## The decoder's verdict -/

theorem decode32_of {w : Nat} {i : Instr} (hj : major32 (fMaj w) = true) (h : raw32 w = some i) (hw : i.wf = true) : decode32 w = .ok i := by
  unfold decode32; rw [if_pos hj, h, Option.filter_some, if_pos hw]
theorem decode32_no {w : Nat} (hj : major32 (fMaj w) = true) (h : raw32 w = none) :
    decode32 w = .error (.reservedField (fMaj w == 0x31 || fMaj w == 0x32)) := by unfold decode32; rw [if_pos hj, h]; rfl
theorem decode64_of {w : Nat} {i : Instr} (hj : major64 (unpackLong w).major.val = true) (h : rawLong (unpackLong w) = some i) (hw : i.wf = true) :
    decode64 w = .ok i := by unfold decode64; rw [if_pos hj, h, Option.filter_some, if_pos hw]

end Sys2Proof
end

