-- ==== Sys2Proof/Laws/Issue.lean ====
section
/-! SUPPORT. What an issue does when its checks pass (R57), and what a completion leaves. -/

namespace Sys2Proof.Machine

theorem canIssue_live {p : Prof} {s : State} (h : canIssue p s = true) : s.live = true := by
  simp only [canIssue, Bool.and_eq_true] at h; exact h.1.1.1.1.1.1.1.1.1

/-- An instruction whose checks pass goes on with its effect. -/
theorem issue_of_canIssue {p : Prof} {s : State} {ill fmt : State → Bool} {k : State → Out} (h : canIssue p s = true) (hi : ill s = false)
    (hf : fmt s = true) : issue p ill fmt k s = k s := by
  simp only [canIssue, Bool.and_eq_true, Bool.not_eq_true', Option.isNone_iff_eq_none, Bool.or_eq_true] at h
  obtain ⟨⟨⟨⟨⟨⟨⟨⟨⟨h1, h2⟩, h0⟩, h3⟩, h4⟩, h5⟩, h6⟩, h7⟩, h8⟩, h9⟩ := h
  have hp : (p.priv && !s.me.priv) = false := by cases hq : p.priv <;> simp_all
  have hm : ((p.cls :: p.fmts).any fun b => !s.me.kern.mask.getLsbD b) = false := by
    rw [List.any_eq_false]
    intro b hb
    have := List.all_eq_true.1 h5 b hb
    simpa using this
  have hl : (if p.late = true then s.hold p else none) = none := by split <;> simp [h6]
  have hc : issueChecks p ill fmt k s = k s := by
    unfold issueChecks
    cases hd : p.hdr with
    | none => simp only [hi, hm, h6, hf, h7, h8, h9, Bool.or_self, Bool.false_eq_true, if_false, Bool.not_true]
    | some d =>
      have e : ((d.first || d.last) && !s.me.replaying) = false := by
        rw [hd] at h4; simp only at h4
        revert h4; cases d.first <;> cases d.last <;> cases s.me.replaying <;> decide
      simp only [hi, hm, h6, hf, h7, h8, h9, e, Bool.or_self, Bool.false_eq_true, if_false, Bool.not_true]
  have hfence : endFence p s = s := by
    unfold endFence
    split
    · rename_i hs
      have he : s.me.fences = [] := by simpa using h0.resolve_left (by rw [Option.isSome_iff_ne_none] at hs; exact hs)
      simp [he]
    · rfl
  unfold issue
  simp only [h1, h2, Bool.not_true, Bool.false_eq_true, if_false, Option.isSome_none]
  simp only [hfence, hp, hl, hc, Bool.false_eq_true, if_false]

/-- A long instruction whose checks pass and whose effect changes its hart alone retires. -/
theorem retires_finishL {p : Prof} {s : State} {ill fmt : State → Bool} (hd : Hdr) (f : Hart → Hart) (h : canIssue p s = true) (hi : ill s = false)
    (hf : fmt s = true) (hr : (f s.me).retired = s.me.retired) (hp : (f s.me).pc = s.me.pc) (hl : (f s.me).lpstate = s.me.lpstate) :
    Retires 8 s (issue p ill fmt (finishL hd f) s) := by
  rw [issue_of_canIssue h hi hf]
  refine ⟨_, rfl, by simp [hr], fun n => ?_⟩
  have : (f s.me).replaying = false := by simpa [Hart.replaying, hl] using n
  simp [doneL_pc _ _ this, hp]

/-- A 32-bit instruction whose checks pass and whose effect changes its hart alone retires. -/
theorem retires_finish {p : Prof} {s : State} {ill fmt : State → Bool} (f : Hart → Hart) (h : canIssue p s = true) (hi : ill s = false)
    (hf : fmt s = true) (hr : (f s.me).retired = s.me.retired) (hp : (f s.me).pc = s.me.pc) :
    Retires 4 s (issue p ill fmt (finish f) s) := by
  rw [issue_of_canIssue h hi hf]
  exact ⟨_, rfl, by simp [hr], fun _ => by simp [done_pc, hp]⟩

end Sys2Proof.Machine
end

