-- ==== Sys2Proof/Tests/Slice0.lean ====
section
/-! SUPPORT. Tests: ill-formed terms the checks refuse, words of the spec's examples decoded, single steps with results worked out from the
spec, and for every statement a state and operands that meet its hypotheses. -/

namespace Sys2Proof.Tests
open Machine

section
set_option Elab.async false

/-! ## Well-formedness: one ill-formed term for each check -/

/-- A header with no stall and no loop flags. -/
def h0 : Hdr := { stall := 0, last := false, first := false }
/-- An i32 load with no residency mask. -/
def ld0 : LdCtl := { tag := tagOf .i32, pol := 0, rmask := none }

theorem test_wf_refuses_operands : [Instr.lpset 1 4, .lpset 1 0, .lpset 1 520, .vqshr h0 none 1 2 (.v 3), .vslideup h0 none 1 2 (.v 3),
    .vslideup h0 none 1 1 (.lit 3), .vslidedn h0 none 1 2 (.v 3), .vgathr h0 none 1 1 2, .vgathr h0 none 1 2 1, .vcompr h0 1 2 2, .vexpnd h0 1 2 2,
    .vid h0 none 1 0, .vsplat h0 none 1 (.v 2) (tagOf .i32), .vsplat h0 none 1 (.x 2) 0, .vmvxs h0 1 2 (.v 1), .vmvsx h0 1 2 (.c 1)].all (!·.wf) = true := by
  decide +kernel
theorem test_wf_refuses_conversions : [Instr.vcvt h0 1 2 { sat := false, mode := 5, tag := tagOf .f32 }, .vcvt h0 1 2 { sat := false, mode := 6, tag := tagOf .f32 },
    .vcvt h0 1 2 { sat := false, mode := 0, tag := 0 }, .vcvt h0 1 2 { sat := false, mode := 0, tag := tagOf .mimg },
    .vcvts h0 1 2 3 { sat := false, mode := 5, tag := tagOf .e4m3 }, .vplane h0 1 2 (tagOf .i32)].all (!·.wf) = true := by decide +kernel
theorem test_wf_refuses_memory : [Instr.vld h0 none 1 2 { ld0 with pol := 3 }, .vld h0 none 1 2 { ld0 with tag := 0 }, .vlds h0 none 1 2 3 { ld0 with pol := 3 },
    .vldx h0 none 1 2 3 { ld0 with tag := 0 }, .vldff h0 none 1 2 { ld0 with pol := 3 }, .vldb h0 1 2 ld0, .vldb h0 1 2 { ld0 with pol := 3, tag := tagOf (.plane 4) },
    .vld2d h0 none 1 2 3 4 { ld0 with tag := 0 }, .vst h0 none 1 2 3, .vsts h0 none 1 2 3 3, .vstx h0 none 1 2 3 3].all (!·.wf) = true := by decide +kernel
theorem test_wf_refuses_matrix : [Instr.mma h0 false 1 16 8 none, .mma h0 false 0 16 9 none, .mma h0 false 8 16 8 none, .mma h0 false 0 9 8 none,
    .mma h0 false 0 1 8 none, .mmas h0 false false 0 16 8 16 none, .mmas h0 false false 0 16 8 9 none, .mmas h0 false false 0 16 8 2 none,
    .mmasc h0 false 0 16 8 17 none, .mmasc h0 false 0 18 8 18 none, .mmaq h0 false 4 16 8 none, .mmaq h0 false 0 7 8 none,
    .mqtrsLo h0 0 1 9 none, .mqtrsLo h0 8 1 8 none, .mqtrsUp h0 0 9 8 none].all (!·.wf) = true := by decide +kernel
theorem test_wf_refuses_engines : [Instr.cpy h0 (.grp 1) (.mem 1) 2, .cpy h0 (.grp 1) (.win 1) 2, .cpy h0 (.grp 0) (.grp 8 (tagOf .i32)) 2,
    .cpy h0 (.mem 1) (.grp 1 (tagOf .i32)) 2, .cpy h0 (.mem 1) (.grp 8 0) 2, .cpym h0 false 1 2 (tagOf .bf16) 3, .cpym h0 false 8 2 0 3,
    .gthr h0 none 1 2 3 (tagOf .i32) 4, .gthr h0 none 8 2 3 0 4, .embag h0 none 1 2 3 4, .embag h0 none 8 2 30 4, .wvrun h0 1 2 3].all (!·.wf) = true := by
  decide +kernel

/-! ## Decoding: words written out bit by bit from the spec's encodings, most of them its own examples -/

theorem test_decode_alu : (decode32 0x04528382).toOption = some (.div 7 8 9) ∧ (decode32 0xFFFA6284).toOption = some (.addi 5 6 (BitVec.ofInt 15 (-3)))
    ∧ (decode32 0x12346292).toOption = some (.liu 5 0x12346) := by decide +kernel
theorem test_decode_float : (decode32 0x25ED5A18).toOption = some (.fma true 20 21 22 23) := by decide +kernel
theorem test_decode_scalar_memory : (decode32 0x00115324).toOption = some (.lw 6 21 8) ∧ (decode32 0xFFE022B6).toOption = some (.sd 5 2 (BitVec.ofInt 15 (-16)))
    ∧ (decode32 0x065143B8).toOption = some (.cas true 7 20 8) := by decide +kernel
theorem test_decode_control : (decode32 0xFE809FC2).toOption = some (.bne 9 0 (BitVec.ofInt 15 (-6))) ∧ (decode32 0x800862D2).toOption = some (.csrs 5 6 4)
    ∧ (decode32 0x82000856).toOption = some (.setvlImm 16 256) ∧ (decode32 0x00011856).toOption = some (.setvlReg 16 17) := by decide +kernel
theorem test_decode_vector : (decode64 0x000002000400C001).toOption = some (.vadd h0 none 3 1 (.v 2))
    ∧ (decode64 0x040254041401C021).toOption = some (.vld { h0 with stall := 2 } none 7 20 { tag := 0x101, pol := 1, rmask := some 4 }) := by decide +kernel
theorem test_decode_walker : decodeWOp 0x00220130 = some (.ldw 2 3 1 8) ∧ decodeWOp 15 = some .endw := by decide +kernel
/-- A decoder rejects a word for a reason. -/
def rejects (e : Except Reject Instr) (r : Reject) : Bool :=
  match e with
  | .error q => q == r
  | .ok _ => false
theorem test_decode_rejects : rejects (decode32 0) .reservedMajor = true ∧ rejects (decode32 (2 + 24 * 2 ^ 22)) (.reservedField false) = true
    ∧ rejects (decode32 (2 * 0x32 + 3 * 2 ^ 22)) (.reservedField true) = true ∧ rejects (decode64 (1 + 2 ^ 63)) (.reservedField false) = true := by decide +kernel

/-- The long format of R49, without stall and loop flags. -/
def long (major fn vd mk mreg k1 s1 k2 s2 s3 : Nat) : Nat :=
  1 + major * 2 + fn * 2 ^ 8 + vd * 2 ^ 14 + mk * 2 ^ 19 + mreg * 2 ^ 20 + k1 * 2 ^ 24 + s1 * 2 ^ 26 + k2 * 2 ^ 38 + s2 * 2 ^ 40 + s3 * 2 ^ 52
/-- R52: compare under a mask with a scalar; a mask operation; a gather; a broadcast of a literal; a sum; a stream push. -/
theorem test_decode_vector_families : (decode64 (long 0x04 2 2 1 4 0 3 1 5 0)).toOption = some (.vcmpLt h0 (some 4) 2 3 (.x 5))
    ∧ (decode64 (long 0x05 0 1 0 0 0 2 0 3 0)).toOption = some (.mand h0 none 1 2 3) ∧ (decode64 (long 0x07 2 1 0 0 0 2 0 3 0)).toOption = some (.vgathr h0 none 1 2 3)
    ∧ (decode64 (long 0x07 6 1 0 0 3 7 0 0x101 0)).toOption = some (.vsplat h0 none 1 (.lit 7) 0x101) ∧ (decode64 (long 0x08 0 1 0 0 0 2 0 0 0)).toOption = some (.vredsum h0 none 1 2)
    ∧ (decode64 (long 0x09 0 0 1 4 0 2 3 1 0)).toOption = some (.vspush h0 4 2 1) ∧ (decode64 (long 0x01 3 1 0 0 0 2 2 9 6)).toOption = some (.vfnms h0 none 1 2 (.c 9) 6) := by decide +kernel
/-- R54: a conversion to BF16 with saturation, rounding toward zero. R53: an indexed load with policy .st, a strided store. -/
theorem test_decode_conversion_memory : (decode64 (long 0x06 0 1 0 0 0 2 0 0 0 + 2 ^ 51 + 1 * 2 ^ 48 + 0x101 * 2 ^ 38)).toOption = some (.vcvt h0 1 2 { sat := true, mode := 1, tag := 0x101 })
    ∧ (decode64 (1 + 0x10 * 2 + 2 * 2 ^ 8 + 7 * 2 ^ 14 + 20 * 2 ^ 24 + 9 * 2 ^ 29 + 0x101 * 2 ^ 34 + 2 * 2 ^ 44)).toOption = some (.vldx h0 none 7 20 9 { tag := 0x101, pol := 2, rmask := none })
    ∧ (decode64 (1 + 0x11 * 2 + 1 * 2 ^ 8 + 7 * 2 ^ 14 + 20 * 2 ^ 24 + 9 * 2 ^ 29)).toOption = some (.vsts h0 none 7 20 9 0) := by decide +kernel
/-- R55, R56: an MMA from zero with status barrier 5; a solve; a copy from memory to the window; a gather to a group tagged 0x101; a send and
a receive; a token push; a walk. -/
theorem test_decode_matrix_engines : (decode64 (long 0x18 1 4 0 0 0 (16 + 5 * 2 ^ 5) 0 (8 + 2 ^ 11) 0)).toOption = some (.mma h0 true 4 16 8 (some 5))
    ∧ (decode64 (long 0x1C 1 1 0 0 0 2 0 8 0)).toOption = some (.mqtrsUp h0 1 2 8 none) ∧ (decode64 (long 0x20 4 0 0 0 1 3 1 4 9)).toOption = some (.cpy h0 (.mem 3) (.win 4) 9)
    ∧ (decode64 (long 0x22 0 8 0 0 1 (1 + 1 * 2 ^ 5) 0 (2 + 2 * 2 ^ 9) 3)).toOption = some (.gthr h0 none 8 1 2 0x101 3) ∧ (decode64 (long 0x25 0 0 0 0 0 5 1 6 7)).toOption = some (.send h0 5 6 7)
    ∧ (decode64 (long 0x26 0 5 0 0 0 0 3 6 7)).toOption = some (.recv h0 5 6 7) ∧ (decode64 (long 0x27 0 0 1 4 0 5 1 6 7)).toOption = some (.tqpush h0 (some 4) 5 6 7)
    ∧ (decode64 (long 0x28 0 8 0 0 1 5 0 0 7)).toOption = some (.wvrun h0 8 5 7) := by decide +kernel
/-- R48: a farm launch, a page map, two mend instructions, a barrier, a mask query, a fence and a reduction. -/
theorem test_decode_system : (decode32 (0x30 * 2 + 3 * 2 ^ 7 + 4 * 2 ^ 12)).toOption = some (.farm 3 4) ∧ (decode32 (0x32 * 2 + 3 * 2 ^ 7 + 4 * 2 ^ 12 + 5 * 2 ^ 17 + 1 * 2 ^ 22)).toOption = some (.pgmap 3 4 5)
    ∧ (decode32 (0x31 * 2 + 3 * 2 ^ 7 + 4 * 2 ^ 12 + 5 * 2 ^ 17 + 1 * 2 ^ 22)).toOption = some (.frzrd 3 4 5) ∧ (decode32 (0x31 * 2 + 3 * 2 ^ 7 + 4 * 2 ^ 12 + 5 * 2 ^ 17 + 2 * 2 ^ 22)).toOption = some (.frzrdv 3 4 5)
    ∧ (decode32 (0x2C * 2 + 9 * 2 ^ 17 + 3 * 2 ^ 24)).toOption = some (.barw 9) ∧ (decode32 (0x2F * 2 + 4 * 2 ^ 12 + 16 * 2 ^ 17)).toOption = some (.lpset 4 16) := by decide +kernel

/-! ## States -/

/-- A module with one resident privileged hart, vl 64, whose kernel declares every class. -/
def w0 : State := withHart State.reset
/-- The same with its hart changed. -/
def wh (f : Hart → Hart) : State := w0.modMe f
/-- Scalar registers given values, long since. -/
def xs (l : List (Reg × Word)) (h : Hart) : Hart := { l.foldl (fun h p => h.wx p.1 p.2) h with xlat := [] }
/-- Vector registers given tags. -/
def vs (l : List (VR × Fmt)) (h : Hart) : Hart := l.foldl (fun h p => h.wv p.1 { (h.rv p.1) with tag := tagOf p.2 }) h
/-- The window's base as a word. -/
def win : Word := BitVec.ofNat 64 winBase
/-- A line of the executing hart's ASID at virtual line 1, writable, in the L2. -/
def line1 : L2Line := { asid := 1, line := 1, data := List.replicate 64 7, rights := { r := true, w := true, x := true, u := true, d := true }, frame := 3, dirty := false, early := false }
/-- A hart whose x1 points into that line and x2 into the window. -/
def wm : State := { wh (xs [(1, 64), (2, win), (4, win + 1)]) with l2 := [line1] }

/-- An access that succeeds. -/
def okAcc {α : Type} : Acc α → Bool
  | .ok _ _ => true
  | _ => false
/-- An outcome with a next state. -/
def goes : Out → Bool
  | .next _ => true
  | _ => false

/-! ## Witnesses: the scalar statements' hypotheses -/

theorem witness_issue_scalar : [scalarProf 0 [1, 2] [3], scalarProf 0 [31, 0] [0], scalarProf 0 [1] [3], scalarProf 1 [1, 2] [3], scalarProf 0 [] [3], divProf 1 2 3, floatProf true none [1, 2] 3,
    floatProf false (some 1) [1, 2] 3, floatProf true (some 2) [1] 3, floatProf false none [1] 3, floatProf false none [1, 2, 4] 3, shortProf 0 [1] [3], shortProf 0 [1, 2] [],
    memProf 0 [1] [3], memProf 0 [1, 2] [], memProf 3 [1, 2, 3] [3], memProf 3 [1, 2] [], memProf 4 [1] [], shortProf 4 [] [],
    shortProf 0 [] [], shortProf 0 [] [3], shortProf 6 [1] [3], shortProf 5 [1, 2] [3], { shortProf 0 [] [3] with mr := [2] },
    { scalarProf 0 [1] [3] with priv := true }, { cls := 7, priv := true, xr := [1, 2], xw := [3] }].all (canIssue · wm) = true := by decide +kernel
/-- DIV: a zero divisor, the overflowing pair, and an ordinary pair meet R151's three cases. -/
theorem witness_divide : (0 : Word) = 0 ∧ (BitVec.intMin 64 = BitVec.intMin 64 ∧ BitVec.allOnes 64 = BitVec.allOnes 64) ∧ (2 : Word) ≠ 0
    ∧ ¬ ((7 : Word) = BitVec.intMin 64 ∧ (2 : Word) = BitVec.allOnes 64) := by decide +kernel
/-- AluWords: the boundary function numbers of its ranges. -/
theorem witness_alu_words : ((1 : Reg) ≠ 0 ∧ 21 ≤ 21 ∧ 23 < 24) ∧ 24 ≤ 24 ∧ 1023 < 1024 := by decide
/-- ImmediateResults: each case of imm15[14:6] at its bounds. -/
theorem witness_shift_words : (63#15).toNat / 64 = 0 ∧ (64#15).toNat / 64 = 1 ∧ (127#15).toNat / 64 = 1 ∧ (128#15).toNat / 64 = 2 ∧ (191#15).toNat / 64 = 2 ∧ 3 ≤ (192#15).toNat / 64
    ∧ 3 ≤ (256#15).toNat / 64 := by decide
/-- ScalarFrame's premise holds of the outcome of an ADD with a register and of one with x0. -/
theorem witness_frame : WritesX wm 3 5 (.next (wm.setMe (wm.me.wx 3 5).done)) ∧ WritesX wm 0 5 (.next (wm.setMe (wm.me.wx 0 5).done))
    ∧ (∃ o, WritesLate wm (some 0) 6 3 5 o) ∧ ∃ o, WritesXF wm 4 none 3 (5, 0) o := ⟨rfl, rfl, ⟨_, rfl⟩, ⟨_, rfl⟩⟩
theorem witness_loads : [1, 2, 4, 8].all (fun n => okAcc (loadAcc wm wm.cur false 0 (scalarAddr wm.me 1 0) n n) && okAcc (loadAcc wm wm.cur false 0 (scalarAddr wm.me 2 8) n n)) = true := by
  decide +kernel
theorem witness_stores : [1, 2, 4, 8].all (fun n => okAcc (storeAcc wm wm.cur false 0 (scalarAddr wm.me 1 0) (bytesOf n 5) n)
    && okAcc (storeAcc wm wm.cur false 0 (scalarAddr wm.me 2 8) (bytesOf n 5) n)) = true := by decide +kernel
/-- The last doubleword of a 4096-byte window allocation is inside it. -/
theorem witness_window : let va := scalarAddr wm.me 2 4088
    Memory.wf (wm.crew wm.me.crew).win = true ∧ inWindow va = true ∧ va % 8 = 0 ∧ va - winBase + 8 = winSizeOf wm wm.me ∧ storeAsleep wm wm.me.crew = false
      ∧ winBad wm wm.me.crew (va - winBase) 8 = false := by decide +kernel
theorem witness_home_write : wm.upd = [] ∧ 64 % 64 + (bytesOf 8 5).length ≤ 64 ∧ (∀ l ∈ wm.l2, l.data.length = 64) ∧ (l2find wm 1 1).isSome = true ∧ l2find wm 1 2 = none ∧ isBad wm 2 = false
    ∧ ((bytesOf 8 5).map some)[0]? = some (some 5) ∧ ([none, some 5] : List (Option Byte)).getD 0 none = none := by decide +kernel
theorem witness_misaligned : let va := scalarAddr wm.me 4 0
    va % 2 ≠ 0 ∧ va % 4 ≠ 0 ∧ va % 8 ≠ 0 := by decide +kernel
/-- StoreForwarding: no version entry, a pending store that covers the byte, and a hart without one. -/
theorem witness_forward : let p : PStore := { vec := false, asid := 1, va := 64, pa := 192, bytes := [some 9], hvis := false }
    wm.me.version.find? (fun e => e.asid == 1 && e.va == 64) = none ∧ p.va ≤ 64 ∧ p.bytes.getD (64 - p.va) none = some 9 ∧ wm.me.stores = [] := by decide +kernel
theorem witness_atomics : [4, 8].all (fun n => okAcc (atomicAcc wm wm.cur false (wm.me.rx 1).toNat n id) && okAcc (atomicAcc wm wm.cur false (wm.me.rx 2).toNat n id)) = true := by
  decide +kernel
theorem witness_reductions : [true, false].all (fun z => okAcc (redAcc wm wm.cur false .add z (wm.me.rx 1).toNat 5) && okAcc (redAcc wm wm.cur false .xor z (wm.me.rx 2).toNat 5)) = true
    ∧ okAcc (redAcc wm wm.cur false .fadd false (wm.me.rx 2).toNat 5) = true := by decide +kernel
theorem witness_fences : drainWaits wm wm.cur (agentStores true true) = false ∧ (performAt wm wm.cur 3 true true true true).me.hostLines = [] ∧ (performAt wm wm.cur 3 true false false true).me.hostLines = []
    ∧ (performAt wm wm.cur 3 false true true false).me.hostLines = [] ∧ (performAt wm wm.cur 3 false true false true).me.hostLines = []
    ∧ (performAt (wm.modMe fun h => { h with hostLines := [(1, 1)] }) wm.cur 3 true true true true).me.hostLines ≠ [] := by decide +kernel
theorem witness_cache_operations : drainWaits wm wm.cur (fun p => p.asid == 1 && p.va / 64 == 1 && (!p.vec || p.hvis)) = false ∧ isOwned wm (asidOf wm.me.aspace) 1 = false ∧ inWindow (wm.me.rx 1).toNat = false ∧ inWindow (wm.me.rx 2).toNat = true := by decide +kernel

/-! ## Witnesses: control flow, CSRs, barriers, the sequencer -/

/-- JALR to a multiple of 4 and to none; each branch's condition can hold and fail. -/
theorem witness_transfers : ((wm.me.rx 1) + BitVec.ofInt 64 (0 : BitVec 15).toInt).toNat % 4 = 0 ∧ ((wm.me.rx 1) + BitVec.ofInt 64 (2 : BitVec 15).toInt).toNat % 4 ≠ 0
    ∧ wm.me.rx 5 = wm.me.rx 6 ∧ (wm.me.rx 5).toInt < (wm.me.rx 1).toInt ∧ (wm.me.rx 1).toNat < (wm.me.rx 2).toNat := by decide +kernel
/-- A strip whose context has a free pool slot. -/
def wp : State := (wh fun h => { h with priv := false }).modCtx 1 fun k => { k with pool := [7] }
theorem witness_mender : (wp.hart wp.cur).role ≠ .mender ∧ spareSlot wp (wp.hart wp.cur).ctx = some 7 ∧ wp.cur ≠ wp.nextId := by decide +kernel
theorem witness_waits : w0.me.event = false ∧ (wh fun h => { h with event := true }).me.event = true
    ∧ canIssue (shortProf 0 [] []) (wh fun h => { h with event := true }) = true := by decide +kernel
/-- EXIT with nothing outstanding, and with a walk outstanding. -/
def wk : State := placeWalk w0 0x00220130
theorem witness_exit : commitWaits w0 w0.cur = false ∧ w0.me.ops = [] ∧ w0.me.mops = [] ∧ wk.me.ops ≠ [] ∧ canIssue (shortProf 0 [] []) wk = true
    ∧ (∀ e ∈ w0.me.version, e.stale = false) := by decide +kernel
/-- EXIT with a stale byte of its version: at a page that is mapped, and at one that is not. -/
def wvb (va : Nat) : State := { wh fun h => { h with version := [{ asid := 1, va := va, pa := 5, byte := 7, rights := fullRights, stale := true }] } with
  tlb := [{ asid := 1, page := 1, ppn := 1, rights := fullRights }] }
theorem witness_exit_version : commitWaits (wvb 4096) w0.cur = false ∧ (match freshVersion (wvb 4096) w0.cur (wvb 4096).me.version with
      | .ok _ => true
      | .error _ => false) = true
    ∧ commitWaits (wvb 0x5000) w0.cur = false ∧ (match freshVersion (wvb 0x5000) w0.cur (wvb 0x5000).me.version with
      | .ok _ => false
      | .error (m, _) => (missCause .store m).isSome) = true := by decide +kernel
/-- Every CSR of the list has a value; fflags takes a legal value and a set of one of its bits; vresume meets no vector work. -/
theorem witness_csrs : ([0, 1, 2, 3, 4, 5, 0x100, 0x104].all fun n => (csrVal w0 w0.me n).isSome) = true ∧ ([0, 2, 4].all fun n => !csrWaits w0.me n) = true
    ∧ csrWritable 4 = true ∧ csrAccepts w0.me 4 1 = true ∧ (1 : Word) &&& csrReserved 4 = 0 := by decide +kernel
theorem witness_csr_refusals : wp.hold (scalarProf 0 [] [3]) = none ∧ wp.live = true ∧ wp.me.lentTo = none ∧ wp.me.priv = false ∧ csrVal wp wp.me 0xFFF = none
    ∧ (let s := wh fun h => { (xs [(1, 8), (2, 2), (3, 0x40)] h) with frm := 7 }
      s.hold (scalarProf 0 [1] [3]) = none ∧ s.me.priv = true ∧ csrWritable 1 = false ∧ s.me.xBad.getLsbD 1 = false ∧ csrAccepts s.me 3 (s.me.rx 1) = false ∧ s.me.rx 3 ≠ 0
        ∧ s.me.rx 3 &&& csrReserved 4 ≠ 0 ∧ csrAccepts s.me 3 (((csrVal s s.me 3).getD 0) ||| s.me.rx 2) = false
        ∧ csrAccepts s.me 3 (((csrVal s s.me 3).getD 0) &&& ~~~(s.me.rx 2)) = false) := by decide +kernel
/-- MASKQ: a mask with a bit below vl and one without. -/
theorem witness_masks : mbit ((wh fun h => h.wm 2 1).me.rm 2) 0 = true ∧ 0 < w0.me.vl ∧ (∀ e, e < w0.me.vl → mbit (w0.me.rm 2) e = false)
    ∧ canIssue { shortProf 0 [] [3] with mr := [2], final := true } w0 = true := by decide +kernel
/-- Barriers: a number below and one at the count, a legal BINIT operand, and a token of another phase. -/
def wb : State := wh fun h => { (xs [(1, 0x10001)] h) with tokens := [(5, 9)], barWait := some { bar := 5 } }
theorem witness_barriers : (127 : Fin 128).val < wb.me.kern.barriers ∧ (wb.me.rx 1).toNat < 2 ^ 32 ∧ (wb.me.rx 1).toNat % 2 ^ 16 ≠ 0
    ∧ (wb.me.rx 1).toNat / 2 ^ 16 < 2 ^ (wb.crew wb.me.crew).size ∧ wb.me.token 5 = some 9 ∧ 9 ≠ ((wb.crew wb.me.crew).bar 5).phase ∧ wb.me.barWait.isSome = true ∧ wb.me.barGo = false ∧ ({ wb.me with barGo := true } : Hart).barGo = true
    ∧ drainWaits wb wb.cur (agentStores true true) = false ∧ (wb.hart wb.cur).barWait = some { bar := 5 }
    ∧ canIssue (shortProf 0 [1] []) wb = true ∧ canIssue (shortProf 0 [] [3]) wb = true := by decide +kernel
theorem witness_barrier_refused : let s := wh fun h => { h with kern := { h.kern with barriers := 5 } }
    s.live = true ∧ s.me.lentTo = none ∧ s.me.kern.barriers ≤ (5 : Fin 128).val := by decide +kernel
/-- A barrier one arrival short and one at its count. -/
theorem witness_flip : let b := (w0.crew w0.me.crew).bar 0
    b.count < b.expect ∧ ({ b with others := b.expect } : Barrier).expect ≤ ({ b with others := b.expect } : Barrier).count := by decide +kernel
/-- SEQWAIT for a count that is reached, for one issued and not complete, and for one not issued. -/
def wq : State := wh fun h => { (placeWalk w0 0x00220130).me with x := (xs [(1, 1), (2, 2)] h).x }
theorem witness_sequence : wq.me.seqc 3 < (wq.me.rx 1).toNat ∧ (wq.me.rx 1).toNat ≤ wq.me.issued.getD 3 0 ∧ wq.me.issued.getD 3 0 < (wq.me.rx 2).toNat
    ∧ (wq.me.rx 0).toNat ≤ wq.me.seqc 3 ∧ canIssue (shortProf 0 [1] []) wq = true ∧ canIssue (shortProf 0 [2] []) wq = true := by decide +kernel
/-- LPSET of a legal word; LPRUN with no trips left, and with two trips of a one-word body in the L2. -/
def wl : State := { wh (fun h => { (xs [(1, 2)] h) with lpstate := 2, pc := 60 }) with l2 := [{ line1 with data := bytesOf 8 0x600002000400C001 ++ List.replicate 56 0 }] }
theorem witness_loops : (wl.me.rx 1).toNat < 2 ^ 62 ∧ bits (wl.me.rx 1).toNat 27 16 = 0 ∧ canIssue (shortProf 0 [1] []) wl = true ∧ bits w0.me.lpstate.toNat 15 0 = 0
    ∧ bits wl.me.lpstate.toNat 15 0 ≠ 0 ∧ canIssue (shortProf 0 [] []) wl = true
    ∧ (match bodyWords wl.cur ((wl.me.pc.toNat + 4 + 7) / 8 * 8 % 2 ^ 64) 0 1 wl [] with
      | .ok _ _ => true
      | _ => false) = true := by decide +kernel
/-- The replay step: before the last body word, at the last with one trip left, and with two. -/
theorem witness_replay : bits 0x10001 27 22 < bits 0x10001 21 16 ∧ (bits 1 27 22 = bits 1 21 16 ∧ bits 1 15 0 = 1) ∧ (bits 2 27 22 = bits 2 21 16 ∧ 1 < bits 2 15 0) := by decide +kernel

/-! ## Witnesses: the vector statements' hypotheses -/

/-- Vector registers of several formats, vl 64. -/
def wv : State := wh (vs [(1, .i32), (2, .i32), (3, .i32), (4, .f32), (5, .f32), (6, .f32), (7, .fixed 16 14), (8, .i8), (9, .u8), (10, .mimg), (11, .scale 0 false), (12, .i16), (13, .i32)])
/-- An elementwise instruction's hypotheses (R57, R36). -/
def ewOk (s : State) (cls : Nat) (acc : Fmt → Bool) (d a : VR) (b : Option Src) (c : Option VR) : Bool :=
  canIssue (ewProf cls h0 (some 1) s.me (opRegs (s.me.fmt a) d) a b c) s && ewFmt acc (some d) a b c s
theorem witness_elementwise : (ewOk wv 8 (cols true true true) 13 1 (some (.v 2)) none && ewOk wv 8 (cols true true true) 13 4 (some (.x 2)) none
    && ewOk wv 8 (cols false false true) 13 7 (some (.lit 1)) none && ewOk wv 8 (cols true false true) 13 7 (some (.c 1)) none && ewOk wv 8 (cols true true false) 13 1 (some (.v 2)) none
    && ewOk wv 8 (cols true false false) 13 1 (some (.v 2)) none && ewOk wv 9 (fun f => cols true true false f && !f.pair) 13 1 (some (.v 2)) none
    && ewOk wv 8 (cols true true true) 13 1 none none && ewOk wv 9 (cols false true false) 13 4 none none && ewOk wv 12 Fmt.isArith 13 4 none none
    && ewOk wv 10 (fun f => cols true true true f && f != .i64) 13 4 (some (.v 5)) (some 6) && ewOk wv 11 (fun f => f.isInt || f.isFloat || f.isFixed) 13 1 (some (.v 2)) none
    && ewOk wv 11 (fun f => f.isInt || f.isFixed) 13 1 (some (.lit 3)) none && ewOk wv 11 (fun f => f.isInt || f.isFloat || f.isFixed) 13 1 none none) = true := by decide +kernel
theorem witness_shift_merge : canIssue { (ewProf 8 h0 none wv.me (opRegs (wv.me.fmt 7) 13) 7 none none) with xr := srcX (.x 2) } wv = true
    ∧ ewFmt (cols false false true) (some 13) 7 none none wv = true ∧ canIssue (ewProf 13 h0 (some 2) wv.me (opRegs (wv.me.fmt 1) 13) 1 (some (.v 2)) none) wv = true
    ∧ ewFmt bitFmt (some 13) 1 (some (.v 2)) none wv = true := by decide +kernel
/-- The two cases of the frames of R31 and R33. -/
theorem witness_frames : (wh fun h => { h with vl := 0 }).me.vl ≤ (wh fun h => { h with vl := 0 }).me.vresume ∧ w0.me.vresume < w0.me.vl ∧ w0.me.vl ≤ 1024 := by decide +kernel
theorem witness_compare : canIssue { (ewProf 13 h0 none wv.me [] 1 (some (.v 2)) none) with mw := [3] } wv = true
    ∧ ewFmt (fun f => f.isInt || f.isArith || f.isFixed) none 1 (some (.v 2)) none wv = true
    ∧ canIssue { cls := 13, hdr := some h0, mr := [1, 2, 3], mw := [4] } wv = true ∧ canIssue { cls := 13, hdr := some h0, mr := [], mw := [4] } wv = true
    ∧ canIssue { cls := 13, hdr := some h0, vr := [10], mw := [4] } wv = true ∧ (wv.me.fmt 10 == some .mimg) = true
    ∧ canIssue { cls := 13, hdr := some h0, mr := [1], mu := [1], vw := [20] } wv = true := by decide +kernel
/-- VCVT i32 to f32, VCVTS e4m3 from f32, VPLANE i8 to 8 planes. -/
theorem witness_conversions : let w := convWidths wv.me 1 .f32
    let y := convWidths wv.me 4 .e4m3
    canIssue { cls := 14, fmts := (fmtBit .f32).toList, hdr := some h0, vr := sideRegs w.1 w.2 1, vw := sideRegs w.2 w.1 20, chain := ratio w.1 w.2 == 1 } wv = true
      ∧ (cvtSource .i32 && convOk wv.me .i32 .f32 20 1 []) = true
      ∧ canIssue { cls := 15, fmts := (fmtBit .e4m3).toList, hdr := some h0, vr := sideRegs y.1 y.2 4 ++ [11], vw := sideRegs y.2 y.1 20 } (wh (vs [(4, .f32), (5, .f32), (6, .f32), (7, .f32), (11, .scale 0 false)])) = true
      ∧ (scalePair .f32 .e4m3 && scaleOk 0 false (min y.1 y.2) 64 && convOk (wh (vs [(4, .f32), (5, .f32), (6, .f32), (7, .f32), (11, .scale 0 false)])).me .f32 .e4m3 20 4 [11]) = true
      ∧ canIssue { cls := 16, fmts := [75], hdr := some h0, vr := sideRegs 8 8 8, vw := [20] } wv = true ∧ convOk wv.me .i8 (.plane 8) 20 8 [] = true := by decide +kernel
theorem witness_permutations : canIssue { cls := 17, hdr := some h0, mr := [1], vr := opRegs (wv.me.fmt 1) 1 ++ [2], vw := opRegs (wv.me.fmt 1) 20, xr := [3] } wv = true
    ∧ ewFmt slideFmt (some 20) 1 none none wv = true ∧ ewFmt bitFmt (some 20) 1 none none wv = true ∧ (wv.me.fmt 2 == some .i32) = true
    ∧ canIssue { cls := 17, fmts := (fmtBit .i32).toList, hdr := some h0, mr := [], xr := srcX (.x 1), vw := opRegs (some .i32) 20, chain := true } wv = true ∧ splatFmt (tagOf .i32) 20 = true
    ∧ canIssue { cls := 17, hdr := some h0, vr := opRegs (wv.me.fmt 1) 1, xr := srcX (.lit 70), xw := [5], final := true } wv = true ∧ wv.me.okSrc (· != .empty) 1 = true
    ∧ wv.me.vl ≤ srcCount wv.me (.lit 70) ∧ canIssue { cls := 17, hdr := some h0, vw := opRegs (wv.me.fmt 1) 1, xr := 3 :: srcX (.lit 1) } wv = true := by decide +kernel
theorem witness_vector_reductions : canIssue { cls := 18, hdr := some h0, mr := [1], vr := [1], vw := [20] } wv = true ∧ ewFmt redFmt none 1 none none wv = true
    ∧ canIssue { cls := 20, hdr := some h0, mr := [], vr := [7], vw := [20, vplus 20 1] } wv = true ∧ ewFmt (qnormOk 20) none 7 none none wv = true
    ∧ canIssue { cls := 35, hdr := some h0, mr := [], vr := [8, 8, 1], vw := [1], micro := dotMicro 8 8 } wv = true
    ∧ (ewFmt (fun f => f == .i8 || f == .u8) none 8 (some (.v 8)) none wv && wv.me.fmt 1 == some .i32) = true := by decide +kernel
/-- A stream of capacity 64 with one i32 element at its tail's place 0, room for more, and two masked elements to push. -/
def wst : State :=
  let s := wh fun h => { ((vs [(1, .i32)] h).wm 1 3) with vl := 2 }
  winWrite s s.me.crew 2048 (bytesOf 4 0 ++ bytesOf 4 64 ++ bytesOf 4 0 ++ bytesOf 4 1 ++ bytesOf 4 (tagOf .i32).toNat)
theorem witness_streams : (match readStream wst wst.me 0 with
      | some st => (st.head == st.tail || st.tag == (wst.me.rv 1).tag) && decide (wrapNat 32 ((st.tail : Int) - st.head) + ((activeList wst.me 1).map (wst.me.srcV false 1).slot).length ≤ st.cap)
        && (match tagBit st.tag with
          | some b => wst.me.kern.mask.getLsbD b
          | none => true)
        && !winBad wst wst.me.crew st.at_ 32 && !winBefore wst.me st.at_ 32 && !winBefore wst.me st.base (4 * st.cap) && (fmtOf st.tag).isSome && decide (st.cap = 64)
      | none => false) = true
    ∧ winBad wst wst.me.crew 0 4096 = false ∧ storeAsleep wst wst.me.crew = false
    ∧ Memory.wf (wst.crew wst.me.crew).win = true ∧ canIssue { cls := 19, hdr := some h0, mr := [1], vr := [1], acc := some true } wst = true
    ∧ ewFmt (fun f => f != .empty && !f.pair) none 1 none none wst = true ∧ 0 < wst.me.vl ∧ canIssue { cls := 19, hdr := some h0, vw := [20], acc := some true } wst = true
    ∧ canIssue { cls := 19, hdr := some h0, xw := [5], acc := some true } wst = true := by decide +kernel
/-- Loads and stores of two elements in the window, and a VLDB of one block of 4 planes. -/
def wvm : State := wh fun h => { (vs [(1, .i32), (2, .i32), (4, .f32)] (xs [(2, win), (3, 8), (5, 2)] h)) with vl := 2 }
theorem witness_vector_loads : canIssue (loadProf h0 none 20 ld0 [2, 3, 5] [2]) wvm = true ∧ (wvm.me.fmt 2 == some .i32) = true ∧ 1 ≤ (wvm.me.rx 5).toNat ∧ (wvm.me.rx 5).toNat ≤ 1024
    ∧ (match loadElems wvm.cur 0 4 4 false (fun e => winBase + 4 * e) (activeAt (wvm.me.emask none)) 2 0 wvm [] with
      | .done _ _ => true
      | _ => false) = true
    ∧ roomFor wvm (elemLines (fun e => winBase + 4 * e) 4 (activeBetween 0 2 (activeAt (wvm.me.emask none)))).length = true
    ∧ (let s := wh fun h => { (xs [(2, win)] h) with vl := 32 }
      canIssue (loadProf h0 none 20 { ld0 with tag := tagOf (.plane 4) } [2] []) s = true ∧ s.me.vl % 32 = 0 ∧ (match loadElems s.cur 0 128 256 false (fun b => winBase + 256 * b) (activeAt none) 1 0 s [] with
        | .done _ _ => true
        | _ => false) = true) := by decide +kernel
theorem witness_vector_stores : canIssue { cls := 21, hdr := some h0, xr := [2, 3], vr := opRegs (wvm.me.fmt 1) 1 ++ [2], mr := [1], acc := some true } wvm = true ∧ wvm.me.okSrc (· != .empty) 1 = true
    ∧ roomFor wvm (storeRoom true false 4 (fun e => winBase + 4 * e) (activeBetween wvm.me.vresume wvm.me.vl (activeAt (wvm.me.emask none)))) = true
    ∧ (match storeElems (fun s e => storeAcc s s.cur true 0 (winBase + 4 * e) (bytesOf 4 5) 4) (activeAt (wvm.me.emask none)) 2 0 wvm with
      | .done _ => true
      | _ => false) = true
    ∧ canIssue { cls := 22, hdr := some h0, xr := [2], vr := [1, 2], mr := [], acc := some true } wvm = true ∧ (ewFmt addFmt none 1 none none wvm && ewFmt (· == .i32) none 1 none none wvm && ewFmt (· == .f32) none 4 none none wvm) = true
    ∧ (match storeElems (fun s e => redAcc s s.cur true .add false (winBase + 4 * e) 5) (activeAt (wvm.me.emask none)) 2 0 wvm with
      | .done _ => true
      | _ => false) = true := by decide +kernel

/-! ## Witnesses: matrix, engine and walker statements -/

/-- Vector registers for each matrix kind: A in v16, B in v8 to v15, the third operand in v18 and v19. -/
def wmat (a b t : Fmt) (vl : Nat) : State := wh fun h => { (vs ([(16, a), (18, t), (19, t)] ++ (vgroup 8 8).map (·, b)) h) with vl := vl }
/-- A matrix instruction's hypotheses. -/
def matOk (s : State) (cls : Nat) (k : MatKind) (vs : VR) : Bool :=
  decide (0 < s.me.vl) && s.me.mops.length < 4 && canIssue { cls := cls, hdr := some h0, mvr := matReads k true 0 16 8 vs, mvw := matDests k 0 } s
    && (matCheck s.me k true 0 16 8 vs none).isSome
theorem witness_matrix : (matOk (wmat .bf16 .bf16 .empty 64) 23 .mma 0 && matOk (wmat .i8 .u8 .mimg 256) 24 (.mmas false) 18 && matOk (wmat .e4m3 .e5m2 (.scale 0 false) 64) 25 .mmasc 18
    && matOk (wmat (.fixed 16 7) (.fixed 16 8) .empty 64) 26 .mmaq 0 && matOk (wmat (.fixed 32 16) (.fixed 16 8) .empty 64) 27 (.mqtrs false) 0) = true := by decide +kernel
/-- An MMA of 64 slots at the head of a hart's queue: before its start, started with rows to write, and with every row written. -/
def mop : MatOp := newMatOp w0.me .mma true 0 16 8 0 none none none
def wmo (started : Bool) (row : Nat) : State :=
  let s := wh fun h => { (wmat .bf16 .bf16 .empty 64).me with mops := [{ mop with started := started, row := row }] }
  if started then s.setCore 0 { (s.core 0) with mangle := some s.cur } else s
theorem witness_matrix_events : ((wmo false 0).core 0).mangle = none ∧ mangleNext (wmo false 0) 0 = some w0.cur ∧ ((wmo true 0).core 0).mangle = some w0.cur ∧ 16 * 0 < mop.vl
    ∧ mop.vl ≤ 16 * 4 ∧ mop.vl % 32 = 0 ∧ ((wmo true 4).hart w0.cur).mops ≠ [] ∧ ((wmo true 4).hart w0.cur).core = 0 := by decide +kernel
/-- An operation of each kind started at the head of a hart's queue, its operands zero, and an error-free solve with every row streamed. -/
def wval (k : MatKind) (a b t : Fmt) (vl row : Nat) (z : Bool) (c : Slot) : State :=
  let h := ((wmat a b t vl).me).wv 0 { tag := tagOf .f32, slots := [c] }
  let s := wh fun _ => { h with mops := [{ (newMatOp h k z 0 16 8 18 none none none) with started := true, row := row }] }
  s.setCore 0 { (s.core 0) with mangle := some s.cur }
/-- What MatrixValues asks of it, and SolveValues. -/
def valOk (s : State) : Bool :=
  match s.me.mops with
  | o :: _ => o.started && (s.core s.me.core).mangle == some s.cur && decide (16 * o.row < o.vl) && o.vl % 16 == 0 && decide (o.vl ≤ 1024) && o.badWords == [] && o.badRegs == []
      && (o.sources.all fun v => !s.me.vBad.getLsbD v.val) && ((MatOp.sources { o with z := true }).all fun v => !o.dests.contains v) && (o.kind.result o.fa o.fb).isSome
  | [] => false
def solveOk (s : State) : Bool :=
  match s.me.mops with
  | o :: _ => o.kind == .mqtrs true && o.started && (s.core s.me.core).mangle == some s.cur && decide (o.vl ≤ 16 * o.row) && decide (0 < o.vl) && o.vl % 32 == 0 && o.badWords == []
      && o.badRegs == [] && o.badCells == [] && (o.sources.all fun v => !s.me.vBad.getLsbD v.val) && o.fa == .fixed 32 16 && o.fb == .fixed 16 8
  | [] => false
/-- C as it comes in: a NaN, an infinity, and a finite value, beside products of zeros. -/
theorem witness_matrix_values : (valOk (wval .mma .bf16 .bf16 .empty 64 0 true 0) && valOk (wval .mma .i8 .u8 .empty 64 2 false 5) && valOk (wval (.mmas false) .bf16 .bf16 .mimg 256 0 true 0)
    && valOk (wval .mmasc .e4m3 .e5m2 (.scale 0 false) 64 0 true 0) && valOk (wval .mmaq (.fixed 16 7) (.fixed 16 8) .empty 64 0 true 0)
    && valOk (wval .mma .bf16 .bf16 .empty 64 0 false 0x7FC00000) && solveOk (wval (.mqtrs true) (.fixed 32 16) (.fixed 16 8) .empty 64 4 true 0)) = true
    ∧ (FF.f32.read 0x7FC00000).isNan = true ∧ FF.f32.read 0x7F800000 = .inf false ∧ (match FF.f32.read 0x3F800000 with
      | .fin _ => true
      | _ => false) = true := by decide +kernel
/-- The vector values: a start below vl, formats, and lists of active elements with and without one. -/
theorem witness_vector_values : 0 < wv.me.vl ∧ wv.me.vl ≤ 1024 ∧ wv.me.vresume < wv.me.vl ∧ wv.me.fmt 1 = some .i32 ∧ wv.me.fmt 4 = some .f32 ∧ wv.me.fmt 8 = some .i8 ∧ fmtOf (tagOf .f32) = some .f32
    ∧ (ratio 32 32 == 1) = true ∧ (ratio 32 8 == 1) = false ∧ (tagOf (.plane 8)).toNat % 16 = 8 ∧ srcCount wv.me (.lit 1) < wv.me.vl ∧ wv.me.vl ≤ srcCount wv.me (.lit 70)
    ∧ (List.range wv.me.vl).filter (fun e => (wv.me.srcM 2).getLsbD e) = [] ∧ (List.range (wh fun h => h.wm 2 1).me.vl).filter (fun e => ((wh fun h => h.wm 2 1).me.rm 2).getLsbD e) ≠ [] := by decide +kernel
/-- Engine operands: x1 a memory address, x2 a window offset, x5 a copy's control word for 64 bytes, x6 a transfer of a page, x7 a page. -/
def we : State := wh fun h => vs [(1, .i32), (2, .f32), (3, .i32), (16, .bf16)] (xs [(1, 4096), (2, 0), (5, 64), (6, 4096), (7, 8192), (8, 1 + 1 * 2048), (9, BitVec.ofNat 64 (1 * 2 ^ 21 + 1 * 2 ^ 10 + 1 + 1 * 2 ^ 32)),
  (10, BitVec.ofNat 64 (2 ^ 63 + 16 * 2 ^ 53)), (11, 0)] h)
theorem witness_copies : drainWaits we we.cur (fun p => p.vec || p.hvis) = false ∧ we.me.ops.length < 64 ∧ we.me.issued.length = 8 ∧ canIssue { cls := 28, hdr := some h0, xr := [5, 1, 2], late := true, acc := some true } we = true
    ∧ (let w := (we.me.rx 5).toNat
      let a := srcSide we.me (.mem 1)
      let b := dstSide we.me (.win 2)
      bits w 41 40 = 0 ∧ bits w 31 30 = 0 ∧ bits w 63 62 < 2 ∧ bits w 29 0 % 4 = 0 ∧ sideBad a 64 = false ∧ sideBad b 64 = false ∧ sidesMeet a b 64 = false
        ∧ barBad we.me (bit w 39) (bits w 38 32) = false ∧ sideOdd a = false ∧ sideOdd b = false ∧ sideOut we a 64 = none ∧ sideOut we b 64 = none) := by decide +kernel
theorem witness_copy_group : canIssue { cls := 28, fmts := [64], hdr := some h0, xr := [5, 1], vr := [], vw := vgroup 8 8, late := true, acc := some true } we = true ∧ 64 ≤ 32 * we.me.vl
    ∧ (∀ r ∈ groupUsed 16 64 4, tagNamed (we.me.rv r).tag = true) ∧ canIssue { cls := 28, hdr := some h0, xr := [5, 1], vr := groupUsed 16 64 4, vw := [], late := true, acc := some true } we = true := by decide +kernel
theorem witness_cpym : let w := (we.me.rx 10).toNat
    cpymOps w = (true, 0, 16, none) ∧ canIssue { cls := 28, fmts := 23 :: (tagBit (tagOf .bf16)).toList, hdr := some h0, xr := [1, 10], vw := vgroup 8 8, late := true, acc := some true, mvr := [16], mvw := vgroup 0 4 } we = true
      ∧ cpymIll we.me 0 16 8 none = false ∧ (matCheck we.me .mma true 0 16 8 0 (some (tagOf .bf16))).isSome = true ∧ we.me.mops.length < 4 ∧ bits w 44 0 = 0
      ∧ sideBad (.mem 4096) 4096 = false ∧ sideOdd (.mem 4096) = false ∧ sideOut we (.mem 4096) 4096 = none := by decide +kernel
theorem witness_gathers : let w := (we.me.rx 8).toNat
    (we.me.rx 1).toNat % 4 = 0 ∧ 1 ≤ bits w 10 0 ∧ bits w 10 0 ≤ 1024 ∧ bits w 21 11 ≤ we.me.vl ∧ barBad we.me (bit w 47) (bits w 46 40) = false ∧ we.me.fmt 1 = some .i32
      ∧ canIssue { cls := 29, fmts := [64], hdr := some h0, xr := [1, 8], vr := [1], mr := [2], acc := some true, vw := vgroup 8 8 } we = true ∧ bits w 63 48 = 0 ∧ bits w 21 11 * 4 * bits w 10 0 ≤ 32 * we.me.vl
      ∧ canIssue { cls := 29, hdr := some h0, xr := [1, 8], vr := [1], mr := [], acc := some true } we = true ∧ outsideWin we (64 * bits w 63 48) (bits w 21 11 * 4 * bits w 10 0) = false := by decide +kernel
theorem witness_embag : let w := (we.me.rx 9).toNat
    canIssue { cls := 30, hdr := some h0, xr := [1, 9], vr := [1, 2, 3], vw := vgroup 8 8, mw := [1], acc := some true } we = true ∧ [1, vplus 1 1, vplus 1 2].map we.me.fmt = [some .i32, some .f32, some .i32]
      ∧ bits w 63 56 = 0 ∧ bits w 9 8 = 0 ∧ 1 ≤ bits w 7 0 ∧ bits w 7 0 ≤ 64 ∧ 1 ≤ bits w 20 10 ∧ bits w 20 10 ≤ 1024 ∧ bits w 31 21 ≤ we.me.vl ∧ bits w 20 10 * bits w 7 0 ≤ 8 * we.me.vl
      ∧ barBad we.me (bit w 55) (bits w 54 48) = false ∧ (∀ j, j < bits w 31 21 → ((we.me.srcV false (vplus 1 2)).slot j).toNat < bits w 20 10
        ∧ rowAddr 4096 (bits w 47 32) ((we.me.srcV false 1).slot j).toNat % 256 + bits w 7 0 * 4 ≤ 256) := by decide +kernel
theorem witness_commands : let w := (we.me.rx 6).toNat
    bits w 63 40 = 0 ∧ 0 < bits w 31 0 ∧ bits w 31 0 % 4096 = 0 ∧ touchesWindow 4096 4096 = false ∧ barBad we.me (bit w 39) (bits w 38 32) = false ∧ (we.me.rx 1).toNat % 4096 = 0
      ∧ canIssue { cls := 31, hdr := some h0, xr := [1, 6], acc := some true } we = true ∧ canIssue { cls := 31, hdr := some h0, xr := [1, 6, 7], acc := some true } we = true ∧ touchesWindow (we.me.rx 7).toNat 4096 = false ∧ overlap (we.me.rx 7).toNat 4096 4096 = false ∧ (we.me.rx 7).toNat % 4096 = 0
      ∧ canIssue { cls := 32, hdr := some h0, xr := [1, 2], vr := opRegs (we.me.fmt 1) 1, acc := some true } we = true ∧ we.me.okSrc (· != .empty) 1 = true ∧ we.me.ops = []
      ∧ canIssue { cls := 32, hdr := some h0, xw := [3], vw := [20, vplus 20 1] } we = true ∧ canIssue { cls := 32, hdr := some h0, xw := [3], vw := [21] } we = true ∧ tget we.me.mail 0 = none := by decide +kernel
/-- WVRUN with a window tile: a control word whose window bit is set. -/
theorem witness_wvrun : let w := 2 ^ 40
    canIssue { cls := 34, hdr := some h0, xr := [1, 11], acc := some true, late := true } we = true ∧ bits w 63 51 = 0 ∧ bit w 40 = true ∧ runTag w = 0 ∧ inWindow 4096 = false ∧ barBad we.me (bit w 39) (bits w 38 32) = false
      ∧ 4096 % 64 = 0 ∧ walkTag (runTag (2 ^ 41 * 0x100)) = true ∧ bit (2 ^ 41 * 0x100) 40 = false := by decide +kernel
/-- A message of one i32 register in slot 0 of the executing hart. -/
def msg0 : Msg := { target := 0, header := 5, tag := tagOf .i32, n := 2, lo := [1, 2], hi := [], srcMod := 0, srcCtx := 1, srcHart := 0, ord := 1 }
def wr : State := wh fun h => { h with mail := [(0, msg0)] }
theorem witness_receive : drainWaits wr wr.cur (fun p => p.vec || p.hvis) = false ∧ canIssue { cls := 32, hdr := some h0, xw := [3], vw := [20, vplus 20 1] } wr = true ∧ wr.me.ops = [] ∧ (tget wr.me.mail 0).isSome = true ∧ recvCause wr.me 20 msg0 = none ∧ wr.me.replaying = false
    ∧ msg0.pair = false ∧ wr.me.issued.length = 8 := by decide +kernel
/-- A running walk over the window, with a line of memory to load from. -/
def wkm : State := { wk with l2 := [line1] }
def walkOf (s : State) : Option Walk := (runningWalk s).map (·.2)
theorem witness_walk : runningWalk w0 = none ∧ (runningWalk wkm).isSome = true ∧ (walkOf wkm).all (fun w => decide (w.count + 1 < 2 ^ 24 ∧ w.rx 0 = 0 ∧ (w.rx 0).toNat ≤ 1 ∧ 0 ≤ (w.pc : Int) ∧ (w.pc : Int) < w.cnt ∧ w.htLog ≠ 0 ∧ w.key = 0)) = true := by decide +kernel
/-- The walk's other operand values: a register above one. -/
theorem witness_walk_register : let w : Walk := { desc := 0, arg := 0, regs := [0, 5] }
    w.rx 1 ≠ 0 ∧ 1 < (w.rx 1).toNat := by decide +kernel
theorem witness_walk_memory : (match runningWalk wkm with
    | some (o, w) => (match walkLoad wkm o false 64 4 with
        | .ok _ _ => true
        | _ => false) && decide (8 + 4 ≤ tileLen o w) && !outsideWin wkm 8 8 && !winBad wkm wkm.me.crew 8 8 && !winBehind wkm.me o 8 8 && !winBehind wkm.me o w.htOff (8 * 2 ^ w.htLog)
      && !winBehind wkm.me o (w.emitOff + 8) 4 && !w.tainted 1 && (match htPair wkm o 64 68 with
        | .ok t (k, _) => decide (k ≠ emptyKey) && (match htProbe (htPut t w 9 k 0) w k (2 ^ w.htLog) 9 with
            | some j => (htEntry (htPut t w 9 k 0) w j).1 == k && !htBad (htPut t w 9 k 0) w j
            | none => false)
        | _ => false)
    | none => false) = true := by decide +kernel

/-! ## Witnesses: completion -/

/-- VectorInstructionsRetire: the profile, the formats and the streams of each group. -/
theorem witness_vector_retire : ewOk wv 11 (fun f => f.isInt || f.isFloat || f.isFixed) 13 1 (some (.v 2)) none = true ∧ ewOk wv 11 (fun f => f.isInt || f.isFixed) 13 1 (some (.lit 3)) none = true
    ∧ ewOk wv 11 (fun f => f.isInt || f.isFloat || f.isFixed) 13 1 none none = true ∧ canIssue { (ewProf 8 h0 none wv.me (opRegs (wv.me.fmt 7) 13) 7 none none) with xr := srcX (.x 2) } wv = true
    ∧ canIssue { (ewProf 13 h0 (some 1) wv.me [] 1 (some (.v 2)) none) with mw := [2] } wv = true ∧ canIssue { cls := 13, hdr := some h0, mr := [1, 2, 3], mw := [4] } wv = true
    ∧ ([(20, 18), (8, 17)].all fun p => canIssue { cls := p.2, hdr := some h0, mr := [1], vr := opRegs (wv.me.fmt 1) 1, vw := [p.1], xr := srcX (.x 3) } wv) = true
    ∧ canIssue { cls := 17, hdr := some h0, vw := opRegs (wv.me.fmt 1) 1, xr := 5 :: srcX (.x 3) } wv = true ∧ wv.me.okSrc (· != .empty) 1 = true
    ∧ (readStream wst wst.me 0).any (fun st => !winBad wst wst.me.crew st.at_ 32 && !winBefore wst.me st.at_ 32 && !winBefore wst.me st.base (4 * st.cap) && (fmtOf st.tag).isSome
      && decide (wrapNat 32 ((st.tail : Int) - st.head) + (activeList wst.me 1).length ≤ st.cap)) = true := by decide +kernel
/-- MemoryAndEngineInstructionsRetire: two i32 elements, two pairs and a block of 4 planes whose accesses lie in the window; LPRUN with no trips. -/
theorem witness_in_window : InWindow wvm none 2 0 4 4 (fun e => winBase + 4 * e) ∧ InWindow wvm (some 1) 2 0 8 8 (fun e => winBase + 8 * e)
    ∧ InWindow wvm none 1 0 128 256 (fun b => winBase + 256 * b) := by
  refine ⟨⟨by decide +kernel, ?_⟩, ⟨by decide +kernel, ?_⟩, ⟨by decide +kernel, ?_⟩⟩ <;> intro e _ h _ <;> (have : e = 0 ∨ e = 1 := by omega) <;> rcases this with rfl | rfl <;>
    first | decide +kernel | omega
theorem witness_memory_retire : canIssue (loadProf h0 none 20 ld0 [2, 3, 5] [2]) wvm = true ∧ canIssue (loadProf h0 (some 1) 20 { ld0 with rmask := some 3 } [2] []) wvm = true
    ∧ canIssue { cls := 21, hdr := some h0, xr := [2], vr := opRegs (wvm.me.fmt 1) 1, mr := [1], acc := some true } wvm = true
    ∧ (wmat .bf16 .bf16 .empty 0).me.mops.length < 4 ∧ canIssue (shortProf 0 [] []) w0 = true ∧ bits w0.me.lpstate.toNat 15 0 = 0 := by decide +kernel

/-! ## Witnesses: system and mend instructions -/

/-- Two pages of ASID 1 mapped to themselves. -/
def mapped4 : List TlbEntry := (List.range 4).map fun p => { asid := 1, page := p, ppn := p, rights := fullRights }
/-- A hart whose root table page is 0 with an entry for every walk that stops there without being absent, x1 the page-map word of level 0 of
page 1, x2 a length, x5 an aspace. -/
def wsy : State := { wh (xs [(1, 4096), (2, 64), (5, mkAspace 1 7), (6, 4096 * 512 * 512 * 2 + 3), (7, 1 + 4096), (9, BitVec.allOnes 64)]) with mem := memSet [] 0 3 }
theorem witness_system : (wsy.me.rx 1).toNat < 2 ^ 32 ∧ (wsy.me.rx 1).toNat ≠ wsy.me.farm ∧ wsy.me.farmWait = none ∧ drainWaits wsy wsy.cur (agentStores true true) = false ∧ wsy.farm? wsy.me.ctx (wsy.me.rx 1).toNat = none
    ∧ wsy.me.rx 0 = 0 ∧ wsy.me.rx 2 ≠ 0 ∧ rangeBad (wsy.me.rx 1).toNat (wsy.me.rx 2).toNat = false ∧ rangeBad (wsy.me.rx 9).toNat (wsy.me.rx 2).toNat = true
    ∧ (∀ p ∈ rangePages (wsy.me.rx 1).toNat (wsy.me.rx 2).toNat, walk wsy wsy.me.aspace (p * 4096) ≠ .absent) ∧ (wsy.ctx wsy.me.ctx).reqRefused = [] ∧ (wsy.ctx wsy.me.ctx).reqs = []
    ∧ bits (wsy.me.rx 5).toNat 63 60 = 0 ∧ (wsy.ctx wsy.me.ctx).asids.contains (BitVec.ofNat 16 (asidOf (wsy.me.rx 5))) = true
    ∧ [shortProf 6 [1] [3], shortProf 5 [1, 2] [3], { cls := 7, priv := true, xr := [5], xw := [3] }, { cls := 7, priv := true, xr := [1, 2], xw := [3] }].all (canIssue · wsy) = true := by
  decide +kernel
/-- PGMAP: a level of 3, an address that no table page holds, and one whose table pages exist. -/
def wpg : State := { wsy with mem := memWrite [] 0 (bytesOf 8 1) }
theorem witness_pgmap : (wsy.me.rx 6).toNat % 4 = 3 ∧ (let va := (wsy.me.rx 1).toNat
    va % 4 = 0 ∧ va % 4096 = 0 ∧ canonical va = true ∧ inWindow va = false ∧ bits (wsy.me.rx 2).toNat 63 54 = 0 ∧ (drainAll wsy wsy.cur).me.rx 1 = wsy.me.rx 1
      ∧ entryAt (drainAll wsy wsy.cur) va 0 5 (rootOf wsy.me.aspace) = none ∧ (entryAt (drainAll wpg wpg.cur) va 0 5 (rootOf wpg.me.aspace)).isSome = true
      ∧ invalWaits (drainAll wpg wpg.cur) (asidOf (drainAll wpg wpg.cur).me.aspace) (levelPages va 0) = false) := by decide +kernel
/-- FENCECAP: a handle of a frozen hart whose core's mask has the bit, with the right granted, and a bit the mask lacks. -/
def rec0 : FrzRecord := { cause := .illegalOp, pc := 0x10000, insn := 0 }
def wfz : State :=
  let s := (wh (xs [(1, 77), (2, 2), (5, 4096 + 6), (6, 3 * 4096 + 6), (7, 4 * 4096 + 6), (8, 9)])).modCtx 1 fun k => { k with
    fenceRight := true, handles := [{ value := 77, hart := 50, owner := w0.cur }] }
  let s := s.setHart 50 { w0.me with place := some 1, status := .frozen rec0, crew := 51 }
  s.setCrew 51 { (w0.crew w0.me.crew) with harts := [50] }
theorem witness_fencecap : handled wfz (wfz.me.rx 1) = some (50, rec0) ∧ (wfz.ctx wfz.me.ctx).fenceRight = true ∧ (2 < 128 ∧ maskBits.getLsbD 2 = true) ∧ (wfz.core (coreOf rec0.hartid)).mask.getLsbD 2 = true
    ∧ ((fenceBit wfz 0 2).core 0).mask.getLsbD 2 = false := by decide +kernel
theorem witness_tqpush : drainWaits (wh (vs [(2, .i32)])) w0.cur (agentStores true true) = false ∧ canIssue { cls := 33, hdr := some h0, xr := [1], vr := [2], mr := [3] } (wh (vs [(2, .i32)])) = true ∧ (wh (vs [(2, .i32)])).me.fmt 2 = some .i32 := by decide +kernel
theorem witness_mend : canIssue { cls := 7, priv := true, xw := [3] } wfz = true ∧ canIssue { cls := 7, priv := true, xr := [1, 2], xw := [3] } wfz = true
    ∧ canIssue { cls := 7, priv := true, xr := [3, 1, 5], xw := [3] } wfz = true ∧ canIssue { cls := 7, priv := true, xr := [1, 6], vw := [4] } wfz = true
    ∧ canIssue { cls := 7, priv := true, xr := [1, 6], vr := [4] } wfz = true ∧ canIssue { cls := 7, priv := true, xr := [1], xw := [3] } wfz = true ∧ (wfz.ctx 1).events = []
    ∧ selector (wfz.me.rx 5) = some (1, 6) ∧ (frozenRead wfz 50 rec0 (1, 6)).isSome = true ∧ (wfz.hart 50).hazards (selProf (1, 6) false) [] = []
    ∧ (wfz.hart 50).hazards (selProf (1, 6) true) [] = [] ∧ wfz.me.rx 0 = 0 ∧ (wfz.me.rx 2).toNat < (wfz.hart 50).kern.barriers ∧ ((wfz.crew (wfz.hart 50).crew).bar 2).scope ≠ 3 ∧ drainWaits wfz 50 (fun _ => true) = false
    ∧ drainWaits wfz wfz.cur (agentStores true true) = false
    ∧ (wfz.hart 50).hazards (selProf (3, 6) false) [] = [] ∧ (wfz.hart 50).hazards (selProf (4, 6) false) [] = [] ∧ (wfz.hart 50).hazards (selProf (3, 6) true) [] = []
    ∧ (wfz.hart 50).hazards (selProf (4, 6) true) [] = [] ∧ tagAllowed (wfz.hart 50) (wfz.me.srcV false 4).tag = true
    ∧ ((wh (vs [(4, .mimg)])).me.srcV false 4).tag = tagOf .mimg ∧ handled wfz (wfz.me.rx 8) = none := by decide +kernel
/-- FRZNEXT: a queued event with a handle. -/
def ev0 : Event := { handle := 78, hart := 50, addr := 0, pc := 0, cause := 1, depth := 1, farm := 1, taken := false }
def wev : State := wfz.modCtx 1 fun k => { k with events := [ev0] }
theorem witness_frznext : findIdx (fun e : Event => !e.taken && e.handle != 0) (wev.ctx 1).events = some 0 ∧ (wev.ctx 1).events[0]? = some ev0
    ∧ (wev.hart ev0.hart).place.isSome = true ∧ ((wev.modHart 50 fun h => { h with place := none }).hart ev0.hart).place = none := by decide +kernel

/-! ## Witnesses: launches, hive queues, residency -/

theorem witness_launch_port : hostReady w0 = true ∧ (tget w0.ctxs 1).any (fun k => !k.contained && !k.containing && k.portWaiting < 64) = true
    ∧ (tget (w0.modCtx 1 fun k => { k with contained := true }).ctxs 1).any (fun k => hostReady w0 && k.contained) = true
    ∧ ((64 : Word) ≠ 0 ∧ (64 : Word).toNat % 64 = 0) ∧ (65 : Word).toNat % 64 ≠ 0 ∧ (BitVec.intMin 64).getLsbD 63 = true ∧ (64 : Word).getLsbD 63 = false := by decide +kernel
/-- A port that 64 launches wait at. -/
theorem witness_port_full : ({ asids := [1], root := 0, launches := List.replicate 64 { record := 64, aspace := 0 } } : Context).portWaiting = 64 := by decide +kernel
/-- A record of one level of two strips at 4 KiB, its kernel's header at 8 KiB. -/
def recordBytes : List Byte := bytesOf 8 0x2000 ++ bytesOf 8 0 ++ bytesOf 8 0 ++ bytesOf 4 0x10010 ++ List.replicate 36 0 ++ bytesOf 4 0 ++ bytesOf 4 2 ++ bytesOf 4 1 ++ List.replicate 84 0
/-- A header of major 3: one hart, entry offset 96, 4 bytes of code, mask bit 0, minimum and preferred vl 64. -/
def headerBytes (flags mask : Nat) : List Byte := bytesOf 4 0x4B56485A ++ [3, 0] ++ bytesOf 2 1 ++ bytesOf 4 flags ++ bytesOf 2 1 ++ bytesOf 2 0 ++ bytesOf 8 96 ++ bytesOf 8 4
  ++ bytesOf 16 mask ++ bytesOf 4 64 ++ bytesOf 4 64 ++ bytesOf 4 0 ++ bytesOf 4 0 ++ bytesOf 8 0 ++ bytesOf 8 0 ++ bytesOf 8 0 ++ bytesOf 8 0
def launch0 : Launch := { record := 0x1000, aspace := mkAspace 1 0 }
def wla : State := { (w0.modCtx 1 fun k => { k with launches := [launch0] }) with tlb := mapped4, mem := memWrite (memWrite [] 0x1000 recordBytes) 0x2000 (headerBytes 0 1) }
/-- Whether the launch at a context's head passes every step of R236. -/
def launches (s : State) (l : Launch) : Bool :=
  match hubRead s l.aspace l.record 160 with
  | .ok s2 b =>
    let r : Rec := { addr := l.record, bytes := b }
    match readHeader s2 l.aspace r.kernel false with
    | .ok s3 k => (match effective r k 0 with
      | some kern => (match readBank s3 l r kern with
        | .ok s4 _ => !(bit r.control 11 && (s4.ctx 1).recordOn) && !r.bad r.levels && k.major == 3 && k.minor ≤ 2 && capacity s3 1 kern && (r.crewMode || r.order != 3)
        | _ => false)
      | none => false)
    | _ => false
  | _ => false
/-- A read of the hub that fails. -/
def readFails : HubRead → Bool
  | .fail => true
  | _ => false
theorem witness_launch : (wla.ctx 1).launches = [launch0] ∧ (wla.ctx 1).contained = false ∧ (wla.ctx 1).containing = false
    ∧ launches (wla.modCtx 1 fun k => { k with launches := [] }) launch0 = true := by decide +kernel
theorem witness_launch_unread : let l : Launch := { launch0 with record := 0x10000 }
    readFails (hubRead wla l.aspace l.record 160) = true ∧ l.hart = none ∧ l.queue = none := by decide +kernel
/-- A farm of two strips that has handed out neither, and one whose strips have ended. -/
def farm0 (ended : Nat) : Farm := { ctx := 1, id := 5, kern := { entry := 0x40000 }, aspace := mkAspace 1 0, status := 0, levels := [(0, 2, 1)], order := 0, crews := 0, strips := 2, table := [], ended := ended }
def wfa (ended : Nat) : State := wla.setFarm (farm0 ended)
theorem witness_farm_end : (wfa 2).farm? 1 5 = some (farm0 2) ∧ (farm0 2).code = .accepted ∧ (farm0 2).finished = true ∧ (farm0 2).quiet (wfa 2) = true := by decide +kernel
/-- A hive queue bound, with a threshold of 2, a time limit and one token, and a block that waits. -/
def hive0 : Hive := { ctx := 1, binding := 0x1000, control := BitVec.ofNat 64 (2 + 1 * 2 ^ 13 + 1 * 2 ^ 16), tokens := [7], pending := [[8]], timer := some 0 }
def whq : State := { w0 with hives := tput [] 3 hive0, hub := 2 ^ 40 }
theorem witness_hives : hive0.timerAt ≠ some whq.hub ∧ ({ hive0 with timerAt := some whq.hub } : Hive).timerAt = some whq.hub ∧ tget whq.hives 3 = some hive0 ∧ hive0.ctx = 1 ∧ hostReady whq = true ∧ hive0.pending = [[8]] ∧ hive0.tokens.length + [8].length ≤ 4096
    ∧ hive0.tokens.length < hive0.threshold ∧ hive0.threshold ≤ (hive0.tokens ++ [8]).length ∧ hive0.timer = some 0 ∧ hive0.limit ≠ 0 ∧ hive0.due = false ∧ 0 + hive0.limit ≤ whq.hub
    ∧ hive0.timer = some 0 ∧ hive0.limit ≠ 0 ∧ hive0.due = false ∧ 0 + hive0.limit ≤ whq.hub ∧ hive0.tokens.length < hive0.threshold ∧ hive0.threshold ≤ (hive0.tokens ++ [8]).length
    ∧ ({ hive0 with control := 0 } : Hive).threshold ≤ hive0.tokens.length ∧ (hive0.tokens ++ [8]).length < ({ hive0 with control := 9 } : Hive).threshold := by decide +kernel
/-- R265's legal control: an unbound queue with a threshold of 1, and one of 4096 that leaves no room. -/
theorem witness_hive_control : (let n := bits 0x2001 12 0
    bits 0x2001 63 48 = 0 ∧ n ≠ 0 ∧ n ≤ 4096 ∧ bits 0x2001 15 13 ≠ 0 ∧ boundConsts whq { hive0 with binding := 0 } + 1 + n ≤ 4096) ∧ 4096 < boundConsts whq { hive0 with binding := 0 } + 1 + bits 0x3000 12 0 := by
  decide +kernel
theorem witness_strip_start : (wfa 0).farm? 1 5 = some (farm0 0) ∧ (farm0 0).nextStrip = some (0, { farm0 0 with next := 1 }) ∧ mayHand (wfa 0) (farm0 0) = true ∧ occupant (wfa 0) 9 = none
    ∧ (stripCand (wfa 0) (farm0 0)).any (fun d => canPlace (wfa 0) d [9] && mayTake (wfa 0) d [9]) = true := by decide +kernel
/-- A crew of two that has not started. -/
def crew0 : Crew := { ctx := 1, farm := 6, number := 0, size := 2 }
def wcr : State :=
  let s := w0.setFarm { farm0 0 with id := 6, kern := { crewMode := true, crewHarts := 2 }, crews := 1, strips := 0 }
  s.setCrew 60 crew0
theorem witness_crew_start : tget wcr.crews 60 = some crew0 ∧ (wcr.farm? 1 6).isSome = true ∧ crew0.started = false ∧ crew0.size = [8, 12].length
    ∧ (crewCand wcr 60 crew0).any (fun d => canPlace wcr d [8, 12] && mayTake wcr d [8, 12]) = true := by decide +kernel
/-- A resident crew whose slice is over, a crew of its farm waiting. -/
def wsl : State :=
  let s := { wcr with hub := 4000000 }
  let s := s.setCrew 60 { crew0 with started := true, quad := some 0, harts := [70] }
  let s := s.setHart 70 { w0.me with crew := 60, farm := 6, role := .member, place := some 2 }
  s.setCrew 61 { crew0 with number := 1 }
theorem witness_slice : (tget wsl.crews 60).any (fun k => mayReplace wsl k && !k.replace) = true
    ∧ (∀ p ∈ wsl.crews, p.1 = 60 ∨ p.2.ctx ≠ crew0.ctx ∨ p.2.farm ≠ crew0.farm ∨ mayReplace wsl p.2 = false) := by decide +kernel
theorem witness_reclaim : let s := wh fun h => { h with lentTo := some 9 }
    (s.hart s.cur).lentTo.isSome = true ∧ (s.hart s.cur).active = true := by decide +kernel
theorem witness_preemption : let k := { (wsl.crew 60) with replace := true }
    let s := wsl.setCrew 60 k
    k.quad.isSome = true ∧ k.stopped = false ∧ k.farm ≠ 0 ∧ heldByMender s k = false ∧ k.replace = true := by decide +kernel
theorem witness_containing : ((w0.modCtx 1 fun k => { k with containing := true }).ctx 1).containing = true ∧ (wcr.farms ≠ [] ∧ ∀ p ∈ wcr.farms, p.1 = fkey p.2.ctx p.2.id)
    ∧ wcr.farms.Pairwise (fun a b => a.1 < b.1) := by decide +kernel

/-! ## Witnesses: the save and the return of a crew -/

/-- Pages 0 to 79 of ASID 1 mapped to themselves with every right. -/
def mapped80 : List TlbEntry := (List.range 80).map fun p => { asid := 1, page := p, ppn := p, rights := fullRights }
/-- The stopped crew of `w0`, whose context has a save region at 64 KiB. -/
def wsv : State :=
  let s := (w0.setCrew w0.me.crew { (w0.crew w0.me.crew) with stopped := true }).modCtx 1 fun k => { k with saveBase := 0x10000, saveLen := 0x40000 }
  { s with tlb := mapped80 }
theorem mapped_wsv : Mapped (wsv.ctx 1).aspace 80 (fun _ => 0) { wsv with fresh := wsv.fresh + areaSize wsv (wsv.crew wsv.me.crew) } := by
  refine ⟨by decide, rfl, rfl, rfl, rfl, ?_, ?_, ?_, ?_, ?_⟩
  · show ∀ p, p < 80 → ∀ store : Bool, mapped80.find? _ = _
    decide +kernel
  · intro l h; cases h
  · intro l h; cases h
  · intro l h; cases h
  · intro n _ _ i _; rfl
/-- An area within mapped pages can be written. -/
theorem writeArea_mapped {w : Word} {top : Nat} (a : Nat → Byte) (n : Nat) {f : Nat → Byte} {s : State} {va : Nat} (m : Mapped w top f s) (h : va + 64 * n ≤ top * 4096) :
    ∃ t g, writeArea w a n va s = .ok t ∧ Mapped w top g t := by
  induction n generalizing s va f with
  | zero => exact ⟨s, f, rfl, m⟩
  | succ n ih =>
    obtain ⟨t, g, e, mt, -⟩ := m.agentWrite (tabulate 64 fun i => a (va + i)) (va := va) (by simp [tabulate]; omega)
    obtain ⟨u, k, eu, mu⟩ := ih mt (va := va + 64) (by omega)
    exact ⟨u, k, by simp only [writeArea, e, mt.hostPass, eu], mu⟩
theorem witness_save : let k := wsv.crew wsv.me.crew
    k.quad.isSome = true ∧ k.stopped = true ∧ (wsv.ctx k.ctx).containing = false ∧ k.farm ≠ 0 ∧ (heldByMender wsv k = true → k.evict = true) ∧ freeArea wsv k.ctx (areaSize wsv k) = some 0
      ∧ freeArea w0 k.ctx (areaSize w0 k) = none := by decide +kernel
theorem witness_save_write (a : Nat → Byte) (v : Nat) : ∃ s1 s2, writeArea (wsv.ctx 1).aspace a (areaSize wsv (wsv.crew wsv.me.crew) / 64) 0x10000
      { wsv with fresh := wsv.fresh + areaSize wsv (wsv.crew wsv.me.crew) } = .ok s1 ∧ agentWrite s1 (wsv.ctx 1).aspace true 0x10000 (bytesOf 8 v) = .ok s2 := by
  have hs : areaSize wsv (wsv.crew wsv.me.crew) = 233472 := by decide +kernel
  obtain ⟨s1, g, e, m⟩ := writeArea_mapped a (areaSize wsv (wsv.crew wsv.me.crew) / 64) mapped_wsv (va := 0x10000) (by rw [hs]; decide)
  obtain ⟨s2, -, e2, -⟩ := m.agentWrite (bytesOf 8 v) (va := 0x10000) (by simp [bytesOf])
  exact ⟨s1, s2, e, e2⟩

/-- The check code of an area of zeros, and the word a save leaves first. -/
def areaLen : Nat := 233472
@[irreducible] def code0 : BitVec 56 := Config.checkCode 1 (List.replicate areaLen 0)
def word0 : Nat := 1 + code0.toNat * 2 ^ 8
/-- The bytes of that area. -/
def byte0 (a : Nat) : Byte := if a / 64 = 0x400 then (bytesOf 8 word0 ++ List.replicate 56 0).getD (a % 64) 0 else 0
/-- The crew of `w0` saved at 64 KiB in an area of zeros. -/
def wrs : State :=
  let s := (wh fun h => { h with place := none }).modCtx 1 fun k => { k with saveBase := 0x10000, saveLen := 0x40000 }
  let s := s.setCrew s.me.crew { (s.crew s.me.crew) with quad := none, area := some 0 }
  let s := s.setFarm { ctx := 1, id := 1, kern := { placedKern with mask := 0 }, aspace := 0, status := 0, levels := [], order := 0, crews := 0, strips := 1, table := [], next := 1 }
  { s with tlb := mapped80, l2 := [{ line1 with line := 0x400, data := bytesOf 8 word0 ++ List.replicate 56 0, frame := 0x400 }] }
theorem mapped_wrs : Mapped (wrs.ctx 1).aspace 80 byte0 wrs := by
  have ha : asidOf (wrs.ctx 1).aspace = 1 := by decide +kernel
  refine ⟨by decide, rfl, rfl, rfl, rfl, ?_, ?_, ?_, ?_, ?_⟩
  · rw [ha]; show ∀ p, p < 80 → ∀ store : Bool, mapped80.find? _ = _
    decide +kernel
  · intro l h _; rw [List.mem_singleton.1 h]; rfl
  · intro l h _; rw [List.mem_singleton.1 h]; decide
  · intro l h _ i hi
    rw [List.mem_singleton.1 h]
    have h1 : (0x400 * 64 + i) / 64 = 0x400 := by omega
    have h2 : (0x400 * 64 + i) % 64 = i := by omega
    simp only [byte0, h1, h2, if_true]
  · intro n _ h i hi
    rw [ha] at h
    have : n ≠ 0x400 := by rintro rfl; simp [l2find, wrs, line1] at h
    have h1 : (n * 64 + i) / 64 = n := by omega
    simp only [byte0, h1, this, if_false]
    rfl
theorem natOf_bytesOf (n v : Nat) : natOf (bytesOf n v) = v % 256 ^ n := by
  induction n generalizing v with
  | zero => simp [bytesOf, natOf, Nat.mod_one]
  | succ n ih =>
    simp only [bytesOf, natOf, ih, BitVec.toNat_ofNat]
    have e : 256 ^ (n + 1) = 256 * 256 ^ n := by rw [Nat.pow_succ, Nat.mul_comm]
    rw [e, Nat.mod_mul]
theorem first_tail (w i m : Nat) : (bytesOf 8 w ++ List.replicate m (0 : Byte)).getD (i + 8) 0 = 0 := by
  simp [bytesOf, List.getD_eq_getElem?_getD, List.getElem?_replicate]
  split <;> rfl
theorem byte0_first (i : Nat) (h : i < 64) : byte0 (0x10000 + i) = (bytesOf 8 word0 ++ List.replicate 56 0).getD i 0 := by
  have h1 : (0x10000 + i) / 64 = 0x400 := by omega
  have h2 : (0x10000 + i) % 64 = i := by omega
  simp only [byte0, h1, h2, if_true]
theorem byte0_rest (i : Nat) : byte0 (0x10000 + (i + 8)) = 0 := by
  by_cases hi : i + 8 < 64
  · rw [byte0_first _ hi]; exact first_tail _ _ _
  · have : (0x10000 + (i + 8)) / 64 ≠ 0x400 := by omega
    simp only [byte0, this, if_false]
theorem area_first (n : Nat) (h : 8 ≤ n) (f : Nat → Byte) (w : Nat) (hf : ∀ i, i < 8 → f i = (bytesOf 8 w)[i]?.getD 0) : ((tabulate n f).drop 0).take 8 = bytesOf 8 w := by
  apply List.ext_getElem
  · simp [tabulate, bytesOf]; omega
  · intro i h1 h2
    have hi : i < 8 := by simpa [bytesOf] using h2
    simp only [tabulate, List.drop_zero, List.getElem_take, List.getElem_map, List.getElem_range, hf i hi]
    rw [List.getElem?_eq_getElem h2]; rfl
theorem area_zeros (n : Nat) (f : Nat → Byte) (hf : ∀ i, f (i + 8) = 0) (h : 8 ≤ n) : List.replicate 8 0 ++ (tabulate n f).drop 8 = List.replicate n (0 : Byte) := by
  have : (tabulate n f).drop 8 = List.replicate (n - 8) 0 := by
    apply List.ext_getElem
    · simp [tabulate]
    · intro i h1 h2
      simp only [tabulate, List.getElem_drop, List.getElem_map, List.getElem_range, List.getElem_replicate]
      rw [Nat.add_comm]; exact hf i
  rw [this, List.replicate_append_replicate]
  congr 1; omega
theorem witness_restore : let k := wrs.crew wrs.me.crew
    (crewCand wrs wrs.me.crew k).any (fun d => canPlace wrs d [0] && mayTake wrs d [0]) = true ∧ k.area = some 0 ∧ (wrs.ctx k.ctx).containing = false ∧ areaSize wrs k = areaLen
      ∧ (∀ u ∈ k.harts, (wrs.hart u).ops = []) ∧ (∀ p ∈ wrs.harts, p.2.ops = []) := by decide +kernel
theorem area_read {w : Word} {top : Nat} {f : Nat → Byte} {s : State} (n x : Nat) (m : Mapped w top f s) (ops : ∀ p ∈ s.harts, p.2.ops = []) (hn : 8 ≤ n)
    (ht : 0x10000 + n ≤ top * 4096) (hx : x < 256 ^ 8) (hf : ∀ i, i < 8 → f (0x10000 + i) = (bytesOf 8 x)[i]?.getD 0) (hz : ∀ i, f (0x10000 + (i + 8)) = 0) :
    ∃ s1 b s2, hubRead s w 0x10000 n = .ok s1 b ∧ fieldAt b 0 8 = x ∧ List.replicate 8 0 ++ b.drop 8 = List.replicate n (0 : Byte)
      ∧ agentWrite s1 w true 0x10000 (bytesOf 8 0) = .ok s2 := by
  obtain ⟨s1, e, m1, -⟩ := m.hubRead n 0x10000 ht ops
  obtain ⟨s2, -, e2, -⟩ := m1.agentWrite (bytesOf 8 0) (va := 0x10000) (by simp only [bytesOf, List.length]; omega)
  refine ⟨s1, _, s2, e, ?_, area_zeros n _ hz hn, e2⟩
  unfold fieldAt
  rw [area_first n hn _ x hf, natOf_bytesOf]
  exact Nat.mod_eq_of_lt hx
theorem word_facts (c : BitVec 56) : bit (1 + c.toNat * 2 ^ 8) 0 = true ∧ (1 + c.toNat * 2 ^ 8) / 2 ^ 8 = c.toNat ∧ 1 + c.toNat * 2 ^ 8 < 256 ^ 8 := by
  have := c.isLt
  generalize c.toNat = n at *
  refine ⟨?_, by omega, by omega⟩
  have : (1 + n * 2 ^ 8) / 2 ^ 0 % 2 = 1 := by omega
  unfold bit
  rw [this]; rfl
theorem first_bytes (x : Nat) (i : Nat) (h : i < 8) : (bytesOf 8 x ++ List.replicate 56 (0 : Byte)).getD i 0 = (bytesOf 8 x)[i]?.getD 0 := by
  rw [List.getD_eq_getElem?_getD, List.getElem?_append_left (by simpa [bytesOf] using h)]
theorem areaLen_le : 0x10000 + areaLen ≤ 80 * 4096 := by decide +kernel
theorem areaLen_ge : 8 ≤ areaLen := by decide +kernel
theorem witness_restore_area : ∃ s1 b s2, hubRead wrs (wrs.ctx 1).aspace 0x10000 areaLen = .ok s1 b ∧ bit (fieldAt b 0 8) 0 = true
    ∧ fieldAt b 0 8 / 2 ^ 8 = (Config.checkCode 1 (List.replicate 8 0 ++ b.drop 8)).toNat ∧ agentWrite s1 (wrs.ctx 1).aspace true 0x10000 (bytesOf 8 0) = .ok s2 := by
  have hw : bit word0 0 = true ∧ word0 / 2 ^ 8 = code0.toNat ∧ word0 < 256 ^ 8 := by unfold word0; exact word_facts code0
  have hf : ∀ i, i < 8 → byte0 (0x10000 + i) = (bytesOf 8 word0)[i]?.getD 0 := by
    intro i hi
    rw [byte0_first i (Nat.lt_of_lt_of_le hi (by decide))]
    exact first_bytes word0 i hi
  obtain ⟨s1, b, s2, e, eb, ez, e2⟩ := area_read areaLen word0 mapped_wrs witness_restore.2.2.2.2.2 areaLen_ge areaLen_le hw.2.2 hf byte0_rest
  refine ⟨s1, b, s2, e, ?_, ?_, e2⟩
  · rw [eb]; exact hw.1
  · rw [eb, ez, hw.2.1]; unfold code0; rfl

/-! ## Witnesses: events of memory, engines, messages and recovery -/

/-- A hart with a load outstanding, two stores to different bytes, and a host access. -/
def st0 (va : Nat) : PStore := { vec := false, asid := 1, va := va, pa := va, bytes := [some 9] }
def wme : State := { wh (fun h => { h with landing := [{ vregs := [3], masks := [], xregs := [] }], stores := [st0 64, st0 65], hostLines := [(1, 1)] }) with
  l1 := [{ core := 0, asid := 1, line := 1, data := List.replicate 64 7, rights := fullRights }] }
theorem witness_memory_events : 0 < (wme.hart wme.cur).landing.length ∧ (wme.hart wme.cur).stores[1]? = some (st0 65) ∧ (∀ q ∈ (wme.hart wme.cur).stores.take 1, q.precedes (st0 65) = false)
    ∧ (st0 65).waits wme wme.cur = false ∧ (wme.hart wme.cur).hostLines[0]? = some (1, 1) ∧ wme.mgmt.linkUp.any id = true
    ∧ wme.upd.find? (fun q => q.core == 0 && q.asid == 1 && q.line == 1) = none ∧ wme.l1.any (fun l => l.core == 0 && l.asid == 1 && l.line == 1) = true := by decide +kernel
theorem witness_update_line : ({ wme with upd := [{ core := 0, asid := 1, line := 2, op := .add, wide := false, items := [], rights := fullRights, frame := 2 }] } : State).upd.find?
    (fun q => q.core == 0 && q.asid == 1 && q.line == 2) = some { core := 0, asid := 1, line := 2, op := .add, wide := false, items := [], rights := fullRights, frame := 2 } := by decide +kernel
/-- An operation of an engine at the head of the executing hart's queue. -/
def opOf (n : Fin 8) (kind : OpKind) : EngOp := { eng := n, ord := 1, seq := 0, aspace := mkAspace 1 0, priv := true, vl := 64, bar := none, unit := 0, stop := none, kind := kind, watch := 5 }
def wop (n : Fin 8) (kind : OpKind) : State := { wh (fun h => { h with ops := [opOf n kind] }) with tlb := mapped4 }
/-- Whether an engine's remaining units all succeed, and whether one fails. -/
def runsOut (s : State) (n : Nat) : Bool :=
  match engHead s s.cur n with
  | some o => (match runAll s s.cur o with
    | .done _ _ => true
    | _ => false)
  | none => false
def runsInto (s : State) (n : Nat) : Bool :=
  match engHead s s.cur n with
  | some o => (match runAll s s.cur o with
    | .fail _ _ _ _ => true
    | _ => false)
  | none => false
/-- A copy within the window with and without a write pointer; a gather, an embedding bag with and without a residency mask, a zeroing of
a page; a copy from a page that does not exist. -/
def cpy0 (ptr : Option Nat) : OpKind := .cpy (.win 0) (.win 256) 64 false ptr 0
def bag0 (r : Option MR) : OpKind := .embag 0 1 1 1 0 1 { tag := tagOf .i32 } { tag := tagOf .f32 } { tag := tagOf .i32 } 8 r 0
theorem witness_engine_events : runsOut (wop 0 (cpy0 none)) 0 = true ∧ runsOut (wop 0 (cpy0 (some 512))) 0 = true ∧ w0.me.tileFor 1 = false
    ∧ runsOut (wop 1 (.gthr 0 1 1 1 1 { tag := tagOf .i32 } (.win 0))) 1 = true ∧ runsOut (wop 2 (bag0 none)) 2 = true ∧ runsOut (wop 2 (bag0 (some 3))) 2 = true
    ∧ runsOut (wop 6 (.dzero 4096 1024)) 6 = true ∧ runsInto (wop 0 (.cpy (.mem 0x100000) (.win 0) 64 false none 0)) 0 = true := by decide +kernel
/-- A CPYM's copy with its MMA waiting, and one unit of a copy with a write pointer. -/
def wct : State := wh fun h => { h with ops := [opOf 0 (cpy0 none)], mops := [{ mop with copy := some 1 }] }
theorem witness_cpym_event : runsOut wct 0 = true ∧ (wct.hart wct.cur).tileFor 1 = true
    ∧ (match engHead (wop 0 (cpy0 (some 512))) w0.cur 0 with
      | some o => decide (o.unit < o.units) && (match runUnits w0.cur 1 (wop 0 (cpy0 (some 512))) o with
        | .done _ _ => true
        | _ => false)
      | none => false) = true := by decide +kernel
/-- A message of another module's hart on its way, with nothing to go to. -/
def msg1 : Msg := { msg0 with srcCtx := 3, srcMod := 2, srcHart := 8 }
def wms : State := { w0 with torus := { w0.torus with waiting := [msg1] } }
/-- The same with a farm, a hart and an acceptance list that give it a target. -/
def wmt : State :=
  let s := { w0 with torus := { w0.torus with waiting := [{ msg1 with target := BitVec.ofNat 64 (2 ^ 32) }] } }
  (s.modCtx 1 fun k => { k with acceptList := [(2, 3)] }).setFarm { farm0 0 with id := 1 }
theorem witness_messages : (wms.torus.held ++ wms.torus.waiting)[0]? = some msg1 ∧ msg1.module_ = wms.torus.own ∧ overtakes (wms.torus.held ++ wms.torus.waiting) msg1 = false
    ∧ msgTarget wms msg1 = .none ∧ (wmt.torus.held ++ wmt.torus.waiting)[0]? = some { msg1 with target := BitVec.ofNat 64 (2 ^ 32) }
    ∧ ({ msg1 with target := BitVec.ofNat 64 (2 ^ 32) } : Msg).module_ = wmt.torus.own ∧ overtakes (wmt.torus.held ++ wmt.torus.waiting) { msg1 with target := BitVec.ofNat 64 (2 ^ 32) } = false
    ∧ msgTarget wmt { msg1 with target := BitVec.ofNat 64 (2 ^ 32) } = .hart wmt.cur ∧ (wmt.hart wmt.cur).mail = [] ∧ (wmt.hart wmt.cur).ops = [] := by decide +kernel
/-- A SEND in the port whose message has left it. -/
theorem witness_sent : headOp (((wop 4 (.send msg0 true)).hart w0.cur)) 4 = some (opOf 4 (.send msg0 true)) ∧ (opOf 4 (.send msg0 true)).bar = none
    ∧ msg0 ∉ wms.torus.held ∧ msg0 ∉ wms.torus.waiting := by decide +kernel
/-- A free pool slot with a queued event of a resident frozen hart; a hart past its watchdog limit; an engine at work; a heritage strip. -/
def wrv : State :=
  let s := wev.modCtx 1 fun k => { k with pool := [7], watchLimit := 5 }
  let s := s.modMe fun h => { h with watch := 5, ops := [opOf 0 (cpy0 none)] }
  let s := s.setFarm { farm0 0 with heritage := true }
  { s with mgmt := { s.mgmt with heritageRun := [(3, (1, 5, 0))] } }
theorem witness_recovery : (wrv.ctx 1).pool.contains 7 = true ∧ openSlot wrv 1 7 = true ∧ (wrv.ctx 1).contained = false ∧ (wrv.ctx 1).containing = false
    ∧ findIdx (fun e : Event => !e.taken) (wrv.ctx 1).events = some 0 ∧ (wrv.ctx 1).events[0]? = some ev0 ∧ (wrv.hart ev0.hart).place.isSome = true
    ∧ watchExpired wrv (wrv.hart wrv.cur) = true ∧ (wrv.ctx (wrv.hart wrv.cur).ctx).watchLimit ≠ 0 ∧ (engHead wrv wrv.cur 0).isSome = true
    ∧ (engHead wrv wrv.cur 0).all (fun o => decide (5 ≤ o.watch)) = true
    ∧ tget wrv.mgmt.heritageRun 3 = some (1, 5, 0) ∧ (wrv.farm? 1 5).any (fun f => !regionsOwned wrv f) = true := by decide +kernel

/-- A hang of the Mangle. -/
def wmh : State :=
  let s := wh fun h => { h with mops := [{ mop with started := true, watch := 5 }] }
  s.modCtx 1 fun k => { k with watchLimit := 5 }
theorem witness_mangle_hang : (wmh.ctx (wmh.hart wmh.cur).ctx).watchLimit = 5 ∧ ((wmh.hart wmh.cur).mops.all fun o => o.started && decide (5 ≤ o.watch)) = true ∧ (wmh.hart wmh.cur).mops ≠ [] := by decide +kernel

/-! ## Witnesses: power, arrays, links, the host -/

/-- Power control with a step of each kind to undo, late enough for each event; quad 0 claims, quad 2 boosts on its pair's running interval,
quad 4 steps down; one core rises, one falls. -/
def wpw (step : PowerStep) : State :=
  let s := { w0 with hub := 2 ^ 30, power := { w0.power with steps := [step], belowFrom := some 0, permits := [(1, 5), (3, 5)], runs := [(1, (0, true))] } }
  let s := (s.setQuad 0 { (s.quad 0) with boostOn := true }).setQuad 2 { (s.quad 2) with boosting := true }
  let s := s.setQuad 4 { (s.quad 4) with stepping := true }
  (s.setCore 9 { (s.core 9) with changing := some 1900, retiring := 2 }).setCore 10 { (s.core 10) with mhz := 1900, changing := some 1600 }
theorem witness_power : (wpw .clock).power.now + 1000 ≤ (wpw .clock).hub ∧ above (newest 10 [100]) 2400 100 = false ∧ above (newest 1000000 [100]) 1800 100 = false
    ∧ (wpw .clock).power.belowFrom = some 0 ∧ 0 + 100000 ≤ (wpw .clock).hub ∧ (wpw .clock).power.lastUndo + 100000 ≤ (wpw .clock).hub ∧ (wpw .clock).power.steps = [.clock] ∧ (wpw (.lanes 2)).power.steps = [.lanes 2]
    ∧ ((wpw .clock).core 9).changing = some 1900 ∧ ((wpw .clock).core 10).changing = some 1600 ∧ 1600 < ((wpw .clock).core 10).mhz ∧ (claimAge (wpw .clock) 0).isSome = true ∧ claimAge (wpw .clock) (partner 0) = none
    ∧ ((wpw .clock).quad 0).boosting = false ∧ ((wpw .clock).quad 0).stepping = false ∧ ((wpw .clock).quad 1).boosting = false ∧ ((wpw .clock).quad 1).stepping = false
    ∧ 4 ≤ permits (wpw .clock) (0 / 2)
    ∧ (∀ c, c < 160 → ((wpw .clock).core c).withheld = 0 ∧ 1600 ≤ ((wpw .clock).core c).target ∧ 1600 ≤ ((wpw .clock).core c).mhz) := by decide +kernel
theorem witness_boost : tget (wpw .clock).power.runs 1 = some (0, true) ∧ 0 < permits (wpw .clock) 1 ∧ 0 + 10000 ≤ (wpw .clock).hub
    ∧ fastPair (wpw .clock) 3 = false ∧ fastPair (wpw .clock) 1 = true
    ∧ permits (wpw .clock) 3 < 64 ∧ tgetD (wpw .clock).power.idleFrom 3 0 + 100000 ≤ (wpw .clock).hub ∧ ((wpw .clock).quad 4).stepping = true ∧ ((wpw .clock).quad 4).stepAt + 50000 ≤ (wpw .clock).hub
    ∧ ((wpw .clock).core 9).groups.getLsbD 3 = true ∧ ((wpw .clock).core 9).retiring.getLsbD 1 = true := by decide +kernel
/-- An idle core to test, with a bit that fails and none; an idle array that may sleep and one that sleeps. -/
def war : State := { w0 with hub := 2000000, mgmt := { w0.mgmt with testEvery := 1, retention := true, asleep := [(.slice 4, 0, true)] } }
theorem witness_arrays : war.mgmt.testEvery ≠ 0 ∧ residents war 20 = [] ∧ (0 : BitVec 128) &&& (war.core 20).mask = 0 ∧ war.mgmt.retention = true ∧ (∀ e ∈ war.mgmt.asleep, e.1 ≠ .slice 3)
    ∧ arrayIdle war (.slice 3) = true ∧ war.mgmt.asleep.find? (·.1 == .slice 4) = some (.slice 4, 0, true) ∧ 0 + arrayRamp (.slice 4) ≤ war.hub
    ∧ (war.core 20).testedAt + war.mgmt.testEvery ≤ war.hub := by decide +kernel
/-- Links with the retries of each rule. -/
def wli : State := { w0 with
  hub := 100000000, torus := { w0.torus with ports := [(2, { state := 1, retrains := 0 }), (3, { state := 3, retrains := 1 })] }
  mgmt := { w0.mgmt with retries := [(.torus 2, 64), (.bridge 1, 16)], linkUp := [false, false], boot := some (2, { authentic := true, imageDigest := [], badGroups := [], badBits := [], heritage := 0, channels := [] }), ready := false } }
def wlh : State := { wli with hostWaits := [(1, 0)] }
theorem witness_links : linkOk (.cxl 0) = true ∧ linkOk (.torus 1) = true ∧ linkOk (.bridge 1) = true ∧ (∀ m, retryLimit (.cxl 0) = some m → retries wli (.cxl 0) < m) ∧ (∀ m, retryLimit (.torus 1) = some m → retries wli (.torus 1) < m) ∧ retries wli (.torus 2) = 64
    ∧ (torusPort wli 2).state ≠ 0 ∧ (torusPort wli 3).state = 3 ∧ 16 ≤ retries wli (.bridge 1) ∧ wli.mgmt.linkUp.getD 0 false = false ∧ wli.mgmt.boot.isSome = true
    ∧ (wli.l2.all fun x => !x.dirty) = true
    ∧ ({ wli.mgmt with ready := true, boot := none } : Mgmt).ready = true ∧ (Move.event .powerUndo).whenStopped = false ∧ ({ wli.mgmt with bridgeBad := true } : Mgmt).bridgeBad = true := by
  refine ⟨rfl, rfl, rfl, ?_, ?_, by decide +kernel⟩ <;> decide +kernel
/-- A context with an access to host memory that has waited 100 ms. -/
theorem witness_host_wait : wlh.mgmt.linkUp.any id = false
    ∧ ∃ q ∈ wlh.hostWaits, (∃ x ∈ (wlh.ctx 1).asids, x.toNat = q.1) ∧ q.2 + 100000000 ≤ wlh.hub :=
  have hub : 0 + 100000000 ≤ wlh.hub := by decide +kernel
  have late : ∀ q : Nat × Nat, q.2 = 0 → q.2 + 100000000 ≤ wlh.hub := fun q e => by rw [e]; exact hub
  ⟨by decide +kernel, (1, 0), by decide +kernel, ⟨1, by decide +kernel, rfl⟩, late (1, 0) rfl⟩
/-- Host reads and writes inside a decoder, and one without the stream that is required. -/
def req (b : Option (List Byte)) (stream : Option Nat) : HostReq := { port := 0, decoder := 0, offset := 64, write := b, len := 64, stream := stream }
theorem witness_host : w0.mgmt.linkUp.getD 0 false = true ∧ w0.mgmt.ready = true ∧ w0.mgmt.ideRequired = false ∧ HostReq.phys w0 (req none none) = some 64
    ∧ HostReq.phys w0 { (req (some [1, 2]) none) with len := 2 } = some 64 ∧ (∀ f ∈ linesOf 64 64, frameOwned w0 f = false) ∧ (∀ f ∈ linesOf 64 2, frameOwned w0 f = false) ∧ w0.upd = []
    ∧ HostReq.phys w0 { (req none none) with offset := 2 ^ 60 } = none
    ∧ ({ w0.mgmt with ideRequired := true } : Mgmt).ideRequired = true ∧ ((req none none).stream.map fun n => w0.mgmt.ideStreams.contains (0, n, false)).getD false = false
    ∧ (let m : Mgmt := { w0.mgmt with ideStreams := [(0, 3, false)] }
      ((req none (some 3)).stream.map fun n => m.ideStreams.contains ((req none (some 3)).port.val, n, false)).getD false = true)
    ∧ offStream { w0 with mgmt := { w0.mgmt with ideRequired := true } } = true ∧ w0.mgmt.linkUp.any id = true := by decide +kernel
/-- The window's registers: an accepted inval control and two refused, legal and illegal ring controls, a request to respond to. -/
def wwi : State := w0.modCtx 1 fun k => { k with reqs := [{ id := 5, asid := 1, page := 3, waiters := [w0.cur] }], invBusy := true, invCtl := 1 + 2 ^ 16 }
theorem witness_window_registers : (tget w0.ctxs 1).any (fun k => !k.invBusy && k.asids.contains (BitVec.ofNat 16 (1 + 2 ^ 16)) && !bit (1 + 2 ^ 16) 17 && bits (1 + 2 ^ 16) 61 38 == 0
      && !k.asids.contains (BitVec.ofNat 16 2)) = true
    ∧ bit (1 + 2 ^ 17) 17 = true ∧ (bits 6 3 0 = 6 ∧ bits 6 15 4 = 0 ∧ bits 6 63 48 = 0) ∧ bits 5 3 0 = 5 ∧ (wwi.ctx 1).invBusy = true ∧ invalWaits wwi (bits (wwi.ctx 1).invCtl.toNat 15 0) (invalTest (wwi.ctx 1)) = false ∧ hostReady wwi = true
    ∧ (wwi.ctx 1).reqs.find? (fun r => r.id == bits (5 + 2 ^ 16) 15 0) = some { id := 5, asid := 1, page := 3, waiters := [w0.cur] } := by decide +kernel
/-- The swap engine: a staged descriptor that is legal, one that is not, a pair at its first line and at its last. -/
def desc0 : List Byte := bytesOf 8 0 ++ bytesOf 8 farBase ++ bytesOf 4 0 ++ bytesOf 4 3 ++ bytesOf 4 1 ++ bytesOf 4 0
def descMove : List Byte := bytesOf 8 0 ++ bytesOf 8 farBase ++ bytesOf 4 1 ++ bytesOf 4 3 ++ bytesOf 4 1 ++ bytesOf 4 0
def wsw (next : Nat) : State := { w0 with swap := { w0.swap with running := swapDesc w0 desc0, next := next } }
theorem witness_swap : hostReady w0 = true ∧ (1 : Word).getLsbD 0 = true ∧ w0.swap.running = none ∧ (swapDesc w0 desc0).isSome = true ∧ swapDesc w0 [] = none ∧ (wsw 0).swap.running.isSome = true
    ∧ (wsw 1023).bad = [] ∧ (wsw 1023).l2 = [] ∧ (wsw 1023).upd = [] ∧ Memory.wf (wsw 1023).mem = true
    ∧ (swapDesc w0 desc0).all (fun d => d.move == false && decide (d.near + 64 * 1023 + 64 ≤ d.far + 64 * 1023)) = true
    ∧ (swapDesc w0 descMove).all (·.move) = true := by decide +kernel
/-- The management port with a session. -/
def wmg : State := { w0 with mgmt := { w0.mgmt with session := true } }
theorem witness_contexts : managed wmg = true ∧ (tget wmg.ctxs 1).isSome = true ∧ (asidTaken wmg 1 4 = false ∧ asidTaken wmg 1 5 = false) ∧ [4, 5] = ([4, 5] : List (BitVec 16)).eraseDups
    ∧ ([(1, 2)] : List (BitVec 15 × Nat)).length ≤ 32 ∧ (∀ q ∈ wmg.ctxs, q.1 ≠ 1 → q.2.acceptList.contains (1, 2) = false)
    ∧ (∀ q ∈ [3, 4], q < 1024 ∧ tget wmg.hives q = none) ∧ (∀ p ∈ wmg.hives, p.2.ctx ≠ 1) ∧ (65536 : Word).toNat % 65536 = 0 := by decide +kernel
/-- A legal request to create context 2, its mender header at 8 KiB. -/
def create0 : CtxCreate := { ctx := 2, header := 0x2000, slots := [13], queueBase := 0x3000, queueLog := 4, asids := [(9, 0)] }
def wcc : State := { wmg with mem := memWrite [] 0x2000 (headerBytes 2 129), tlb := mapped4.map fun t => { t with asid := 9 } }
theorem witness_context_create : managed wcc = true ∧ tget wcc.ctxs 2 = none ∧ asidTaken wcc 2 9 = false
    ∧ (match readHeader wcc (mkAspace 9 0) create0.header true with
      | .ok t h => h.routed && !menderBad h && capacity t create0.ctx (menderKern h) && poolOk t create0.ctx (menderKern h) create0.slots
      | _ => false) = true := by decide +kernel
/-- Legal coordinates of a torus of three by two by one, and commands' operands. -/
theorem witness_module : managed wmg = true ∧ (300 ≤ 2400 ∧ 300 ≤ 1800) ∧ (∀ i, i < 3 → let ax (w : BitVec 15) : Nat := bits w.toNat (5 * i + 4) (5 * i)
    ax 0x443 ≠ 0 ∧ ax 0x443 ≤ 16 ∧ ax 0x022 < ax 0x443) ∧ (List.replicate 32 (5 : Byte)).length = 32 ∧ 4 ≤ (5 : Fin 8).val := by decide +kernel

/-! ## Witnesses: one step, memory, encoding -/

/-- A placed word of each size, a captured word, a walker word, an event. -/
def wstep : State := placeInstr w0 32 0x04528382
def wstep8 : State := placeInstr w0 64 0x000002000400C001
/-- Whether a fetch succeeds and gives an even or odd number. -/
def fetches (s : State) (n : Nat) (odd : Bool) : Bool :=
  match fetchAcc s s.cur s.me.pc.toNat n with
  | .ok (t, b) => (natOf b % 2 == 1) == odd && t.me.pc == s.me.pc
  | _ => false
theorem witness_step : wstep.mgmt.bridgeBad = false ∧ losesTo { wstep with agenda := [] } wstep.cur = false ∧ wstep.agenda = [.hart wstep.cur] ∧ (let s := { wstep with agenda := [] }
    working s s.cur = true ∧ watchExpired s s.me = false ∧ s.me.status = .running ∧ s.me.captured = none ∧ fetches s 4 false = true) := by decide +kernel
theorem witness_step_long : wstep8.agenda = [.hart wstep8.cur] ∧ (let s := { wstep8 with agenda := [] }
    s.me.captured = none ∧ fetches s 4 true = true ∧ fetches s 8 true = true ∧ s.me.pc.toNat % 8 ≠ 4) := by decide +kernel
/-- Two harts of a core ready with a vector instruction: the one in slot 1 loses the turn to the one in slot 0; a fetch from a page that does not exist. -/
def wtwo : State :=
  let s := wstep8.setHart 99 { wstep8.me with place := some 1, crew := 98 }
  { (s.setCrew 98 { (s.crew s.me.crew) with harts := [99] }) with agenda := [], cur := 99 }
theorem witness_step_loses : losesTo wtwo 99 = true ∧ working wtwo 99 = true ∧ watchExpired wtwo wtwo.me = false ∧ wtwo.me.status = .running := by decide +kernel
theorem witness_step_refused : (let s := wh fun h => { h with pc := 0x40000 }
    match fetchAcc s s.cur s.me.pc.toNat 4 with
    | .error (some _, _) => true
    | _ => false) = true ∧ (let s := { (placeInstr w0 32 0x1A) with agenda := [] }
      fetches s 4 false = true ∧ losesTo s s.cur = false) := by decide +kernel
theorem witness_step_captured : let s := (wh fun h => { h with lpstate := BitVec.ofNat 64 (2 ^ 62 + 2), lpBase := 64, lpBody := [0x000002000400C001], pc := 64 })
    s.me.captured = some 0x000002000400C001 ∧ (decode64 0x000002000400C001).toOption.isSome = true := by decide +kernel
theorem witness_step_walk : (runningWalk wk).any (fun p => (p.2.prog[p.2.pc]?).any fun x => (decodeWOp x.toNat).isSome) = true := by decide +kernel
theorem witness_step_event : (Instr.swapPairRun).isEvent = true := by decide +kernel
/-- The reset memory is canonical, and a step of the reset machine with a placed word has a next state. -/
theorem witness_memory : Memory.wf State.reset.mem = true ∧ Memory.wf (memWrite [] 5 [1, 2]) = true ∧ Memory.wf wstep.mem = true ∧ goes (step wstep) = true := by decide +kernel
theorem witness_round_trip : (Instr.div 7 8 9).wf = true ∧ (encode (.div 7 8 9)).isSome = true ∧ (decode32 0x04528382).toOption.isSome = true
    ∧ 0x04528382 % 2 = 0 ∧ 0x000002000400C001 % 2 = 1 := by decide +kernel

/-! ## Single steps, with results worked out by hand from the rules -/

/-- A scalar register after an instruction from given registers. -/
def after (i : Instr) (l : List (Reg × Word)) (r : Reg) : Option Nat :=
  match exec i (wh (xs l)) with
  | .next t => some (t.me.rx r).toNat
  | _ => none
/-- R150, R151: ADD wraps modulo 2^64; DIV by 0 gives all ones and of the least number by −1 that number; REM by 0 gives the dividend; SRA keeps the
sign and takes the amount modulo 64; MULH of −1 and 2 is −1; CTZ of 0 is 64. -/
theorem test_alu_corners : after (.add 3 1 2) [(1, BitVec.allOnes 64), (2, 5)] 3 = some 4 ∧ after (.div 3 1 2) [(1, 7)] 3 = some (2 ^ 64 - 1)
    ∧ after (.div 3 1 2) [(1, BitVec.intMin 64), (2, BitVec.allOnes 64)] 3 = some (2 ^ 63) ∧ after (.rem 3 1 2) [(1, 7)] 3 = some 7
    ∧ after (.sra 3 1 2) [(1, BitVec.intMin 64), (2, 65)] 3 = some (3 * 2 ^ 62) ∧ after (.mulh 3 1 2) [(1, BitVec.allOnes 64), (2, 2)] 3 = some (2 ^ 64 - 1)
    ∧ after (.ctz 3 1) [] 3 = some 64 := by decide +kernel
/-- R28: a write to x0 is dropped. R271: JAL links past itself and moves by words. -/
theorem test_zero_register : after (.add 0 1 2) [(1, 3), (2, 4)] 0 = some 0 ∧ (match exec (.jal 1 (BitVec.ofInt 20 (-2))) w0 with
    | .next t => some (t.me.pc.toNat, (t.me.rx 1).toNat)
    | _ => none) = some (0x10000 - 8, 0x10004) := by decide +kernel
/-- R163, R190: a word loaded from an L2 line of sevens; a window store read back; a misaligned doubleword freezes. -/
theorem test_memory_steps : (match exec (.lw 5 1 4) wm with
    | .next t => some (t.me.rx 5).toNat
    | _ => none) = some 0x07070707
    ∧ (match exec (.sd 1 2 8) wm with
      | .next t => (match exec (.lbu 5 2 8) t with
        | .next u => some (u.me.rx 5).toNat
        | _ => none)
      | _ => none) = some 64
    ∧ (match exec (.ld 5 4 0) wm with
      | .next t => (match t.me.status with
        | .frozen r => r.cause == .misalign && t.me.pc == wm.me.pc
        | _ => false)
      | _ => false) = true := by decide +kernel
/-- A slot of a vector register after an outcome. -/
def slotAfter (o : Out) (v : VR) (e : Nat) : Option Nat :=
  match o with
  | .next t => some ((t.me.rv v).slot e).toNat
  | _ => none
/-- A state whose v1 holds some slots of a format. -/
def wslots (l : List (BitVec 32)) (f : Fmt) : State := wh fun h => { (h.wv 1 { tag := tagOf f, slots := l }) with vl := l.length }
/-- R95's example: the tree sum of 2^24, 1, 1, 1. R120's: 0.5² + 0.5² + (3·2^−14)². -/
theorem test_reductions : slotAfter (exec (.vredsum h0 none 2 1) (wslots [0x4B800000, 0x3F800000, 0x3F800000, 0x3F800000] .f32)) 2 0 = some 0x4B800001
    ∧ slotAfter (exec (.vqnorm h0 none 2 1) (wslots [0xE0002000, 3] (.fixed 16 14))) 2 0 = some 134217737 := by decide +kernel
/-- R137's example: t(1, 0) = t(0, 1) = 0.5. -/
def wsolve (up : Bool) (b0 b1 : BitVec 32) : State :=
  let s := wval (.mqtrs up) (.fixed 32 20) (.fixed 16 14) .empty 64 4 true 0
  let h := s.me.wv 16 { tag := tagOf (.fixed 32 20), slots := [b0, b1] }
  s.setMe (h.wv 8 { tag := tagOf (.fixed 16 14), slots := [0x20000000] ++ List.replicate 31 0 ++ [0x2000] })
theorem test_solve : (let o := exec (.matrixComplete w0.cur) (wsolve false 0x100000 0xC0000)
    slotAfter o 0 0 = some 0x100000 ∧ slotAfter o 0 1 = some 0x40000)
    ∧ (let o := exec (.matrixComplete w0.cur) (wsolve true 0x100000 0x40000)
      slotAfter o 0 0 = some 0xE0000 ∧ slotAfter o 0 1 = some 0x40000) := by decide +kernel
/-- R93's example: 2^30 + 2^−10 − 2^30 summed exactly. -/
def wsum : State :=
  let s := wval .mma .bf16 .bf16 .empty 64 0 true 0
  let h := s.me.wv 16 { tag := tagOf .bf16, slots := [0x3D004700, 0x0000C700] }
  s.setMe (h.wv 8 { tag := tagOf .bf16, slots := [0x4700] ++ List.replicate 31 0 ++ [0x3D00] ++ List.replicate 31 0 ++ [0x4700] })
theorem test_matrix_sum : slotAfter (exec (.rowPairWrite w0.cur 0 none) wsum) 0 0 = some 0x3A800000 := by decide +kernel
def causeOf (o : Out) : Option Cause :=
  match o with
  | .next t => (match t.me.status with
    | .frozen r => some r.cause
    | _ => none)
  | _ => none
/-- R57: an instruction of an undeclared class freezes with UNDECLARED_OP; a word of the reserved major 0x0D with ILLEGAL_OP; a privileged one
outside privileged mode with PRIV. -/
theorem test_freezes : causeOf (exec (.add 3 1 2) (wh fun h => { h with kern := { h.kern with mask := 0 } })) = some .undeclaredOp
    ∧ causeOf (step (placeInstr w0 32 0x1A)) = some .illegalOp ∧ causeOf (exec (.aspset 3 1) (wh fun h => { h with priv := false })) = some .priv := by decide +kernel

end

end Sys2Proof.Tests
end

section
/-! SUPPORT. What a scalar integer instruction whose checks pass writes (R148), and the values of R150 to R154 in the words of the statements. -/

namespace Sys2Proof.Machine

/-! ## Completion -/

/-- A scalar instruction whose checks pass and whose effect is a register write retires with that write. -/
theorem issue_writesX {p : Prof} {s : State} {d : Reg} {w : Word} (f : Hart → Word) (h : canIssue p s = true) (hw : f s.me = w) :
    WritesX s d w (issue p noIll anyFmt (finish fun g => g.wx d (f g)) s) := by
  subst hw
  exact issue_of_canIssue h rfl rfl

theorem alu2_writesX {s : State} {d a b : Reg} {w : Word} (f : Word → Word → Word)
    (h : canIssue (scalarProf 0 [a, b] [d]) s = true) (hw : f (s.me.rx a) (s.me.rx b) = w) : WritesX s d w (alu2 0 d a b f s) :=
  issue_writesX (fun g => f (g.rx a) (g.rx b)) h hw

theorem alu1_writesX {s : State} {d a : Reg} {w : Word} (f : Word → Word)
    (h : canIssue (scalarProf 0 [a] [d]) s = true) (hw : f (s.me.rx a) = w) : WritesX s d w (alu1 0 d a f s) :=
  issue_writesX (fun g => f (g.rx a)) h hw

/-- A multiplication or division whose checks pass retires with its result its latency away (R161). -/
theorem slow2_writesLate {s : State} {d a b : Reg} {unit : Option Nat} {w : Word} (lat : Word → Word → Nat)
    (f : Word → Word → Word) (h : canIssue { scalarProf 1 [a, b] [d] with unit := unit } s = true)
    (hw : f (s.me.rx a) (s.me.rx b) = w) :
    WritesLate s unit (lat (s.me.rx a) (s.me.rx b)) d w (slow2 d a b unit lat f s) := by
  subst hw
  exact issue_of_canIssue h rfl rfl

/-! ## Comparisons and selections (R150) -/

theorem flag_slt (x y : Word) : flag (x.slt y) = if x.toInt < y.toInt then 1 else 0 := by simp [flag, BitVec.slt_iff_toInt_lt]

theorem flag_ult (x y : Word) : flag (x.ult y) = if x.toNat < y.toNat then 1 else 0 := by simp [flag, BitVec.ult_iff_toNat_lt]

theorem select_slt_eq_min (x y : Word) : (if y.slt x then y else x) = BitVec.ofInt 64 (min x.toInt y.toInt) := by
  rw [min_comm, min_def_lt, apply_ite (BitVec.ofInt 64), BitVec.ofInt_toInt, BitVec.ofInt_toInt]
  simp only [BitVec.slt_iff_toInt_lt]

theorem select_slt_eq_max (x y : Word) : (if x.slt y then y else x) = BitVec.ofInt 64 (max x.toInt y.toInt) := by
  rw [max_def_lt, apply_ite (BitVec.ofInt 64), BitVec.ofInt_toInt, BitVec.ofInt_toInt]
  simp only [BitVec.slt_iff_toInt_lt]

theorem select_ult_eq_min (x y : Word) : (if y.ult x then y else x) = BitVec.ofNat 64 (min x.toNat y.toNat) := by
  rw [min_comm, min_def_lt, apply_ite (BitVec.ofNat 64), BitVec.ofNat_toNat, BitVec.ofNat_toNat, BitVec.setWidth_eq, BitVec.setWidth_eq]
  simp only [BitVec.ult_iff_toNat_lt]

theorem select_ult_eq_max (x y : Word) : (if x.ult y then y else x) = BitVec.ofNat 64 (max x.toNat y.toNat) := by
  rw [max_def_lt, apply_ite (BitVec.ofNat 64), BitVec.ofNat_toNat, BitVec.ofNat_toNat, BitVec.setWidth_eq, BitVec.setWidth_eq]
  simp only [BitVec.ult_iff_toNat_lt]

/-! ## Bit counts (R150) -/

theorem log2_toNat_lt (x : Word) : Nat.log2 x.toNat < 64 := by
  by_cases h : x.toNat = 0
  · simp [h]
  · exact (Nat.log2_lt h).2 x.isLt

theorem leadingZeros_le (x : Word) : leadingZeros x ≤ 64 := by
  unfold leadingZeros
  split <;> omega

theorem lt_two_pow_of_leadingZeros (x : Word) : x.toNat < 2 ^ (64 - leadingZeros x) := by
  unfold leadingZeros
  split
  case isTrue h => simp [h]
  case isFalse h =>
    have hl := log2_toNat_lt x
    rw [show 64 - (63 - x.toNat.log2) = x.toNat.log2 + 1 by omega]
    exact Nat.lt_log2_self

theorem two_pow_le_of_leadingZeros {x : Word} (h : leadingZeros x < 64) : 2 ^ (63 - leadingZeros x) ≤ x.toNat := by
  unfold leadingZeros at h ⊢
  split at h
  case isTrue => omega
  case isFalse hx =>
    have hl := log2_toNat_lt x
    rw [if_neg hx, show 63 - (63 - x.toNat.log2) = x.toNat.log2 by omega]
    exact Nat.log2_self_le hx

theorem trailingFrom_le (x : Word) (n : Nat) : trailingFrom x n ≤ 64 := by
  induction n with
  | zero => exact Nat.le_refl _
  | succ n ih =>
    unfold trailingFrom
    split
    · omega
    · exact ih

/-- The bit that the search for trailing zeros stops at is set. -/
theorem getLsbD_trailingFrom (x : Word) (n : Nat) (h : trailingFrom x n < 64) : x.getLsbD (trailingFrom x n) = true := by
  induction n with
  | zero => exact absurd h (Nat.lt_irrefl _)
  | succ n ih =>
    unfold trailingFrom at h ⊢
    split
    case isTrue hb => exact hb
    case isFalse hb => rw [if_neg hb] at h; exact ih h

/-- The bits from where the search for trailing zeros begins to where it stops are clear. -/
theorem getLsbD_of_lt_trailingFrom (x : Word) (n i : Nat) (hn : n ≤ 64) (hi : 64 - n ≤ i) (h : i < trailingFrom x n) : x.getLsbD i = false := by
  induction n with
  | zero => exact BitVec.getLsbD_of_ge x i hi
  | succ n ih =>
    unfold trailingFrom at h
    split at h
    case isTrue => omega
    case isFalse hb =>
      by_cases e : i = 63 - n
      · simpa [e] using hb
      · exact ih (by omega) (by omega) h

theorem trailingZeros_le (x : Word) : trailingZeros x ≤ 64 := trailingFrom_le x 64

theorem getLsbD_trailingZeros {x : Word} (h : trailingZeros x < 64) : x.getLsbD (trailingZeros x) = true := getLsbD_trailingFrom x 64 h

theorem two_pow_dvd_of_trailingZeros (x : Word) : 2 ^ trailingZeros x ∣ x.toNat := by
  refine Nat.dvd_of_mod_eq_zero (Nat.eq_of_testBit_eq fun i => ?_)
  rw [Nat.testBit_mod_two_pow, Nat.zero_testBit]
  by_cases hi : i < trailingZeros x
  · simp [BitVec.testBit_toNat, getLsbD_of_lt_trailingFrom x 64 i (Nat.le_refl _) (Nat.zero_le _) hi]
  · simp [hi]

theorem eq_zero_of_trailingZeros {x : Word} (h : trailingZeros x = 64) : x = 0 := by
  have hd := two_pow_dvd_of_trailingZeros x
  rw [h] at hd
  exact BitVec.eq_of_toNat_eq (Nat.eq_zero_of_dvd_of_lt hd x.isLt)

/-! ## Products (R150) -/

theorem mul_eq_ofNat (x y : Word) : x * y = BitVec.ofNat 64 (x.toNat * y.toNat) := by
  rw [BitVec.ofNat_mul, BitVec.ofNat_toNat, BitVec.ofNat_toNat, BitVec.setWidth_eq, BitVec.setWidth_eq]

theorem mulHigh_eq_fdiv (x y : Word) : mulHigh x y = BitVec.ofInt 64 ((x.toInt * y.toInt).fdiv (2 ^ 64 : Nat)) := by
  rw [mulHigh, Int.fdiv_eq_ediv_of_nonneg _ (Int.natCast_nonneg _)]

/-! ## Quotients and remainders (R151): DIV and REM by a divisor other than zero are the library's operations -/

theorem divS_eq_sdiv {x y : Word} (h : y ≠ 0) : divS x y = x.sdiv y := by
  rw [divS, if_neg h]
  apply BitVec.eq_of_toInt_eq
  rw [BitVec.toInt_ofInt, BitVec.toInt_sdiv]

theorem remS_eq_srem {x y : Word} (h : y ≠ 0) : remS x y = x.srem y := by
  rw [remS, if_neg h, ← BitVec.toInt_srem, BitVec.ofInt_toInt]

theorem divU_eq_udiv {x y : Word} (h : y ≠ 0) : divU x y = x / y := by
  rw [divU, if_neg h, ← BitVec.toNat_udiv, BitVec.ofNat_toNat, BitVec.setWidth_eq]

theorem remU_eq_umod {x y : Word} (h : y ≠ 0) : remU x y = x % y := by
  rw [remU, if_neg h, ← BitVec.toNat_umod, BitVec.ofNat_toNat, BitVec.setWidth_eq]

theorem div_by_zero (x : Word) : divS x 0 = BitVec.allOnes 64 ∧ remS x 0 = x ∧ divU x 0 = BitVec.allOnes 64 ∧ remU x 0 = x :=
  ⟨rfl, rfl, rfl, rfl⟩

theorem div_intMin_neg_one : divS (BitVec.intMin 64) (BitVec.allOnes 64) = BitVec.intMin 64 ∧ remS (BitVec.intMin 64) (BitVec.allOnes 64) = 0 := by
  decide

theorem tmod_nonpos_of_nonpos {a : Int} (b : Int) (h : a ≤ 0) : a.tmod b ≤ 0 := by
  have := Int.tmod_nonneg b (a := -a) (by omega)
  rw [Int.neg_tmod] at this
  omega

/-- R151 where the quotient fits: xa = q × xb + r with a remainder smaller than the divisor and of the dividend's sign. -/
theorem divS_remS {x y : Word} (hy : y ≠ 0) (h : ¬ (x = BitVec.intMin 64 ∧ y = BitVec.allOnes 64)) :
    x.toInt = (divS x y).toInt * y.toInt + (remS x y).toInt ∧ (remS x y).toInt.natAbs < y.toInt.natAbs
      ∧ ((remS x y).toInt < 0 → x.toInt < 0) ∧ (0 < (remS x y).toInt → 0 < x.toInt) := by
  have hq : (divS x y).toInt = x.toInt.tdiv y.toInt := by
    rw [divS_eq_sdiv hy]
    exact BitVec.toInt_sdiv_of_ne_or_ne x y (by rw [BitVec.neg_one_eq_allOnes]; exact not_and_or.1 h)
  have hr : (remS x y).toInt = x.toInt.tmod y.toInt := by rw [remS_eq_srem hy, BitVec.toInt_srem]
  have hy0 : y.toInt ≠ 0 := fun e => hy (BitVec.eq_of_toInt_eq e)
  rw [hq, hr]
  refine ⟨(Int.tdiv_mul_add_tmod _ _).symm, ?_, fun hn => ?_, fun hp => ?_⟩
  · rw [Int.natAbs_tmod]
    exact Nat.mod_lt _ (Int.natAbs_pos.2 hy0)
  · by_contra hx
    have := Int.tmod_nonneg y.toInt (a := x.toInt) (by omega)
    omega
  · by_contra hx
    have := tmod_nonpos_of_nonpos y.toInt (a := x.toInt) (by omega)
    omega

theorem divU_remU {x y : Word} (hy : y ≠ 0) : x.toNat = (divU x y).toNat * y.toNat + (remU x y).toNat ∧ (remU x y).toNat < y.toNat := by
  have hy0 : y.toNat ≠ 0 := fun e => hy (BitVec.eq_of_toNat_eq e)
  rw [divU_eq_udiv hy, remU_eq_umod hy, BitVec.toNat_udiv, BitVec.toNat_umod]
  exact ⟨(Nat.div_add_mod' _ _).symm, Nat.mod_lt _ (Nat.pos_of_ne_zero hy0)⟩

/-! ## Immediates (R152, R154) -/

theorem upper_eq_ofInt (u : BitVec 20) : upper u = BitVec.ofInt 64 (u.toInt * 4096) := by
  rw [upper, BitVec.shiftLeft_eq_mul_twoPow, BitVec.ofInt_mul]
  rfl

end Sys2Proof.Machine
end

section
/-! SUPPORT. The words of majors 0x01 to 0x0A (R150, R152, R153, R154). -/

namespace Sys2Proof
open Machine

theorem raw32_packR_alu (n : Nat) (b a d : Reg) (h : n < 1024) : raw32 (packR 1 n b a d) = decAlu n d a b := by
  have hm := packR_maj 1 n b a d (by decide)
  simp only [raw32, hm, packR_fn 1 n b a d (by decide) h, packR_xd 1 n b a d (by decide), packR_xa 1 n b a d (by decide),
    packR_xb 1 n b a d (by decide)]

theorem decode32_alu {n : Nat} {b a d : Reg} {i : Instr} (hn : n < 1024) (h : decAlu n d a b = some i) (hw : i.wf = true) :
    decode32 (packR 1 n b a d) = .ok i :=
  decode32_of (by rw [packR_maj _ _ _ _ _ (by decide)]; rfl) ((raw32_packR_alu n b a d hn).trans h) hw

theorem decode32_alu_reserved {n : Nat} {b a d : Reg} (hn : n < 1024) (h : decAlu n d a b = none) :
    decode32 (packR 1 n b a d) = .error (.reservedField false) := by
  have hm := packR_maj 1 n b a d (by decide)
  rw [decode32_no (by rw [hm]; rfl) ((raw32_packR_alu n b a d hn).trans h), hm]
  rfl

theorem decAlu_of_ge (n : Nat) (d a b : Reg) (h : 24 ≤ n) : decAlu n d a b = none := by
  obtain ⟨k, rfl⟩ := Nat.exists_eq_add_of_le' h
  rfl

theorem decAlu_count_xb {n : Nat} (d a : Reg) {b : Reg} (hb : b ≠ 0) (h : 21 ≤ n) (hn : n < 24) : decAlu n d a b = none := by
  have : n = 21 ∨ n = 22 ∨ n = 23 := by omega
  obtain rfl | rfl | rfl := this <;> simp [decAlu, need, hb]

/-- A word of layout SI whose major reads as an instruction of the core decodes to it. -/
theorem decode32_packI {m : Nat} {i : BitVec 15} {a d : Reg} {j : Instr} (hm : m < 64) (hj : major32 m = true)
    (h : raw32 (packI m i a d) = some j) (hw : j.wf = true) : decode32 (packI m i a d) = .ok j :=
  decode32_of (by rw [packI_maj m i a d hm]; exact hj) h hw

theorem raw32_packI_shift (i : BitVec 15) (a d : Reg) : raw32 (packI 8 i a d) = decShi i.toNat d a := by
  have hm := packI_maj 8 i a d (by decide)
  simp only [raw32, hm, packI_imm 8 i a d (by decide), packI_xd 8 i a d (by decide), packI_xa 8 i a d (by decide)]

theorem decode32_immediate (i : BitVec 15) (a d : Reg) :
    decode32 (packI 2 i a d) = .ok (.addi d a i) ∧ decode32 (packI 3 i a d) = .ok (.andi d a i) ∧ decode32 (packI 4 i a d) = .ok (.ori d a i)
      ∧ decode32 (packI 5 i a d) = .ok (.xori d a i) ∧ decode32 (packI 6 i a d) = .ok (.slti d a i)
      ∧ decode32 (packI 7 i a d) = .ok (.sltiu d a i) := by
  have hm {m} (h : m < 64) := packI_maj m i a d h
  have hi {m} (h : m < 64) := packI_imm m i a d h
  have hd {m} (h : m < 64) := packI_xd m i a d h
  have ha {m} (h : m < 64) := packI_xa m i a d h
  refine ⟨?_, ?_, ?_, ?_, ?_, ?_⟩
  all_goals exact decode32_packI (by decide) rfl (by simp [raw32, hm, hi, hd, ha]) rfl

theorem decode32_shift {i : BitVec 15} {a d : Reg} {j : Instr} (h : decShi i.toNat d a = some j) (hw : j.wf = true) :
    decode32 (packI 8 i a d) = .ok j :=
  decode32_packI (by decide) rfl ((raw32_packI_shift i a d).trans h) hw

theorem decShi_of_ge (i : Nat) (d a : Reg) (h : 3 ≤ i / 64) : decShi i d a = none := by
  obtain ⟨k, hk⟩ := Nat.exists_eq_add_of_le' h
  rw [decShi, hk]
  rfl

theorem decode32_shift_reserved {i : BitVec 15} (a d : Reg) (h : 3 ≤ i.toNat / 64) :
    decode32 (packI 8 i a d) = .error (.reservedField false) := by
  have hm := packI_maj 8 i a d (by decide)
  rw [decode32_no (by rw [hm]; rfl) ((raw32_packI_shift i a d).trans (decShi_of_ge _ d a h)), hm]
  rfl

theorem decode32_upper (u : BitVec 20) (d : Reg) :
    decode32 (packU 9 u d) = .ok (.liu d u) ∧ decode32 (packU 10 u d) = .ok (.addpc d u) := by
  have hm {m} (h : m < 64) := packU_maj m u d h
  have hu {m} (h : m < 64) := packU_imm m u d h
  have hd {m} (h : m < 64) := packU_xd m u d h
  refine ⟨?_, ?_⟩
  all_goals exact decode32_of (by rw [hm (by decide)]; rfl) (by simp [raw32, hm, hu, hd]) rfl

end Sys2Proof
end

section
/-! SUPPORT. The statements of spec/07_scalar_ops.md about the integer instructions. -/

namespace Sys2Proof
open Machine

theorem aluRegisterResults : Claim.AluRegisterResults := by
  intro s d a b h x y
  exact ⟨alu2_writesX (· + ·) h rfl, alu2_writesX (· - ·) h rfl, alu2_writesX (· &&& ·) h rfl, alu2_writesX (· ||| ·) h rfl,
    alu2_writesX (· ^^^ ·) h rfl, alu2_writesX (fun x y => x <<< shamt y) h rfl, alu2_writesX (fun x y => x >>> shamt y) h rfl,
    alu2_writesX (fun x y => x.sshiftRight (shamt y)) h rfl, alu2_writesX (fun x y => flag (x.slt y)) h (flag_slt x y),
    alu2_writesX (fun x y => flag (x.ult y)) h (flag_ult x y), alu2_writesX (fun x y => if y.slt x then y else x) h (select_slt_eq_min x y),
    alu2_writesX (fun x y => if x.slt y then y else x) h (select_slt_eq_max x y),
    alu2_writesX (fun x y => if y.ult x then y else x) h (select_ult_eq_min x y),
    alu2_writesX (fun x y => if x.ult y then y else x) h (select_ult_eq_max x y)⟩

theorem bitCountResults : Claim.BitCountResults := by
  intro s d a h x
  exact ⟨⟨leadingZeros x, leadingZeros_le x, alu1_writesX (fun x => BitVec.ofNat 64 (leadingZeros x)) h rfl,
      lt_two_pow_of_leadingZeros x, two_pow_le_of_leadingZeros⟩,
    ⟨trailingZeros x, trailingZeros_le x, alu1_writesX (fun x => BitVec.ofNat 64 (trailingZeros x)) h rfl,
      two_pow_dvd_of_trailingZeros x, getLsbD_trailingZeros, eq_zero_of_trailingZeros⟩,
    alu1_writesX (fun x => BitVec.ofNat 64 (popCount x)) h rfl⟩

theorem multiplyResults : Claim.MultiplyResults := by
  intro s d a b h x y
  exact ⟨slow2_writesLate (fun _ _ => 3) (· * ·) h (mul_eq_ofNat x y), slow2_writesLate (fun _ _ => 4) mulHigh h (mulHigh_eq_fdiv x y),
    slow2_writesLate (fun _ _ => 4) mulHighU h rfl⟩

theorem divideResults : Claim.DivideResults := by
  intro s d a b h x y
  refine ⟨divS x y, remS x y, divU x y, remU x y, slow2_writesLate divTimeS divS h rfl, slow2_writesLate divTimeS remS h rfl,
    slow2_writesLate divTimeU divU h rfl, slow2_writesLate divTimeU remU h rfl, fun hy => ?_, fun hx hy => ?_, divS_remS, divU_remU⟩
  · rw [hy]
    exact div_by_zero x
  · rw [hx, hy]
    exact div_intMin_neg_one

theorem aluWords : Claim.AluWords := by
  intro d a b n
  refine ⟨?_, ?_, ?_, ?_, ?_, ?_, ?_, ?_, ?_, ?_, ?_, ?_, ?_, ?_, ?_, ?_, ?_, ?_, ?_, ?_, ?_, ?_, ?_, ?_,
    fun hb h hn => ?reservedXb, fun h hn => ?reservedFn⟩
  case reservedXb => exact decode32_alu_reserved (by omega) (decAlu_count_xb d a hb h hn)
  case reservedFn => exact decode32_alu_reserved hn (decAlu_of_ge n d a b h)
  all_goals exact decode32_alu (by decide) rfl rfl

/-- Settles O2: a completion is that of the instruction's shape (one source, two sources, or a longer latency) at the value of R150 or R151. -/
theorem aluResults : Obligations.AluResults :=
  ⟨aluRegisterResults, bitCountResults, multiplyResults, divideResults, aluWords⟩

/-- Settles O3: the immediate's extension is the model's by definition, the upper immediate's by `upper_eq_ofInt`, and the words read back by
their fields. -/
theorem immediateResults : Obligations.ImmediateResults := by
  intro s d a i n u
  obtain ⟨haddi, handi, hori, hxori, hslti, hsltiu⟩ := decode32_immediate i a d
  obtain ⟨hliu, haddpc⟩ := decode32_upper u d
  refine ⟨fun h => ?register, fun h => ?upper, haddi, handi, hori, hxori, hslti, hsltiu, fun h => decode32_shift (by rw [decShi, h]; rfl) rfl,
    fun h => decode32_shift (by rw [decShi, h]; rfl) rfl, fun h => decode32_shift (by rw [decShi, h]; rfl) rfl, decode32_shift_reserved a d,
    hliu, haddpc⟩
  case register =>
    let y : Word := i.signExtend 64
    exact ⟨alu1_writesX (· + y) h rfl, alu1_writesX (· &&& y) h rfl, alu1_writesX (· ||| y) h rfl, alu1_writesX (· ^^^ y) h rfl,
      alu1_writesX (fun x => flag (x.slt y)) h (flag_slt _ y), alu1_writesX (fun x => flag (x.ult y)) h (flag_ult _ y),
      alu1_writesX (· <<< n.toNat) h rfl, alu1_writesX (· >>> n.toNat) h rfl, alu1_writesX (fun x => x.sshiftRight n.toNat) h rfl⟩
  case upper =>
    rw [← upper_eq_ofInt]
    exact ⟨issue_writesX (fun _ => upper u) h rfl, issue_writesX (fun g => g.pc + upper u) h rfl⟩

end Sys2Proof
end

section
/-! SUPPORT. What a transfer whose checks pass does (R271), with its offset as the statements write it, and the words of majors 0x20 to 0x27. -/

namespace Sys2Proof.Machine

/-! ## Offsets and conditions -/

theorem signExtend_mul_four_eq_ofInt {n : Nat} (off : BitVec n) : off.signExtend 64 * 4 = BitVec.ofInt 64 (4 * off.toInt) := by
  rw [BitVec.signExtend, Int.mul_comm, BitVec.ofInt_mul]
  rfl

theorem not_slt_iff_toInt_le (x y : Word) : (!x.slt y) = true ↔ y.toInt ≤ x.toInt := by
  rw [← BitVec.sle_eq_not_slt, BitVec.sle_iff_toInt_le]

theorem not_ult_iff_toNat_le (x y : Word) : (!x.ult y) = true ↔ y.toNat ≤ x.toNat := by
  rw [← BitVec.ule_eq_not_ult, BitVec.ule_iff_toNat_le]

/-! ## Completion -/

/-- A branch writes no register: its write is the one to x0, which is discarded (R28). -/
theorem branch_jumpsTo {s : State} {a b : Reg} {off : BitVec 15} {p : Prop} [Decidable p] (rel : Word → Word → Bool)
    (h : canIssue (shortProf 0 [a, b] []) s = true) (hp : rel (s.me.rx a) (s.me.rx b) = true ↔ p) :
    if p then JumpsTo s 0 0 (s.me.pc + BitVec.ofInt 64 (4 * off.toInt)) 2 (branch a b off rel s)
    else JumpsTo s 0 0 (s.me.pc + 4) 0 (branch a b off rel s) := by
  have hb : branch a b off rel s = .next (s.modMe fun g =>
      if rel (g.rx a) (g.rx b) then g.goto (g.pc + off.signExtend 64 * 4) 2 else g.done) := issue_of_canIssue h rfl rfl
  split
  case isTrue ht => rw [JumpsTo, hb, State.modMe, if_pos (hp.2 ht), wx_zero, signExtend_mul_four_eq_ofInt]
  case isFalse hf =>
    rw [JumpsTo, hb, State.modMe, if_neg (mt hp.1 hf), wx_zero]
    rfl

theorem execJal_jumpsTo {s : State} {d : Reg} (off : BitVec 20) (h : canIssue (shortProf 0 [] [d]) s = true) :
    JumpsTo s d (s.me.pc + 4) (s.me.pc + BitVec.ofInt 64 (4 * off.toInt)) 1 (execJal d off s) := by
  rw [← signExtend_mul_four_eq_ofInt]
  exact issue_of_canIssue h rfl rfl

/-- A JALR whose checks pass forms its target from xa as it was before the link is written. -/
theorem execJalr_of_canIssue {s : State} {d a : Reg} (i : BitVec 15) (h : canIssue (shortProf 0 [a] [d]) s = true) :
    let t := s.me.rx a + BitVec.ofInt 64 i.toInt
    execJalr d a i s = if t.toNat % 4 ≠ 0 then stopAt .misalign t none s else .next (s.setMe ((s.me.wx d (s.me.pc + 4)).goto t 3)) :=
  issue_of_canIssue h rfl rfl

end Sys2Proof.Machine

namespace Sys2Proof
open Machine

/-! ## Words -/

theorem decode32_branch (off : BitVec 15) (b a : Reg) :
    decode32 (packB 0x20 off b a) = .ok (.beq a b off) ∧ decode32 (packB 0x21 off b a) = .ok (.bne a b off)
      ∧ decode32 (packB 0x22 off b a) = .ok (.blt a b off) ∧ decode32 (packB 0x23 off b a) = .ok (.bge a b off)
      ∧ decode32 (packB 0x24 off b a) = .ok (.bltu a b off) ∧ decode32 (packB 0x25 off b a) = .ok (.bgeu a b off) := by
  have hm {m} (h : m < 64) := packB_maj m off b a h
  have ho {m} (h : m < 64) := packB_off m off b a h
  have ha {m} (h : m < 64) := packB_xa m off b a h
  have hb {m} (h : m < 64) := packB_xb m off b a h
  refine ⟨?_, ?_, ?_, ?_, ?_, ?_⟩
  all_goals exact decode32_of (by rw [hm (by decide)]; rfl) (by simp [raw32, hm, ho, ha, hb]) rfl

theorem decode32_jal (far : BitVec 20) (d : Reg) : decode32 (packU 0x26 far d) = .ok (.jal d far) := by
  have hm := packU_maj 0x26 far d (by decide)
  exact decode32_of (by rw [hm]; rfl)
    (by simp only [raw32, hm, packU_imm 0x26 far d (by decide), packU_xd 0x26 far d (by decide)]) rfl

theorem decode32_jalr (i : BitVec 15) (a d : Reg) : decode32 (packI 0x27 i a d) = .ok (.jalr d a i) :=
  decode32_packI (by decide) rfl (by simp only [raw32, packI_maj 0x27 i a d (by decide), packI_imm 0x27 i a d (by decide),
    packI_xd 0x27 i a d (by decide), packI_xa 0x27 i a d (by decide)]) rfl

end Sys2Proof
end

section
/-! SUPPORT. The statement of spec/12_control_ops.md about the transfers of control. -/

namespace Sys2Proof
open Machine

/-- Settles O13: a branch goes by its relation on the two sources, JAL and JALR by what their issue goes on with, and the words read back by
their fields. -/
theorem transferTargets : Obligations.TransferTargets := by
  intro s d a b off far i x y goes
  obtain ⟨hbeq, hbne, hblt, hbge, hbltu, hbgeu⟩ := decode32_branch off b a
  refine ⟨fun h => ?branches, execJal_jumpsTo far, fun h => ⟨fun ht => ?aligned, fun ht => ?misaligned⟩, hbeq, hbne, hblt, hbge, hbltu, hbgeu,
    decode32_jal far d, decode32_jalr i a d⟩
  case branches =>
    exact ⟨branch_jumpsTo (· == ·) h beq_iff_eq, branch_jumpsTo (· != ·) h bne_iff_ne, branch_jumpsTo BitVec.slt h BitVec.slt_iff_toInt_lt,
      branch_jumpsTo (fun x y => !x.slt y) h (not_slt_iff_toInt_le x y), branch_jumpsTo BitVec.ult h BitVec.ult_iff_toNat_lt,
      branch_jumpsTo (fun x y => !x.ult y) h (not_ult_iff_toNat_le x y)⟩
  case aligned => exact (execJalr_of_canIssue i h).trans (if_neg (not_not.2 ht))
  case misaligned => exact (execJalr_of_canIssue i h).trans (if_pos ht)

end Sys2Proof
end
